-- ==== Sys2Proof/Word.lean ====
section
/-! DEFINITION. The words of the block and the plain-data records its tables and units are made of: bytes, 32-bit
register words, the entries of the NODE arena and of the CODE table (spec/10_state.md R36, R37), and the registers
of the hidden units (R38 to R40). -/

namespace Sys2Proof

/-- A byte of memory; a Symbol, "one byte value (0–255)" (spec/00_scope.md R6, `SYM_W = 8`). -/
abbrev Byte := BitVec 8

/-- A host-visible register, a memory address or a length (R6: `REG_W = AW = LEN_W = 32`). -/
abbrev Word := BitVec 32

/-- A bit string in transmission order, first bit first (R9). -/
abbrev BitString := List Bool

namespace Machine

/-- An entry of the node arena `NODE` (R36). -/
structure Node where
  /-- frequency: a leaf's symbol count, an internal node's sum of its children's -/
  f     : Word
  /-- leaf (`true`) or internal (`false`) -/
  leaf  : Bool
  /-- a leaf's Symbol; 0 in an internal node -/
  sym   : Byte
  /-- an internal node's left child index; `NIL` in a leaf -/
  left  : BitVec 9
  /-- an internal node's right child index; `NIL` in a leaf -/
  right : BitVec 9
  deriving DecidableEq, Repr, Inhabited

/-- An entry of the code table `CODE` (R37): bit `j` of `bits` is the `j`-th code bit (R6, `CBITS_W`). -/
structure CodeEntry where
  /-- the code's length; 0 means "no code" -/
  len  : BitVec 8
  /-- the code's bits; 0 at every position from `len` on -/
  bits : BitVec 256
  deriving DecidableEq, Repr, Inhabited

/-- `FREQ`: 256 counts indexed by symbol (R35). -/
abbrev FreqTable := Vector Word 256

/-- `NODE`: 511 arena slots (R36). -/
abbrev NodeTable := Vector Node 511

/-- `CODE`: 256 entries indexed by symbol (R37). -/
abbrev CodeTable := Vector CodeEntry 256

/-- The bit packer's registers (R39). -/
structure Packer where
  /-- `ACC`: the byte being assembled -/
  acc   : Byte
  /-- `NB`: how many bits are already in `ACC` -/
  nb    : Fin 8
  /-- `WP`: how many bytes have been written -/
  wp    : Word
  /-- `TOTAL`: how many payload bits there are so far -/
  total : BitVec 64
  deriving DecidableEq, Repr, Inhabited

/-- The bit decoder's registers (R40). -/
structure Decoder where
  /-- `PATH`: the bits consumed since the last emitted symbol -/
  path : BitString
  /-- `RP`: the index of the next payload bit -/
  rp   : BitVec 64
  /-- `OUT`: how many bytes have been emitted -/
  out  : Word
  deriving DecidableEq, Repr, Inhabited

/-- The hidden registers of the units (R38 to R40): the priority queue `PQ` as its node indices, the packer and the
decoder. -/
structure Hidden where
  /-- `PQ`: the node indices in the queue -/
  pq      : List Nat
  packer  : Packer
  decoder : Decoder
  deriving DecidableEq, Repr, Inhabited

end Machine

end Sys2Proof
end

