-- ==== Sys2Proof/Config.lean ====
section
/-! DEFINITION. What is fixed of the hardware (spec/00_scope.md R6) and the free values: what the spec says "any
value" of (R11: "the bits are unconstrained; the model draws them freshly at every read"). A free value is an opaque
constant applied to a plain counter (`State.fresh`); nothing can evaluate it. -/

namespace Sys2Proof.Config

open Machine

/-- `2^AW`: memory addresses are `0 .. 2^32-1` (R6). -/
def addrSpace : Nat := 4294967296

/-- `NSYM_MAX` (R6). -/
def nsymMax : Nat := 256

/-- `NODE_MAX` (R6). -/
def nodeMax : Nat := 511

/-- `NIL`: the node index that means "no child" (R6). -/
def nil : BitVec 9 := 511#9

/-- `ID_VALUE`: ASCII "HUF1" (R6, R18). -/
def idValue : Word := 0x48554631#32

/-- `FMT_MSB_FIRST`: the header's format byte (R6, R71). -/
def fmtMsbFirst : Byte := 0x01#8

/-- A free 32-bit word: a register or `TDATA` read that "returns any value" (R33, R34 (d)), and what `PEND` holds
between commands (R44). Log entries 3 and 5. -/
opaque freeWord : Nat → Word

/-- A free byte for draw `n` at address `a`: what a byte of a capacity range holds that came to hold "any value" (R57, R175),
and what a host's read of such a byte shows (R11), also while the command runs (R63). Log entries 2 and 4. -/
opaque freeByte : Nat → Nat → Byte

/-- What the byte at an address holds before anything has written it: the spec gives memory no initial contents
(R46: memory is no state of the block). A free value of the address. Log entry 1. -/
opaque powerOnByte : Nat → Byte

/-- The hidden registers between commands: "any value" (spec/93_implementation_defined.md V9). Log entry 5. -/
opaque freeHidden : Nat → Hidden

/-- `FREQ` after the reset input was asserted: "any value" (R44). Log entry 6. -/
opaque freeFreq : Nat → FreqTable

/-- `NODE` after the reset input was asserted: "any value" (R44). Log entry 6. -/
opaque freeNode : Nat → NodeTable

/-- `CODE` after the reset input was asserted (R44) and after a failed `RDHDR` (R161 (d)): "any value". Log
entry 6. -/
opaque freeCode : Nat → CodeTable

end Sys2Proof.Config
end

