-- ==== Sys2Proof/Syntax.lean ====
section
/-! DEFINITION. The instructions: the eleven commands of spec/30_encoding.md R66, one constructor per row of
spec/opcode_table.json. A command word has no operand field (R65): every operand of a command is in a register. -/

namespace Sys2Proof

/-- The eleven commands (R66). -/
inductive Instr where
  /-- `NOP`: nothing (spec/46_control_and_composite.md R141) -/
  | nop
  /-- `CLEAR`: discards the context (R142) -/
  | clear
  /-- `COUNT`: `SRC` to `FREQ`, `NSYM` (spec/40_frequency_counter.md R85) -/
  | count
  /-- `BUILD`: `FREQ` to `NODE`, `NNODE`, `ROOT` (spec/41_tree_builder.md R90) -/
  | build
  /-- `GENCODE`: `NODE` to `CODE` (spec/42_code_generator.md R101) -/
  | gencode
  /-- `ENCODE`: `SRC`, `CODE` to `PKD`, `PKD_LEN`, `BITCNT` (spec/43_bit_encoder.md R108) -/
  | encode
  /-- `WRHDR`: `CODE`, `BITCNT` to `HDR`, `HDR_LEN` (spec/44_header.md R116) -/
  | wrhdr
  /-- `RDHDR`: `HDR` to `CODE`, `NSYM`, `BITCNT` (R119) -/
  | rdhdr
  /-- `DECODE`: `PKD`, `BITCNT`, `CODE` to `DST`, `DST_LEN` (spec/45_bit_decoder.md R129) -/
  | decode
  /-- `COMPRESS`: the document's `compress` (spec/46_control_and_composite.md R145) -/
  | compress
  /-- `DECOMPRESS`: the document's `decompress` (R147) -/
  | decompress
  deriving DecidableEq, Repr

end Sys2Proof
end

