-- ==== Sys2Proof/WellFormed.lean ====
section
/-! DEFINITION. Well-formedness. A command has no operand (spec/30_encoding.md R65), so every term of `Instr` is
well formed; what can be ill formed is a command WORD, seen as its two fields: `ZERO` must be 0 and `OP` must be one
of the eleven numbers of R66 (R67: every other word is illegal). -/

namespace Sys2Proof

/-- The two fields of a command word (R65). -/
structure CmdWord where
  /-- `ZERO`, bits 31..8 -/
  zero : BitVec 24
  /-- `OP`, bits 7..0 -/
  op   : BitVec 8
  deriving DecidableEq, Repr

/-- The operation codes that R66 assigns. -/
def assignedOps : List (BitVec 8) :=
  [0x00#8, 0x01#8, 0x02#8, 0x03#8, 0x04#8, 0x05#8, 0x06#8, 0x07#8, 0x08#8, 0x10#8, 0x11#8]

/-- `ZERO` is 0 (R65). -/
def CmdWord.zeroOk (c : CmdWord) : Bool := c.zero == 0#24

/-- `OP` is assigned (R66). -/
def CmdWord.opOk (c : CmdWord) : Bool := assignedOps.contains c.op

/-- A command word that selects a command (R66). -/
def CmdWord.wf (c : CmdWord) : Bool := c.zeroOk && c.opOk

/-- The fields of a 32-bit word (R65). -/
def CmdWord.ofWord (w : Word) : CmdWord := ⟨w.extractLsb' 8 24, w.extractLsb' 0 8⟩

/-- Every command is well formed: it has no operand that could be out of range (R65). -/
def Instr.wf (_ : Instr) : Bool := true

end Sys2Proof
end

