-- ==== Sys2Proof/Decode.lean ====
section
/-! DEFINITION. The decoder of command words, total on every 32-bit word and rejecting by name, and after it the
encoder (spec/30_encoding.md R65 to R68). -/

namespace Sys2Proof

/-- Why a word is no command (R67). -/
inductive DecodeError where
  /-- `ZERO` (bits 31..8) is not 0, "whatever its `OP`" -/
  | zeroFieldSet (w : Word)
  /-- `ZERO = 0` and `OP` is in `0x09 .. 0x0F` or `0x12 .. 0xFF` -/
  | unassignedOp (op : BitVec 8)
  deriving DecidableEq, Repr

/-- The opcode map (R66), row by row. -/
def opcodeMap : List (BitVec 8 × Instr) :=
  [(0x00#8, .nop), (0x01#8, .clear), (0x02#8, .count), (0x03#8, .build), (0x04#8, .gencode), (0x05#8, .encode),
   (0x06#8, .wrhdr), (0x07#8, .rdhdr), (0x08#8, .decode), (0x10#8, .compress), (0x11#8, .decompress)]

/-- The command an operation code selects (R66). -/
def instrOfOp (op : BitVec 8) : Option Instr := (opcodeMap.find? (fun row => row.1 == op)).map (·.2)

/-- The decoder: `OP` is bits 7..0, `ZERO` is bits 31..8 and must be 0 (R65 to R67). -/
def decode (w : Word) : Except DecodeError Instr :=
  if w.extractLsb' 8 24 = 0#24 then
    match instrOfOp (w.extractLsb' 0 8) with
    | some i => .ok i
    | none => .error (.unassignedOp (w.extractLsb' 0 8))
  else .error (.zeroFieldSet w)

/-- The command a word selects, if it selects one. -/
def decode? (w : Word) : Option Instr :=
  match decode w with
  | .ok i => some i
  | .error _ => none

/-- The operation code of each command (R66). -/
def opOf : Instr → BitVec 8
  | .nop => 0x00#8
  | .clear => 0x01#8
  | .count => 0x02#8
  | .build => 0x03#8
  | .gencode => 0x04#8
  | .encode => 0x05#8
  | .wrhdr => 0x06#8
  | .rdhdr => 0x07#8
  | .decode => 0x08#8
  | .compress => 0x10#8
  | .decompress => 0x11#8

/-- The encoder: `ZERO ++ OP` with `ZERO = 0` (R65). -/
def encode (i : Instr) : Word := 0#24 ++ opOf i

/-- The instruction the decoder reads from a table row's word: a command word is one 32-bit word (R65), and bits
above `nbits` are 0. -/
def decodeTableWord (nbits w : Nat) : Option Instr :=
  if nbits ≤ 32 ∧ w < 2 ^ nbits then decode? (BitVec.ofNat 32 w) else none

end Sys2Proof
end

