-- ==== Sys2Proof/Machine/State.lean ====
section
/-! DEFINITION. The state of the machine as plain data: the block's registers, tables and hidden state
(spec/10_state.md R13), the memory it shares with the host (spec/20_memory.md R46), and what stands for the agents
outside the block (spec/00_scope.md R8): the host's pending actions and what it has observed. -/

namespace Sys2Proof.Machine

/-- Why the machine could stop with a fault. EMPTY: the spec gives the block no such stop. It has no memory fault and
no bus error (spec/20_memory.md R47, spec/60_exceptions.md R172), no stuck behaviour
(spec/93_implementation_defined.md part 2), and every error of a command is an ordinary completion that leaves a next
state (R160). So no meaning and no step faults. -/
inductive Fault where
  deriving DecidableEq, Repr

/-- Why a run has no meaning: the conditions of spec/20_memory.md R63 that the host must keep and the block does not
check ("the spec gives the command no meaning: the model refuses the run"). -/
inductive Refusal where
  /-- An instruction whose arm of `exec` has no meaning. Raised by no arm of this model. Safe: nothing follows. -/
  | notModelled (mnemonic : String)
  /-- R63 (c): a window the command may write overlaps another window it uses. Raised by the seven commands that
  write or read windows, and by a reset that cuts such a command short. Safe: nothing follows from the run. -/
  | windowOverlap
  /-- R63 (d), R48, R177: a window the command uses touches a region of the address space that is not ordinary memory
  (raised by the same commands), or a host access goes to such a region, whose behaviour the spec does not give.
  Safe. -/
  | nonOrdinaryMemory
  /-- R63 (a): an agent other than the block writes a byte of a window the pending command uses. Raised by the
  host's memory write. Safe. -/
  | foreignWrite
  deriving DecidableEq, Repr

/-- The four windows (spec/20_memory.md R49). -/
inductive Window where
  | src | hdr | pkd | dst
  deriving DecidableEq, Repr

/-- A range of addresses: `size` bytes from `base`, in unbounded integers (R49, R50). -/
structure Region where
  base : Nat
  size : Nat
  deriving DecidableEq, Repr

/-- A range of memory that came to hold any value (R57, R175): the addresses from `base`, `size` of them, at the draw
`tag`. A byte in it that is not listed in memory holds a free value. -/
structure Scramble where
  base : Nat
  size : Nat
  tag  : Nat
  deriving DecidableEq, Repr

/-- The bytes that have been written and still hold their value, addresses strictly rising. -/
abbrev Memory := List Host.Cell

/-- The registers of the register block (spec/10_state.md R17), in offset order. -/
inductive RegName where
  | id | cmd | status | ctrl | errcode | errinfo | srcAddr | srcLen | hdrAddr | hdrCap | hdrLen | pkdAddr | pkdCap
  | pkdLen | dstAddr | dstCap | dstLen | bitcntLo | bitcntHi | nsym | nnode | root | tsel | tidx | tdata
  deriving DecidableEq, Repr

/-- The kinds of error (spec/60_exceptions.md R151). -/
inductive ErrKind where
  | emptyInput | malformedHeader | truncatedStream | overflow | sequence | illegalCmd | range | uncoveredSymbol
  deriving DecidableEq, Repr

/-- What a `raise` reports: `raise E(sub, info)` (R160). -/
structure Report where
  kind : ErrKind
  sub  : Byte
  info : Word
  deriving DecidableEq, Repr

/-- An action of an agent outside the block, or the block's turn (spec/00_scope.md R8). -/
inductive HostAction where
  /-- the host writes `value` at the register port: an access of `size` bytes at `offset` (R19 to R34) -/
  | regWrite (offset : BitVec 8) (size : Nat) (value : Word)
  /-- the host reads the register port: an access of `size` bytes at `offset` (R33, R34) -/
  | regRead (offset : BitVec 8) (size : Nat)
  /-- an agent other than the block writes a byte of memory (R46, R63 (a)) -/
  | memWrite (addr : Word) (value : Byte)
  /-- an agent other than the block reads a byte of memory (R60, R63 (b)) -/
  | memRead (addr : Word)
  /-- the host looks at the `IRQ` output (R42) -/
  | sampleIrq
  /-- the reset input takes this level (R173) -/
  | resetPin (level : Bool)
  /-- the block takes its turn: if a command is pending, its `LATENCY` has passed (R8 (b), R139) -/
  | blockTurn
  deriving DecidableEq, Repr

/-- What the host has observed. -/
inductive Observed where
  | reg (offset : BitVec 8) (value : Word)
  | mem (addr : Word) (value : Byte)
  | irq (level : Bool)
  deriving DecidableEq, Repr

/-- The host-visible registers (R17), without those that hold nothing: `ID` is a constant (R18), `CMD` reads 0 (R19),
`TDATA` is computed from the tables (R33). The fields of `STATUS`, `CTRL`, `ERRCODE`, `TSEL` and `TIDX` stand one by
one; their reserved bits read 0 (R34 (f)). -/
structure Regs where
  /-- `STATUS` bit 0 (R20); the sequencer is in `RUN` exactly when it is set (R15) -/
  busy      : Bool
  /-- `STATUS` bit 1 -/
  done      : Bool
  /-- `STATUS` bit 2 -/
  err       : Bool
  /-- `STATUS` bit 4 -/
  freqValid : Bool
  /-- `STATUS` bit 5 -/
  treeValid : Bool
  /-- `STATUS` bit 6 -/
  codeValid : Bool
  /-- `CTRL` bit 0 (R21) -/
  ien       : Bool
  /-- `ERRCODE` bits 7..0 (R22) -/
  errCode   : Byte
  /-- `ERRCODE` bits 15..8 -/
  errSub    : Byte
  /-- `ERRINFO` (R23) -/
  errInfo   : Word
  /-- `SRC_ADDR`, `SRC_LEN` (R24) -/
  srcAddr   : Word
  srcLen    : Word
  /-- `HDR_ADDR`, `HDR_CAP`, `HDR_LEN` (R25) -/
  hdrAddr   : Word
  hdrCap    : Word
  hdrLen    : Word
  /-- `PKD_ADDR`, `PKD_CAP`, `PKD_LEN` (R26) -/
  pkdAddr   : Word
  pkdCap    : Word
  pkdLen    : Word
  /-- `DST_ADDR`, `DST_CAP`, `DST_LEN` (R27) -/
  dstAddr   : Word
  dstCap    : Word
  dstLen    : Word
  /-- `BITCNT_LO`, `BITCNT_HI` (R28) -/
  bitcntLo  : Word
  bitcntHi  : Word
  /-- `NSYM` bits 8..0 (R29) -/
  nsym      : BitVec 9
  /-- `NNODE` bits 9..0 (R30) -/
  nnode     : BitVec 10
  /-- `ROOT` bits 8..0 (R31) -/
  root      : BitVec 9
  /-- `TSEL` bits 1..0, `SEL` (R32) -/
  tsel      : BitVec 2
  /-- `TIDX` bits 8..0, `IDX` -/
  tidx      : BitVec 9
  /-- `TIDX` bits 19..16, `WORD` -/
  tword     : BitVec 4
  deriving DecidableEq, Repr

/-- The state of the machine. -/
structure State where
  /-- the host-visible registers (R13 (a)) -/
  regs      : Regs
  /-- `FREQ` (R35) -/
  freq      : FreqTable
  /-- `NODE` (R36) -/
  node      : NodeTable
  /-- `CODE` (R37) -/
  code      : CodeTable
  /-- the units' hidden registers (R38 to R40); between commands they hold any value -/
  hidden    : Hidden
  /-- `PEND`, the command word latched at acceptance (R41) -/
  pend      : Word
  /-- the level of the reset input (R173): `true` while reset is asserted -/
  resetIn   : Bool
  /-- memory: the bytes written and still known (spec/20_memory.md R46) -/
  mem       : Memory
  /-- memory: the ranges that came to hold any value, newest first (R57, R175) -/
  scrambles : List Scramble
  /-- a parameter of the platform, which no step changes: the regions of the address space that are not ordinary
  memory, such as the block's own registers at `REG_BASE` (R7, R48, R63 (d)) -/
  platform  : List Region
  /-- the agents' coming actions in order (R8); when there are none left the block moves (R186) -/
  script    : List HostAction
  /-- what the host has observed, newest first -/
  observed  : List Observed
  /-- the MODEL's own field: how many free values have been drawn (R11) -/
  fresh     : Nat
  deriving DecidableEq, Repr

/-- Every register at its reset value: 0 (R17, R44); `ID` is the one that is not 0, and it holds nothing. -/
def Regs.reset : Regs where
  busy := false
  done := false
  err := false
  freqValid := false
  treeValid := false
  codeValid := false
  ien := false
  errCode := 0#8
  errSub := 0#8
  errInfo := 0#32
  srcAddr := 0#32
  srcLen := 0#32
  hdrAddr := 0#32
  hdrCap := 0#32
  hdrLen := 0#32
  pkdAddr := 0#32
  pkdCap := 0#32
  pkdLen := 0#32
  dstAddr := 0#32
  dstCap := 0#32
  dstLen := 0#32
  bitcntLo := 0#32
  bitcntHi := 0#32
  nsym := 0#9
  nnode := 0#10
  root := 0#9
  tsel := 0#2
  tidx := 0#9
  tword := 0#4

/-- A node entry of zeros. DESIGN CHOICE (log entry 6): the spec gives the tables no reset value (R44). -/
def Node.zero : Node := ⟨0#32, false, 0#8, 0#9, 0#9⟩

/-- A code entry of zeros: no code. DESIGN CHOICE (log entry 6). -/
def CodeEntry.zero : CodeEntry := ⟨0#8, 0#256⟩

/-- Hidden registers of zeros. DESIGN CHOICE (log entry 6). -/
def Hidden.zero : Hidden := ⟨[], ⟨0#8, 0, 0#32, 0#64⟩, ⟨[], 0#64, 0#32⟩⟩

/-- The machine right after reset (R44, R173, R174): registers at their reset values, idle, reset released, memory
with nothing written, an ordinary platform (R47), and nothing asked of it yet. -/
def State.reset : State where
  regs := Regs.reset
  freq := Vector.replicate 256 0#32
  node := Vector.replicate 511 Node.zero
  code := Vector.replicate 256 CodeEntry.zero
  hidden := Hidden.zero
  pend := 0#32
  resetIn := false
  mem := []
  scrambles := []
  platform := []
  script := []
  observed := []
  fresh := 0

end Sys2Proof.Machine
end

