-- ==== Sys2Proof/Machine/Bits.lean ====
section
/-! DEFINITION. Bit strings, packing and big-endian integers: the helpers that the header, the encoder, the decoder
and the read-back share (spec/00_scope.md R9, R10; spec/30_encoding.md R70, R75). -/

namespace Sys2Proof.Machine

/-- The number of bytes that hold `b` bits (R10). -/
def ceil8 (b : Nat) : Nat := (b + 7) / 8

/-- The bits `p 0 .. p (n-1)` as one word, the first in the most significant place (R75). -/
def msbFirst (n : Nat) (p : Nat → Bool) : BitVec n :=
  (List.range n).foldl (fun acc t => acc.shiftConcat (p t)) 0#n

/-- Bit `t` of a packed stream whose byte `k` is `H k`: bit `7 - (t mod 8)` of byte `t div 8` (R75). -/
def packedBit (H : Nat → Byte) (t : Nat) : Bool := (H (t / 8)).getLsbD (7 - t % 8)

/-- A bit string in the `bits` field of a code entry: bit `j` is the `j`-th bit, and 0 beyond (R37). -/
def bitsField : BitString → BitVec 256
  | [] => 0#256
  | b :: bs => (bitsField bs).shiftConcat b

/-- The code entry that stores a bit string (R37, R101). -/
def CodeEntry.store (p : BitString) : CodeEntry := ⟨BitVec.ofNat 8 p.length, bitsField p⟩

/-- The entry of a symbol with no code (R37). -/
def CodeEntry.noCode : CodeEntry := ⟨0#8, 0#256⟩

/-- `code(s)`: the first `len` bits (R37). -/
def CodeEntry.path (e : CodeEntry) : BitString := (List.range e.len.toNat).map e.bits.getLsbD

/-- The `k` bytes of an integer, most significant byte first (R70). -/
def bigEndian (k v : Nat) : List Byte := (List.range k).map (fun j => BitVec.ofNat 8 (v / 256 ^ (k - 1 - j)))

/-- The value of the `k` bytes `H o, H (o+1), …`, most significant byte first (R70). -/
def bigEndianVal (H : Nat → Byte) (o k : Nat) : Nat :=
  (List.range k).foldl (fun acc j => acc * 256 + (H (o + j)).toNat) 0

/-- The 256 symbols in ascending order. -/
def symbols : List Byte := (List.range 256).map (BitVec.ofNat 8)

/-- A code table without a code: every `CODE[s] <- (len = 0, bits = all 0)` (R101, R120). -/
def noCodes : CodeTable := Vector.replicate 256 CodeEntry.noCode

/-- The entry of a symbol in a table of 256. -/
def tableGet {α : Type} (t : Vector α 256) (s : Byte) : α := t[s.toNat]

/-- A table of 256 with one symbol's entry replaced. -/
def tableSet {α : Type} (t : Vector α 256) (s : Byte) (v : α) : Vector α 256 := t.set s.toNat v

/-- The arena entry at an index; beyond the arena, where no rule reads, an entry of zeros. -/
def nodeAt (node : NodeTable) (i : Nat) : Node := node[i]?.getD Node.zero

/-- The symbols present in a frequency table, ascending: those with a count that is not 0 (R35). -/
def present (freq : FreqTable) : List Byte := symbols.filter (fun s => tableGet freq s != 0#32)

/-- The symbols that have a code, ascending (R37). -/
def coded (code : CodeTable) : List Byte := symbols.filter (fun s => (tableGet code s).len != 0#8)

end Sys2Proof.Machine
end

