-- ==== Sys2Proof/Machine/Operands.lean ====
section
/-! DEFINITION. The operand forms: the four windows, which command reads or writes which (spec/20_memory.md R49,
R55), the range check (R50), the conditions of R63 on where windows lie, and the registers' names and offsets
(spec/10_state.md R17). -/

namespace Sys2Proof.Machine

/-- The window numbers of R50. -/
def Window.number : Window → Byte
  | .src => 0#8
  | .hdr => 1#8
  | .pkd => 2#8
  | .dst => 3#8

/-- The address register of a window (R49). -/
def Regs.addr (r : Regs) : Window → Word
  | .src => r.srcAddr
  | .hdr => r.hdrAddr
  | .pkd => r.pkdAddr
  | .dst => r.dstAddr

/-- The length of a window when it is read (R49). `DST` is never read; its result length stands here. -/
def Regs.readLen (r : Regs) : Window → Word
  | .src => r.srcLen
  | .hdr => r.hdrLen
  | .pkd => r.pkdLen
  | .dst => r.dstLen

/-- The capacity of a window when it is written (R49). `SRC` is never written: it has no capacity. -/
def Regs.cap (r : Regs) : Window → Word
  | .src => 0#32
  | .hdr => r.hdrCap
  | .pkd => r.pkdCap
  | .dst => r.dstCap

/-- `BITCNT = BITCNT_HI ++ BITCNT_LO` (R28). -/
def Regs.bitcnt (r : Regs) : BitVec 64 := r.bitcntHi ++ r.bitcntLo

/-- `BITCNT <- v` (R28). -/
def Regs.setBitcnt (r : Regs) (v : BitVec 64) : Regs :=
  { r with bitcntLo := v.extractLsb' 0 32, bitcntHi := v.extractLsb' 32 32 }

/-- The result-length register of a window (R49); `SRC` is never written and has none. -/
def Regs.setResultLen (r : Regs) (w : Window) (v : Word) : Regs :=
  match w with
  | .src => r
  | .hdr => { r with hdrLen := v }
  | .pkd => { r with pkdLen := v }
  | .dst => { r with dstLen := v }

/-- The windows a command reads, in the order of R55's columns. -/
def readWindows : Instr → List Window
  | .nop => []
  | .clear => []
  | .count => [.src]
  | .build => []
  | .gencode => []
  | .encode => [.src]
  | .wrhdr => []
  | .rdhdr => [.hdr]
  | .decode => [.pkd]
  | .compress => [.src]
  | .decompress => [.hdr, .pkd]

/-- The windows a command may write (R55). -/
def writeWindows : Instr → List Window
  | .nop => []
  | .clear => []
  | .count => []
  | .build => []
  | .gencode => []
  | .encode => [.pkd]
  | .wrhdr => [.hdr]
  | .rdhdr => []
  | .decode => [.dst]
  | .compress => [.hdr, .pkd]
  | .decompress => [.dst]

/-- The bytes a command may read of a window (R49, R55). -/
def Regs.readRegion (r : Regs) (w : Window) : Region := ⟨(r.addr w).toNat, (r.readLen w).toNat⟩

/-- The bytes a command may write of a window: its capacity range (R49, R55). -/
def Regs.writeRegion (r : Regs) (w : Window) : Region := ⟨(r.addr w).toNat, (r.cap w).toNat⟩

/-- An address lies in a region. -/
def Region.holds (g : Region) (a : Nat) : Bool := decide (g.base ≤ a) && decide (a < g.base + g.size)

/-- Two regions share an address. An empty region shares none: "no address of it is ever accessed" (R49). -/
def Region.overlaps (g h : Region) : Bool :=
  decide (0 < g.size) && decide (0 < h.size) && decide (g.base < h.base + h.size) && decide (h.base < g.base + g.size)

/-- The regions a command may read. -/
def readRegions (i : Instr) (r : Regs) : List Region := (readWindows i).map r.readRegion

/-- The capacity ranges a command may write. -/
def writeRegions (i : Instr) (r : Regs) : List Region := (writeWindows i).map r.writeRegion

/-- All the regions a command uses. -/
def usedRegions (i : Instr) (r : Regs) : List Region := readRegions i r ++ writeRegions i r

/-- R63 (c) is broken: a window the command may write overlaps a window it reads, or another it may write. -/
def windowsOverlap (i : Instr) (r : Regs) : Bool :=
  (writeRegions i r).any (fun g => (readRegions i r).any g.overlaps) ||
  !decide ((writeRegions i r).Pairwise (fun g h => g.overlaps h = false))

/-- R63 (d) is broken: a window the command uses touches a region that is not ordinary memory. -/
def windowsNonOrdinary (i : Instr) (r : Regs) (platform : List Region) : Bool :=
  (usedRegions i r).any (fun g => platform.any g.overlaps)

/-- The condition of R63 (c), (d) that the command's windows break, if any. -/
def windowBreach (i : Instr) (r : Regs) (platform : List Region) : Option Refusal :=
  if windowsOverlap i r then some .windowOverlap
  else if windowsNonOrdinary i r platform then some .nonOrdinaryMemory
  else none

/-- The range check fails for a window of length `len`: it runs past the top of the address space (R50). -/
def outOfRange (addr len : Word) : Bool := decide (Config.addrSpace < addr.toNat + len.toNat)

/-- The register offsets of R17, in order. -/
def regMap : List (BitVec 8 × RegName) :=
  [(0x00#8, .id), (0x04#8, .cmd), (0x08#8, .status), (0x0C#8, .ctrl), (0x10#8, .errcode), (0x14#8, .errinfo),
   (0x18#8, .srcAddr), (0x1C#8, .srcLen), (0x20#8, .hdrAddr), (0x24#8, .hdrCap), (0x28#8, .hdrLen),
   (0x2C#8, .pkdAddr), (0x30#8, .pkdCap), (0x34#8, .pkdLen), (0x38#8, .dstAddr), (0x3C#8, .dstCap),
   (0x40#8, .dstLen), (0x44#8, .bitcntLo), (0x48#8, .bitcntHi), (0x4C#8, .nsym), (0x50#8, .nnode), (0x54#8, .root),
   (0x58#8, .tsel), (0x5C#8, .tidx), (0x60#8, .tdata)]

/-- The register at an offset; the offsets `0x64` to `0xFC` have none (R17, R34 (b)). -/
def regAt (offset : BitVec 8) : Option RegName := (regMap.find? (fun row => row.1 == offset)).map (·.2)

/-- An access the register port defines: 32 bits, naturally aligned (R34 (a)). -/
def aligned32 (offset : BitVec 8) (size : Nat) : Bool := size == 4 && offset.extractLsb' 0 2 == 0#2

/-- The registers that read any value while `BUSY = 1`: those the block writes, and `TDATA` (R34 (d), R184); of `STATUS`
the bits other than `BUSY` (spec/93_implementation_defined.md V4; log entry 12). -/
def RegName.blockWritten : RegName → Bool
  | .status | .errcode | .errinfo | .hdrLen | .pkdLen | .dstLen | .bitcntLo | .bitcntHi | .nsym | .nnode | .root
  | .tdata => true
  | .id | .cmd | .ctrl | .srcAddr | .srcLen | .hdrAddr | .hdrCap | .pkdAddr | .pkdCap | .dstAddr | .dstCap | .tsel
  | .tidx => false

end Sys2Proof.Machine
end

