-- ==== Sys2Proof/Machine/Flags.lean ====
section
/-! DEFINITION. Flags and packed registers: how `STATUS`, `CTRL`, `ERRCODE` and the other registers read as 32-bit
words (spec/10_state.md R17 to R32), the error numbers (R22), the valid flags, and the `IRQ` output (R42). -/

namespace Sys2Proof.Machine

/-- `ERRCODE.CODE` of each error (R22, spec/60_exceptions.md R151). -/
def ErrKind.code : ErrKind → Byte
  | .emptyInput => 1#8
  | .malformedHeader => 2#8
  | .truncatedStream => 3#8
  | .overflow => 4#8
  | .sequence => 5#8
  | .illegalCmd => 6#8
  | .range => 7#8
  | .uncoveredSymbol => 8#8

/-- The errors after which no byte of memory has been written (spec/20_memory.md R57). -/
def ErrKind.writesNothing : ErrKind → Bool
  | .range | .sequence | .illegalCmd => true
  | .emptyInput | .malformedHeader | .truncatedStream | .overflow | .uncoveredSymbol => false

/-- `STATUS` as a word (R20): bits 0 `BUSY`, 1 `DONE`, 2 `ERR`, 4 `FREQ_VALID`, 5 `TREE_VALID`, 6 `CODE_VALID`. -/
def Regs.statusWord (r : Regs) : Word :=
  0#25 ++ BitVec.ofBool r.codeValid ++ BitVec.ofBool r.treeValid ++ BitVec.ofBool r.freqValid ++ 0#1 ++
    BitVec.ofBool r.err ++ BitVec.ofBool r.done ++ BitVec.ofBool r.busy

/-- What a register reads as where its value is defined and it is not `TDATA` (R17 to R32; `TDATA` has its own
rules and stands here as 0). -/
def Regs.readValue (r : Regs) : RegName → Word
  | .id => Config.idValue
  | .cmd => 0#32
  | .status => r.statusWord
  | .ctrl => 0#31 ++ BitVec.ofBool r.ien
  | .errcode => 0#16 ++ r.errSub ++ r.errCode
  | .errinfo => r.errInfo
  | .srcAddr => r.srcAddr
  | .srcLen => r.srcLen
  | .hdrAddr => r.hdrAddr
  | .hdrCap => r.hdrCap
  | .hdrLen => r.hdrLen
  | .pkdAddr => r.pkdAddr
  | .pkdCap => r.pkdCap
  | .pkdLen => r.pkdLen
  | .dstAddr => r.dstAddr
  | .dstCap => r.dstCap
  | .dstLen => r.dstLen
  | .bitcntLo => r.bitcntLo
  | .bitcntHi => r.bitcntHi
  | .nsym => 0#23 ++ r.nsym
  | .nnode => 0#22 ++ r.nnode
  | .root => 0#23 ++ r.root
  | .tsel => 0#30 ++ r.tsel
  | .tidx => 0#12 ++ r.tword ++ 0#7 ++ r.tidx
  | .tdata => 0#32

/-- What a host write does to a register other than `CMD` while the block is idle (R17, R20 to R33): read-only
registers and reserved bits ignore it; `STATUS` looks only at bit 1, a 1 clears `DONE`. -/
def Regs.writeValue (r : Regs) (n : RegName) (v : Word) : Regs :=
  match n with
  | .status => if v.getLsbD 1 then { r with done := false } else r
  | .ctrl => { r with ien := v.getLsbD 0 }
  | .srcAddr => { r with srcAddr := v }
  | .srcLen => { r with srcLen := v }
  | .hdrAddr => { r with hdrAddr := v }
  | .hdrCap => { r with hdrCap := v }
  | .hdrLen => { r with hdrLen := v }
  | .pkdAddr => { r with pkdAddr := v }
  | .pkdCap => { r with pkdCap := v }
  | .pkdLen => { r with pkdLen := v }
  | .dstAddr => { r with dstAddr := v }
  | .dstCap => { r with dstCap := v }
  | .bitcntLo => { r with bitcntLo := v }
  | .bitcntHi => { r with bitcntHi := v }
  | .tsel => { r with tsel := v.extractLsb' 0 2 }
  | .tidx => { r with tidx := v.extractLsb' 0 9, tword := v.extractLsb' 16 4 }
  | .id | .cmd | .errcode | .errinfo | .dstLen | .nsym | .nnode | .root | .tdata => r

/-- The three valid flags cleared: "a new context begins", or the context is discarded. -/
def Regs.clearValid (r : Regs) : Regs := { r with freqValid := false, treeValid := false, codeValid := false }

/-- `BUSY <- 0`, `DONE <- 1` and the report of a success: `ERR`, `ERRCODE`, `ERRINFO` are 0 (R150). -/
def Regs.reportSuccess (r : Regs) : Regs :=
  { r with busy := false, done := true, err := false, errCode := 0#8, errSub := 0#8, errInfo := 0#32 }

/-- `BUSY <- 0`, `DONE <- 1` and the report of an error (R160). -/
def Regs.reportError (r : Regs) (e : Report) : Regs :=
  { r with busy := false, done := true, err := true, errCode := e.kind.code, errSub := e.sub, errInfo := e.info }

/-- What acceptance does to the registers (R19): `BUSY <- 1`, and the last report is cleared. -/
def Regs.accept (r : Regs) : Regs :=
  { r with busy := true, done := false, err := false, errCode := 0#8, errSub := 0#8, errInfo := 0#32 }

/-- `IRQ = STATUS.DONE and CTRL.IEN` at all times (R42). -/
def State.irq (s : State) : Bool := s.regs.done && s.regs.ien

end Sys2Proof.Machine
end

