-- ==== Sys2Proof/Machine/Ops.lean ====
section
/-! DEFINITION. The shared operations: memory (spec/20_memory.md), free values, the outcome of a command's
pseudocode, acceptance (spec/10_state.md R19), successful completion (R150), and the block's "trap entry", the error
completion (spec/60_exceptions.md R160, R161), written once; a command's whole life is `runCommand`. -/

namespace Sys2Proof.Machine

/-! ### Memory -/

/-- The byte listed at an address, if one is. -/
def Memory.get? : Memory → Nat → Option Byte
  | [], _ => none
  | (b, v) :: rest, a => if b = a then some v else Memory.get? rest a

/-- One byte written (R47), the addresses kept strictly rising. -/
def Memory.set : Memory → Nat → Byte → Memory
  | [], a, v => [(a, v)]
  | (b, u) :: rest, a, v =>
    if a < b then (a, v) :: (b, u) :: rest
    else if a = b then (a, v) :: rest
    else (b, u) :: Memory.set rest a v

/-- The bytes of a region no longer listed. -/
def Memory.forget (m : Memory) (g : Region) : Memory := m.filter (fun c => !g.holds c.1)

/-- The canonical form: addresses strictly rising and inside the address space (R46). An unlisted address has no value
in the list, so no entry can repeat one. -/
def Memory.wf : Memory → Bool
  | [] => true
  | [(a, _)] => decide (a < Config.addrSpace)
  | (a, _) :: (b, v) :: rest => decide (a < b) && Memory.wf ((b, v) :: rest)

/-- An address lies in a scrambled range. -/
def Scramble.covers (x : Scramble) (a : Nat) : Bool := decide (x.base ≤ a) && decide (a < x.base + x.size)

/-- What an address that memory does not list holds: a free value, of the newest range that came to hold any value there
(R57, R175), or else of what was there before anything was written (log entries 1 and 2). -/
def unlistedByte (scrambles : List Scramble) (a : Nat) : Byte :=
  match scrambles.find? (fun x => x.covers a) with
  | some x => Config.freeByte x.tag a
  | none => Config.powerOnByte a

/-- `MemRead(a, 1)`, the block's own read (R47, R51): the last value written, or the value an unwritten byte holds. -/
def State.byteAt (s : State) (a : Nat) : Byte :=
  match s.mem.get? a with
  | some v => v
  | none => unlistedByte s.scrambles a

/-- The byte at an address holds any value: a failed command or a reset spoiled it (R57, R175), and nothing has been
written there since. A host's read of it draws a value of its own (spec/00_scope.md R11; log entry 2). -/
def State.anyValueAt (s : State) (a : Nat) : Bool := (s.mem.get? a).isNone && s.scrambles.any (fun x => x.covers a)

/-- `MemWrite(a, 1, v)` (R47, R51). -/
def State.writeByte (s : State) (a : Nat) (v : Byte) : State := { s with mem := s.mem.set a v }

/-- Consecutive bytes written from an address upward. -/
def Memory.setBytes : Memory → Nat → List Byte → Memory
  | m, _, [] => m
  | m, a, v :: vs => Memory.setBytes (m.set a v) (a + 1) vs

/-- Consecutive bytes written from an address upward (R56). -/
def State.writeBytes (s : State) (a : Nat) (vs : List Byte) : State := { s with mem := s.mem.setBytes a vs }

/-- The bytes of a region, in ascending address order (R49). -/
def State.readBytes (s : State) (g : Region) : List Byte := (List.range g.size).map (fun k => s.byteAt (g.base + k))

/-- Every byte of a region comes to hold any value (R57, R175). -/
def State.scramble (s : State) (g : Region) : State :=
  { s with mem := s.mem.forget g, scrambles := ⟨g.base, g.size, s.fresh⟩ :: s.scrambles, fresh := s.fresh + 1 }

/-- Every byte of each region comes to hold any value. -/
def State.scrambleAll : State → List Region → State
  | s, [] => s
  | s, g :: gs => State.scrambleAll (s.scramble g) gs

/-! ### Free values -/

/-- The hidden registers and `PEND` at the end of a command: any value (spec/93_implementation_defined.md V9). -/
def State.freeHidden (s : State) : State :=
  { s with hidden := Config.freeHidden s.fresh, pend := Config.freeWord s.fresh, fresh := s.fresh + 1 }

/-- `CODE` with unspecified contents: a table whose filling failed (R161 (d)). -/
def State.freeCode (s : State) : State := { s with code := Config.freeCode s.fresh, fresh := s.fresh + 1 }

/-! ### The outcome of a command's pseudocode -/

/-- A command's pseudocode ran to its end, or hit a `raise` (R139); the state holds what it had written by then. -/
inductive Run where
  | done (s : State)
  | raised (e : Report) (s : State)

/-- One piece of pseudocode after another: "no statement after" a `raise` runs (R10). -/
def Run.bind (r : Run) (k : State → Run) : Run :=
  match r with
  | .done s => k s
  | .raised e s => .raised e s

/-- The range check of one window (R50). -/
def checkRange (w : Window) (len : Word) (s : State) : Run :=
  if outOfRange (s.regs.addr w) len then .raised ⟨.range, w.number, s.regs.addr w⟩ s else .done s

/-- `STATUS` flags cleared at the head of a command that begins a new context. -/
def State.clearValid (s : State) : State := { s with regs := s.regs.clearValid }

/-! ### The life of a command -/

/-- Acceptance of a command word (R19, R138): "Nothing else changes". -/
def State.accept (s : State) (w : Word) : State := { s with pend := w, regs := s.regs.accept }

/-- Successful completion (R150). -/
def State.succeed (s : State) : State := State.freeHidden { s with regs := s.regs.reportSuccess }

/-- The result-length registers of the windows a command may write set to 0 (R161 (a)). -/
def Regs.zeroLens (r : Regs) : List Window → Regs
  | [] => r
  | w :: ws => Regs.zeroLens (r.setResultLen w 0#32) ws

/-- A composite command (spec/00_scope.md glossary): it ends with the context discarded (R149, R161 (c)). -/
def isComposite : Instr → Bool
  | .compress | .decompress => true
  | .nop | .clear | .count | .build | .gencode | .encode | .wrhdr | .rdhdr | .decode => false

/-- ERROR COMPLETION, the block's "trap entry" (R160, R161): the report, `BUSY <- 0`, `DONE <- 1`, the result lengths of
the windows `outs` that the command may write zeroed, and their capacity ranges holding any value unless the error is
one of those that wrote nothing (R57). "Nothing is saved, no mode changes, control goes nowhere"; there is no return
(R164): the next acceptance clears the report. -/
def State.fail (outs : List Window) (composite : Bool) (e : Report) (s : State) : State :=
  let spoiled := if e.kind.writesNothing then s else s.scrambleAll (outs.map s.regs.writeRegion)
  let kept := if composite then spoiled.regs.clearValid else spoiled.regs
  State.freeHidden { spoiled with regs := (kept.zeroLens outs).reportError e }

/-- The *complete* step of a command (R139): refused where the host broke R63 (c), (d); otherwise the pseudocode runs
from start to end, and the successful or the error completion follows. -/
def runCommand (i : Instr) (body : State → Run) (s : State) : Host.Outcome State Fault Refusal :=
  match windowBreach i s.regs s.platform with
  | some why => .refused why
  | none =>
    match body s with
    | .done t => .next t.succeed
    | .raised e t => .next (t.fail (writeWindows i) (isComposite i) e)

/-- The *complete* step of a word that is no command (R67, R157): `ILLEGAL_CMD` with the word in `ERRINFO`; "it changes
no other state and touches no memory". -/
def illegalCommand (s : State) : State := s.fail [] false ⟨.illegalCmd, 0#8, s.pend⟩

end Sys2Proof.Machine
end

