-- ==== Sys2Proof/Machine/BitDecoder.lean ====
section
/-! DEFINITION. The bit decoder: `DECODE`, a walk of the decode trie of `CODE` one bit at a time
(spec/45_bit_decoder.md R127 to R136). -/

namespace Sys2Proof.Machine

/-- The codes of a table, in ascending symbol order: what the decode trie is made of (R128). -/
def codeBook (code : CodeTable) : List (Byte × BitString) := (coded code).map (fun s => (s, (tableGet code s).path))

/-- The symbol of the leaf `p` of the decode trie, if `p` is one (R128). -/
def leafSymbol (book : List (Byte × BitString)) (p : BitString) : Option Byte :=
  (book.find? (fun row => row.2 == p)).map (·.1)

/-- `p` is an internal node of the decode trie: a proper prefix of some code (R128). -/
def isInternal (book : List (Byte × BitString)) (p : BitString) : Bool :=
  book.any (fun row => p.isPrefixOf row.2 && p != row.2)

/-- The decoder as `DECODE` starts it (R40, R129). -/
def Decoder.start : Decoder := ⟨[], 0#64, 0#32⟩

/-- `Step` (R130): consume one bit and move one edge down the trie. The second component is what is written at the
offset `OUT` held before (R131). -/
def decodeStep (book : List (Byte × BitString)) (bitAt : Nat → Bool) (cap : Word) (d : Decoder) :
    Except Report (Decoder × List Byte) :=
  let p := d.path ++ [bitAt d.rp.toNat]
  match leafSymbol book p with
  | some s =>
    if d.out = cap then .error ⟨.overflow, 3#8, cap⟩ else .ok (⟨[], d.rp + 1#64, d.out + 1#32⟩, [s])
  | none =>
    if isInternal book p then .ok (⟨p, d.rp + 1#64, d.out⟩, [])
    else .error ⟨.truncatedStream, 3#8, d.rp.setWidth 32⟩

/-- `while RP < BITCNT: Step` (R129): `Step` for each of the `n` payload bits that are left; what is written, in
order. -/
def decodeLoop (book : List (Byte × BitString)) (bitAt : Nat → Bool) (cap : Word) :
    Nat → Decoder → Except Report (Decoder × List Byte)
  | 0, d => .ok (d, [])
  | n + 1, d =>
    match decodeStep book bitAt cap d with
    | .error e => .error e
    | .ok (d', out) =>
      match decodeLoop book bitAt cap n d' with
      | .error e => .error e
      | .ok (last, more) => .ok (last, out ++ more)

/-- `DECODE`'s pseudocode (R129). -/
def decodeBody (s : State) : Run :=
  if s.regs.codeValid then
    (checkRange .pkd s.regs.pkdLen s).bind fun s =>
    (checkRange .dst s.regs.dstCap s).bind fun s =>
      if 8 * s.regs.pkdLen.toNat < s.regs.bitcnt.toNat then .raised ⟨.truncatedStream, 1#8, s.regs.pkdLen⟩ s
      else
        let bitAt := packedBit (fun k => s.byteAt (s.regs.pkdAddr.toNat + k))
        match decodeLoop (codeBook s.code) bitAt s.regs.dstCap s.regs.bitcnt.toNat Decoder.start with
        | .error e => .raised e s
        | .ok (d, out) =>
          if d.path ≠ [] then .raised ⟨.truncatedStream, 2#8, BitVec.ofNat 32 d.path.length⟩ s
          else
            let t := s.writeBytes s.regs.dstAddr.toNat out
            .done { t with regs := { t.regs with dstLen := d.out } }
  else .raised ⟨.sequence, 3#8, 0#32⟩ s

/-- `DECODE` (R129). -/
def execDecode (s : State) : Host.Outcome State Fault Refusal := runCommand .decode decodeBody s

end Sys2Proof.Machine
end

