-- ==== Sys2Proof/Machine/TreeBuilder.lean ====
section
/-! DEFINITION. The tree builder: `BUILD`, a minimum-priority queue seeded with one leaf per present symbol and then
fused two by two (spec/41_tree_builder.md R89 to R99). -/

namespace Sys2Proof.Machine

/-- The builder at work: the arena, the queue `PQ` (a set of node indices, R38) and the next free index `n`. -/
structure Builder where
  node : NodeTable
  pq   : List Nat
  n    : Nat
  deriving DecidableEq, Repr

/-- `NODE[n] <- v` and `PQ <- PQ + {n}`, then `n <- n + 1` (R91, R92). -/
def Builder.push (b : Builder) (v : Node) : Builder := ⟨b.node.setIfInBounds b.n v, b.n :: b.pq, b.n + 1⟩

/-- A leaf for a present symbol (R91). -/
def leafNode (freq : FreqTable) (s : Byte) : Node := ⟨tableGet freq s, true, s, Config.nil, Config.nil⟩

/-- `SEED` (R91): leaves in ascending symbol value. -/
def seed (freq : FreqTable) (node : NodeTable) : Builder :=
  (present freq).foldl (fun b s => b.push (leafNode freq s)) ⟨node, [], 0⟩

/-- The order of the queue's keys `(NODE[i].f, i)`: frequency first, index on a tie (R93). -/
def keyLt (node : NodeTable) (i j : Nat) : Bool :=
  decide ((nodeAt node i).f < (nodeAt node j).f) || ((nodeAt node i).f == (nodeAt node j).f && decide (i < j))

/-- The index of smallest key among `i` and the rest (R93). -/
def minKey (node : NodeTable) : Nat → List Nat → Nat
  | i, [] => i
  | i, j :: rest => minKey node (if keyLt node j i then j else i) rest

/-- `ExtractMin(PQ)`: the index of smallest key, and the queue without it (R93). -/
def extractMin (node : NodeTable) : List Nat → Option (Nat × List Nat)
  | [] => none
  | i :: rest =>
    let m := minKey node i rest
    some (m, (i :: rest).erase m)

/-- The internal node over two children: the sum of their frequencies, the first extracted on the left (R92, R94). -/
def fusedNode (node : NodeTable) (a c : Nat) : Node :=
  ⟨(nodeAt node a).f + (nodeAt node c).f, false, 0#8, BitVec.ofNat 9 a, BitVec.ofNat 9 c⟩

/-- `FUSE` (R92). With fewer than two nodes in the queue nothing is fused; `BUILD` never asks for that. -/
def fuse (b : Builder) : Builder :=
  match extractMin b.node b.pq with
  | none => b
  | some (a, q) =>
    match extractMin b.node q with
    | none => b
    | some (c, q') => Builder.push ⟨b.node, q', b.n⟩ (fusedNode b.node a c)

/-- `while |PQ| > 1: FUSE` (R90), for at most `k` rounds: each round lowers `|PQ|` by one. -/
def fuseAll : Nat → Builder → Builder
  | 0, b => b
  | k + 1, b => if b.pq.length ≤ 1 then b else fuseAll k (fuse b)

/-- The builder's result on a frequency table (R90): `SEED`, then `FUSE` until one node remains. -/
def buildTree (freq : FreqTable) (node : NodeTable) : Builder :=
  let b := seed freq node
  fuseAll b.pq.length b

/-- `BUILD`'s pseudocode (R90). -/
def buildBody (s : State) : Run :=
  if s.regs.freqValid then
    let t : State := { s with regs := { s.regs with treeValid := false, codeValid := false } }
    if t.regs.nsym = 0#9 then .raised ⟨.emptyInput, 0#8, 0#32⟩ t
    else
      let b := buildTree t.freq t.node
      .done { t with
        node := b.node
        regs := { t.regs with
          root := BitVec.ofNat 9 (b.pq.headD 0), nnode := BitVec.ofNat 10 b.n, treeValid := true } }
  else .raised ⟨.sequence, 1#8, 0#32⟩ s

/-- `BUILD` (R90). -/
def execBuild (s : State) : Host.Outcome State Fault Refusal := runCommand .build buildBody s

end Sys2Proof.Machine
end

