-- ==== Sys2Proof/Machine/CodeGenerator.lean ====
section
/-! DEFINITION. The code table generator: `GENCODE` (spec/42_code_generator.md R100 to R106). -/

namespace Sys2Proof.Machine

/-- `Walk(i, p)` (R101), to a depth of at most `d`: 0 on the way left, 1 on the way right. A path of a built tree has at
most 255 bits (R105), so `gencode` never runs out of depth. -/
def walk (node : NodeTable) : Nat → Nat → BitString → CodeTable → CodeTable
  | 0, _, _, code => code
  | d + 1, i, p, code =>
    if (nodeAt node i).leaf then tableSet code (nodeAt node i).sym (CodeEntry.store p)
    else
      walk node d (nodeAt node i).right.toNat (p ++ [true])
        (walk node d (nodeAt node i).left.toNat (p ++ [false]) code)

/-- The depth that every path of a built tree stays within (R105). -/
def walkDepth : Nat := 256

/-- The table derived from a tree (R101): a root that is a leaf gets the code `"0"` (R102). -/
def genCode (node : NodeTable) (root : Nat) : CodeTable :=
  if (nodeAt node root).leaf then tableSet noCodes (nodeAt node root).sym (CodeEntry.store [false])
  else walk node walkDepth root [] noCodes

/-- `GENCODE`'s pseudocode (R101). -/
def gencodeBody (s : State) : Run :=
  if s.regs.treeValid then
    .done { s with
      code := genCode s.node s.regs.root.toNat
      regs := { s.regs with codeValid := true } }
  else .raised ⟨.sequence, 2#8, 0#32⟩ s

/-- `GENCODE` (R101). -/
def execGencode (s : State) : Host.Outcome State Fault Refusal := runCommand .gencode gencodeBody s

end Sys2Proof.Machine
end

