-- ==== Sys2Proof/Machine/Counter.lean ====
section
/-! DEFINITION. The frequency counter: `COUNT` (spec/40_frequency_counter.md R84 to R88). -/

namespace Sys2Proof.Machine

/-- `FREQ[b] <- FREQ[b] + 1` (R85). -/
def bump (freq : FreqTable) (b : Byte) : FreqTable := tableSet freq b (tableGet freq b + 1#32)

/-- The counts of a byte sequence, from zero counts, in one pass (R85, R87). -/
def countBytes (bs : List Byte) : FreqTable := bs.foldl bump (Vector.replicate 256 0#32)

/-- `COUNT`'s pseudocode (R85). -/
def countBody (s : State) : Run :=
  (checkRange .src s.regs.srcLen s.clearValid).bind fun t =>
    let freq := countBytes (t.readBytes (t.regs.readRegion .src))
    .done { t with
      freq := freq
      regs := { t.regs with nsym := BitVec.ofNat 9 (present freq).length, freqValid := true } }

/-- `COUNT` (R85). -/
def execCount (s : State) : Host.Outcome State Fault Refusal := runCommand .count countBody s

end Sys2Proof.Machine
end

