-- ==== Sys2Proof/Machine/Encoder.lean ====
section
/-! DEFINITION. The bit encoder and bit packer: `ENCODE` (spec/43_bit_encoder.md R107 to R114). -/

namespace Sys2Proof.Machine

/-- The packer as `ENCODE` starts it (R39, R108). -/
def Packer.start (total : BitVec 64) : Packer := ⟨0#8, 0, 0#32, total⟩

/-- Pass 1 (R108, R113): every byte has a code, and `TOTAL` is the sum of the lengths; `k` is the offset in `SRC`. -/
def coverPass (code : CodeTable) : List Byte → Word → BitVec 64 → Except Report (BitVec 64)
  | [], _, total => .ok total
  | b :: bs, k, total =>
    if (tableGet code b).len = 0#8 then .error ⟨.uncoveredSymbol, b, k⟩
    else coverPass code bs (k + 1#32) (total + (tableGet code b).len.setWidth 64)

/-- `PutBit(v)` (R110): a bit enters `ACC` from the right; a full byte is written out. The second component is what is
written, at the offset `WP` held before. -/
def putBit (p : Packer) (v : Bool) : Packer × List Byte :=
  let acc := p.acc.shiftConcat v
  if p.nb = 7 then (⟨0#8, 0, p.wp + 1#32, p.total⟩, [acc]) else (⟨acc, p.nb + 1, p.wp, p.total⟩, [])

/-- `PutBit` for each bit of a string in order; what is written, in order. -/
def putBits : Packer → BitString → Packer × List Byte
  | p, [] => (p, [])
  | p, v :: vs =>
    let one := putBit p v
    let more := putBits one.1 vs
    (more.1, one.2 ++ more.2)

/-- `Flush` (R111): the last, partly filled byte with zero padding. -/
def flush (p : Packer) : Packer × List Byte :=
  if p.nb = 0 then (p, []) else (⟨0#8, 0, p.wp + 1#32, p.total⟩, [p.acc <<< (8 - p.nb.val)])

/-- The payload of a byte sequence: the concatenation, in input order, of each byte's code (R77, R109). -/
def payload (code : CodeTable) (bs : List Byte) : BitString := bs.flatMap (fun b => (tableGet code b).path)

/-- Pass 2 (R108): look up and pack, then `Flush`; the packer's last state and the bytes written at offsets 0, 1, … -/
def packPass (code : CodeTable) (bs : List Byte) (total : BitVec 64) : Packer × List Byte :=
  let packed := putBits (Packer.start total) (payload code bs)
  let last := flush packed.1
  (last.1, packed.2 ++ last.2)

/-- `ENCODE`'s pseudocode (R108). -/
def encodeBody (s : State) : Run :=
  if s.regs.codeValid then
    (checkRange .src s.regs.srcLen s).bind fun s =>
    (checkRange .pkd s.regs.pkdCap s).bind fun s =>
      let bs := s.readBytes (s.regs.readRegion .src)
      match coverPass s.code bs 0#32 0#64 with
      | .error e => .raised e s
      | .ok total =>
        let need := ceil8 total.toNat
        if s.regs.pkdCap.toNat < need then .raised ⟨.overflow, 2#8, BitVec.ofNat 32 (min need 0xFFFFFFFF)⟩ s
        else
          let out := packPass s.code bs total
          let t := s.writeBytes s.regs.pkdAddr.toNat out.2
          .done { t with regs := { t.regs.setBitcnt total with pkdLen := out.1.wp } }
  else .raised ⟨.sequence, 3#8, 0#32⟩ s

/-- `ENCODE` (R108). -/
def execEncode (s : State) : Host.Outcome State Fault Refusal := runCommand .encode encodeBody s

end Sys2Proof.Machine
end

