-- ==== Sys2Proof/Machine/Header.lean ====
section
/-! DEFINITION. The header writer and reader: `WRHDR` and `RDHDR` (spec/44_header.md R115 to R126; the layout is
spec/30_encoding.md R69 to R74). -/

namespace Sys2Proof.Machine

/-- `CBITS` of a code entry (R73, R116): byte `q` has bit `7 - r` equal to code bit `8q + r`. -/
def cbitsBytes (e : CodeEntry) : List Byte :=
  (List.range (ceil8 e.len.toNat)).map (fun q => msbFirst 8 (fun r => e.bits.getLsbD (8 * q + r)))

/-- An entry of the header: `SYM`, `CLEN`, `CBITS` (R73). -/
def entryBytes (code : CodeTable) (s : Byte) : List Byte :=
  s :: (tableGet code s).len :: cbitsBytes (tableGet code s)

/-- `HSIZE` (R74, R116). -/
def headerSize (code : CodeTable) : Nat :=
  11 + ((coded code).map (fun s => 2 + ceil8 (tableGet code s).len.toNat)).sum

/-- The header of a code table and a payload bit count (R69, R116): `FMT`, `NENT`, the entries in ascending symbol
order, `NBITS`. -/
def headerBytes (code : CodeTable) (bitcnt : BitVec 64) : List Byte :=
  [Config.fmtMsbFirst] ++ bigEndian 2 (coded code).length ++ (coded code).flatMap (entryBytes code) ++
    bigEndian 8 bitcnt.toNat

/-- `WRHDR`'s pseudocode (R116). -/
def wrhdrBody (s : State) : Run :=
  if s.regs.codeValid then
    (checkRange .hdr s.regs.hdrCap s).bind fun s =>
      let hsize := headerSize s.code
      if s.regs.hdrCap.toNat < hsize then .raised ⟨.overflow, 1#8, BitVec.ofNat 32 hsize⟩ s
      else
        let out := headerBytes s.code s.regs.bitcnt
        let t := s.writeBytes s.regs.hdrAddr.toNat out
        .done { t with regs := { t.regs with hdrLen := BitVec.ofNat 32 out.length } }
  else .raised ⟨.sequence, 3#8, 0#32⟩ s

/-- `WRHDR` (R116). -/
def execWrhdr (s : State) : Host.Outcome State Fault Refusal := runCommand .wrhdr wrhdrBody s

/-- `MH(sub, info)` (R120). -/
def malformed (sub : Byte) (info : Nat) : Report := ⟨.malformedHeader, sub, BitVec.ofNat 32 info⟩

/-- The entries of a header (R120): `n` of them from offset `o`, into the scratch table `T`. -/
def parseEntries (H : Nat → Byte) (L : Nat) : Nat → Nat → CodeTable → Except Report (Nat × CodeTable)
  | 0, o, T => .ok (o, T)
  | n + 1, o, T =>
    if L < o + 2 then .error (malformed 2#8 o)
    else
      let s := H o
      let c := (H (o + 1)).toNat
      if c = 0 then .error (malformed 4#8 (o + 1))
      else if (tableGet T s).len ≠ 0#8 then .error (malformed 5#8 o)
      else if L < o + 2 + ceil8 c then .error (malformed 2#8 (o + 2))
      else
        let p := (List.range c).map (packedBit (fun q => H (o + 2 + q)))
        parseEntries H L n (o + 2 + ceil8 c) (tableSet T s (CodeEntry.store p))

/-- The pair that breaks prefix-freedom, with the smallest first symbol and, for it, the smallest second (R120). -/
def prefixBreach (T : CodeTable) : Option (Byte × Byte) :=
  (coded T).findSome? fun a =>
    ((coded T).find? fun b => b != a && (tableGet T a).path.isPrefixOf (tableGet T b).path).map fun b => (a, b)

/-- What a valid header holds: the table, the number of entries and the payload bit count (R121). -/
structure ParsedHeader where
  code   : CodeTable
  nent   : Nat
  bitcnt : BitVec 64
  deriving DecidableEq, Repr

/-- The end of a header (R120): the bit count at offset `o`, nothing after it, and a prefix-free table. -/
def parseTail (H : Nat → Byte) (L n o : Nat) (T : CodeTable) : Except Report ParsedHeader :=
  if L < o + 8 then .error (malformed 2#8 o)
  else if o + 8 ≠ L then .error (malformed 6#8 (o + 8))
  else
    match prefixBreach T with
    | some (a, b) => .error (malformed 7#8 (a.toNat * 256 + b.toNat))
    | none => .ok ⟨T, n, BitVec.ofNat 64 (bigEndianVal H o 8)⟩

/-- `Parse` (R120): `H o` is byte `o` of the header window and `L` is `HDR_LEN`. -/
def parseHeader (H : Nat → Byte) (L : Nat) : Except Report ParsedHeader :=
  if L < 1 then .error (malformed 2#8 0)
  else if H 0 ≠ Config.fmtMsbFirst then .error (malformed 1#8 0)
  else if L < 3 then .error (malformed 2#8 1)
  else
    let n := bigEndianVal H 1 2
    if n = 0 ∨ 256 < n then .error (malformed 3#8 1)
    else
      match parseEntries H L n 3 noCodes with
      | .error e => .error e
      | .ok (o, T) => parseTail H L n o T

/-- On every error of `RDHDR` the contents of `CODE` are unspecified (R119, R161 (d)). -/
def spoilCode : Run → Run
  | .done s => .done s
  | .raised e s => .raised e s.freeCode

/-- `RDHDR`'s pseudocode (R119). -/
def rdhdrBody (s : State) : Run :=
  spoilCode <| (checkRange .hdr s.regs.hdrLen s.clearValid).bind fun t =>
    match parseHeader (fun o => t.byteAt (t.regs.hdrAddr.toNat + o)) t.regs.hdrLen.toNat with
    | .error e => .raised e t
    | .ok h =>
      .done { t with
        code := h.code
        regs := { t.regs.setBitcnt h.bitcnt with nsym := BitVec.ofNat 9 h.nent, codeValid := true } }

/-- `RDHDR` (R119). -/
def execRdhdr (s : State) : Host.Outcome State Fault Refusal := runCommand .rdhdr rdhdrBody s

end Sys2Proof.Machine
end

