-- ==== Sys2Proof/Machine/Composite.lean ====
section
/-! DEFINITION. The composite commands: `COMPRESS` and `DECOMPRESS`, the document's two operations
(spec/46_control_and_composite.md R145 to R149). -/

namespace Sys2Proof.Machine

/-- The context discarded at the end of a composite command (R145, R147, R149). -/
def discardContext (s : State) : Run := .done s.clearValid

/-- `COMPRESS`'s pseudocode (R145). -/
def compressBody (s : State) : Run :=
  (checkRange .src s.regs.srcLen s.clearValid).bind fun s =>
  (checkRange .hdr s.regs.hdrCap s).bind fun s =>
  (checkRange .pkd s.regs.pkdCap s).bind fun s =>
    if s.regs.srcLen = 0#32 then .raised ⟨.emptyInput, 0#8, 0#32⟩ s
    else
      (countBody s).bind fun s => (buildBody s).bind fun s => (gencodeBody s).bind fun s =>
      (encodeBody s).bind fun s => (wrhdrBody s).bind discardContext

/-- `COMPRESS` (R145). -/
def execCompress (s : State) : Host.Outcome State Fault Refusal := runCommand .compress compressBody s

/-- `DECOMPRESS`'s pseudocode (R147). -/
def decompressBody (s : State) : Run :=
  (checkRange .hdr s.regs.hdrLen s.clearValid).bind fun s =>
  (checkRange .pkd s.regs.pkdLen s).bind fun s =>
  (checkRange .dst s.regs.dstCap s).bind fun s =>
    (rdhdrBody s).bind fun s => (decodeBody s).bind discardContext

/-- `DECOMPRESS` (R147). -/
def execDecompress (s : State) : Host.Outcome State Fault Refusal := runCommand .decompress decompressBody s

end Sys2Proof.Machine
end

