-- ==== Sys2Proof/Machine/Control.lean ====
section
/-! DEFINITION. The control commands `NOP` and `CLEAR` (spec/46_control_and_composite.md R141, R142). -/

namespace Sys2Proof.Machine

/-- `NOP`: the pseudocode is empty (R141). -/
def nopBody (s : State) : Run := .done s

/-- `NOP` (R141). -/
def execNop (s : State) : Host.Outcome State Fault Refusal := runCommand .nop nopBody s

/-- `CLEAR`: the valid flags and `NSYM`, `NNODE`, `ROOT` to 0 (R142). -/
def clearBody (s : State) : Run :=
  .done { s with regs := { s.regs.clearValid with nsym := 0#9, nnode := 0#10, root := 0#9 } }

/-- `CLEAR` (R142). -/
def execClear (s : State) : Host.Outcome State Fault Refusal := runCommand .clear clearBody s

end Sys2Proof.Machine
end

