-- ==== Sys2Proof/Machine/HostPort.lean ====
section
/-! DEFINITION. What the agents outside the block do to it (spec/00_scope.md R8): the register port
(spec/10_state.md R19 to R34), the table read-back (spec/30_encoding.md R78 to R80), the memory the host shares with
the block (spec/20_memory.md R59, R60, R63), the `IRQ` output (R42) and the reset input
(spec/70_reset_and_hazards.md R173 to R175). -/

namespace Sys2Proof.Machine

/-! ### Table read-back -/

/-- A node as `TDATA` word 1 (R79). -/
def Node.linkWord (x : Node) : Word := 0#5 ++ BitVec.ofBool x.leaf ++ x.sym ++ x.right ++ x.left

/-- `TDATA` with `SEL = 0` (R78). -/
def tdataFreq (s : State) : Option Word :=
  if s.regs.freqValid then
    if s.regs.tidx.getLsbD 8 = false ∧ s.regs.tword = 0#4 then some (tableGet s.freq (s.regs.tidx.setWidth 8))
    else some 0#32
  else none

/-- `TDATA` with `SEL = 1` (R79). -/
def tdataNode (s : State) : Option Word :=
  if s.regs.treeValid then
    if s.regs.tidx = Config.nil ∨ 1#4 < s.regs.tword then some 0#32
    else if s.regs.nnode.toNat ≤ s.regs.tidx.toNat then none
    else if s.regs.tword = 0#4 then some (nodeAt s.node s.regs.tidx.toNat).f
    else some (nodeAt s.node s.regs.tidx.toNat).linkWord
  else none

/-- `TDATA` with `SEL = 2` (R80): code bit `32w + k` in bit `31 - k`. -/
def tdataCode (s : State) : Option Word :=
  if s.regs.codeValid then
    if s.regs.tidx.getLsbD 8 ∨ 8#4 < s.regs.tword then some 0#32
    else
      let e := tableGet s.code (s.regs.tidx.setWidth 8)
      if s.regs.tword = 8#4 then some (0#24 ++ e.len)
      else some (msbFirst 32 (fun k => e.bits.getLsbD (32 * s.regs.tword.toNat + k)))
  else none

/-- The word `TDATA` shows while the block is idle, `none` where it is any value (R32, R33). -/
def tdata (s : State) : Option Word :=
  if s.regs.tsel = 0#2 then tdataFreq s
  else if s.regs.tsel = 1#2 then tdataNode s
  else if s.regs.tsel = 2#2 then tdataCode s
  else some 0#32

/-! ### The register port -/

/-- The defined value of a register read, `none` where it is any value in some bit (R33, R34 (d), V4 of
spec/93_implementation_defined.md). -/
def readDefined (s : State) (n : RegName) : Option Word :=
  if s.regs.busy ∧ n.blockWritten then none
  else match n with
    | .tdata => tdata s
    | n => some (s.regs.readValue n)

/-- The defined value of a read at the register port, `none` where it is any value: accesses that are not aligned
32-bit ones and unmapped offsets read 0 (R34 (a), (b)). -/
def portRead (s : State) (offset : BitVec 8) (size : Nat) : Option Word :=
  if aligned32 offset size then
    match regAt offset with
    | some n => readDefined s n
    | none => some 0#32
  else some 0#32

/-- What a read without a defined value shows, made of a free word: all of the word, but for `STATUS`, whose bit `BUSY` is
defined in every state (V4). -/
def shownWord (s : State) (offset : BitVec 8) (free : Word) : Word :=
  if regAt offset = some .status then (free &&& 0xFFFFFFFE#32) ||| (s.regs.statusWord &&& 0x00000001#32) else free

/-- A host read at the register port: "Register reads never change state" (R34 (e)); the host has seen a value. Any
value is drawn freshly at every read (spec/00_scope.md R11). -/
def hostRegRead (s : State) (offset : BitVec 8) (size : Nat) : State :=
  match portRead s offset size with
  | some v => { s with observed := .reg offset v :: s.observed }
  | none =>
    { s with observed := .reg offset (shownWord s offset (Config.freeWord s.fresh)) :: s.observed, fresh := s.fresh + 1 }

/-- A host write at the register port: ignored while `BUSY = 1` (R34 (c)), while reset is asserted (R173), where it is
not an aligned 32-bit access (R34 (a)) and at an unmapped offset (R34 (b)); a write to `CMD` is accepted (R19). -/
def hostRegWrite (s : State) (offset : BitVec 8) (size : Nat) (v : Word) : State :=
  if s.regs.busy ∨ s.resetIn ∨ !aligned32 offset size then s
  else match regAt offset with
    | none => s
    | some .cmd => s.accept v
    | some n => { s with regs := s.regs.writeValue n v }

/-! ### The shared memory -/

/-- The command that is running, if the block is busy and the accepted word selects one. -/
def State.running (s : State) : Option Instr := if s.regs.busy then decode? s.pend else none

/-- The regions that the running command uses (R55). -/
def State.windowsInUse (s : State) : List Region :=
  match s.running with
  | some i => usedRegions i s.regs
  | none => []

/-- The capacity ranges that the running command may write (R55). -/
def State.windowsInDoubt (s : State) : List Region :=
  match s.running with
  | some i => writeRegions i s.regs
  | none => []

/-- Some region of a list holds an address. -/
def anyHolds (gs : List Region) (a : Nat) : Bool := gs.any (fun g => g.holds a)

/-- An agent other than the block writes a byte. Into a window in use it is a breach of R63 (a); outside ordinary
memory the spec gives it no meaning (R47). -/
def hostMemWrite (s : State) (a : Word) (v : Byte) : Host.Outcome State Fault Refusal :=
  if anyHolds s.platform a.toNat then .refused .nonOrdinaryMemory
  else if anyHolds s.windowsInUse a.toNat then .refused .foreignWrite
  else .next (s.writeByte a.toNat v)

/-- An agent other than the block reads a byte. In a range the running command may write it returns any value, "and the
command itself is unaffected" (R63 (b)); and so it does where the byte holds any value (R57, R175). Any value is drawn
freshly at every read (spec/00_scope.md R11). -/
def hostMemRead (s : State) (a : Word) : Host.Outcome State Fault Refusal :=
  if anyHolds s.platform a.toNat then .refused .nonOrdinaryMemory
  else if anyHolds s.windowsInDoubt a.toNat || s.anyValueAt a.toNat then
    .next { s with observed := .mem a (Config.freeByte s.fresh a.toNat) :: s.observed, fresh := s.fresh + 1 }
  else .next { s with observed := .mem a (s.byteAt a.toNat) :: s.observed }

/-! ### The output pin and the reset input -/

/-- The host looks at `IRQ` (R42). -/
def hostSampleIrq (s : State) : State := { s with observed := .irq s.irq :: s.observed }

/-- The block's own state at reset (R44, R173): registers at their reset values, tables and hidden state any value.
"Reset does not touch memory". -/
def State.resetBlock (s : State) : State :=
  { s with
    regs := Regs.reset
    freq := Config.freeFreq s.fresh
    node := Config.freeNode s.fresh
    code := Config.freeCode s.fresh
    hidden := Config.freeHidden s.fresh
    pend := Config.freeWord s.fresh
    fresh := s.fresh + 1 }

/-- Reset is asserted. A command in flight is abandoned, and the capacity ranges it may write hold any value (R175);
where the host had broken R63 (c), (d) for that command, the run has no meaning. -/
def assertReset (s : State) : Host.Outcome State Fault Refusal :=
  match s.running with
  | none => .next { s.resetBlock with resetIn := true }
  | some i =>
    match windowBreach i s.regs s.platform with
    | some why => .refused why
    | none => .next { (s.scrambleAll (writeRegions i s.regs)).resetBlock with resetIn := true }

/-- The reset input takes a level (R173). -/
def hostResetPin (s : State) (level : Bool) : Host.Outcome State Fault Refusal :=
  if level then assertReset s else .next { s with resetIn := false }

end Sys2Proof.Machine
end

