-- ==== Sys2Proof/Machine/Sequencer.lean ====
section
/-! DEFINITION. The sequencer (spec/10_state.md R15): the block's *complete* step, enabled exactly when `BUSY = 1`
(spec/46_control_and_composite.md R139), the block's turn, and what each action of the agents does (spec/00_scope.md
R8). -/

namespace Sys2Proof.Machine

/-- The *complete* step (R139): decode `PEND` and run its command; a word that is none completes with `ILLEGAL_CMD`
(R67). -/
def complete (s : State) : Host.Outcome State Fault Refusal :=
  match decode s.pend with
  | .ok i => exec i s
  | .error _ => .next (illegalCommand s)

/-- The block's turn (R8 (b), R139): with a command pending it completes it; idle, "the block waits" (R174). -/
def blockTurn (s : State) : Host.Outcome State Fault Refusal := if s.regs.busy then complete s else .next s

/-- What an action does, in the state from which it has been taken off the script (log entry 8). -/
def act (h : HostAction) (s : State) : Host.Outcome State Fault Refusal :=
  match h with
  | .regWrite offset size v => .next (hostRegWrite s offset size v)
  | .regRead offset size => .next (hostRegRead s offset size)
  | .memWrite a v => hostMemWrite s a v
  | .memRead a => hostMemRead s a
  | .sampleIrq => .next (hostSampleIrq s)
  | .resetPin level => hostResetPin s level
  | .blockTurn => blockTurn s

/-- A command accepted as a host's `CMD` write would have it accepted (R19), reset released, and the block's turn put
first (log entry 15). -/
def State.withCommand (s : State) (w : Word) : State :=
  { s.accept w with resetIn := false, script := .blockTurn :: s.script }

end Sys2Proof.Machine
end

