-- ==== Sys2Proof/Machine/Step.lean ====
section
/-! DEFINITION. One step of the machine: the next action of the agents (spec/00_scope.md R8), or the block's turn. -/

namespace Sys2Proof.Machine

/-- One step: the next action of the script; when it is empty, the block's turn ("the block's enabled step is
eventually taken", spec/70_reset_and_hazards.md R186). -/
def step (s : State) : Host.Outcome State Fault Refusal :=
  match s.script with
  | [] => blockTurn s
  | h :: rest => act h { s with script := rest }

/-- A command word placed where the next step takes it: the block holds no program and fetches nothing, so the word is
accepted and the block has the next turn (log entry 15). -/
def State.withFetchWord (s : State) (nbits w : Nat) : State := s.withCommand (BitVec.ofNat 32 (w % 2 ^ nbits))

end Sys2Proof.Machine
end

