-- ==== Sys2Proof/Safety.lean ====
section
/-! DEFINITION. The terms that claims use: what a step leaves alone, what a tree and a code table must be
(spec/41_tree_builder.md R96, spec/42_code_generator.md R103, R104), the invariants of spec/10_state.md R43, and what a
run without a breach of spec/20_memory.md R63 is. -/

namespace Sys2Proof.Machine

/-! ### Frames -/

/-- A byte of memory reads as before: to the block it holds the same value, and to the host it is defined or any value as
it was. -/
def SameByte (s t : State) (a : Nat) : Prop := t.byteAt a = s.byteAt a ∧ t.anyValueAt a = s.anyValueAt a

/-- Every byte of memory reads as before. -/
def SameMemory (s t : State) : Prop := ∀ a, SameByte s t a

/-- Every byte outside the given regions reads as before. -/
def SameMemoryOutside (gs : List Region) (s t : State) : Prop := ∀ a, anyHolds gs a = false → SameByte s t a

/-- Every byte of the given regions holds any value (R57, R175). -/
def AnyValueIn (gs : List Region) (t : State) : Prop := ∀ a, anyHolds gs a = true → t.anyValueAt a = true

/-- No byte of the given regions holds any value: the host reads what is there. -/
def DefinedIn (gs : List Region) (t : State) : Prop := ∀ a, anyHolds gs a = true → t.anyValueAt a = false

/-- What no command touches: the reset input, the platform, the agents' coming actions and what the host has
observed. -/
def SameSurroundings (s t : State) : Prop :=
  t.resetIn = s.resetIn ∧ t.platform = s.platform ∧ t.script = s.script ∧ t.observed = s.observed

/-- The registers that no command writes (R140): the addresses, the capacities, `SRC_LEN`, `CTRL`, `TSEL` and `TIDX`. -/
def SameOperands (r q : Regs) : Prop :=
  q.srcAddr = r.srcAddr ∧ q.srcLen = r.srcLen ∧ q.hdrAddr = r.hdrAddr ∧ q.hdrCap = r.hdrCap ∧ q.pkdAddr = r.pkdAddr ∧
  q.pkdCap = r.pkdCap ∧ q.dstAddr = r.dstAddr ∧ q.dstCap = r.dstCap ∧ q.ien = r.ien ∧ q.tsel = r.tsel ∧
  q.tidx = r.tidx ∧ q.tword = r.tword

/-- The three tables are as before. -/
def SameTables (s t : State) : Prop := t.freq = s.freq ∧ t.node = s.node ∧ t.code = s.code

/-- The command's windows keep the conditions of R63 (c), (d). -/
def WindowsOk (i : Instr) (s : State) : Prop := windowBreach i s.regs s.platform = none

/-- A window of length `len` lies inside the address space (R50). -/
def InRange (addr len : Word) : Prop := addr.toNat + len.toNat ≤ Config.addrSpace

/-- The bytes of the raw input window (R24). -/
def State.srcBytes (s : State) : List Byte := s.readBytes (s.regs.readRegion .src)

/-! ### Trees and codes -/

/-- `code(s)` (R37). -/
def codeOf (code : CodeTable) (s : Byte) : BitString := (tableGet code s).path

/-- "no code in a generated CodeTable is a prefix of another code in the same table" (R104 (c)); equality is a prefix
too, so the codes are distinct. -/
def PrefixFree (code : CodeTable) : Prop :=
  ∀ a b, a ∈ coded code → b ∈ coded code → a ≠ b → ¬ codeOf code a <+: codeOf code b

/-- An entry's `bits` are 0 from `len` on (R37). -/
def CodeEntry.Clean (e : CodeEntry) : Prop := ∀ j, e.len.toNat ≤ j → e.bits.getLsbD j = false

/-- Every entry's `bits` are 0 from `len` on (R37). -/
def CleanBits (code : CodeTable) : Prop := ∀ s, (tableGet code s).Clean

/-- The sum of the counts of a frequency table (R86). -/
def totalCount (freq : FreqTable) : Nat := (symbols.map (fun s => (tableGet freq s).toNat)).sum

/-- The arena holds the tree of a frequency table (R96): first the leaves in ascending symbol order, then internal nodes
over two different earlier nodes with the sum of their frequencies, every node but the last the child of exactly one. -/
structure IsTreeOf (freq : FreqTable) (node : NodeTable) : Prop where
  nonempty  : 1 ≤ (present freq).length
  leaves    : ∀ i (h : i < (present freq).length), nodeAt node i = leafNode freq (present freq)[i]
  internal  : ∀ i, (present freq).length ≤ i → i < 2 * (present freq).length - 1 →
    (nodeAt node i).leaf = false ∧ (nodeAt node i).sym = 0#8 ∧
    (nodeAt node i).left.toNat < i ∧ (nodeAt node i).right.toNat < i ∧ (nodeAt node i).left ≠ (nodeAt node i).right ∧
    (nodeAt node i).f.toNat =
      (nodeAt node (nodeAt node i).left.toNat).f.toNat + (nodeAt node (nodeAt node i).right.toNat).f.toNat
  oneParent : ∀ j, j < 2 * (present freq).length - 2 →
    ∃ i, ((present freq).length ≤ i ∧ i < 2 * (present freq).length - 1 ∧
      ((nodeAt node i).left.toNat = j ∨ (nodeAt node i).right.toNat = j)) ∧
      ∀ i', (present freq).length ≤ i' → i' < 2 * (present freq).length - 1 →
        ((nodeAt node i').left.toNat = j ∨ (nodeAt node i').right.toNat = j) → i' = i
  rootCount : (nodeAt node (2 * (present freq).length - 2)).f.toNat = totalCount freq

/-- The arena node reached from node `i` along a path: `0` to `left`, `1` to `right` (R103). -/
def follow (node : NodeTable) : Nat → BitString → Nat
  | i, [] => i
  | i, b :: p => follow node (if b then (nodeAt node i).right.toNat else (nodeAt node i).left.toNat) p

/-- `sum over present s of FREQ[s] * len(code(s))`: the weighted path length (R97, R105). -/
def weightedLength (freq : FreqTable) (code : Byte → BitString) : Nat :=
  ((present freq).map (fun s => (tableGet freq s).toNat * (code s).length)).sum

/-! ### Invariants (R43) -/

/-- R43 (e), R20, R150: `ERR = 1` exactly when `ERRCODE.CODE != 0`; `BUSY` and `DONE` are never both 1; no error report
stands while a command is pending; only the codes 0 to 8 are produced (R22); while reset is asserted the registers are
at their reset values (R173). -/
structure StatusInv (s : State) : Prop where
  errCode  : s.regs.err = true ↔ s.regs.errCode ≠ 0#8
  busyDone : ¬ (s.regs.busy = true ∧ s.regs.done = true)
  pending  : s.regs.busy = true → s.regs.err = false ∧ s.regs.errSub = 0#8 ∧ s.regs.errInfo = 0#32
  codes    : s.regs.errCode.toNat ≤ 8
  inReset  : s.resetIn = true → s.regs = Regs.reset

/-- R43 (a) to (d), with the bounds they rest on (R12 (a), (b)). -/
structure ContextInv (s : State) : Prop where
  freqNsym  : s.regs.freqValid = true → s.regs.nsym.toNat = (present s.freq).length
  freqTotal : s.regs.freqValid = true → totalCount s.freq < 2 ^ 32
  treeFreq  : s.regs.treeValid = true → s.regs.freqValid = true
  treeShape : s.regs.treeValid = true → IsTreeOf s.freq s.node
  treeRegs  : s.regs.treeValid = true →
    1 ≤ s.regs.nsym.toNat ∧ s.regs.nnode.toNat = 2 * s.regs.nsym.toNat - 1 ∧ s.regs.root.toNat = s.regs.nnode.toNat - 1
  codeNsym  : s.regs.codeValid = true → 1 ≤ s.regs.nsym.toNat ∧ s.regs.nsym.toNat = (coded s.code).length
  codeFree  : s.regs.codeValid = true → PrefixFree s.code
  codeClean : s.regs.codeValid = true → CleanBits s.code
  codeTree  : s.regs.codeValid = true → s.regs.treeValid = true → s.code = genCode s.node s.regs.root.toNat

/-- Memory is in canonical form. -/
def MemoryInv (s : State) : Prop := s.mem.wf = true

/-! ### What a command needs and may write -/

/-- The valid flag a command needs is 1 (R140, column "needs"). -/
def neededFlag : Instr → Regs → Bool
  | .build, r => r.freqValid
  | .gencode, r => r.treeValid
  | .encode, r | .wrhdr, r | .decode, r => r.codeValid
  | .nop, _ | .clear, _ | .count, _ | .rdhdr, _ | .compress, _ | .decompress, _ => true

/-- The windows of a command's row of R55 with the length that is checked, in the order `SRC`, `HDR`, `PKD`, `DST`
(R50). -/
def checkedWindows : Instr → Regs → List (Window × Word)
  | .count, r => [(.src, r.srcLen)]
  | .encode, r => [(.src, r.srcLen), (.pkd, r.pkdCap)]
  | .wrhdr, r => [(.hdr, r.hdrCap)]
  | .rdhdr, r => [(.hdr, r.hdrLen)]
  | .decode, r => [(.pkd, r.pkdLen), (.dst, r.dstCap)]
  | .compress, r => [(.src, r.srcLen), (.hdr, r.hdrCap), (.pkd, r.pkdCap)]
  | .decompress, r => [(.hdr, r.hdrLen), (.pkd, r.pkdLen), (.dst, r.dstCap)]
  | .nop, _ | .clear, _ | .build, _ | .gencode, _ => []

/-- The bytes a command has written when it completes without error: bytes `0 .. N-1` of each window it writes, `N` the
result length it reports (R56). -/
def resultRegions (i : Instr) (r : Regs) : List Region :=
  (writeWindows i).map fun w => ⟨(r.addr w).toNat, (r.readLen w).toNat⟩

/-- The bits of a register that a host write sets while the block is idle (R17, R21, R24 to R32); `STATUS` and `CMD`
have rules of their own (R20, R19). -/
def RegName.writable : RegName → Word
  | .ctrl => 0x00000001#32
  | .srcAddr | .srcLen | .hdrAddr | .hdrCap | .hdrLen | .pkdAddr | .pkdCap | .pkdLen | .dstAddr | .dstCap | .bitcntLo
  | .bitcntHi => 0xFFFFFFFF#32
  | .tsel => 0x00000003#32
  | .tidx => 0x000F01FF#32
  | .id | .cmd | .status | .errcode | .errinfo | .dstLen | .nsym | .nnode | .root | .tdata => 0x00000000#32

/-! ### Packed streams (R75) -/

/-- The bits from index `rp` on are those of `v`. -/
def BitsFrom (bitAt : Nat → Bool) (rp : Nat) (v : BitString) : Prop := ∀ j (h : j < v.length), bitAt (rp + j) = v[j]

/-- The bytes from offset `o` on are those of `bs`. -/
def BytesFrom (H : Nat → Byte) (o : Nat) (bs : List Byte) : Prop := ∀ k (h : k < bs.length), H (o + k) = bs[k]

/-- Bit `t` of the packed stream window (R75, R130). -/
def State.packedStreamBit (s : State) (t : Nat) : Bool :=
  packedBit (fun k => s.byteAt (s.regs.pkdAddr.toNat + k)) t

/-- Byte `o` of the header window (R120). -/
def State.headerByte (s : State) (o : Nat) : Byte := s.byteAt (s.regs.hdrAddr.toNat + o)

/-! ### Headers (R69 to R74, R118) -/

/-- A header entry (R73): a symbol and its code. -/
abbrev HeaderEntry := Byte × BitString

/-- The bytes an entry takes (R73). -/
def HeaderEntry.size (e : HeaderEntry) : Nat := 2 + ceil8 e.2.length

/-- The bytes the entries of a list take together. -/
def entriesSize (es : List HeaderEntry) : Nat := (es.map HeaderEntry.size).sum

/-- The entry lies at offset `o`: `SYM`, `CLEN` in `1 .. 255`, and the code's bits packed first bit first; the padding
bits may be anything (R73). -/
def EntryAt (H : Nat → Byte) (o : Nat) (e : HeaderEntry) : Prop :=
  H o = e.1 ∧ 1 ≤ e.2.length ∧ (H (o + 1)).toNat = e.2.length ∧ BitsFrom (packedBit fun q => H (o + 2 + q)) 0 e.2

/-- The entries lie one after another from offset `o` on. -/
def EntriesAt (H : Nat → Byte) : Nat → List HeaderEntry → Prop
  | _, [] => True
  | o, e :: es => EntryAt H o e ∧ EntriesAt H (o + e.size) es

/-- The `L` bytes `H 0 .. H (L-1)` are a valid header with these entries and this payload bit count (R118). -/
structure HeaderHolds (H : Nat → Byte) (L : Nat) (es : List HeaderEntry) (nb : BitVec 64) : Prop where
  format     : H 0 = 0x01#8
  count      : (H 1).toNat * 256 + (H 2).toNat = es.length
  bounds     : 1 ≤ es.length ∧ es.length ≤ 256
  entries    : EntriesAt H 3 es
  once       : (es.map (·.1)).Nodup
  size       : L = 3 + entriesSize es + 8
  bitcnt     : bigEndianVal H (3 + entriesSize es) 8 = nb.toNat
  prefixFree : ∀ a ∈ es, ∀ b ∈ es, a.1 ≠ b.1 → ¬ a.2 <+: b.2

/-- `code` is the table of these entries: each has its code, every other symbol none, and bits past a code are 0
(R121). -/
def TableOfEntries (es : List HeaderEntry) (code : CodeTable) : Prop :=
  CleanBits code ∧ (∀ e ∈ es, codeOf code e.1 = e.2) ∧ ∀ s, s ∉ es.map (·.1) → tableGet code s = CodeEntry.noCode

/-- The `L` bytes begin a header of `n` entries well, down to the end of the entries `es`. -/
structure HeaderBegins (H : Nat → Byte) (L n : Nat) (es : List HeaderEntry) : Prop where
  format  : H 0 = 0x01#8
  count   : (H 1).toNat * 256 + (H 2).toNat = n
  bounds  : 1 ≤ n ∧ n ≤ 256 ∧ es.length ≤ n
  entries : EntriesAt H 3 es
  once    : (es.map (·.1)).Nodup
  room    : 3 + entriesSize es ≤ L

/-- The first check of R120 that the `L` bytes fail, with the sub-code and the information word of R153. -/
inductive HeaderFault (H : Nat → Byte) (L : Nat) : Byte → Nat → Prop where
  | noFormat : L = 0 → HeaderFault H L 2#8 0
  | badFormat : 1 ≤ L → H 0 ≠ 0x01#8 → HeaderFault H L 1#8 0
  | countCut : 1 ≤ L → L < 3 → H 0 = 0x01#8 → HeaderFault H L 2#8 1
  | badCount (n : Nat) : 3 ≤ L → H 0 = 0x01#8 → (H 1).toNat * 256 + (H 2).toNat = n → n = 0 ∨ 256 < n →
      HeaderFault H L 3#8 1
  | entryCut (n : Nat) (es : List HeaderEntry) (o : Nat) : HeaderBegins H L n es → o = 3 + entriesSize es →
      es.length < n → L < o + 2 → HeaderFault H L 2#8 o
  | zeroLength (n : Nat) (es : List HeaderEntry) (o : Nat) : HeaderBegins H L n es → o = 3 + entriesSize es →
      es.length < n → o + 2 ≤ L → H (o + 1) = 0#8 → HeaderFault H L 4#8 (o + 1)
  | dupSymbol (n : Nat) (es : List HeaderEntry) (o : Nat) : HeaderBegins H L n es → o = 3 + entriesSize es →
      es.length < n → o + 2 ≤ L → H (o + 1) ≠ 0#8 → H o ∈ es.map (·.1) → HeaderFault H L 5#8 o
  | bitsCut (n : Nat) (es : List HeaderEntry) (o : Nat) : HeaderBegins H L n es → o = 3 + entriesSize es →
      es.length < n → o + 2 ≤ L → H (o + 1) ≠ 0#8 → H o ∉ es.map (·.1) → L < o + 2 + ceil8 (H (o + 1)).toNat →
      HeaderFault H L 2#8 (o + 2)
  | bitcntCut (n : Nat) (es : List HeaderEntry) (o : Nat) : HeaderBegins H L n es → o = 3 + entriesSize es →
      es.length = n → L < o + 8 → HeaderFault H L 2#8 o
  | trailing (n : Nat) (es : List HeaderEntry) (o : Nat) : HeaderBegins H L n es → o = 3 + entriesSize es →
      es.length = n → o + 8 < L → HeaderFault H L 6#8 (o + 8)
  | notPrefixFree (n : Nat) (es : List HeaderEntry) (o : Nat) (a b : HeaderEntry) : HeaderBegins H L n es →
      o = 3 + entriesSize es → es.length = n → o + 8 = L → a ∈ es → b ∈ es → a.1 ≠ b.1 → a.2 <+: b.2 →
      (∀ c ∈ es, ∀ d ∈ es, c.1 ≠ d.1 → c.2 <+: d.2 →
        a.1.toNat < c.1.toNat ∨ (a.1 = c.1 ∧ b.1.toNat ≤ d.1.toNat)) →
      HeaderFault H L 7#8 (a.1.toNat * 256 + b.1.toNat)

/-! ### Decoding (R128 to R135) -/

/-- `v` is an internal node of the decode trie: a proper prefix of some code (R128). The root `""` is one. -/
def InternalNode (code : CodeTable) (v : BitString) : Prop :=
  ∃ s ∈ coded code, v <+: codeOf code s ∧ v ≠ codeOf code s

/-- The first `n` bits do not decode into `cap` symbols, with what R154 and R155 report. -/
inductive DecodeFault (code : CodeTable) (bitAt : Nat → Bool) (n : Nat) (cap : Word) : Report → Prop where
  /-- `MID_CODE` (R133): after the codes of `bs` the bits end inside a code, after `v` -/
  | midCode (bs : List Byte) (v : BitString) : (∀ b ∈ bs, b ∈ coded code) → v ≠ [] → InternalNode code v →
      BitsFrom bitAt 0 (payload code bs ++ v) → (payload code bs ++ v).length = n → bs.length ≤ cap.toNat →
      DecodeFault code bitAt n cap ⟨.truncatedStream, 2#8, BitVec.ofNat 32 v.length⟩
  /-- `NO_CHILD` (R132): after the codes of `bs` and the path `v`, bit `b` asks for a child that does not exist -/
  | noChild (bs : List Byte) (v : BitString) (b : Bool) : (∀ b ∈ bs, b ∈ coded code) →
      (v ≠ [] → InternalNode code v) → (∀ s ∈ coded code, ¬ (v ++ [b]) <+: codeOf code s) →
      BitsFrom bitAt 0 (payload code bs ++ v ++ [b]) → (payload code bs ++ v).length < n → bs.length ≤ cap.toNat →
      DecodeFault code bitAt n cap ⟨.truncatedStream, 3#8, BitVec.ofNat 32 (payload code bs ++ v).length⟩
  /-- `OVERFLOW` (R135): the codes of `bs` fill the output and one more symbol `x` is to be emitted -/
  | overflow (bs : List Byte) (x : Byte) : (∀ b ∈ bs, b ∈ coded code) → x ∈ coded code →
      BitsFrom bitAt 0 (payload code (bs ++ [x])) → (payload code (bs ++ [x])).length ≤ n → bs.length = cap.toNat →
      DecodeFault code bitAt n cap ⟨.overflow, 3#8, cap⟩

/-! ### Runs -/

/-- `n` steps of the machine. -/
def runSteps : Nat → State → Host.Outcome State Fault Refusal
  | 0, s => .next s
  | n + 1, s =>
    match step s with
    | .next t => runSteps n t
    | .fault r => .fault r
    | .refused r => .refused r

/-- A run of `n` steps in which the host keeps the conditions of R63: no step is refused. -/
def KeepsR63 (n : Nat) (s : State) : Prop := ∃ t, runSteps n s = .next t

/-- The block is waiting: nothing pending, and no agent has anything left to do (R174, R188). -/
def AtRest (s : State) : Prop := s.regs.busy = false ∧ s.script = []

end Sys2Proof.Machine
end

