-- ==== Sys2Proof/Certificates/Slice0/Obligations.lean ====
section
/-! DEFINITION. The statements for the provers, in the order of OBLIGATIONS.json: encodings and the step, the register
port, the commands one by one, composite commands and round trips, frames and flags, invariants. Each says which rules of
spec/ it formalises. -/

section
open Sys2Proof Sys2Proof.Machine

/-! ### Encodings and the step -/

/-- Words written out from spec/30_encoding.md R65 and R66 decode to the commands they stand for, and neighbours of theirs
that R67 lists decode to none. -/
def Obligations.KnownWordsDecode : Prop :=
  decode 0x00000000#32 = .ok .nop ∧ decode 0x00000001#32 = .ok .clear ∧ decode 0x00000002#32 = .ok .count ∧
  decode 0x00000005#32 = .ok .encode ∧ decode 0x00000007#32 = .ok .rdhdr ∧ decode 0x00000010#32 = .ok .compress ∧
  decode 0x00000011#32 = .ok .decompress ∧ decode? 0x00000009#32 = none ∧ decode? 0x00000012#32 = none ∧
  decode? 0x00000100#32 = none ∧ decode? 0x80000002#32 = none

/-- R66: "A word `w` selects a command exactly when `w[31:8] = 0` and `w[7:0]` is one of" the eleven numbers, and then it
selects the command of that row. -/
def Obligations.WordSelectsCommand : Prop :=
  ∀ (w : Word) (i : Instr), decode w = .ok i ↔
    w.extractLsb' 8 24 = 0#24 ∧
    (w.extractLsb' 0 8, i) ∈
      [(0x00#8, Instr.nop), (0x01#8, Instr.clear), (0x02#8, Instr.count), (0x03#8, Instr.build), (0x04#8, Instr.gencode),
       (0x05#8, Instr.encode), (0x06#8, Instr.wrhdr), (0x07#8, Instr.rdhdr), (0x08#8, Instr.decode),
       (0x10#8, Instr.compress), (0x11#8, Instr.decompress)]

/-- Decode and encode agree in both directions: the encoder's word of a command decodes to it, and a word that decodes to
a command is the encoder's word of it. So every command has exactly one word, and it is well formed field by field. -/
def Obligations.DecodeEncodeAgree : Prop :=
  (∀ i : Instr, decode (encode i) = .ok i ∧ decodeTableWord 32 (encode i).toNat = some i ∧
    (CmdWord.ofWord (encode i)).wf = true) ∧
  (∀ (w : Word) (i : Instr), decode w = .ok i → w = encode i) ∧
  (∀ w : Word, (CmdWord.ofWord w).wf = true ↔ ∃ i, decode w = .ok i)

/-- R67: the illegal words are those with `OP` in `0x09 .. 0x0F` or `0x12 .. 0xFF`, and every word with `ZERO != 0`. An
illegal word "is accepted like any other and its *complete* step raises `ILLEGAL_CMD(sub = 0, info = w)`; it changes no
other state and touches no memory". The run of two steps starts with the host's `CMD` write on the idle block. (The hidden
registers and `PEND` hold any value afterwards, as after every command: R41, R44.) -/
def Obligations.IllegalWordIsReported : Prop :=
  (∀ w : Word, decode? w = none ↔
    w.extractLsb' 8 24 ≠ 0#24 ∨
    (0x09 ≤ (w.extractLsb' 0 8).toNat ∧ (w.extractLsb' 0 8).toNat ≤ 0x0F) ∨ 0x12 ≤ (w.extractLsb' 0 8).toNat) ∧
  (∀ (s : State) (w : Word) (rest : List HostAction), decode? w = none → s.regs.busy = false → s.resetIn = false →
    s.script = .regWrite 0x04#8 4 w :: .blockTurn :: rest →
    ∃ t, runSteps 2 s = .next t ∧
      t.regs = { s.regs with
        busy := false, done := true, err := true, errCode := 6#8, errSub := 0#8, errInfo := w } ∧
      SameTables s t ∧ t.mem = s.mem ∧ t.scrambles = s.scrambles ∧ t.script = rest ∧ t.observed = s.observed ∧
      t.resetIn = s.resetIn ∧ t.platform = s.platform)

/-- The step runs the decoded command: with a command pending, the block's turn (in the script, or when the script is
empty) is `exec` of the command that `PEND` decodes to, on the state itself with that turn taken off the script; an idle
block's turn changes nothing (it is taken off the script); and a word placed by `withFetchWord` is the one the very next step
runs. The script and `withFetchWord` are the model's own (log entries 8 and 15). -/
def Obligations.StepRunsDecoded : Prop :=
  (∀ (s : State) (i : Instr), s.regs.busy = true → decode s.pend = .ok i → s.script = [] → step s = exec i s) ∧
  (∀ (s : State) (i : Instr) (rest : List HostAction), s.regs.busy = true → decode s.pend = .ok i →
    s.script = .blockTurn :: rest → step s = exec i { s with script := rest }) ∧
  (∀ s : State, s.regs.busy = false → s.script = [] → step s = .next s) ∧
  (∀ (s : State) (rest : List HostAction), s.regs.busy = false → s.script = .blockTurn :: rest →
    step s = .next { s with script := rest }) ∧
  (∀ (s : State) (i : Instr),
    step (s.withFetchWord 32 (encode i).toNat) = exec i { s.accept (encode i) with resetIn := false })

/-! ### Reset and the register port -/

/-- R44: after reset (the machine's reset state, and any state right after the reset input was asserted) every register
reads its reset value, `ID` the constant and every other 0; the block is idle with no flag set; `IRQ` is 0; and `TDATA`
reads any value for each of the three tables. -/
def Obligations.ReadsAfterReset : Prop :=
  ∀ s : State, (s = State.reset ∨ ∃ u rest, u.script = .resetPin true :: rest ∧ step u = .next s) →
    (∀ row ∈ regMap, row.2 ≠ .tdata → portRead s row.1 4 = some (if row.2 = .id then 0x48554631#32 else 0#32)) ∧
    (s.regs.busy = false ∧ s.regs.done = false ∧ s.regs.err = false ∧ s.regs.freqValid = false ∧
      s.regs.treeValid = false ∧ s.regs.codeValid = false ∧ s.regs.ien = false ∧ s.irq = false) ∧
    (∀ sel : BitVec 2, sel ≠ 3#2 → ∀ (idx : BitVec 9) (word : BitVec 4),
      portRead { s with regs := { s.regs with tsel := sel, tidx := idx, tword := word } } 0x60#8 4 = none)

/-- R175 and R173: "If reset is asserted while `BUSY = 1`, the command is abandoned: no completion happens, `DONE` stays
0, no error is reported. The capacity ranges of the windows that command may write hold any value; no other memory byte
has changed"; without a command in flight reset touches no memory at all. The one premise is R63 (c), (d) for the command
in flight. -/
def Obligations.ResetAbandonsCommand : Prop :=
  ∀ (s : State) (rest : List HostAction), s.script = .resetPin true :: rest →
    (∀ i, s.running = some i → WindowsOk i s) →
    ∃ t, step s = .next t ∧ t.regs.busy = false ∧ t.regs.done = false ∧ t.regs.err = false ∧
      t.regs.errCode = 0#8 ∧ t.resetIn = true ∧ t.script = rest ∧ t.observed = s.observed ∧
      AnyValueIn s.windowsInDoubt t ∧ SameMemoryOutside s.windowsInDoubt s t ∧ (s.running = none → SameMemory s t)

/-- R19: a write of `w` to `CMD` on the idle block is accepted whatever `w` is: `PEND <- w`, `STATUS.BUSY <- 1`,
`STATUS.DONE <- 0`, `STATUS.ERR <- 0`, `ERRCODE <- 0`, `ERRINFO <- 0`, "Nothing else changes at acceptance"; while
`BUSY = 1` it is ignored; and `CMD` reads 0. -/
def Obligations.CmdWriteIsAccepted : Prop :=
  (∀ (s : State) (w : Word), s.regs.busy = false → s.resetIn = false →
    act (.regWrite 0x04#8 4 w) s = .next { s with
      pend := w
      regs := { s.regs with
        busy := true, done := false, err := false, errCode := 0#8, errSub := 0#8, errInfo := 0#32 } }) ∧
  (∀ (s : State) (w : Word), s.regs.busy = true → act (.regWrite 0x04#8 4 w) s = .next s) ∧
  (∀ s : State, portRead s 0x04#8 4 = some 0#32)

/-- The register port's contract. R34 (a) to (c), (e): only aligned 32-bit accesses act, others read 0 and write nothing;
unmapped offsets read 0 and write nothing; while `BUSY = 1` every write is ignored; and a read changes no state (only what
the host has observed, and the count of free values drawn). R34 (d), R184: while `BUSY = 1` the registers the block never
writes, `ID`, `CTRL` and `CMD` read their values, and the block-written ones and `TDATA` any value. Of `STATUS` the bit
`BUSY` reads 1 then; that its other bits read any value is 93_implementation_defined.md V4, which the model follows where
R34 (d) has them read as defined (log entry 12). On an idle block every register of R17 but `TDATA`, which has statements
of its own, reads the value it holds, its reserved bits 0 (R18 to R23, R29 to R31). -/
def Obligations.RegisterPortContract : Prop :=
  (∀ (s : State) (off : BitVec 8) (size : Nat) (v : Word), ¬ (size = 4 ∧ off.toNat % 4 = 0) →
    act (.regWrite off size v) s = .next s ∧ portRead s off size = some 0#32) ∧
  (∀ (s : State) (off : BitVec 8) (size : Nat) (v : Word), 0x64 ≤ off.toNat →
    act (.regWrite off size v) s = .next s ∧ portRead s off size = some 0#32) ∧
  (∀ (s : State) (off : BitVec 8) (size : Nat) (v : Word), s.regs.busy = true →
    act (.regWrite off size v) s = .next s) ∧
  (∀ s : State, s.regs.busy = true → ∀ row ∈ regMap,
    portRead s row.1 4 =
      if row.2 ∈ [RegName.status, .errcode, .errinfo, .hdrLen, .pkdLen, .dstLen, .bitcntLo, .bitcntHi, .nsym, .nnode, .root,
        .tdata]
      then none else some (s.regs.readValue row.2)) ∧
  (∀ s : State, s.regs.busy = true → ∃ v n,
    act (.regRead 0x08#8 4) s = .next { s with observed := .reg 0x08#8 v :: s.observed, fresh := n } ∧
    v.getLsbD 0 = true) ∧
  (∀ s : State, s.regs.busy = false →
    (∀ row ∈ regMap, row.2 ≠ .tdata → portRead s row.1 4 = some (s.regs.readValue row.2)) ∧
    (∀ row ∈ [(0x00#8, 0x48554631#32), (0x04#8, 0#32), (0x0C#8, (BitVec.ofBool s.regs.ien).setWidth 32),
        (0x10#8, (s.regs.errSub ++ s.regs.errCode).setWidth 32), (0x14#8, s.regs.errInfo), (0x18#8, s.regs.srcAddr),
        (0x1C#8, s.regs.srcLen), (0x20#8, s.regs.hdrAddr), (0x24#8, s.regs.hdrCap), (0x28#8, s.regs.hdrLen),
        (0x2C#8, s.regs.pkdAddr), (0x30#8, s.regs.pkdCap), (0x34#8, s.regs.pkdLen), (0x38#8, s.regs.dstAddr),
        (0x3C#8, s.regs.dstCap), (0x40#8, s.regs.dstLen), (0x44#8, s.regs.bitcntLo), (0x48#8, s.regs.bitcntHi),
        (0x4C#8, s.regs.nsym.setWidth 32), (0x50#8, s.regs.nnode.setWidth 32), (0x54#8, s.regs.root.setWidth 32),
        (0x58#8, s.regs.tsel.setWidth 32), (0x5C#8, s.regs.tword.setWidth 16 ++ s.regs.tidx.setWidth 16)],
      portRead s row.1 4 = some row.2) ∧
    ∃ v, portRead s 0x08#8 4 = some v ∧ v.getLsbD 0 = false ∧ v.getLsbD 1 = s.regs.done ∧ v.getLsbD 2 = s.regs.err ∧
      v.getLsbD 3 = false ∧ v.getLsbD 4 = s.regs.freqValid ∧ v.getLsbD 5 = s.regs.treeValid ∧
      v.getLsbD 6 = s.regs.codeValid ∧ ∀ j, 7 ≤ j → v.getLsbD j = false) ∧
  (∀ (s : State) (off : BitVec 8) (size : Nat), ∃ v n,
    act (.regRead off size) s = .next { s with observed := .reg off v :: s.observed, fresh := n } ∧
    ∀ d, portRead s off size = some d → v = d)

/-- What a host write to an idle block's register does (spec/10_state.md section 2, R17, R34 (f)): the register reads back
the written value in its writable bits and is unchanged in the others; no other register, no table, no byte of memory
changes. `CMD` and `STATUS` have statements of their own. -/
def Obligations.RegisterWriteReadsBack : Prop :=
  ∀ (s : State) (v : Word), s.regs.busy = false → s.resetIn = false →
    ∀ row ∈ regMap, row.2 ≠ .cmd → row.2 ≠ .status →
      ∃ t, act (.regWrite row.1 4 v) s = .next t ∧ t = { s with regs := t.regs } ∧
        ∀ n : RegName, t.regs.readValue n =
          if n = row.2 then (s.regs.readValue n &&& ~~~ n.writable) ||| (v &&& n.writable) else s.regs.readValue n

/-- A host write to `STATUS` on the idle block "looks only at bit 1 of the written word: 1 clears `DONE`, 0 does nothing"
(R20); it "clears `DONE` (and so `IRQ`) but not `ERR`, `ERRCODE`, `ERRINFO`" (R164). -/
def Obligations.StatusWriteClearsDone : Prop :=
  ∀ (s : State) (v : Word), s.regs.busy = false → s.resetIn = false →
    ∃ t, act (.regWrite 0x08#8 4 v) s = .next t ∧
      t = { s with regs := { s.regs with done := s.regs.done && !v.getLsbD 1 } } ∧
      t.irq = (s.irq && !v.getLsbD 1) ∧ t.regs.statusWord.getLsbD 1 = t.regs.done

/-- R42: "`IRQ = STATUS.DONE and CTRL.IEN` at all times", read from the two registers' words; and the host's look at the
pin observes it. -/
def Obligations.IrqIsDoneAndEnabled : Prop :=
  ∀ s : State, s.irq = ((s.regs.readValue .status).getLsbD 1 && (s.regs.readValue .ctrl).getLsbD 0) ∧
    act .sampleIrq s = .next { s with observed := .irq s.irq :: s.observed }

/-- R78: `TDATA` with `SEL = 0`. -/
def Obligations.TdataShowsFreq : Prop :=
  ∀ s : State, s.regs.busy = false → s.regs.tsel = 0#2 →
    portRead s 0x60#8 4 =
      if s.regs.freqValid = false then none
      else if s.regs.tidx.toNat < 256 ∧ s.regs.tword = 0#4 then
        some (tableGet s.freq (BitVec.ofNat 8 s.regs.tidx.toNat))
      else some 0#32

/-- R79: `TDATA` with `SEL = 1`: the frequency in word 0, the packed link fields in word 1. -/
def Obligations.TdataShowsNode : Prop :=
  ∀ s : State, s.regs.busy = false → s.regs.tsel = 1#2 →
    (s.regs.treeValid = false → portRead s 0x60#8 4 = none) ∧
    (s.regs.treeValid = true →
      ((s.regs.tidx = 511#9 ∨ 1 < s.regs.tword.toNat) → portRead s 0x60#8 4 = some 0#32) ∧
      (s.regs.nnode.toNat ≤ s.regs.tidx.toNat → s.regs.tidx ≠ 511#9 → s.regs.tword.toNat ≤ 1 →
        portRead s 0x60#8 4 = none) ∧
      (s.regs.tidx.toNat < s.regs.nnode.toNat → s.regs.tidx ≠ 511#9 → s.regs.tword = 0#4 →
        portRead s 0x60#8 4 = some (nodeAt s.node s.regs.tidx.toNat).f) ∧
      (s.regs.tidx.toNat < s.regs.nnode.toNat → s.regs.tidx ≠ 511#9 → s.regs.tword = 1#4 →
        ∃ v, portRead s 0x60#8 4 = some v ∧
          v.extractLsb' 0 9 = (nodeAt s.node s.regs.tidx.toNat).left ∧
          v.extractLsb' 9 9 = (nodeAt s.node s.regs.tidx.toNat).right ∧
          v.extractLsb' 18 8 = (nodeAt s.node s.regs.tidx.toNat).sym ∧
          v.getLsbD 26 = (nodeAt s.node s.regs.tidx.toNat).leaf ∧ v.extractLsb' 27 5 = 0#5))

/-- R80: `TDATA` with `SEL = 2`: code bit `32w + k` in `TDATA` bit `31 - k`, the length in word 8; and with `SEL = 3` the
word is 0. -/
def Obligations.TdataShowsCode : Prop :=
  (∀ s : State, s.regs.busy = false → s.regs.tsel = 2#2 →
    (s.regs.codeValid = false → portRead s 0x60#8 4 = none) ∧
    (s.regs.codeValid = true →
      ((256 ≤ s.regs.tidx.toNat ∨ 8 < s.regs.tword.toNat) → portRead s 0x60#8 4 = some 0#32) ∧
      (s.regs.tidx.toNat < 256 → s.regs.tword = 8#4 →
        portRead s 0x60#8 4 = some ((tableGet s.code (BitVec.ofNat 8 s.regs.tidx.toNat)).len.setWidth 32)) ∧
      (s.regs.tidx.toNat < 256 → s.regs.tword.toNat < 8 →
        ∃ v, portRead s 0x60#8 4 = some v ∧ ∀ k, k < 32 →
          v.getLsbD (31 - k) =
            (tableGet s.code (BitVec.ofNat 8 s.regs.tidx.toNat)).bits.getLsbD (32 * s.regs.tword.toNat + k)))) ∧
  (∀ s : State, s.regs.busy = false → s.regs.tsel = 3#2 → portRead s 0x60#8 4 = some 0#32)

/-! ### The commands -/

/-- R141: `NOP` completes and writes "nothing but the life-cycle registers". -/
def Obligations.NopOnlyCompletes : Prop :=
  ∀ s : State, ∃ t, exec .nop s = .next t ∧
    t.regs = { s.regs with
      busy := false, done := true, err := false, errCode := 0#8, errSub := 0#8, errInfo := 0#32 } ∧
    SameTables s t ∧ SameMemory s t ∧ SameSurroundings s t

/-- R142: `CLEAR` completes with the three valid flags and `NSYM`, `NNODE`, `ROOT` at 0; every other register and memory
"are unchanged". -/
def Obligations.ClearDiscardsContext : Prop :=
  ∀ s : State, ∃ t, exec .clear s = .next t ∧
    t.regs = { s.regs with
      freqValid := false, treeValid := false, codeValid := false, nsym := 0#9, nnode := 0#10, root := 0#9,
      busy := false, done := true, err := false, errCode := 0#8, errSub := 0#8, errInfo := 0#32 } ∧
    SameTables s t ∧ SameMemory s t ∧ SameSurroundings s t

/-- R86 and R85: where its window is inside the address space, `COUNT` completes; each count is the number of occurrences
in `SRC`, so the counts "sum to the input length" and the "key set equals the distinct byte values present"; `NSYM` is
their number; `FREQ_VALID` is set, the two other valid flags are cleared, and nothing else changes. -/
def Obligations.CountTalliesInput : Prop :=
  ∀ s : State, WindowsOk .count s → InRange s.regs.srcAddr s.regs.srcLen →
    ∃ t, exec .count s = .next t ∧
      (∀ b, (tableGet t.freq b).toNat = s.srcBytes.count b) ∧
      totalCount t.freq = s.regs.srcLen.toNat ∧
      (∀ b, tableGet t.freq b ≠ 0#32 ↔ b ∈ s.srcBytes) ∧
      t.regs.nsym.toNat = s.srcBytes.dedup.length ∧
      t.regs = { s.regs with
        nsym := t.regs.nsym, freqValid := true, treeValid := false, codeValid := false }.reportSuccess ∧
      t.node = s.node ∧ t.code = s.code ∧ SameMemory s t ∧ SameSurroundings s t

/-- `BUILD` completes on every non-empty valid frequency table and leaves the tree of R96 in the arena, with
`NNODE = 2 * NSYM - 1` and `ROOT = NNODE - 1` (R90); `TREE_VALID` is set, `CODE_VALID` cleared, nothing else changes. The
premise `ContextInv` is the invariant of R43. -/
def Obligations.BuildMakesTree : Prop :=
  ∀ s : State, ContextInv s → s.regs.freqValid = true → s.regs.nsym ≠ 0#9 →
    ∃ t, exec .build s = .next t ∧ IsTreeOf s.freq t.node ∧
      t.regs.nnode.toNat = 2 * s.regs.nsym.toNat - 1 ∧ t.regs.root.toNat = t.regs.nnode.toNat - 1 ∧
      t.regs = { s.regs with
        nnode := t.regs.nnode, root := t.regs.root, treeValid := true, codeValid := false }.reportSuccess ∧
      t.freq = s.freq ∧ t.code = s.code ∧ SameMemory s t ∧ SameSurroundings s t

/-- R93: `ExtractMin` removes and returns the index whose pair (frequency, index) is smallest, "comparing frequency first
and, on equal frequency, index; both unsigned"; it answers on every non-empty queue. R92 and R94: `FUSE` puts the first
extracted on the left and the second on the right of a new internal node with the sum of their frequencies. -/
def Obligations.QueueExtractsLeastFirst : Prop :=
  (∀ (node : NodeTable) (pq : List Nat), pq ≠ [] → ∃ m q, extractMin node pq = some (m, q) ∧ m ∈ pq ∧ q = pq.erase m ∧
    ∀ j ∈ pq, (nodeAt node m).f.toNat < (nodeAt node j).f.toNat ∨
      ((nodeAt node m).f.toNat = (nodeAt node j).f.toNat ∧ m ≤ j)) ∧
  (∀ b : Builder, 2 ≤ b.pq.length → b.n < 511 → ∃ x y q q',
    extractMin b.node b.pq = some (x, q) ∧ extractMin b.node q = some (y, q') ∧
    (fuse b).pq = b.n :: q' ∧ (fuse b).n = b.n + 1 ∧
    nodeAt (fuse b).node b.n =
      ⟨(nodeAt b.node x).f + (nodeAt b.node y).f, false, 0#8, BitVec.ofNat 9 x, BitVec.ofNat 9 y⟩ ∧
    ∀ i, i ≠ b.n → nodeAt (fuse b).node i = nodeAt b.node i)

/-- R98: "`BUILD` is a function of `FREQ` alone: the same `FREQ` always gives the same `NODE`, `NNODE`, `ROOT`, bit for
bit", whatever the arena held before. -/
def Obligations.BuildDependsOnFreqAlone : Prop :=
  ∀ s u t v : State, ContextInv s → ContextInv u → s.regs.freqValid = true → u.regs.freqValid = true →
    s.regs.nsym ≠ 0#9 → s.freq = u.freq → exec .build s = .next t → exec .build u = .next v →
    t.regs.nnode = v.regs.nnode ∧ t.regs.root = v.regs.root ∧
    ∀ i, i < t.regs.nnode.toNat → nodeAt t.node i = nodeAt v.node i

/-- `GENCODE` completes on every valid tree: R102 (one symbol gets `"0"`), R103 (the code of a present symbol is the one
path from the root to its leaf), R104 (present symbols have codes, others none; the table is prefix-free; codes are not
empty) and the length bound of R105; `CODE_VALID` is set and nothing else changes. -/
def Obligations.GencodeAssignsPaths : Prop :=
  ∀ s : State, ContextInv s → s.regs.treeValid = true →
    ∃ t, exec .gencode s = .next t ∧
      (∀ a, (tableGet t.code a).len ≠ 0#8 ↔ tableGet s.freq a ≠ 0#32) ∧ PrefixFree t.code ∧ CleanBits t.code ∧
      (∀ a ∈ present s.freq,
        (codeOf t.code a).length ≤ max 1 (s.regs.nsym.toNat - 1) ∧
        (s.regs.nsym = 1#9 → codeOf t.code a = [false]) ∧
        (2 ≤ s.regs.nsym.toNat →
          (nodeAt s.node (follow s.node s.regs.root.toNat (codeOf t.code a))).leaf = true ∧
          (nodeAt s.node (follow s.node s.regs.root.toNat (codeOf t.code a))).sym = a ∧
          ∀ q, q <+: codeOf t.code a → q ≠ codeOf t.code a →
            (nodeAt s.node (follow s.node s.regs.root.toNat q)).leaf = false)) ∧
      t.regs = { s.regs with codeValid := true }.reportSuccess ∧
      t.freq = s.freq ∧ t.node = s.node ∧ SameMemory s t ∧ SameSurroundings s t

/-- The code of a built tree with two or more symbols is complete (R105): the sum of `2^(-len)` over the present symbols
is 1, here multiplied by `2^256`. -/
def Obligations.GencodeIsComplete : Prop :=
  ∀ s : State, ContextInv s → s.regs.treeValid = true → 2 ≤ s.regs.nsym.toNat →
    ∃ t, exec .gencode s = .next t ∧
      ((present s.freq).map (fun a => 2 ^ (256 - (codeOf t.code a).length))).sum = 2 ^ 256

/-- R97: "for a fixed FrequencyTable, the tree produced minimizes Σ(frequency[s] × len(code[s])) over all prefix-free
binary codings of that alphabet". The tree is the one `BUILD` leaves, its codes those `GENCODE` derives from it (with
length 1 for a single symbol); a coding gives every present symbol a non-empty bit string. -/
def Obligations.BuiltCodeIsOptimal : Prop :=
  ∀ s t u : State, ContextInv s → s.regs.freqValid = true → s.regs.nsym ≠ 0#9 →
    exec .build s = .next t → exec .gencode t = .next u →
    ∀ c : Byte → BitString, (∀ a ∈ present s.freq, c a ≠ []) →
      (∀ a ∈ present s.freq, ∀ b ∈ present s.freq, a ≠ b → ¬ c a <+: c b) →
      weightedLength s.freq (codeOf u.code) ≤ weightedLength s.freq c

/-- `ENCODE` completes where its windows are in range, every input byte has a code and the packed stream fits: `BITCNT` is
the payload's length and `PKD_LEN = ceil8(BITCNT)`; bit `t` of the payload is bit `7 - (t mod 8)` of `PKD` byte `t div 8`
(R112, R75); the padding bits are 0 (R76, R111); every byte outside those is unchanged, and so is everything else. -/
def Obligations.EncodePacksPayload : Prop :=
  ∀ s : State, WindowsOk .encode s → s.regs.codeValid = true → InRange s.regs.srcAddr s.regs.srcLen →
    InRange s.regs.pkdAddr s.regs.pkdCap → (∀ b ∈ s.srcBytes, b ∈ coded s.code) →
    ceil8 (payload s.code s.srcBytes).length ≤ s.regs.pkdCap.toNat →
    ∃ t, exec .encode s = .next t ∧
      t.regs.bitcnt.toNat = (payload s.code s.srcBytes).length ∧
      t.regs.pkdLen.toNat = ceil8 t.regs.bitcnt.toNat ∧
      BitsFrom t.packedStreamBit 0 (payload s.code s.srcBytes) ∧
      (∀ n, t.regs.bitcnt.toNat ≤ n → n < 8 * t.regs.pkdLen.toNat → t.packedStreamBit n = false) ∧
      SameMemoryOutside [⟨s.regs.pkdAddr.toNat, t.regs.pkdLen.toNat⟩] s t ∧
      t.regs = { s.regs.setBitcnt t.regs.bitcnt with pkdLen := t.regs.pkdLen }.reportSuccess ∧
      SameTables s t ∧ SameSurroundings s t

/-- R159: `ENCODE` met an input byte with no code: `SUB` is the byte's value, `ERRINFO` its offset in `SRC`, "the first
such byte in input order"; whether the packed stream would fit does not matter (R113). `PKD_LEN` is 0 and `BITCNT` keeps
its value. -/
def Obligations.EncodeReportsUncovered : Prop :=
  ∀ (s : State) (before after : List Byte) (b : Byte), WindowsOk .encode s → s.regs.codeValid = true →
    InRange s.regs.srcAddr s.regs.srcLen → InRange s.regs.pkdAddr s.regs.pkdCap →
    s.srcBytes = before ++ b :: after → (∀ c ∈ before, c ∈ coded s.code) → b ∉ coded s.code →
    ∃ t, exec .encode s = .next t ∧
      t.regs = { s.regs with pkdLen := 0#32 }.reportError ⟨.uncoveredSymbol, b, BitVec.ofNat 32 before.length⟩ ∧
      SameTables s t ∧ SameMemoryOutside [⟨s.regs.pkdAddr.toNat, s.regs.pkdCap.toNat⟩] s t ∧ SameSurroundings s t

/-- `WRHDR` completes where its window is in range and holds `HSIZE` bytes: it writes the header of `CODE` and `BITCNT`
(R116: `FMT`, `NENT`, the entries in ascending symbol order, `NBITS`) and sets `HDR_LEN` to its size; what it wrote is a
valid header of exactly the coded symbols and the bit count (R118); nothing else changes. -/
def Obligations.WrhdrWritesHeader : Prop :=
  ∀ s : State, ContextInv s → WindowsOk .wrhdr s → s.regs.codeValid = true → InRange s.regs.hdrAddr s.regs.hdrCap →
    headerSize s.code ≤ s.regs.hdrCap.toNat →
    ∃ t, exec .wrhdr s = .next t ∧ t.regs.hdrLen.toNat = headerSize s.code ∧
      t.readBytes ⟨s.regs.hdrAddr.toNat, headerSize s.code⟩ = headerBytes s.code s.regs.bitcnt ∧
      HeaderHolds t.headerByte t.regs.hdrLen.toNat ((coded s.code).map fun a => (a, codeOf s.code a)) s.regs.bitcnt ∧
      SameMemoryOutside [⟨s.regs.hdrAddr.toNat, t.regs.hdrLen.toNat⟩] s t ∧
      t.regs = { s.regs with hdrLen := t.regs.hdrLen }.reportSuccess ∧ SameTables s t ∧ SameSurroundings s t

/-- The header's size (R74, R117): `HSIZE = 11 + sum over entries of (2 + ceil8(CLEN))` is the number of bytes laid out,
"the smallest header is 14 bytes" and "the largest 8715 bytes"; every code table with a code meets the bounds. -/
def Obligations.HeaderSizeIsBounded : Prop :=
  ∀ (code : CodeTable) (nb : BitVec 64), coded code ≠ [] →
    (headerBytes code nb).length = 11 + ((coded code).map fun a => 2 + ceil8 (codeOf code a).length).sum ∧
    14 ≤ (headerBytes code nb).length ∧ (headerBytes code nb).length ≤ 8715

/-- R121 (with R123: any order of symbols, any padding bits, complete code or not): on a window that holds a valid header
`RDHDR` completes: `CODE` becomes the table of the entries, `NSYM` their number, `BITCNT` the header's count, `CODE_VALID`
is set and `FREQ_VALID` and `TREE_VALID` are 0; nothing else changes. -/
def Obligations.RdhdrLoadsValidHeader : Prop :=
  ∀ (s : State) (es : List HeaderEntry) (nb : BitVec 64), WindowsOk .rdhdr s → InRange s.regs.hdrAddr s.regs.hdrLen →
    HeaderHolds s.headerByte s.regs.hdrLen.toNat es nb →
    ∃ t, exec .rdhdr s = .next t ∧ TableOfEntries es t.code ∧
      t.regs = { s.regs.setBitcnt nb with
        nsym := BitVec.ofNat 9 es.length, freqValid := false, treeValid := false, codeValid := true }.reportSuccess ∧
      t.freq = s.freq ∧ t.node = s.node ∧ SameMemory s t ∧ SameSurroundings s t

/-- R153: `RDHDR` reports `MALFORMED_HEADER` with the sub-code and the information word of the first check of R120 that
fails; "On every error the three valid flags are 0, `NSYM` and `BITCNT` are unchanged" (R119), and so is all else but the
contents of `CODE`. -/
def Obligations.RdhdrReportsFirstFault : Prop :=
  ∀ (s : State) (sub : Byte) (info : Nat), WindowsOk .rdhdr s → InRange s.regs.hdrAddr s.regs.hdrLen →
    HeaderFault s.headerByte s.regs.hdrLen.toNat sub info →
    ∃ t, exec .rdhdr s = .next t ∧
      t.regs = s.regs.clearValid.reportError ⟨.malformedHeader, sub, BitVec.ofNat 32 info⟩ ∧
      t.freq = s.freq ∧ t.node = s.node ∧ SameMemory s t ∧ SameSurroundings s t

/-- R118: "`RDHDR` accepts a header exactly when all of the following hold": the conditions of a valid header; otherwise
it reports `MALFORMED_HEADER` (code 2) with the sub-code of the first failing check. No header is half accepted (R125,
R126). -/
def Obligations.RdhdrAcceptsExactlyValid : Prop :=
  ∀ s t : State, WindowsOk .rdhdr s → InRange s.regs.hdrAddr s.regs.hdrLen → exec .rdhdr s = .next t →
    (t.regs.err = false ↔ ∃ es nb, HeaderHolds s.headerByte s.regs.hdrLen.toNat es nb) ∧
    (t.regs.err = true ↔ ∃ sub info, HeaderFault s.headerByte s.regs.hdrLen.toNat sub info ∧
      t.regs.errCode = 2#8 ∧ t.regs.errSub = sub) ∧
    (t.regs.codeValid = true ↔ t.regs.err = false)

/-- `DECODE` completes on a payload: where the first `BITCNT` bits of `PKD` are the codes of a byte sequence that fits
`DST` and `BITCNT` is at most `8 * PKD_LEN`, it writes exactly those bytes and `DST_LEN` is their number (R129 to R131);
surplus bytes and padding do not matter (R134), nothing else changes. -/
def Obligations.DecodeReproducesInput : Prop :=
  ∀ (s : State) (bs : List Byte), ContextInv s → WindowsOk .decode s → s.regs.codeValid = true →
    InRange s.regs.pkdAddr s.regs.pkdLen → InRange s.regs.dstAddr s.regs.dstCap →
    (∀ b ∈ bs, b ∈ coded s.code) → BitsFrom s.packedStreamBit 0 (payload s.code bs) →
    s.regs.bitcnt.toNat = (payload s.code bs).length → s.regs.bitcnt.toNat ≤ 8 * s.regs.pkdLen.toNat →
    bs.length ≤ s.regs.dstCap.toNat →
    ∃ t, exec .decode s = .next t ∧ t.readBytes ⟨s.regs.dstAddr.toNat, bs.length⟩ = bs ∧
      t.regs = { s.regs with dstLen := BitVec.ofNat 32 bs.length }.reportSuccess ∧
      SameMemoryOutside [⟨s.regs.dstAddr.toNat, bs.length⟩] s t ∧ SameTables s t ∧ SameSurroundings s t

/-- R154 for `DECODE`, with R155 sub 3: `TOO_FEW_BITS` when `BITCNT > 8 * PKD_LEN`; otherwise the first payload bit where
one applies gives `NO_CHILD` or `OVERFLOW`, and a walk not at the root after the last bit `MID_CODE`, each with its
information word. `DST_LEN` is 0. -/
def Obligations.DecodeReportsFailure : Prop :=
  ∀ s : State, ContextInv s → WindowsOk .decode s → s.regs.codeValid = true →
    InRange s.regs.pkdAddr s.regs.pkdLen → InRange s.regs.dstAddr s.regs.dstCap →
    ∀ e : Report,
      ((8 * s.regs.pkdLen.toNat < s.regs.bitcnt.toNat ∧ e = ⟨.truncatedStream, 1#8, s.regs.pkdLen⟩) ∨
        (s.regs.bitcnt.toNat ≤ 8 * s.regs.pkdLen.toNat ∧
          DecodeFault s.code s.packedStreamBit s.regs.bitcnt.toNat s.regs.dstCap e)) →
      ∃ t, exec .decode s = .next t ∧ t.regs = { s.regs with dstLen := 0#32 }.reportError e ∧
        SameTables s t ∧ SameMemoryOutside [⟨s.regs.dstAddr.toNat, s.regs.dstCap.toNat⟩] s t ∧ SameSurroundings s t

/-- R136: "The result of `DECODE` is a function of `CODE`, `BITCNT`, `PKD_LEN`, `DST_CAP`" and the payload bits: two
states that agree on them give the same report, the same `DST_LEN` and the same bytes. So padding bits and surplus bytes
are not looked at (R134), and neither is anything else. -/
def Obligations.DecodeLooksAtPayloadOnly : Prop :=
  ∀ s u t : State, WindowsOk .decode s → WindowsOk .decode u →
    InRange s.regs.pkdAddr s.regs.pkdLen → InRange s.regs.dstAddr s.regs.dstCap →
    InRange u.regs.pkdAddr u.regs.pkdLen → InRange u.regs.dstAddr u.regs.dstCap →
    s.regs.codeValid = u.regs.codeValid → s.code = u.code → s.regs.bitcnt = u.regs.bitcnt →
    s.regs.pkdLen = u.regs.pkdLen → s.regs.dstCap = u.regs.dstCap →
    (∀ n, n < s.regs.bitcnt.toNat → s.packedStreamBit n = u.packedStreamBit n) →
    exec .decode s = .next t →
    ∃ v, exec .decode u = .next v ∧ t.regs.err = v.regs.err ∧ t.regs.errCode = v.regs.errCode ∧
      t.regs.errSub = v.regs.errSub ∧ t.regs.errInfo = v.regs.errInfo ∧ t.regs.dstLen = v.regs.dstLen ∧
      t.readBytes ⟨s.regs.dstAddr.toNat, t.regs.dstLen.toNat⟩ = v.readBytes ⟨u.regs.dstAddr.toNat, t.regs.dstLen.toNat⟩

/-- `OVERFLOW` of `WRHDR`, `ENCODE` and `COMPRESS` (R155 sub 1 and 2): when `HSIZE > HDR_CAP`, `ERRINFO = HSIZE`; when every
byte has a code and `ceil8(TOTAL) > PKD_CAP`, `ERRINFO = min(ceil8(TOTAL), 0xFFFFFFFF)`. The result length is 0, and all else
is unchanged but the window's bytes. `COMPRESS` (R145) looks at the payload before the header; its table is the one that
`COUNT`, `BUILD` and `GENCODE` make of the same input, the tables, `NSYM`, `NNODE` and `ROOT` stay as those three leave them,
the context is discarded, and `BITCNT` is unchanged on sub 2 and the payload's length on sub 1. -/
def Obligations.OverflowIsReported : Prop :=
  (∀ s : State, WindowsOk .wrhdr s → s.regs.codeValid = true → InRange s.regs.hdrAddr s.regs.hdrCap →
    s.regs.hdrCap.toNat < headerSize s.code →
    ∃ t, exec .wrhdr s = .next t ∧
      t.regs = { s.regs with hdrLen := 0#32 }.reportError ⟨.overflow, 1#8, BitVec.ofNat 32 (headerSize s.code)⟩ ∧
      SameTables s t ∧ SameMemoryOutside [⟨s.regs.hdrAddr.toNat, s.regs.hdrCap.toNat⟩] s t ∧ SameSurroundings s t) ∧
  (∀ s : State, WindowsOk .encode s → s.regs.codeValid = true → InRange s.regs.srcAddr s.regs.srcLen →
    InRange s.regs.pkdAddr s.regs.pkdCap → (∀ b ∈ s.srcBytes, b ∈ coded s.code) →
    s.regs.pkdCap.toNat < ceil8 (payload s.code s.srcBytes).length →
    ∃ t, exec .encode s = .next t ∧
      t.regs = { s.regs with pkdLen := 0#32 }.reportError
        ⟨.overflow, 2#8, BitVec.ofNat 32 (min (ceil8 (payload s.code s.srcBytes).length) 0xFFFFFFFF)⟩ ∧
      SameTables s t ∧ SameMemoryOutside [⟨s.regs.pkdAddr.toNat, s.regs.pkdCap.toNat⟩] s t ∧ SameSurroundings s t) ∧
  (∀ s s1 s2 s3 : State, WindowsOk .compress s → InRange s.regs.srcAddr s.regs.srcLen →
    InRange s.regs.hdrAddr s.regs.hdrCap → InRange s.regs.pkdAddr s.regs.pkdCap → s.regs.srcLen ≠ 0#32 →
    exec .count s = .next s1 → exec .build s1 = .next s2 → exec .gencode s2 = .next s3 →
    (s.regs.pkdCap.toNat < ceil8 (payload s3.code s.srcBytes).length →
      ∃ t, exec .compress s = .next t ∧
        t.regs = { s3.regs.clearValid with hdrLen := 0#32, pkdLen := 0#32 }.reportError
          ⟨.overflow, 2#8, BitVec.ofNat 32 (min (ceil8 (payload s3.code s.srcBytes).length) 0xFFFFFFFF)⟩ ∧
        t.regs.bitcnt = s.regs.bitcnt ∧ SameTables s3 t ∧ SameMemoryOutside (writeRegions .compress s.regs) s t ∧
        SameSurroundings s t) ∧
    (ceil8 (payload s3.code s.srcBytes).length ≤ s.regs.pkdCap.toNat → s.regs.hdrCap.toNat < headerSize s3.code →
      ∃ t, exec .compress s = .next t ∧
        t.regs = { (s3.regs.setBitcnt t.regs.bitcnt).clearValid with hdrLen := 0#32, pkdLen := 0#32 }.reportError
          ⟨.overflow, 1#8, BitVec.ofNat 32 (headerSize s3.code)⟩ ∧
        t.regs.bitcnt.toNat = (payload s3.code s.srcBytes).length ∧ SameTables s3 t ∧
        SameMemoryOutside (writeRegions .compress s.regs) s t ∧ SameSurroundings s t))

/-! ### Composite commands -/

/-- `COMPRESS` completes on every non-empty input with windows in range, `HDR_CAP >= 8715` and `PKD_CAP >= ceil8(255 *
SRC_LEN)` (R145, the weaker bound of R146 (d)): the counts are those of `SRC`, the arena holds their tree, the code table
is prefix-free with a code for exactly the bytes present, the `HDR` window holds the header of that table and `BITCNT`, the
`PKD` window the codes of the input in order; the context is discarded, and nothing else changes. -/
def Obligations.CompressCompletes : Prop :=
  ∀ s : State, WindowsOk .compress s → InRange s.regs.srcAddr s.regs.srcLen → InRange s.regs.hdrAddr s.regs.hdrCap →
    InRange s.regs.pkdAddr s.regs.pkdCap → s.regs.srcLen ≠ 0#32 → 8715 ≤ s.regs.hdrCap.toNat →
    ceil8 (255 * s.regs.srcLen.toNat) ≤ s.regs.pkdCap.toNat →
    ∃ t, exec .compress s = .next t ∧
      (∀ b, (tableGet t.freq b).toNat = s.srcBytes.count b) ∧ IsTreeOf t.freq t.node ∧ PrefixFree t.code ∧
      (∀ b, b ∈ coded t.code ↔ b ∈ s.srcBytes) ∧
      t.regs.nsym.toNat = s.srcBytes.dedup.length ∧ t.regs.nnode.toNat = 2 * t.regs.nsym.toNat - 1 ∧
      t.regs.root.toNat = t.regs.nnode.toNat - 1 ∧
      t.regs.bitcnt.toNat = (payload t.code s.srcBytes).length ∧
      t.regs.pkdLen.toNat = ceil8 t.regs.bitcnt.toNat ∧ t.regs.hdrLen.toNat = headerSize t.code ∧
      BitsFrom t.packedStreamBit 0 (payload t.code s.srcBytes) ∧
      t.readBytes ⟨s.regs.hdrAddr.toNat, t.regs.hdrLen.toNat⟩ = headerBytes t.code t.regs.bitcnt ∧
      t.regs = { s.regs.setBitcnt t.regs.bitcnt with
        nsym := t.regs.nsym, nnode := t.regs.nnode, root := t.regs.root, pkdLen := t.regs.pkdLen,
        hdrLen := t.regs.hdrLen, freqValid := false, treeValid := false, codeValid := false }.reportSuccess ∧
      SameMemoryOutside
        [⟨s.regs.hdrAddr.toNat, t.regs.hdrLen.toNat⟩, ⟨s.regs.pkdAddr.toNat, t.regs.pkdLen.toNat⟩] s t ∧
      SameSurroundings s t

/-- R146 (b): the result of `COMPRESS` "equals that of the five step commands run in order on the same registers and
memory, except that the valid flags end 0". The five complete steps are chained; their windows keep R63 because
`COMPRESS`'s do. -/
def Obligations.CompressIsFiveSteps : Prop :=
  ∀ s s1 s2 s3 s4 s5 : State, WindowsOk .compress s → s.regs.srcLen ≠ 0#32 →
    exec .count s = .next s1 → exec .build s1 = .next s2 → exec .gencode s2 = .next s3 →
    exec .encode s3 = .next s4 → exec .wrhdr s4 = .next s5 →
    s1.regs.err = false → s2.regs.err = false → s3.regs.err = false → s4.regs.err = false → s5.regs.err = false →
    ∃ t, exec .compress s = .next t ∧
      t.regs = { s5.regs with freqValid := false, treeValid := false, codeValid := false } ∧ SameTables s5 t ∧
      SameMemory s5 t ∧ SameSurroundings s5 t

/-- R146 (d): "With `HDR_CAP >= 8715` and `PKD_CAP >= SRC_LEN` no `OVERFLOW` can occur", so `COMPRESS` of a non-empty
input in range succeeds, and `BITCNT <= 8 * SRC_LEN`. It rests on the optimality of the tree (R97). -/
def Obligations.CompressFitsInput : Prop :=
  ∀ s : State, WindowsOk .compress s → InRange s.regs.srcAddr s.regs.srcLen → InRange s.regs.hdrAddr s.regs.hdrCap →
    InRange s.regs.pkdAddr s.regs.pkdCap → s.regs.srcLen ≠ 0#32 → 8715 ≤ s.regs.hdrCap.toNat →
    s.regs.srcLen.toNat ≤ s.regs.pkdCap.toNat →
    ∃ t, exec .compress s = .next t ∧ t.regs.err = false ∧ t.regs.bitcnt.toNat ≤ 8 * s.regs.srcLen.toNat

/-- R146 (a): `COMPRESS` "is a function of the `SRC` bytes: compressing the same input twice yields byte-identical header
and packed-bit output", wherever the windows lie and whatever the tables held before. -/
def Obligations.CompressDependsOnInputAlone : Prop :=
  ∀ s u t v : State, s.srcBytes = u.srcBytes → exec .compress s = .next t → exec .compress u = .next v →
    t.regs.err = false → v.regs.err = false →
    t.regs.hdrLen = v.regs.hdrLen ∧ t.regs.pkdLen = v.regs.pkdLen ∧ t.regs.bitcnt = v.regs.bitcnt ∧
    t.regs.nsym = v.regs.nsym ∧ t.regs.nnode = v.regs.nnode ∧ t.regs.root = v.regs.root ∧
    t.readBytes ⟨s.regs.hdrAddr.toNat, t.regs.hdrLen.toNat⟩ = v.readBytes ⟨u.regs.hdrAddr.toNat, t.regs.hdrLen.toNat⟩ ∧
    t.readBytes ⟨s.regs.pkdAddr.toNat, t.regs.pkdLen.toNat⟩ = v.readBytes ⟨u.regs.pkdAddr.toNat, t.regs.pkdLen.toNat⟩

/-- `DECOMPRESS` completes on a valid header and a payload of its bit count that fit their windows (R147, with R121 and
R129): the symbols of the payload are written to `DST`, `DST_LEN`, `NSYM` and `BITCNT` (the header's, not the register's
old value) are set, the context is discarded, and nothing else changes. -/
def Obligations.DecompressReproducesInput : Prop :=
  ∀ (s : State) (es : List HeaderEntry) (nb : BitVec 64) (code : CodeTable) (bs : List Byte),
    WindowsOk .decompress s → InRange s.regs.hdrAddr s.regs.hdrLen → InRange s.regs.pkdAddr s.regs.pkdLen →
    InRange s.regs.dstAddr s.regs.dstCap → HeaderHolds s.headerByte s.regs.hdrLen.toNat es nb →
    TableOfEntries es code → (∀ b ∈ bs, b ∈ coded code) → BitsFrom s.packedStreamBit 0 (payload code bs) →
    nb.toNat = (payload code bs).length → nb.toNat ≤ 8 * s.regs.pkdLen.toNat → bs.length ≤ s.regs.dstCap.toNat →
    ∃ t, exec .decompress s = .next t ∧ t.readBytes ⟨s.regs.dstAddr.toNat, bs.length⟩ = bs ∧ t.code = code ∧
      t.regs = { s.regs.setBitcnt nb with
        nsym := BitVec.ofNat 9 es.length, dstLen := BitVec.ofNat 32 bs.length, freqValid := false, treeValid := false,
        codeValid := false }.reportSuccess ∧
      SameMemoryOutside [⟨s.regs.dstAddr.toNat, bs.length⟩] s t ∧ t.freq = s.freq ∧ t.node = s.node ∧
      SameSurroundings s t

/-- `DECOMPRESS` is its two step commands run in order, except that the valid flags end 0 (R147, R149): where `RDHDR` and
then `DECODE` succeed the results agree; where `RDHDR` fails the report is `RDHDR`'s, "A header fault is always reported in
preference to a payload fault"; where `DECODE` fails it is `DECODE`'s, with the header's `NSYM` and `BITCNT`. -/
def Obligations.DecompressIsTwoSteps : Prop :=
  ∀ s s1 s2 : State, WindowsOk .decompress s → InRange s.regs.pkdAddr s.regs.pkdLen →
    InRange s.regs.dstAddr s.regs.dstCap → exec .rdhdr s = .next s1 →
    (s1.regs.err = true → ∃ t, exec .decompress s = .next t ∧ t.regs = { s1.regs with dstLen := 0#32 }) ∧
    (s1.regs.err = false → exec .decode s1 = .next s2 →
      ∃ t, exec .decompress s = .next t ∧
        t.regs = { s2.regs with freqValid := false, treeValid := false, codeValid := false } ∧ SameTables s2 t ∧
        (s2.regs.err = false → SameMemory s2 t))

/-- R124: "a successful `WRHDR` followed by `RDHDR` on the bytes written (with `HDR_LEN` as `WRHDR` left it) succeeds and
leaves `CODE`, `NSYM` and `BITCNT` equal to what they were". -/
def Obligations.HeaderRoundTrips : Prop :=
  ∀ s t : State, ContextInv s → s.regs.codeValid = true → exec .wrhdr s = .next t → t.regs.err = false →
    WindowsOk .rdhdr t →
    ∃ u, exec .rdhdr t = .next u ∧ u.regs.err = false ∧ u.code = s.code ∧ u.regs.nsym = s.regs.nsym ∧
      u.regs.bitcnt = s.regs.bitcnt

/-- The step commands' round trip (R136): what a successful `ENCODE` produced, `DECODE` with the same table turns back into
the input, on any state that holds the packed stream, `PKD_LEN`, `BITCNT` and the table, with `DST_CAP` large enough. The
premise on the table is the invariant R43 (c). -/
def Obligations.EncodeDecodeRoundTrips : Prop :=
  ∀ s t u : State, ContextInv s → exec .encode s = .next t → t.regs.err = false →
    u.code = s.code → u.regs.codeValid = true → u.regs.bitcnt = t.regs.bitcnt → u.regs.pkdLen = t.regs.pkdLen →
    u.readBytes ⟨u.regs.pkdAddr.toNat, t.regs.pkdLen.toNat⟩ = t.readBytes ⟨t.regs.pkdAddr.toNat, t.regs.pkdLen.toNat⟩ →
    s.regs.srcLen.toNat ≤ u.regs.dstCap.toNat → InRange u.regs.pkdAddr u.regs.pkdLen →
    InRange u.regs.dstAddr u.regs.dstCap → WindowsOk .decode u →
    ∃ v, exec .decode u = .next v ∧ v.regs.err = false ∧ v.regs.dstLen = s.regs.srcLen ∧
      v.readBytes ⟨u.regs.dstAddr.toNat, s.regs.srcLen.toNat⟩ = s.srcBytes

/-- R148: "`COMPRESS` of `S` followed by `DECOMPRESS` of the header and packed stream it produced (with `HDR_LEN`,
`PKD_LEN` as `COMPRESS` left them and `DST_CAP >= len(S)`) succeeds with `DST_LEN = len(S)` and `DST` = `S`", on any state
that holds the header and the packed stream. -/
def Obligations.CompressDecompressRoundTrips : Prop :=
  ∀ s t u : State, exec .compress s = .next t → t.regs.err = false →
    u.regs.hdrLen = t.regs.hdrLen → u.regs.pkdLen = t.regs.pkdLen →
    u.readBytes ⟨u.regs.hdrAddr.toNat, t.regs.hdrLen.toNat⟩ = t.readBytes ⟨t.regs.hdrAddr.toNat, t.regs.hdrLen.toNat⟩ →
    u.readBytes ⟨u.regs.pkdAddr.toNat, t.regs.pkdLen.toNat⟩ = t.readBytes ⟨t.regs.pkdAddr.toNat, t.regs.pkdLen.toNat⟩ →
    s.regs.srcLen.toNat ≤ u.regs.dstCap.toNat → InRange u.regs.hdrAddr u.regs.hdrLen →
    InRange u.regs.pkdAddr u.regs.pkdLen → InRange u.regs.dstAddr u.regs.dstCap → WindowsOk .decompress u →
    ∃ v, exec .decompress u = .next v ∧ v.regs.err = false ∧ v.regs.dstLen = s.regs.srcLen ∧
      v.readBytes ⟨u.regs.dstAddr.toNat, s.regs.srcLen.toNat⟩ = s.srcBytes

/-! ### Errors common to the commands -/

/-- R152: `EMPTY_INPUT` (code 1, `SUB = 0`, `ERRINFO = 0`) is raised "by `BUILD` when `NSYM = 0`" and "by `COMPRESS` when
`SRC_LEN = 0`"; not by `COUNT`, `ENCODE` or `DECODE`, which complete on an empty input. -/
def Obligations.EmptyInputIsReported : Prop :=
  (∀ s : State, s.regs.freqValid = true → s.regs.nsym = 0#9 →
    ∃ t, exec .build s = .next t ∧
      t.regs = { s.regs with treeValid := false, codeValid := false }.reportError ⟨.emptyInput, 0#8, 0#32⟩ ∧
      SameTables s t ∧ SameMemory s t) ∧
  (∀ s : State, WindowsOk .compress s → InRange s.regs.hdrAddr s.regs.hdrCap → InRange s.regs.pkdAddr s.regs.pkdCap →
    s.regs.srcLen = 0#32 →
    ∃ t, exec .compress s = .next t ∧
      t.regs = { s.regs.clearValid with hdrLen := 0#32, pkdLen := 0#32 }.reportError ⟨.emptyInput, 0#8, 0#32⟩ ∧
      SameTables s t ∧ SameMemoryOutside (writeRegions .compress s.regs) s t) ∧
  (∀ i ∈ [Instr.count, .encode, .decode], ∀ s t : State, exec i s = .next t → t.regs.errCode ≠ 1#8)

/-- R156: a step command without the table it needs completes with `SEQUENCE` (code 5), `SUB` the missing flag (1
`FREQ_VALID` for `BUILD`, 2 `TREE_VALID` for `GENCODE`, 3 `CODE_VALID` for `ENCODE`, `WRHDR`, `DECODE`), `ERRINFO = 0`, "with
no other change" than the result length at 0 (R161). -/
def Obligations.SequenceIsReported : Prop :=
  ∀ (i : Instr) (sub : Byte) (s : State),
    (i, sub) ∈ [(Instr.build, 1#8), (Instr.gencode, 2#8), (Instr.encode, 3#8), (Instr.wrhdr, 3#8), (Instr.decode, 3#8)] →
    WindowsOk i s → neededFlag i s.regs = false →
    ∃ t, exec i s = .next t ∧ t.regs = (s.regs.zeroLens (writeWindows i)).reportError ⟨.sequence, sub, 0#32⟩ ∧
      SameTables s t ∧ SameMemory s t ∧ SameSurroundings s t

/-- R158: `RANGE` (code 7): the first window of the command's row, in the order `SRC`, `HDR`, `PKD`, `DST`, that "runs
past address `2^32 - 1`"; `SUB` is its number, `ERRINFO` its address register, no byte of memory is written, and `NSYM`,
`NNODE`, `ROOT`, `BITCNT`, `FREQ` and `NODE` are unchanged. -/
def Obligations.RangeIsReported : Prop :=
  ∀ (i : Instr) (s : State) (w : Window) (len : Word) (before after : List (Window × Word)),
    WindowsOk i s → neededFlag i s.regs = true → checkedWindows i s.regs = before ++ (w, len) :: after →
    (∀ row ∈ before, InRange (s.regs.addr row.1) row.2) → 2 ^ 32 < (s.regs.addr w).toNat + len.toNat →
    ∃ t, exec i s = .next t ∧ t.regs.err = true ∧ t.regs.errCode = 7#8 ∧ t.regs.errSub = w.number ∧
      t.regs.errInfo = s.regs.addr w ∧ SameMemory s t ∧ t.freq = s.freq ∧ t.node = s.node ∧
      t.regs.nsym = s.regs.nsym ∧ t.regs.nnode = s.regs.nnode ∧ t.regs.root = s.regs.root ∧
      t.regs.bitcnt = s.regs.bitcnt

/-- R160 and R161: every error completion leaves the block idle with `DONE` and `ERR` set and a code from 1 to 8; the
result length of every window the command may write is 0; a composite command ends with the valid flags 0; a failed
`RDHDR` ends with `CODE_VALID = 0`; memory changes at most in the capacity ranges, which then hold any value, and not at all
on `SEQUENCE`, `ILLEGAL_CMD` and `RANGE` (R57). -/
def Obligations.ErrorCompletionClaimsNothing : Prop :=
  ∀ (i : Instr) (s t : State), exec i s = .next t → t.regs.err = true →
    t.regs.busy = false ∧ t.regs.done = true ∧ 1 ≤ t.regs.errCode.toNat ∧ t.regs.errCode.toNat ≤ 8 ∧
    (∀ w ∈ writeWindows i, t.regs.readLen w = 0#32) ∧
    (i = .compress ∨ i = .decompress →
      t.regs.freqValid = false ∧ t.regs.treeValid = false ∧ t.regs.codeValid = false) ∧
    (i = .rdhdr → t.regs.codeValid = false) ∧
    SameMemoryOutside (writeRegions i s.regs) s t ∧
    (t.regs.errCode ∉ [5#8, 6#8, 7#8] → AnyValueIn (writeRegions i s.regs) t) ∧
    (t.regs.errCode ∈ [5#8, 6#8, 7#8] → SameMemory s t)

/-- R174: the first command after reset, with no register programmed: `COUNT` gives `NSYM = 0`, `COMPRESS` gives
`EMPTY_INPUT`, `RDHDR` and `DECOMPRESS` give `MALFORMED_HEADER` sub 2 at offset 0, and `BUILD`, `GENCODE`, `ENCODE`,
`WRHDR`, `DECODE` give `SEQUENCE`; `NOP` and `CLEAR` change nothing but `DONE`. The command is placed by the model's
`withFetchWord` (log entry 15). -/
def Obligations.FirstCommandAfterReset : Prop :=
  ∀ i : Instr, ∃ t, step (State.reset.withFetchWord 32 (encode i).toNat) = .next t ∧
    t.regs = match i with
      | .nop | .clear => { Regs.reset with done := true }
      | .count => { Regs.reset with done := true, freqValid := true }
      | .compress => Regs.reset.reportError ⟨.emptyInput, 0#8, 0#32⟩
      | .rdhdr | .decompress => Regs.reset.reportError ⟨.malformedHeader, 2#8, 0#32⟩
      | .build => Regs.reset.reportError ⟨.sequence, 1#8, 0#32⟩
      | .gencode => Regs.reset.reportError ⟨.sequence, 2#8, 0#32⟩
      | .encode | .wrhdr | .decode => Regs.reset.reportError ⟨.sequence, 3#8, 0#32⟩

/-! ### Frames, flags and completion over all commands -/

/-- "No command writes an address, capacity, `SRC_LEN`, `CTRL`, `TSEL` or `TIDX` register" (R140), on success or on error;
and no command touches the reset input, the agents' coming actions or what the host has observed. -/
def Obligations.CommandsKeepOperands : Prop :=
  ∀ (i : Instr) (s t : State), exec i s = .next t → SameOperands s.regs t.regs ∧ SameSurroundings s t

/-- R56: a command that completes without error has changed no byte but bytes `0 .. N-1` of each window it writes, `N` the
result length it reports, and those are defined whatever they held; a command that writes no window changes no byte whatever its outcome (R55). -/
def Obligations.MemoryWritesAreConfined : Prop :=
  ∀ (i : Instr) (s t : State), exec i s = .next t →
    (t.regs.err = false → SameMemoryOutside (resultRegions i t.regs) s t ∧ DefinedIn (resultRegions i t.regs) t) ∧
    (writeWindows i = [] → SameMemory s t) ∧
    (t.regs.err = false → ∀ w ∈ writeWindows i, (t.regs.readLen w).toNat ≤ (s.regs.cap w).toNat)

/-- The columns "registers written" and "tables written" of R140: a command leaves every result register and every table
that its row does not name unchanged, on success and on error. -/
def Obligations.ResultsWrittenByRow : Prop :=
  ∀ (i : Instr) (s t : State), exec i s = .next t →
    (i ∉ [Instr.clear, .count, .rdhdr, .compress, .decompress] → t.regs.nsym = s.regs.nsym) ∧
    (i ∉ [Instr.clear, .build, .compress] → t.regs.nnode = s.regs.nnode ∧ t.regs.root = s.regs.root) ∧
    (i ∉ [Instr.encode, .rdhdr, .compress, .decompress] → t.regs.bitcnt = s.regs.bitcnt) ∧
    (i ∉ [Instr.wrhdr, .compress] → t.regs.hdrLen = s.regs.hdrLen) ∧
    (i ∉ [Instr.encode, .compress] → t.regs.pkdLen = s.regs.pkdLen) ∧
    (i ∉ [Instr.decode, .decompress] → t.regs.dstLen = s.regs.dstLen) ∧
    (i ∉ [Instr.count, .compress] → t.freq = s.freq) ∧
    (i ∉ [Instr.build, .compress] → t.node = s.node) ∧
    (i ∉ [Instr.gencode, .rdhdr, .compress, .decompress] → t.code = s.code)

/-- R150 and the column "`F T C` after" of R140: a command that completes without error leaves `BUSY = 0`, `DONE = 1`, no
report, `IRQ` as `IEN` says, and the three valid flags as its row says. -/
def Obligations.FlagsAfterSuccess : Prop :=
  ∀ (i : Instr) (s t : State), exec i s = .next t → t.regs.err = false →
    (t.regs.busy = false ∧ t.regs.done = true ∧ t.regs.errCode = 0#8 ∧ t.regs.errSub = 0#8 ∧ t.regs.errInfo = 0#32 ∧
      t.irq = s.regs.ien) ∧
    (t.regs.freqValid, t.regs.treeValid, t.regs.codeValid) =
      match i with
      | .nop | .encode | .wrhdr | .decode => (s.regs.freqValid, s.regs.treeValid, s.regs.codeValid)
      | .clear | .compress | .decompress => (false, false, false)
      | .count => (true, false, false)
      | .build => (true, true, false)
      | .gencode => (s.regs.freqValid, s.regs.treeValid, true)
      | .rdhdr => (false, false, true)

/-- "Every command completes" (R186), and a run is refused exactly where the host broke R63 (c) or (d): the complete step
of a command answers a state that is idle with `DONE` set, unless some address lies in a capacity range it may write and in
another window it uses, or in a window it uses and in a region that is not ordinary memory. That such a run is refused
also where the command would have ended in `SEQUENCE` or `RANGE` is the model's reading (log entry 9). -/
def Obligations.CompletesUnlessWindowsBreach : Prop :=
  ∀ (i : Instr) (s : State),
    (∃ t, exec i s = .next t ∧ t.regs.busy = false ∧ t.regs.done = true) ↔
      (∀ g ∈ writeRegions i s.regs, ∀ h ∈ readRegions i s.regs, ∀ a, ¬ (g.holds a = true ∧ h.holds a = true)) ∧
      (writeRegions i s.regs).Pairwise (fun g h => ∀ a, ¬ (g.holds a = true ∧ h.holds a = true)) ∧
      (∀ g ∈ usedRegions i s.regs, ∀ h ∈ s.platform, ∀ a, ¬ (g.holds a = true ∧ h.holds a = true))

/-- Accesses of the other agents to memory (R46, R47, R63): a byte written to ordinary memory outside the windows in use
reads back and changes no other byte and nothing else; a write into a window that the pending command uses is refused (R63
(a)); a read changes only what the host has observed (and the count of free values drawn), and returns the byte unless the
pending command may write it (R63 (b)) or it holds any value since a failed command or a reset (R57, R175); a written byte
does so no more. Where the refusal stands is the model's reading (log entry 10), and so is that a byte that holds any value
shows a new one at every read (log entry 2). -/
def Obligations.HostMemoryAccess : Prop :=
  (∀ (s : State) (a : Word) (v : Byte), anyHolds s.platform a.toNat = false →
    anyHolds s.windowsInUse a.toNat = false →
    ∃ t, act (.memWrite a v) s = .next t ∧ t.byteAt a.toNat = v ∧ t.anyValueAt a.toNat = false ∧
      (∀ b, b ≠ a.toNat → SameByte s t b) ∧ t = { s with mem := t.mem }) ∧
  (∀ (s : State) (a : Word) (v : Byte), anyHolds s.platform a.toNat = false →
    anyHolds s.windowsInUse a.toNat = true → act (.memWrite a v) s = .refused .foreignWrite) ∧
  (∀ (s : State) (a : Word), anyHolds s.platform a.toNat = false →
    ∃ v n, act (.memRead a) s = .next { s with observed := .mem a v :: s.observed, fresh := n } ∧
      (anyHolds s.windowsInDoubt a.toNat = false → s.anyValueAt a.toNat = false → v = s.byteAt a.toNat))

/-- The sequencer (R15): `BUSY` goes from 0 to 1 only when a write to `CMD` is accepted, and from 1 to 0 only at the
block's *complete* step or when reset is asserted ("Reset is the only way, apart from completing", R173). Nothing but those
two changes a valid flag, a table, `NSYM`, `NNODE`, `ROOT` or `DST_LEN`; the error report changes also when a write to `CMD`
is accepted (R19), and each of `HDR_LEN`, `PKD_LEN`, `BITCNT_LO` and `BITCNT_HI` also when the host writes it (R17, R183), on
an idle block only. -/
def Obligations.OnlyTheBlockEndsACommand : Prop :=
  ∀ s t : State, step s = .next t →
    (s.regs.busy = false → t.regs.busy = true → ∃ w rest, s.script = .regWrite 0x04#8 4 w :: rest ∧ t.pend = w) ∧
    ((s.regs.busy = false ∨ ∃ h rest, s.script = h :: rest ∧ h ≠ .blockTurn) →
      (∀ rest, s.script ≠ .resetPin true :: rest) →
      (s.regs.busy = true → t.regs.busy = true) ∧ SameTables s t ∧ t.regs.freqValid = s.regs.freqValid ∧
      t.regs.treeValid = s.regs.treeValid ∧ t.regs.codeValid = s.regs.codeValid ∧ t.regs.nsym = s.regs.nsym ∧
      t.regs.nnode = s.regs.nnode ∧ t.regs.root = s.regs.root ∧ t.regs.dstLen = s.regs.dstLen ∧
      ((s.regs.busy = true ∨ ∀ w rest, s.script ≠ .regWrite 0x04#8 4 w :: rest) →
        t.regs.err = s.regs.err ∧ t.regs.errCode = s.regs.errCode ∧ t.regs.errSub = s.regs.errSub ∧
        t.regs.errInfo = s.regs.errInfo) ∧
      ((s.regs.busy = true ∨ ∀ w rest, s.script ≠ .regWrite 0x28#8 4 w :: rest) → t.regs.hdrLen = s.regs.hdrLen) ∧
      ((s.regs.busy = true ∨ ∀ w rest, s.script ≠ .regWrite 0x34#8 4 w :: rest) → t.regs.pkdLen = s.regs.pkdLen) ∧
      ((s.regs.busy = true ∨ ∀ w rest, s.script ≠ .regWrite 0x44#8 4 w :: rest) → t.regs.bitcntLo = s.regs.bitcntLo) ∧
      ((s.regs.busy = true ∨ ∀ w rest, s.script ≠ .regWrite 0x48#8 4 w :: rest) → t.regs.bitcntHi = s.regs.bitcntHi))

/-! ### Invariants -/

/-- Every step keeps memory in canonical form: addresses strictly rising, none outside the `2^32` bytes of R46. The form is
the model's own (log entry 21). -/
def Obligations.StepKeepsMemoryCanonical : Prop :=
  ∀ s t : State, MemoryInv s → step s = .next t → MemoryInv t

/-- Every step keeps R43 (e) and what R20, R19, R22 and R173 say of the report: `ERR = 1` exactly when
`ERRCODE.CODE != 0`, "`BUSY` and `DONE` are never both 1", no report while a command is pending, no code above 8, and the
registers at their reset values while reset is asserted. -/
def Obligations.StepKeepsStatus : Prop :=
  ∀ s t : State, StatusInv s → step s = .next t → StatusInv t

/-- Every step keeps R43 (a) to (d): what the valid flags claim of `NSYM`, `NNODE`, `ROOT` and the three tables. -/
def Obligations.StepKeepsContext : Prop :=
  ∀ s t : State, ContextInv s → step s = .next t → ContextInv t

/-- The three invariants hold right after reset. -/
def Obligations.ResetMeetsInvariants : Prop :=
  MemoryInv State.reset ∧ StatusInv State.reset ∧ ContextInv State.reset

end
end

