-- ==== Sys2Proof/Laws/Bits.lean ====
section
/-! SUPPORT. What the bit-string, packing, big-endian and table helpers do, once each. -/

namespace Sys2Proof.Machine

/-! ### `ceil8` -/

theorem ceil8_bounds (b : Nat) : b ≤ 8 * ceil8 b ∧ 8 * ceil8 b < b + 8 := by
  unfold ceil8
  omega

@[simp] theorem ceil8_zero : ceil8 0 = 0 := rfl

theorem ceil8_le_iff (b c : Nat) : ceil8 b ≤ c ↔ b ≤ 8 * c := by
  unfold ceil8
  omega

/-! ### Bits in words -/

theorem getLsbD_shiftConcat {n : Nat} (x : BitVec n) (b : Bool) (i : Nat) :
    (x.shiftConcat b).getLsbD i = (decide (i < n) && if i = 0 then b else x.getLsbD (i - 1)) := by
  rw [BitVec.getLsbD_shiftConcat]

/-- Bit `i` of a word filled first bit first: the bit at place `n - 1 - i` of the string (R75). -/
theorem getLsbD_msbFirst (n : Nat) (p : Nat → Bool) (i : Nat) :
    (msbFirst n p).getLsbD i = (decide (i < n) && p (n - 1 - i)) := by
  have key : ∀ k, ((List.range k).foldl (fun acc t => acc.shiftConcat (p t)) (0#n)).getLsbD i =
      (decide (i < n) && (decide (i < k) && p (k - 1 - i))) := by
    intro k
    induction k generalizing i with
    | zero => simp
    | succ k ih =>
      rw [List.range_succ, List.foldl_append]
      simp only [List.foldl_cons, List.foldl_nil, getLsbD_shiftConcat]
      rcases i with _ | i
      · simp
      · simp only [Nat.add_sub_cancel, Nat.succ_ne_zero, if_false, ih]
        by_cases h1 : i + 1 < n
        · simp [h1, Nat.lt_of_succ_lt h1, Nat.sub_sub, Nat.add_comm 1]
        · simp [h1]
  have h := key n
  unfold msbFirst
  rw [h]
  by_cases h1 : i < n <;> simp [h1]

/-- Bit `j` of the `bits` field is the `j`-th bit of the string, 0 beyond (R37). -/
theorem getLsbD_bitsField (p : BitString) (j : Nat) :
    (bitsField p).getLsbD j = (decide (j < 256) && p[j]?.getD false) := by
  induction p generalizing j with
  | nil => simp [bitsField]
  | cons b bs ih =>
    simp only [bitsField, getLsbD_shiftConcat]
    rcases j with _ | j
    · simp
    · simp only [Nat.succ_ne_zero, if_false, Nat.add_sub_cancel, ih, List.getElem?_cons_succ]
      by_cases h : j + 1 < 256
      · simp [h, Nat.lt_of_succ_lt h]
      · simp [h]

@[simp] theorem CodeEntry.path_length (e : CodeEntry) : e.path.length = e.len.toNat := by
  simp [CodeEntry.path]

theorem CodeEntry.path_getElem (e : CodeEntry) (j : Nat) (h : j < e.path.length) :
    e.path[j] = e.bits.getLsbD j := by
  simp [CodeEntry.path]

theorem CodeEntry.store_len {p : BitString} (h : p.length ≤ 255) : (CodeEntry.store p).len.toNat = p.length := by
  simp [CodeEntry.store]
  omega

/-- A stored bit string reads back (R37, R101). -/
theorem CodeEntry.path_store {p : BitString} (h : p.length ≤ 255) : (CodeEntry.store p).path = p := by
  apply List.ext_getElem
  · simp [CodeEntry.store_len h]
  · intro j h1 h2
    rw [CodeEntry.path_getElem]
    simp [CodeEntry.store, getLsbD_bitsField, h2]
    omega

theorem CodeEntry.store_clean {p : BitString} (h : p.length ≤ 255) : (CodeEntry.store p).Clean := by
  intro j hj
  rw [CodeEntry.store_len h] at hj
  simp [CodeEntry.store, getLsbD_bitsField, List.getElem?_eq_none hj]

theorem CodeEntry.noCode_clean : CodeEntry.noCode.Clean := by
  intro j _
  simp [CodeEntry.noCode]

/-- A clean entry is determined by its code. -/
theorem CodeEntry.ext_of_path {e f : CodeEntry} (he : e.Clean) (hf : f.Clean) (h : e.path = f.path) : e = f := by
  have hl : e.len.toNat = f.len.toNat := by simpa using congrArg List.length h
  obtain ⟨el, eb⟩ := e
  obtain ⟨fl, fb⟩ := f
  have hlen : el = fl := BitVec.eq_of_toNat_eq hl
  subst hlen
  congr 1
  apply BitVec.eq_of_getLsbD_eq
  intro j _
  by_cases hj : j < el.toNat
  · have h1 := CodeEntry.path_getElem ⟨el, eb⟩ j (by simpa using hj)
    have h2 := CodeEntry.path_getElem ⟨el, fb⟩ j (by simpa using hj)
    have h3 : (CodeEntry.path ⟨el, eb⟩)[j]'(by simpa using hj) = (CodeEntry.path ⟨el, fb⟩)[j]'(by simpa using hj) := by
      simp only [h]
    rw [h1, h2] at h3
    exact h3
  · rw [he j (by simpa using hj), hf j (by simpa using hj)]

/-! ### Big-endian integers -/

@[simp] theorem bigEndian_length (k v : Nat) : (bigEndian k v).length = k := by simp [bigEndian]

theorem bigEndian_getElem (k v j : Nat) (h : j < (bigEndian k v).length) :
    (bigEndian k v)[j] = BitVec.ofNat 8 (v / 256 ^ (k - 1 - j)) := by
  simp [bigEndian]

/-- The value of the bytes of an integer (R70). -/
theorem bigEndianVal_bigEndian (H : Nat → Byte) (o k v : Nat) (hv : v < 256 ^ k)
    (h : ∀ j (hj : j < k), H (o + j) = (bigEndian k v)[j]'(by simpa using hj)) : bigEndianVal H o k = v := by
  have key : ∀ m, m ≤ k →
      (List.range m).foldl (fun acc j => acc * 256 + (H (o + j)).toNat) 0 = v / 256 ^ (k - m) := by
    intro m
    induction m with
    | zero => intro _; simp [Nat.div_eq_of_lt hv]
    | succ m ih =>
      intro hm
      rw [List.range_succ, List.foldl_append, ih (by omega)]
      simp only [List.foldl_cons, List.foldl_nil]
      rw [h m (by omega), bigEndian_getElem]
      have e1 : k - m = (k - 1 - m) + 1 := by omega
      have e2 : k - (m + 1) = k - 1 - m := by omega
      rw [e1, e2, pow_succ, ← Nat.div_div_eq_div_mul, BitVec.toNat_ofNat]
      omega
  have := key k (le_refl k)
  simpa [bigEndianVal] using this

/-! ### Tables -/

@[simp] theorem tableGet_tableSet_same {α : Type} (t : Vector α 256) (s : Byte) (v : α) :
    tableGet (tableSet t s v) s = v := by
  simp [tableGet, tableSet]

theorem tableGet_tableSet_other {α : Type} (t : Vector α 256) {s u : Byte} (v : α) (h : u ≠ s) :
    tableGet (tableSet t s v) u = tableGet t u := by
  have h' : s.toNat ≠ u.toNat := fun e => h (BitVec.eq_of_toNat_eq e.symm)
  simp [tableGet, tableSet, Vector.getElem_set_ne _ _ h']

theorem tableGet_tableSet {α : Type} (t : Vector α 256) (s u : Byte) (v : α) :
    tableGet (tableSet t s v) u = if u = s then v else tableGet t u := by
  by_cases h : u = s
  · subst h; simp
  · simp [h, tableGet_tableSet_other _ _ h]

@[simp] theorem tableGet_replicate {α : Type} (v : α) (s : Byte) : tableGet (Vector.replicate 256 v) s = v := by
  simp [tableGet]

@[simp] theorem tableGet_noCodes (s : Byte) : tableGet noCodes s = CodeEntry.noCode := tableGet_replicate _ _

/-- Two tables with the same entries are equal. -/
theorem table_ext {α : Type} {t u : Vector α 256} (h : ∀ s : Byte, tableGet t s = tableGet u s) : t = u := by
  apply Vector.ext
  intro i hi
  have := h (BitVec.ofNat 8 i)
  have e : (BitVec.ofNat 8 i).toNat = i := by simp; omega
  simpa [tableGet, e] using this

/-! ### The symbols -/

@[simp] theorem symbols_length : symbols.length = 256 := by simp [symbols]

@[simp] theorem mem_symbols (s : Byte) : s ∈ symbols := by
  simp only [symbols, List.mem_map, List.mem_range]
  exact ⟨s.toNat, s.isLt, by simp⟩

/-- The symbols stand in ascending order. -/
theorem symbols_ascending : symbols.Pairwise (fun a b => a.toNat < b.toNat) := by
  rw [symbols, List.pairwise_map]
  refine List.Pairwise.imp_of_mem ?_ List.pairwise_lt_range
  intro a b ha hb hab
  simp only [List.mem_range] at ha hb
  simp only [BitVec.toNat_ofNat]
  omega

theorem present_ascending (freq : FreqTable) : (present freq).Pairwise (fun a b => a.toNat < b.toNat) :=
  symbols_ascending.sublist List.filter_sublist

theorem coded_ascending (code : CodeTable) : (coded code).Pairwise (fun a b => a.toNat < b.toNat) :=
  symbols_ascending.sublist List.filter_sublist

theorem nodup_of_ascending {l : List Byte} (h : l.Pairwise (fun a b => a.toNat < b.toNat)) : l.Nodup :=
  h.imp (fun {a b} hab e => by subst e; exact Nat.lt_irrefl _ hab)

@[simp] theorem mem_present (freq : FreqTable) (s : Byte) : s ∈ present freq ↔ tableGet freq s ≠ 0#32 := by
  simp [present]

@[simp] theorem mem_coded (code : CodeTable) (s : Byte) : s ∈ coded code ↔ (tableGet code s).len ≠ 0#8 := by
  simp [coded]

theorem present_length_le (freq : FreqTable) : (present freq).length ≤ 256 := by
  have := List.length_filter_le (fun s => tableGet freq s != 0#32) symbols
  simpa [present] using this

theorem coded_length_le (code : CodeTable) : (coded code).length ≤ 256 := by
  have := List.length_filter_le (fun s => (tableGet code s).len != 0#8) symbols
  simpa [coded] using this

end Sys2Proof.Machine
end

