-- ==== Sys2Proof/Laws/State.lean ====
section
/-! SUPPORT. One lemma per field per named update of `Regs` and of `State`, each true by `rfl`: a later proof never
unfolds a record update. -/

namespace Sys2Proof.Machine

/-! ### `Regs.clearValid` -/

@[simp] theorem Regs.clearValid_busy (r : Regs) : (r.clearValid).busy = r.busy := rfl
@[simp] theorem Regs.clearValid_done (r : Regs) : (r.clearValid).done = r.done := rfl
@[simp] theorem Regs.clearValid_err (r : Regs) : (r.clearValid).err = r.err := rfl
@[simp] theorem Regs.clearValid_freqValid (r : Regs) : (r.clearValid).freqValid = false := rfl
@[simp] theorem Regs.clearValid_treeValid (r : Regs) : (r.clearValid).treeValid = false := rfl
@[simp] theorem Regs.clearValid_codeValid (r : Regs) : (r.clearValid).codeValid = false := rfl
@[simp] theorem Regs.clearValid_ien (r : Regs) : (r.clearValid).ien = r.ien := rfl
@[simp] theorem Regs.clearValid_errCode (r : Regs) : (r.clearValid).errCode = r.errCode := rfl
@[simp] theorem Regs.clearValid_errSub (r : Regs) : (r.clearValid).errSub = r.errSub := rfl
@[simp] theorem Regs.clearValid_errInfo (r : Regs) : (r.clearValid).errInfo = r.errInfo := rfl
@[simp] theorem Regs.clearValid_srcAddr (r : Regs) : (r.clearValid).srcAddr = r.srcAddr := rfl
@[simp] theorem Regs.clearValid_srcLen (r : Regs) : (r.clearValid).srcLen = r.srcLen := rfl
@[simp] theorem Regs.clearValid_hdrAddr (r : Regs) : (r.clearValid).hdrAddr = r.hdrAddr := rfl
@[simp] theorem Regs.clearValid_hdrCap (r : Regs) : (r.clearValid).hdrCap = r.hdrCap := rfl
@[simp] theorem Regs.clearValid_hdrLen (r : Regs) : (r.clearValid).hdrLen = r.hdrLen := rfl
@[simp] theorem Regs.clearValid_pkdAddr (r : Regs) : (r.clearValid).pkdAddr = r.pkdAddr := rfl
@[simp] theorem Regs.clearValid_pkdCap (r : Regs) : (r.clearValid).pkdCap = r.pkdCap := rfl
@[simp] theorem Regs.clearValid_pkdLen (r : Regs) : (r.clearValid).pkdLen = r.pkdLen := rfl
@[simp] theorem Regs.clearValid_dstAddr (r : Regs) : (r.clearValid).dstAddr = r.dstAddr := rfl
@[simp] theorem Regs.clearValid_dstCap (r : Regs) : (r.clearValid).dstCap = r.dstCap := rfl
@[simp] theorem Regs.clearValid_dstLen (r : Regs) : (r.clearValid).dstLen = r.dstLen := rfl
@[simp] theorem Regs.clearValid_bitcntLo (r : Regs) : (r.clearValid).bitcntLo = r.bitcntLo := rfl
@[simp] theorem Regs.clearValid_bitcntHi (r : Regs) : (r.clearValid).bitcntHi = r.bitcntHi := rfl
@[simp] theorem Regs.clearValid_nsym (r : Regs) : (r.clearValid).nsym = r.nsym := rfl
@[simp] theorem Regs.clearValid_nnode (r : Regs) : (r.clearValid).nnode = r.nnode := rfl
@[simp] theorem Regs.clearValid_root (r : Regs) : (r.clearValid).root = r.root := rfl
@[simp] theorem Regs.clearValid_tsel (r : Regs) : (r.clearValid).tsel = r.tsel := rfl
@[simp] theorem Regs.clearValid_tidx (r : Regs) : (r.clearValid).tidx = r.tidx := rfl
@[simp] theorem Regs.clearValid_tword (r : Regs) : (r.clearValid).tword = r.tword := rfl

/-! ### `Regs.reportSuccess` -/

@[simp] theorem Regs.reportSuccess_busy (r : Regs) : (r.reportSuccess).busy = false := rfl
@[simp] theorem Regs.reportSuccess_done (r : Regs) : (r.reportSuccess).done = true := rfl
@[simp] theorem Regs.reportSuccess_err (r : Regs) : (r.reportSuccess).err = false := rfl
@[simp] theorem Regs.reportSuccess_freqValid (r : Regs) : (r.reportSuccess).freqValid = r.freqValid := rfl
@[simp] theorem Regs.reportSuccess_treeValid (r : Regs) : (r.reportSuccess).treeValid = r.treeValid := rfl
@[simp] theorem Regs.reportSuccess_codeValid (r : Regs) : (r.reportSuccess).codeValid = r.codeValid := rfl
@[simp] theorem Regs.reportSuccess_ien (r : Regs) : (r.reportSuccess).ien = r.ien := rfl
@[simp] theorem Regs.reportSuccess_errCode (r : Regs) : (r.reportSuccess).errCode = 0#8 := rfl
@[simp] theorem Regs.reportSuccess_errSub (r : Regs) : (r.reportSuccess).errSub = 0#8 := rfl
@[simp] theorem Regs.reportSuccess_errInfo (r : Regs) : (r.reportSuccess).errInfo = 0#32 := rfl
@[simp] theorem Regs.reportSuccess_srcAddr (r : Regs) : (r.reportSuccess).srcAddr = r.srcAddr := rfl
@[simp] theorem Regs.reportSuccess_srcLen (r : Regs) : (r.reportSuccess).srcLen = r.srcLen := rfl
@[simp] theorem Regs.reportSuccess_hdrAddr (r : Regs) : (r.reportSuccess).hdrAddr = r.hdrAddr := rfl
@[simp] theorem Regs.reportSuccess_hdrCap (r : Regs) : (r.reportSuccess).hdrCap = r.hdrCap := rfl
@[simp] theorem Regs.reportSuccess_hdrLen (r : Regs) : (r.reportSuccess).hdrLen = r.hdrLen := rfl
@[simp] theorem Regs.reportSuccess_pkdAddr (r : Regs) : (r.reportSuccess).pkdAddr = r.pkdAddr := rfl
@[simp] theorem Regs.reportSuccess_pkdCap (r : Regs) : (r.reportSuccess).pkdCap = r.pkdCap := rfl
@[simp] theorem Regs.reportSuccess_pkdLen (r : Regs) : (r.reportSuccess).pkdLen = r.pkdLen := rfl
@[simp] theorem Regs.reportSuccess_dstAddr (r : Regs) : (r.reportSuccess).dstAddr = r.dstAddr := rfl
@[simp] theorem Regs.reportSuccess_dstCap (r : Regs) : (r.reportSuccess).dstCap = r.dstCap := rfl
@[simp] theorem Regs.reportSuccess_dstLen (r : Regs) : (r.reportSuccess).dstLen = r.dstLen := rfl
@[simp] theorem Regs.reportSuccess_bitcntLo (r : Regs) : (r.reportSuccess).bitcntLo = r.bitcntLo := rfl
@[simp] theorem Regs.reportSuccess_bitcntHi (r : Regs) : (r.reportSuccess).bitcntHi = r.bitcntHi := rfl
@[simp] theorem Regs.reportSuccess_nsym (r : Regs) : (r.reportSuccess).nsym = r.nsym := rfl
@[simp] theorem Regs.reportSuccess_nnode (r : Regs) : (r.reportSuccess).nnode = r.nnode := rfl
@[simp] theorem Regs.reportSuccess_root (r : Regs) : (r.reportSuccess).root = r.root := rfl
@[simp] theorem Regs.reportSuccess_tsel (r : Regs) : (r.reportSuccess).tsel = r.tsel := rfl
@[simp] theorem Regs.reportSuccess_tidx (r : Regs) : (r.reportSuccess).tidx = r.tidx := rfl
@[simp] theorem Regs.reportSuccess_tword (r : Regs) : (r.reportSuccess).tword = r.tword := rfl

/-! ### `Regs.reportError` -/

@[simp] theorem Regs.reportError_busy (r : Regs) (e : Report) : (r.reportError e).busy = false := rfl
@[simp] theorem Regs.reportError_done (r : Regs) (e : Report) : (r.reportError e).done = true := rfl
@[simp] theorem Regs.reportError_err (r : Regs) (e : Report) : (r.reportError e).err = true := rfl
@[simp] theorem Regs.reportError_freqValid (r : Regs) (e : Report) : (r.reportError e).freqValid = r.freqValid := rfl
@[simp] theorem Regs.reportError_treeValid (r : Regs) (e : Report) : (r.reportError e).treeValid = r.treeValid := rfl
@[simp] theorem Regs.reportError_codeValid (r : Regs) (e : Report) : (r.reportError e).codeValid = r.codeValid := rfl
@[simp] theorem Regs.reportError_ien (r : Regs) (e : Report) : (r.reportError e).ien = r.ien := rfl
@[simp] theorem Regs.reportError_errCode (r : Regs) (e : Report) : (r.reportError e).errCode = e.kind.code := rfl
@[simp] theorem Regs.reportError_errSub (r : Regs) (e : Report) : (r.reportError e).errSub = e.sub := rfl
@[simp] theorem Regs.reportError_errInfo (r : Regs) (e : Report) : (r.reportError e).errInfo = e.info := rfl
@[simp] theorem Regs.reportError_srcAddr (r : Regs) (e : Report) : (r.reportError e).srcAddr = r.srcAddr := rfl
@[simp] theorem Regs.reportError_srcLen (r : Regs) (e : Report) : (r.reportError e).srcLen = r.srcLen := rfl
@[simp] theorem Regs.reportError_hdrAddr (r : Regs) (e : Report) : (r.reportError e).hdrAddr = r.hdrAddr := rfl
@[simp] theorem Regs.reportError_hdrCap (r : Regs) (e : Report) : (r.reportError e).hdrCap = r.hdrCap := rfl
@[simp] theorem Regs.reportError_hdrLen (r : Regs) (e : Report) : (r.reportError e).hdrLen = r.hdrLen := rfl
@[simp] theorem Regs.reportError_pkdAddr (r : Regs) (e : Report) : (r.reportError e).pkdAddr = r.pkdAddr := rfl
@[simp] theorem Regs.reportError_pkdCap (r : Regs) (e : Report) : (r.reportError e).pkdCap = r.pkdCap := rfl
@[simp] theorem Regs.reportError_pkdLen (r : Regs) (e : Report) : (r.reportError e).pkdLen = r.pkdLen := rfl
@[simp] theorem Regs.reportError_dstAddr (r : Regs) (e : Report) : (r.reportError e).dstAddr = r.dstAddr := rfl
@[simp] theorem Regs.reportError_dstCap (r : Regs) (e : Report) : (r.reportError e).dstCap = r.dstCap := rfl
@[simp] theorem Regs.reportError_dstLen (r : Regs) (e : Report) : (r.reportError e).dstLen = r.dstLen := rfl
@[simp] theorem Regs.reportError_bitcntLo (r : Regs) (e : Report) : (r.reportError e).bitcntLo = r.bitcntLo := rfl
@[simp] theorem Regs.reportError_bitcntHi (r : Regs) (e : Report) : (r.reportError e).bitcntHi = r.bitcntHi := rfl
@[simp] theorem Regs.reportError_nsym (r : Regs) (e : Report) : (r.reportError e).nsym = r.nsym := rfl
@[simp] theorem Regs.reportError_nnode (r : Regs) (e : Report) : (r.reportError e).nnode = r.nnode := rfl
@[simp] theorem Regs.reportError_root (r : Regs) (e : Report) : (r.reportError e).root = r.root := rfl
@[simp] theorem Regs.reportError_tsel (r : Regs) (e : Report) : (r.reportError e).tsel = r.tsel := rfl
@[simp] theorem Regs.reportError_tidx (r : Regs) (e : Report) : (r.reportError e).tidx = r.tidx := rfl
@[simp] theorem Regs.reportError_tword (r : Regs) (e : Report) : (r.reportError e).tword = r.tword := rfl

/-! ### `Regs.accept` -/

@[simp] theorem Regs.accept_busy (r : Regs) : (r.accept).busy = true := rfl
@[simp] theorem Regs.accept_done (r : Regs) : (r.accept).done = false := rfl
@[simp] theorem Regs.accept_err (r : Regs) : (r.accept).err = false := rfl
@[simp] theorem Regs.accept_freqValid (r : Regs) : (r.accept).freqValid = r.freqValid := rfl
@[simp] theorem Regs.accept_treeValid (r : Regs) : (r.accept).treeValid = r.treeValid := rfl
@[simp] theorem Regs.accept_codeValid (r : Regs) : (r.accept).codeValid = r.codeValid := rfl
@[simp] theorem Regs.accept_ien (r : Regs) : (r.accept).ien = r.ien := rfl
@[simp] theorem Regs.accept_errCode (r : Regs) : (r.accept).errCode = 0#8 := rfl
@[simp] theorem Regs.accept_errSub (r : Regs) : (r.accept).errSub = 0#8 := rfl
@[simp] theorem Regs.accept_errInfo (r : Regs) : (r.accept).errInfo = 0#32 := rfl
@[simp] theorem Regs.accept_srcAddr (r : Regs) : (r.accept).srcAddr = r.srcAddr := rfl
@[simp] theorem Regs.accept_srcLen (r : Regs) : (r.accept).srcLen = r.srcLen := rfl
@[simp] theorem Regs.accept_hdrAddr (r : Regs) : (r.accept).hdrAddr = r.hdrAddr := rfl
@[simp] theorem Regs.accept_hdrCap (r : Regs) : (r.accept).hdrCap = r.hdrCap := rfl
@[simp] theorem Regs.accept_hdrLen (r : Regs) : (r.accept).hdrLen = r.hdrLen := rfl
@[simp] theorem Regs.accept_pkdAddr (r : Regs) : (r.accept).pkdAddr = r.pkdAddr := rfl
@[simp] theorem Regs.accept_pkdCap (r : Regs) : (r.accept).pkdCap = r.pkdCap := rfl
@[simp] theorem Regs.accept_pkdLen (r : Regs) : (r.accept).pkdLen = r.pkdLen := rfl
@[simp] theorem Regs.accept_dstAddr (r : Regs) : (r.accept).dstAddr = r.dstAddr := rfl
@[simp] theorem Regs.accept_dstCap (r : Regs) : (r.accept).dstCap = r.dstCap := rfl
@[simp] theorem Regs.accept_dstLen (r : Regs) : (r.accept).dstLen = r.dstLen := rfl
@[simp] theorem Regs.accept_bitcntLo (r : Regs) : (r.accept).bitcntLo = r.bitcntLo := rfl
@[simp] theorem Regs.accept_bitcntHi (r : Regs) : (r.accept).bitcntHi = r.bitcntHi := rfl
@[simp] theorem Regs.accept_nsym (r : Regs) : (r.accept).nsym = r.nsym := rfl
@[simp] theorem Regs.accept_nnode (r : Regs) : (r.accept).nnode = r.nnode := rfl
@[simp] theorem Regs.accept_root (r : Regs) : (r.accept).root = r.root := rfl
@[simp] theorem Regs.accept_tsel (r : Regs) : (r.accept).tsel = r.tsel := rfl
@[simp] theorem Regs.accept_tidx (r : Regs) : (r.accept).tidx = r.tidx := rfl
@[simp] theorem Regs.accept_tword (r : Regs) : (r.accept).tword = r.tword := rfl

/-! ### `Regs.setBitcnt` -/

@[simp] theorem Regs.setBitcnt_busy (r : Regs) (v : BitVec 64) : (r.setBitcnt v).busy = r.busy := rfl
@[simp] theorem Regs.setBitcnt_done (r : Regs) (v : BitVec 64) : (r.setBitcnt v).done = r.done := rfl
@[simp] theorem Regs.setBitcnt_err (r : Regs) (v : BitVec 64) : (r.setBitcnt v).err = r.err := rfl
@[simp] theorem Regs.setBitcnt_freqValid (r : Regs) (v : BitVec 64) : (r.setBitcnt v).freqValid = r.freqValid := rfl
@[simp] theorem Regs.setBitcnt_treeValid (r : Regs) (v : BitVec 64) : (r.setBitcnt v).treeValid = r.treeValid := rfl
@[simp] theorem Regs.setBitcnt_codeValid (r : Regs) (v : BitVec 64) : (r.setBitcnt v).codeValid = r.codeValid := rfl
@[simp] theorem Regs.setBitcnt_ien (r : Regs) (v : BitVec 64) : (r.setBitcnt v).ien = r.ien := rfl
@[simp] theorem Regs.setBitcnt_errCode (r : Regs) (v : BitVec 64) : (r.setBitcnt v).errCode = r.errCode := rfl
@[simp] theorem Regs.setBitcnt_errSub (r : Regs) (v : BitVec 64) : (r.setBitcnt v).errSub = r.errSub := rfl
@[simp] theorem Regs.setBitcnt_errInfo (r : Regs) (v : BitVec 64) : (r.setBitcnt v).errInfo = r.errInfo := rfl
@[simp] theorem Regs.setBitcnt_srcAddr (r : Regs) (v : BitVec 64) : (r.setBitcnt v).srcAddr = r.srcAddr := rfl
@[simp] theorem Regs.setBitcnt_srcLen (r : Regs) (v : BitVec 64) : (r.setBitcnt v).srcLen = r.srcLen := rfl
@[simp] theorem Regs.setBitcnt_hdrAddr (r : Regs) (v : BitVec 64) : (r.setBitcnt v).hdrAddr = r.hdrAddr := rfl
@[simp] theorem Regs.setBitcnt_hdrCap (r : Regs) (v : BitVec 64) : (r.setBitcnt v).hdrCap = r.hdrCap := rfl
@[simp] theorem Regs.setBitcnt_hdrLen (r : Regs) (v : BitVec 64) : (r.setBitcnt v).hdrLen = r.hdrLen := rfl
@[simp] theorem Regs.setBitcnt_pkdAddr (r : Regs) (v : BitVec 64) : (r.setBitcnt v).pkdAddr = r.pkdAddr := rfl
@[simp] theorem Regs.setBitcnt_pkdCap (r : Regs) (v : BitVec 64) : (r.setBitcnt v).pkdCap = r.pkdCap := rfl
@[simp] theorem Regs.setBitcnt_pkdLen (r : Regs) (v : BitVec 64) : (r.setBitcnt v).pkdLen = r.pkdLen := rfl
@[simp] theorem Regs.setBitcnt_dstAddr (r : Regs) (v : BitVec 64) : (r.setBitcnt v).dstAddr = r.dstAddr := rfl
@[simp] theorem Regs.setBitcnt_dstCap (r : Regs) (v : BitVec 64) : (r.setBitcnt v).dstCap = r.dstCap := rfl
@[simp] theorem Regs.setBitcnt_dstLen (r : Regs) (v : BitVec 64) : (r.setBitcnt v).dstLen = r.dstLen := rfl
@[simp] theorem Regs.setBitcnt_bitcntLo (r : Regs) (v : BitVec 64) : (r.setBitcnt v).bitcntLo = v.extractLsb' 0 32 := rfl
@[simp] theorem Regs.setBitcnt_bitcntHi (r : Regs) (v : BitVec 64) : (r.setBitcnt v).bitcntHi = v.extractLsb' 32 32 := rfl
@[simp] theorem Regs.setBitcnt_nsym (r : Regs) (v : BitVec 64) : (r.setBitcnt v).nsym = r.nsym := rfl
@[simp] theorem Regs.setBitcnt_nnode (r : Regs) (v : BitVec 64) : (r.setBitcnt v).nnode = r.nnode := rfl
@[simp] theorem Regs.setBitcnt_root (r : Regs) (v : BitVec 64) : (r.setBitcnt v).root = r.root := rfl
@[simp] theorem Regs.setBitcnt_tsel (r : Regs) (v : BitVec 64) : (r.setBitcnt v).tsel = r.tsel := rfl
@[simp] theorem Regs.setBitcnt_tidx (r : Regs) (v : BitVec 64) : (r.setBitcnt v).tidx = r.tidx := rfl
@[simp] theorem Regs.setBitcnt_tword (r : Regs) (v : BitVec 64) : (r.setBitcnt v).tword = r.tword := rfl

/-! ### `State.writeByte` -/

@[simp] theorem State.writeByte_regs (s : State) (a : Nat) (v : Byte) : (s.writeByte a v).regs = s.regs := rfl
@[simp] theorem State.writeByte_freq (s : State) (a : Nat) (v : Byte) : (s.writeByte a v).freq = s.freq := rfl
@[simp] theorem State.writeByte_node (s : State) (a : Nat) (v : Byte) : (s.writeByte a v).node = s.node := rfl
@[simp] theorem State.writeByte_code (s : State) (a : Nat) (v : Byte) : (s.writeByte a v).code = s.code := rfl
@[simp] theorem State.writeByte_hidden (s : State) (a : Nat) (v : Byte) : (s.writeByte a v).hidden = s.hidden := rfl
@[simp] theorem State.writeByte_pend (s : State) (a : Nat) (v : Byte) : (s.writeByte a v).pend = s.pend := rfl
@[simp] theorem State.writeByte_resetIn (s : State) (a : Nat) (v : Byte) : (s.writeByte a v).resetIn = s.resetIn := rfl
@[simp] theorem State.writeByte_mem (s : State) (a : Nat) (v : Byte) : (s.writeByte a v).mem = s.mem.set a v := rfl
@[simp] theorem State.writeByte_scrambles (s : State) (a : Nat) (v : Byte) : (s.writeByte a v).scrambles = s.scrambles := rfl
@[simp] theorem State.writeByte_platform (s : State) (a : Nat) (v : Byte) : (s.writeByte a v).platform = s.platform := rfl
@[simp] theorem State.writeByte_script (s : State) (a : Nat) (v : Byte) : (s.writeByte a v).script = s.script := rfl
@[simp] theorem State.writeByte_observed (s : State) (a : Nat) (v : Byte) : (s.writeByte a v).observed = s.observed := rfl
@[simp] theorem State.writeByte_fresh (s : State) (a : Nat) (v : Byte) : (s.writeByte a v).fresh = s.fresh := rfl

/-! ### `State.writeBytes` -/

@[simp] theorem State.writeBytes_regs (s : State) (a : Nat) (vs : List Byte) : (s.writeBytes a vs).regs = s.regs := rfl
@[simp] theorem State.writeBytes_freq (s : State) (a : Nat) (vs : List Byte) : (s.writeBytes a vs).freq = s.freq := rfl
@[simp] theorem State.writeBytes_node (s : State) (a : Nat) (vs : List Byte) : (s.writeBytes a vs).node = s.node := rfl
@[simp] theorem State.writeBytes_code (s : State) (a : Nat) (vs : List Byte) : (s.writeBytes a vs).code = s.code := rfl
@[simp] theorem State.writeBytes_hidden (s : State) (a : Nat) (vs : List Byte) : (s.writeBytes a vs).hidden = s.hidden := rfl
@[simp] theorem State.writeBytes_pend (s : State) (a : Nat) (vs : List Byte) : (s.writeBytes a vs).pend = s.pend := rfl
@[simp] theorem State.writeBytes_resetIn (s : State) (a : Nat) (vs : List Byte) : (s.writeBytes a vs).resetIn = s.resetIn := rfl
@[simp] theorem State.writeBytes_mem (s : State) (a : Nat) (vs : List Byte) : (s.writeBytes a vs).mem = s.mem.setBytes a vs := rfl
@[simp] theorem State.writeBytes_scrambles (s : State) (a : Nat) (vs : List Byte) : (s.writeBytes a vs).scrambles = s.scrambles := rfl
@[simp] theorem State.writeBytes_platform (s : State) (a : Nat) (vs : List Byte) : (s.writeBytes a vs).platform = s.platform := rfl
@[simp] theorem State.writeBytes_script (s : State) (a : Nat) (vs : List Byte) : (s.writeBytes a vs).script = s.script := rfl
@[simp] theorem State.writeBytes_observed (s : State) (a : Nat) (vs : List Byte) : (s.writeBytes a vs).observed = s.observed := rfl
@[simp] theorem State.writeBytes_fresh (s : State) (a : Nat) (vs : List Byte) : (s.writeBytes a vs).fresh = s.fresh := rfl

/-! ### `State.scramble` -/

@[simp] theorem State.scramble_regs (s : State) (g : Region) : (s.scramble g).regs = s.regs := rfl
@[simp] theorem State.scramble_freq (s : State) (g : Region) : (s.scramble g).freq = s.freq := rfl
@[simp] theorem State.scramble_node (s : State) (g : Region) : (s.scramble g).node = s.node := rfl
@[simp] theorem State.scramble_code (s : State) (g : Region) : (s.scramble g).code = s.code := rfl
@[simp] theorem State.scramble_hidden (s : State) (g : Region) : (s.scramble g).hidden = s.hidden := rfl
@[simp] theorem State.scramble_pend (s : State) (g : Region) : (s.scramble g).pend = s.pend := rfl
@[simp] theorem State.scramble_resetIn (s : State) (g : Region) : (s.scramble g).resetIn = s.resetIn := rfl
@[simp] theorem State.scramble_mem (s : State) (g : Region) : (s.scramble g).mem = s.mem.forget g := rfl
@[simp] theorem State.scramble_scrambles (s : State) (g : Region) : (s.scramble g).scrambles = ⟨g.base, g.size, s.fresh⟩ :: s.scrambles := rfl
@[simp] theorem State.scramble_platform (s : State) (g : Region) : (s.scramble g).platform = s.platform := rfl
@[simp] theorem State.scramble_script (s : State) (g : Region) : (s.scramble g).script = s.script := rfl
@[simp] theorem State.scramble_observed (s : State) (g : Region) : (s.scramble g).observed = s.observed := rfl
@[simp] theorem State.scramble_fresh (s : State) (g : Region) : (s.scramble g).fresh = s.fresh + 1 := rfl

/-! ### `State.freeHidden` -/

@[simp] theorem State.freeHidden_regs (s : State) : (s.freeHidden).regs = s.regs := rfl
@[simp] theorem State.freeHidden_freq (s : State) : (s.freeHidden).freq = s.freq := rfl
@[simp] theorem State.freeHidden_node (s : State) : (s.freeHidden).node = s.node := rfl
@[simp] theorem State.freeHidden_code (s : State) : (s.freeHidden).code = s.code := rfl
@[simp] theorem State.freeHidden_hidden (s : State) : (s.freeHidden).hidden = Config.freeHidden s.fresh := rfl
@[simp] theorem State.freeHidden_pend (s : State) : (s.freeHidden).pend = Config.freeWord s.fresh := rfl
@[simp] theorem State.freeHidden_resetIn (s : State) : (s.freeHidden).resetIn = s.resetIn := rfl
@[simp] theorem State.freeHidden_mem (s : State) : (s.freeHidden).mem = s.mem := rfl
@[simp] theorem State.freeHidden_scrambles (s : State) : (s.freeHidden).scrambles = s.scrambles := rfl
@[simp] theorem State.freeHidden_platform (s : State) : (s.freeHidden).platform = s.platform := rfl
@[simp] theorem State.freeHidden_script (s : State) : (s.freeHidden).script = s.script := rfl
@[simp] theorem State.freeHidden_observed (s : State) : (s.freeHidden).observed = s.observed := rfl
@[simp] theorem State.freeHidden_fresh (s : State) : (s.freeHidden).fresh = s.fresh + 1 := rfl

/-! ### `State.freeCode` -/

@[simp] theorem State.freeCode_regs (s : State) : (s.freeCode).regs = s.regs := rfl
@[simp] theorem State.freeCode_freq (s : State) : (s.freeCode).freq = s.freq := rfl
@[simp] theorem State.freeCode_node (s : State) : (s.freeCode).node = s.node := rfl
@[simp] theorem State.freeCode_code (s : State) : (s.freeCode).code = Config.freeCode s.fresh := rfl
@[simp] theorem State.freeCode_hidden (s : State) : (s.freeCode).hidden = s.hidden := rfl
@[simp] theorem State.freeCode_pend (s : State) : (s.freeCode).pend = s.pend := rfl
@[simp] theorem State.freeCode_resetIn (s : State) : (s.freeCode).resetIn = s.resetIn := rfl
@[simp] theorem State.freeCode_mem (s : State) : (s.freeCode).mem = s.mem := rfl
@[simp] theorem State.freeCode_scrambles (s : State) : (s.freeCode).scrambles = s.scrambles := rfl
@[simp] theorem State.freeCode_platform (s : State) : (s.freeCode).platform = s.platform := rfl
@[simp] theorem State.freeCode_script (s : State) : (s.freeCode).script = s.script := rfl
@[simp] theorem State.freeCode_observed (s : State) : (s.freeCode).observed = s.observed := rfl
@[simp] theorem State.freeCode_fresh (s : State) : (s.freeCode).fresh = s.fresh + 1 := rfl

/-! ### `State.clearValid` -/

@[simp] theorem State.clearValid_regs (s : State) : (s.clearValid).regs = s.regs.clearValid := rfl
@[simp] theorem State.clearValid_freq (s : State) : (s.clearValid).freq = s.freq := rfl
@[simp] theorem State.clearValid_node (s : State) : (s.clearValid).node = s.node := rfl
@[simp] theorem State.clearValid_code (s : State) : (s.clearValid).code = s.code := rfl
@[simp] theorem State.clearValid_hidden (s : State) : (s.clearValid).hidden = s.hidden := rfl
@[simp] theorem State.clearValid_pend (s : State) : (s.clearValid).pend = s.pend := rfl
@[simp] theorem State.clearValid_resetIn (s : State) : (s.clearValid).resetIn = s.resetIn := rfl
@[simp] theorem State.clearValid_mem (s : State) : (s.clearValid).mem = s.mem := rfl
@[simp] theorem State.clearValid_scrambles (s : State) : (s.clearValid).scrambles = s.scrambles := rfl
@[simp] theorem State.clearValid_platform (s : State) : (s.clearValid).platform = s.platform := rfl
@[simp] theorem State.clearValid_script (s : State) : (s.clearValid).script = s.script := rfl
@[simp] theorem State.clearValid_observed (s : State) : (s.clearValid).observed = s.observed := rfl
@[simp] theorem State.clearValid_fresh (s : State) : (s.clearValid).fresh = s.fresh := rfl

/-! ### `State.accept` -/

@[simp] theorem State.accept_regs (s : State) (w : Word) : (s.accept w).regs = s.regs.accept := rfl
@[simp] theorem State.accept_freq (s : State) (w : Word) : (s.accept w).freq = s.freq := rfl
@[simp] theorem State.accept_node (s : State) (w : Word) : (s.accept w).node = s.node := rfl
@[simp] theorem State.accept_code (s : State) (w : Word) : (s.accept w).code = s.code := rfl
@[simp] theorem State.accept_hidden (s : State) (w : Word) : (s.accept w).hidden = s.hidden := rfl
@[simp] theorem State.accept_pend (s : State) (w : Word) : (s.accept w).pend = w := rfl
@[simp] theorem State.accept_resetIn (s : State) (w : Word) : (s.accept w).resetIn = s.resetIn := rfl
@[simp] theorem State.accept_mem (s : State) (w : Word) : (s.accept w).mem = s.mem := rfl
@[simp] theorem State.accept_scrambles (s : State) (w : Word) : (s.accept w).scrambles = s.scrambles := rfl
@[simp] theorem State.accept_platform (s : State) (w : Word) : (s.accept w).platform = s.platform := rfl
@[simp] theorem State.accept_script (s : State) (w : Word) : (s.accept w).script = s.script := rfl
@[simp] theorem State.accept_observed (s : State) (w : Word) : (s.accept w).observed = s.observed := rfl
@[simp] theorem State.accept_fresh (s : State) (w : Word) : (s.accept w).fresh = s.fresh := rfl

/-! ### `State.succeed` -/

@[simp] theorem State.succeed_regs (s : State) : (s.succeed).regs = s.regs.reportSuccess := rfl
@[simp] theorem State.succeed_freq (s : State) : (s.succeed).freq = s.freq := rfl
@[simp] theorem State.succeed_node (s : State) : (s.succeed).node = s.node := rfl
@[simp] theorem State.succeed_code (s : State) : (s.succeed).code = s.code := rfl
@[simp] theorem State.succeed_hidden (s : State) : (s.succeed).hidden = Config.freeHidden s.fresh := rfl
@[simp] theorem State.succeed_pend (s : State) : (s.succeed).pend = Config.freeWord s.fresh := rfl
@[simp] theorem State.succeed_resetIn (s : State) : (s.succeed).resetIn = s.resetIn := rfl
@[simp] theorem State.succeed_mem (s : State) : (s.succeed).mem = s.mem := rfl
@[simp] theorem State.succeed_scrambles (s : State) : (s.succeed).scrambles = s.scrambles := rfl
@[simp] theorem State.succeed_platform (s : State) : (s.succeed).platform = s.platform := rfl
@[simp] theorem State.succeed_script (s : State) : (s.succeed).script = s.script := rfl
@[simp] theorem State.succeed_observed (s : State) : (s.succeed).observed = s.observed := rfl
@[simp] theorem State.succeed_fresh (s : State) : (s.succeed).fresh = s.fresh + 1 := rfl

/-! ### `State.resetBlock` -/

@[simp] theorem State.resetBlock_regs (s : State) : (s.resetBlock).regs = Regs.reset := rfl
@[simp] theorem State.resetBlock_freq (s : State) : (s.resetBlock).freq = Config.freeFreq s.fresh := rfl
@[simp] theorem State.resetBlock_node (s : State) : (s.resetBlock).node = Config.freeNode s.fresh := rfl
@[simp] theorem State.resetBlock_code (s : State) : (s.resetBlock).code = Config.freeCode s.fresh := rfl
@[simp] theorem State.resetBlock_hidden (s : State) : (s.resetBlock).hidden = Config.freeHidden s.fresh := rfl
@[simp] theorem State.resetBlock_pend (s : State) : (s.resetBlock).pend = Config.freeWord s.fresh := rfl
@[simp] theorem State.resetBlock_resetIn (s : State) : (s.resetBlock).resetIn = s.resetIn := rfl
@[simp] theorem State.resetBlock_mem (s : State) : (s.resetBlock).mem = s.mem := rfl
@[simp] theorem State.resetBlock_scrambles (s : State) : (s.resetBlock).scrambles = s.scrambles := rfl
@[simp] theorem State.resetBlock_platform (s : State) : (s.resetBlock).platform = s.platform := rfl
@[simp] theorem State.resetBlock_script (s : State) : (s.resetBlock).script = s.script := rfl
@[simp] theorem State.resetBlock_observed (s : State) : (s.resetBlock).observed = s.observed := rfl
@[simp] theorem State.resetBlock_fresh (s : State) : (s.resetBlock).fresh = s.fresh + 1 := rfl

/-! ### `Regs.setResultLen` and `Regs.zeroLens`: only the three result lengths can change -/

@[simp] theorem Regs.setResultLen_busy (r : Regs) (w : Window) (v : Word) : (r.setResultLen w v).busy = r.busy := by
  cases w <;> rfl
@[simp] theorem Regs.setResultLen_done (r : Regs) (w : Window) (v : Word) : (r.setResultLen w v).done = r.done := by
  cases w <;> rfl
@[simp] theorem Regs.setResultLen_err (r : Regs) (w : Window) (v : Word) : (r.setResultLen w v).err = r.err := by
  cases w <;> rfl
@[simp] theorem Regs.setResultLen_freqValid (r : Regs) (w : Window) (v : Word) : (r.setResultLen w v).freqValid = r.freqValid := by
  cases w <;> rfl
@[simp] theorem Regs.setResultLen_treeValid (r : Regs) (w : Window) (v : Word) : (r.setResultLen w v).treeValid = r.treeValid := by
  cases w <;> rfl
@[simp] theorem Regs.setResultLen_codeValid (r : Regs) (w : Window) (v : Word) : (r.setResultLen w v).codeValid = r.codeValid := by
  cases w <;> rfl
@[simp] theorem Regs.setResultLen_ien (r : Regs) (w : Window) (v : Word) : (r.setResultLen w v).ien = r.ien := by
  cases w <;> rfl
@[simp] theorem Regs.setResultLen_errCode (r : Regs) (w : Window) (v : Word) : (r.setResultLen w v).errCode = r.errCode := by
  cases w <;> rfl
@[simp] theorem Regs.setResultLen_errSub (r : Regs) (w : Window) (v : Word) : (r.setResultLen w v).errSub = r.errSub := by
  cases w <;> rfl
@[simp] theorem Regs.setResultLen_errInfo (r : Regs) (w : Window) (v : Word) : (r.setResultLen w v).errInfo = r.errInfo := by
  cases w <;> rfl
@[simp] theorem Regs.setResultLen_srcAddr (r : Regs) (w : Window) (v : Word) : (r.setResultLen w v).srcAddr = r.srcAddr := by
  cases w <;> rfl
@[simp] theorem Regs.setResultLen_srcLen (r : Regs) (w : Window) (v : Word) : (r.setResultLen w v).srcLen = r.srcLen := by
  cases w <;> rfl
@[simp] theorem Regs.setResultLen_hdrAddr (r : Regs) (w : Window) (v : Word) : (r.setResultLen w v).hdrAddr = r.hdrAddr := by
  cases w <;> rfl
@[simp] theorem Regs.setResultLen_hdrCap (r : Regs) (w : Window) (v : Word) : (r.setResultLen w v).hdrCap = r.hdrCap := by
  cases w <;> rfl
@[simp] theorem Regs.setResultLen_pkdAddr (r : Regs) (w : Window) (v : Word) : (r.setResultLen w v).pkdAddr = r.pkdAddr := by
  cases w <;> rfl
@[simp] theorem Regs.setResultLen_pkdCap (r : Regs) (w : Window) (v : Word) : (r.setResultLen w v).pkdCap = r.pkdCap := by
  cases w <;> rfl
@[simp] theorem Regs.setResultLen_dstAddr (r : Regs) (w : Window) (v : Word) : (r.setResultLen w v).dstAddr = r.dstAddr := by
  cases w <;> rfl
@[simp] theorem Regs.setResultLen_dstCap (r : Regs) (w : Window) (v : Word) : (r.setResultLen w v).dstCap = r.dstCap := by
  cases w <;> rfl
@[simp] theorem Regs.setResultLen_bitcntLo (r : Regs) (w : Window) (v : Word) : (r.setResultLen w v).bitcntLo = r.bitcntLo := by
  cases w <;> rfl
@[simp] theorem Regs.setResultLen_bitcntHi (r : Regs) (w : Window) (v : Word) : (r.setResultLen w v).bitcntHi = r.bitcntHi := by
  cases w <;> rfl
@[simp] theorem Regs.setResultLen_nsym (r : Regs) (w : Window) (v : Word) : (r.setResultLen w v).nsym = r.nsym := by
  cases w <;> rfl
@[simp] theorem Regs.setResultLen_nnode (r : Regs) (w : Window) (v : Word) : (r.setResultLen w v).nnode = r.nnode := by
  cases w <;> rfl
@[simp] theorem Regs.setResultLen_root (r : Regs) (w : Window) (v : Word) : (r.setResultLen w v).root = r.root := by
  cases w <;> rfl
@[simp] theorem Regs.setResultLen_tsel (r : Regs) (w : Window) (v : Word) : (r.setResultLen w v).tsel = r.tsel := by
  cases w <;> rfl
@[simp] theorem Regs.setResultLen_tidx (r : Regs) (w : Window) (v : Word) : (r.setResultLen w v).tidx = r.tidx := by
  cases w <;> rfl
@[simp] theorem Regs.setResultLen_tword (r : Regs) (w : Window) (v : Word) : (r.setResultLen w v).tword = r.tword := by
  cases w <;> rfl

@[simp] theorem Regs.zeroLens_busy (r : Regs) (ws : List Window) : (r.zeroLens ws).busy = r.busy := by
  induction ws generalizing r <;> simp_all [Regs.zeroLens]
@[simp] theorem Regs.zeroLens_done (r : Regs) (ws : List Window) : (r.zeroLens ws).done = r.done := by
  induction ws generalizing r <;> simp_all [Regs.zeroLens]
@[simp] theorem Regs.zeroLens_err (r : Regs) (ws : List Window) : (r.zeroLens ws).err = r.err := by
  induction ws generalizing r <;> simp_all [Regs.zeroLens]
@[simp] theorem Regs.zeroLens_freqValid (r : Regs) (ws : List Window) : (r.zeroLens ws).freqValid = r.freqValid := by
  induction ws generalizing r <;> simp_all [Regs.zeroLens]
@[simp] theorem Regs.zeroLens_treeValid (r : Regs) (ws : List Window) : (r.zeroLens ws).treeValid = r.treeValid := by
  induction ws generalizing r <;> simp_all [Regs.zeroLens]
@[simp] theorem Regs.zeroLens_codeValid (r : Regs) (ws : List Window) : (r.zeroLens ws).codeValid = r.codeValid := by
  induction ws generalizing r <;> simp_all [Regs.zeroLens]
@[simp] theorem Regs.zeroLens_ien (r : Regs) (ws : List Window) : (r.zeroLens ws).ien = r.ien := by
  induction ws generalizing r <;> simp_all [Regs.zeroLens]
@[simp] theorem Regs.zeroLens_errCode (r : Regs) (ws : List Window) : (r.zeroLens ws).errCode = r.errCode := by
  induction ws generalizing r <;> simp_all [Regs.zeroLens]
@[simp] theorem Regs.zeroLens_errSub (r : Regs) (ws : List Window) : (r.zeroLens ws).errSub = r.errSub := by
  induction ws generalizing r <;> simp_all [Regs.zeroLens]
@[simp] theorem Regs.zeroLens_errInfo (r : Regs) (ws : List Window) : (r.zeroLens ws).errInfo = r.errInfo := by
  induction ws generalizing r <;> simp_all [Regs.zeroLens]
@[simp] theorem Regs.zeroLens_srcAddr (r : Regs) (ws : List Window) : (r.zeroLens ws).srcAddr = r.srcAddr := by
  induction ws generalizing r <;> simp_all [Regs.zeroLens]
@[simp] theorem Regs.zeroLens_srcLen (r : Regs) (ws : List Window) : (r.zeroLens ws).srcLen = r.srcLen := by
  induction ws generalizing r <;> simp_all [Regs.zeroLens]
@[simp] theorem Regs.zeroLens_hdrAddr (r : Regs) (ws : List Window) : (r.zeroLens ws).hdrAddr = r.hdrAddr := by
  induction ws generalizing r <;> simp_all [Regs.zeroLens]
@[simp] theorem Regs.zeroLens_hdrCap (r : Regs) (ws : List Window) : (r.zeroLens ws).hdrCap = r.hdrCap := by
  induction ws generalizing r <;> simp_all [Regs.zeroLens]
@[simp] theorem Regs.zeroLens_pkdAddr (r : Regs) (ws : List Window) : (r.zeroLens ws).pkdAddr = r.pkdAddr := by
  induction ws generalizing r <;> simp_all [Regs.zeroLens]
@[simp] theorem Regs.zeroLens_pkdCap (r : Regs) (ws : List Window) : (r.zeroLens ws).pkdCap = r.pkdCap := by
  induction ws generalizing r <;> simp_all [Regs.zeroLens]
@[simp] theorem Regs.zeroLens_dstAddr (r : Regs) (ws : List Window) : (r.zeroLens ws).dstAddr = r.dstAddr := by
  induction ws generalizing r <;> simp_all [Regs.zeroLens]
@[simp] theorem Regs.zeroLens_dstCap (r : Regs) (ws : List Window) : (r.zeroLens ws).dstCap = r.dstCap := by
  induction ws generalizing r <;> simp_all [Regs.zeroLens]
@[simp] theorem Regs.zeroLens_bitcntLo (r : Regs) (ws : List Window) : (r.zeroLens ws).bitcntLo = r.bitcntLo := by
  induction ws generalizing r <;> simp_all [Regs.zeroLens]
@[simp] theorem Regs.zeroLens_bitcntHi (r : Regs) (ws : List Window) : (r.zeroLens ws).bitcntHi = r.bitcntHi := by
  induction ws generalizing r <;> simp_all [Regs.zeroLens]
@[simp] theorem Regs.zeroLens_nsym (r : Regs) (ws : List Window) : (r.zeroLens ws).nsym = r.nsym := by
  induction ws generalizing r <;> simp_all [Regs.zeroLens]
@[simp] theorem Regs.zeroLens_nnode (r : Regs) (ws : List Window) : (r.zeroLens ws).nnode = r.nnode := by
  induction ws generalizing r <;> simp_all [Regs.zeroLens]
@[simp] theorem Regs.zeroLens_root (r : Regs) (ws : List Window) : (r.zeroLens ws).root = r.root := by
  induction ws generalizing r <;> simp_all [Regs.zeroLens]
@[simp] theorem Regs.zeroLens_tsel (r : Regs) (ws : List Window) : (r.zeroLens ws).tsel = r.tsel := by
  induction ws generalizing r <;> simp_all [Regs.zeroLens]
@[simp] theorem Regs.zeroLens_tidx (r : Regs) (ws : List Window) : (r.zeroLens ws).tidx = r.tidx := by
  induction ws generalizing r <;> simp_all [Regs.zeroLens]
@[simp] theorem Regs.zeroLens_tword (r : Regs) (ws : List Window) : (r.zeroLens ws).tword = r.tword := by
  induction ws generalizing r <;> simp_all [Regs.zeroLens]

/-! ### `State.scrambleAll` leaves everything but memory and the draw counter -/

@[simp] theorem State.scrambleAll_regs (s : State) (gs : List Region) : (s.scrambleAll gs).regs = s.regs := by
  induction gs generalizing s <;> simp_all [State.scrambleAll]
@[simp] theorem State.scrambleAll_freq (s : State) (gs : List Region) : (s.scrambleAll gs).freq = s.freq := by
  induction gs generalizing s <;> simp_all [State.scrambleAll]
@[simp] theorem State.scrambleAll_node (s : State) (gs : List Region) : (s.scrambleAll gs).node = s.node := by
  induction gs generalizing s <;> simp_all [State.scrambleAll]
@[simp] theorem State.scrambleAll_code (s : State) (gs : List Region) : (s.scrambleAll gs).code = s.code := by
  induction gs generalizing s <;> simp_all [State.scrambleAll]
@[simp] theorem State.scrambleAll_hidden (s : State) (gs : List Region) : (s.scrambleAll gs).hidden = s.hidden := by
  induction gs generalizing s <;> simp_all [State.scrambleAll]
@[simp] theorem State.scrambleAll_pend (s : State) (gs : List Region) : (s.scrambleAll gs).pend = s.pend := by
  induction gs generalizing s <;> simp_all [State.scrambleAll]
@[simp] theorem State.scrambleAll_resetIn (s : State) (gs : List Region) : (s.scrambleAll gs).resetIn = s.resetIn := by
  induction gs generalizing s <;> simp_all [State.scrambleAll]
@[simp] theorem State.scrambleAll_platform (s : State) (gs : List Region) : (s.scrambleAll gs).platform = s.platform := by
  induction gs generalizing s <;> simp_all [State.scrambleAll]
@[simp] theorem State.scrambleAll_script (s : State) (gs : List Region) : (s.scrambleAll gs).script = s.script := by
  induction gs generalizing s <;> simp_all [State.scrambleAll]
@[simp] theorem State.scrambleAll_observed (s : State) (gs : List Region) : (s.scrambleAll gs).observed = s.observed := by
  induction gs generalizing s <;> simp_all [State.scrambleAll]

end Sys2Proof.Machine
end

