-- ==== Sys2Proof/Laws/Memory.lean ====
section
/-! SUPPORT. The laws of memory: a read after a write, a write leaves every other place alone, every operation keeps the
canonical form, and a scrambled range holds any value while everything outside it stays. -/

namespace Sys2Proof.Machine

/-! ### Regions -/

theorem Region.holds_iff (g : Region) (a : Nat) : g.holds a = true ↔ g.base ≤ a ∧ a < g.base + g.size := by
  simp [Region.holds]

theorem Region.overlaps_iff (g h : Region) : g.overlaps h = true ↔ ∃ a, g.holds a = true ∧ h.holds a = true := by
  simp only [Region.overlaps, Region.holds, Bool.and_eq_true, decide_eq_true_eq]
  constructor
  · rintro ⟨⟨⟨h1, h2⟩, h3⟩, h4⟩
    exact ⟨max g.base h.base, by omega⟩
  · rintro ⟨a, ⟨h1, h2⟩, h3, h4⟩
    omega

theorem Region.overlaps_false_iff (g h : Region) :
    g.overlaps h = false ↔ ∀ a, g.holds a = true → h.holds a = false := by
  rw [← Bool.not_eq_true, Region.overlaps_iff]
  simp

theorem anyHolds_iff (gs : List Region) (a : Nat) : anyHolds gs a = true ↔ ∃ g ∈ gs, g.holds a = true := by
  simp [anyHolds]

@[simp] theorem anyHolds_nil (a : Nat) : anyHolds [] a = false := rfl

@[simp] theorem anyHolds_cons (g : Region) (gs : List Region) (a : Nat) :
    anyHolds (g :: gs) a = (g.holds a || anyHolds gs a) := rfl

@[simp] theorem anyHolds_append (gs hs : List Region) (a : Nat) :
    anyHolds (gs ++ hs) a = (anyHolds gs a || anyHolds hs a) := by simp [anyHolds]

theorem Scramble.covers_eq_holds (g : Region) (tag a : Nat) :
    (Scramble.mk g.base g.size tag).covers a = g.holds a := rfl

/-! ### The list of bytes -/

@[simp] theorem Memory.get?_nil (a : Nat) : Memory.get? [] a = none := rfl

theorem Memory.get?_cons (b : Nat) (v : Byte) (m : Memory) (a : Nat) :
    Memory.get? ((b, v) :: m) a = if b = a then some v else m.get? a := rfl

/-- A read after a write to the same place gives the value written. -/
@[simp] theorem Memory.get?_set_same (m : Memory) (a : Nat) (v : Byte) : (m.set a v).get? a = some v := by
  induction m with
  | nil => simp [Memory.set, Memory.get?]
  | cons c m ih =>
    obtain ⟨b, u⟩ := c
    simp only [Memory.set]
    split
    · simp [Memory.get?]
    · split
      · simp [Memory.get?]
      · rename_i h1 h2
        simp [Memory.get?, ih, Ne.symm h2]

/-- A write leaves every other place alone. -/
theorem Memory.get?_set_other (m : Memory) {a b : Nat} (v : Byte) (h : b ≠ a) : (m.set a v).get? b = m.get? b := by
  induction m with
  | nil => simp [Memory.set, Memory.get?, Ne.symm h]
  | cons c m ih =>
    obtain ⟨d, u⟩ := c
    simp only [Memory.set]
    split
    · simp [Memory.get?, Ne.symm h]
    · split
      · rename_i h1 h2
        subst h2
        simp [Memory.get?, Ne.symm h]
      · simp [Memory.get?, ih]

theorem Memory.get?_forget (m : Memory) (g : Region) (a : Nat) :
    (m.forget g).get? a = if g.holds a then none else m.get? a := by
  induction m with
  | nil => simp [Memory.forget]
  | cons c m ih =>
    obtain ⟨b, u⟩ := c
    have ih' : Memory.get? (List.filter (fun c => !g.holds c.1) m) a = if g.holds a then none else Memory.get? m a := ih
    simp only [Memory.forget, List.filter_cons]
    by_cases hb : g.holds b = true
    · by_cases hba : b = a
      · subst hba
        simp [hb, ih']
      · simp [hb, ih', Memory.get?, hba]
    · have hb' : g.holds b = false := by simpa using hb
      by_cases hba : b = a
      · subst hba
        simp [hb', Memory.get?]
      · simp [hb', Memory.get?, ih', hba]

/-- Consecutive bytes, read inside what was written. -/
theorem Memory.get?_setBytes_inside (m : Memory) (a : Nat) (vs : List Byte) (k : Nat) (h : k < vs.length) :
    (m.setBytes a vs).get? (a + k) = some vs[k] := by
  induction vs generalizing m a k with
  | nil => simp at h
  | cons v vs ih =>
    simp only [Memory.setBytes]
    cases k with
    | succ k =>
      have := ih (m.set a v) (a + 1) k (by simpa using h)
      simpa [Nat.add_assoc, Nat.add_comm 1 k] using this
    | zero =>
      clear ih
      have key : ∀ (vs : List Byte) (m : Memory) (b : Nat), a < b → (m.setBytes b vs).get? a = m.get? a := by
        intro vs
        induction vs with
        | nil => intros; rfl
        | cons w ws ih =>
          intro m b hb
          simp only [Memory.setBytes]
          rw [ih _ _ (by omega), Memory.get?_set_other _ _ (by omega)]
      simpa using key vs (m.set a v) (a + 1) (by omega)

/-- Consecutive bytes, read outside what was written. -/
theorem Memory.get?_setBytes_outside (m : Memory) (a b : Nat) (vs : List Byte) (h : b < a ∨ a + vs.length ≤ b) :
    (m.setBytes a vs).get? b = m.get? b := by
  induction vs generalizing m a with
  | nil => rfl
  | cons v vs ih =>
    simp only [Memory.setBytes]
    simp only [List.length_cons] at h
    rw [ih _ _ (by omega), Memory.get?_set_other _ _ (by omega)]

/-! ### The canonical form -/

/-- The canonical form says: addresses strictly rising, each inside the address space. -/
theorem Memory.wf_iff (m : Memory) :
    m.wf = true ↔ m.Pairwise (fun c d => c.1 < d.1) ∧ ∀ c ∈ m, c.1 < Config.addrSpace := by
  induction m with
  | nil => simp [Memory.wf]
  | cons c m ih =>
    obtain ⟨a, v⟩ := c
    cases m with
    | nil => simp [Memory.wf]
    | cons d m =>
      obtain ⟨b, u⟩ := d
      simp only [Memory.wf, Bool.and_eq_true, decide_eq_true_eq, ih, List.pairwise_cons, List.mem_cons,
        forall_eq_or_imp]
      constructor
      · rintro ⟨hab, ⟨hb, hm⟩, hbs, hms⟩
        exact ⟨⟨⟨hab, fun c hc => Nat.lt_trans hab (hb c hc)⟩, hb, hm⟩, by omega, hbs, hms⟩
      · rintro ⟨⟨⟨hab, -⟩, hb, hm⟩, -, hbs, hms⟩
        exact ⟨hab, ⟨hb, hm⟩, hbs, hms⟩

theorem Memory.mem_set (m : Memory) (a : Nat) (v : Byte) (c : Host.Cell) (h : c ∈ m.set a v) : c = (a, v) ∨ c ∈ m := by
  induction m with
  | nil => simpa [Memory.set] using h
  | cons d m ih =>
    obtain ⟨b, u⟩ := d
    simp only [Memory.set] at h
    split at h
    · simpa using h
    · split at h
      · simp only [List.mem_cons] at h ⊢
        tauto
      · simp only [List.mem_cons] at h ⊢
        rcases h with h | h
        · exact .inr (.inl h)
        · rcases ih h with h | h
          · exact .inl h
          · exact .inr (.inr h)

/-- A write keeps the canonical form. -/
theorem Memory.wf_set {m : Memory} (h : m.wf = true) {a : Nat} (ha : a < Config.addrSpace) (v : Byte) :
    (m.set a v).wf = true := by
  rw [Memory.wf_iff] at h ⊢
  refine ⟨?_, fun c hc => ?_⟩
  · obtain ⟨hp, -⟩ := h
    clear ha
    induction m with
    | nil => simp [Memory.set]
    | cons d m ih =>
      obtain ⟨b, u⟩ := d
      rw [List.pairwise_cons] at hp
      simp only [Memory.set]
      split
      · rename_i hab
        refine List.pairwise_cons.2 ⟨?_, List.pairwise_cons.2 hp⟩
        intro c hc
        rcases List.mem_cons.1 hc with rfl | hc
        · exact hab
        · exact Nat.lt_trans hab (hp.1 c hc)
      · split
        · rename_i h1 h2
          subst h2
          exact List.pairwise_cons.2 hp
        · rename_i h1 h2
          refine List.pairwise_cons.2 ⟨fun c hc => ?_, ih hp.2⟩
          rcases Memory.mem_set _ _ _ _ hc with rfl | hc
          · show b < a
            omega
          · exact hp.1 c hc
  · rcases Memory.mem_set _ _ _ _ hc with rfl | hc
    · exact ha
    · exact h.2 c hc

/-- Forgetting a region keeps the canonical form. -/
theorem Memory.wf_forget {m : Memory} (h : m.wf = true) (g : Region) : (m.forget g).wf = true := by
  rw [Memory.wf_iff] at h ⊢
  exact ⟨h.1.sublist List.filter_sublist, fun c hc => h.2 c (List.mem_of_mem_filter hc)⟩

/-- Consecutive writes keep the canonical form. -/
theorem Memory.wf_setBytes {m : Memory} (h : m.wf = true) (a : Nat) (vs : List Byte)
    (ha : a + vs.length ≤ Config.addrSpace) : (m.setBytes a vs).wf = true := by
  induction vs generalizing m a with
  | nil => exact h
  | cons v vs ih =>
    simp only [List.length_cons] at ha
    exact ih (Memory.wf_set h (by omega) v) (a + 1) (by omega)

/-! ### The memory of a state -/

theorem State.byteAt_congr {s t : State} (hm : t.mem = s.mem) (hs : t.scrambles = s.scrambles) (a : Nat) :
    t.byteAt a = s.byteAt a := by
  simp [State.byteAt, hm, hs]

theorem State.anyValueAt_eq_false_of_get? {s : State} {a : Nat} {v : Byte} (h : s.mem.get? a = some v) :
    s.anyValueAt a = false := by simp [State.anyValueAt, h]

theorem SameByte.refl (s : State) (a : Nat) : SameByte s s a := ⟨rfl, rfl⟩

theorem SameByte.trans {s t u : State} {a : Nat} (h : SameByte s t a) (h' : SameByte t u a) : SameByte s u a :=
  ⟨h'.1.trans h.1, h'.2.trans h.2⟩

/-- A byte that is listed as before, among the same spoiled ranges, reads as before. -/
theorem SameByte.of_get? {s t : State} {a : Nat} (hm : t.mem.get? a = s.mem.get? a) (hs : t.scrambles = s.scrambles) :
    SameByte s t a := by
  simp [SameByte, State.byteAt, State.anyValueAt, hm, hs]

theorem SameByte.congr {s t : State} (hm : t.mem = s.mem) (hs : t.scrambles = s.scrambles) (a : Nat) : SameByte s t a :=
  .of_get? (by rw [hm]) hs

@[simp] theorem State.byteAt_writeByte_same (s : State) (a : Nat) (v : Byte) : (s.writeByte a v).byteAt a = v := by
  simp [State.byteAt]

/-- A written byte is known again. -/
@[simp] theorem State.anyValueAt_writeByte_same (s : State) (a : Nat) (v : Byte) :
    (s.writeByte a v).anyValueAt a = false := State.anyValueAt_eq_false_of_get? (v := v) (by simp)

theorem State.sameByte_writeByte_other (s : State) {a b : Nat} (v : Byte) (h : b ≠ a) : SameByte s (s.writeByte a v) b :=
  .of_get? (Memory.get?_set_other _ _ h) rfl

theorem State.byteAt_writeBytes_inside (s : State) (a : Nat) (vs : List Byte) (k : Nat) (h : k < vs.length) :
    (s.writeBytes a vs).byteAt (a + k) = vs[k] := by
  simp [State.byteAt, Memory.get?_setBytes_inside _ _ _ _ h]

theorem State.sameByte_writeBytes_outside (s : State) (a b : Nat) (vs : List Byte) (h : b < a ∨ a + vs.length ≤ b) :
    SameByte s (s.writeBytes a vs) b :=
  .of_get? (Memory.get?_setBytes_outside _ _ _ _ h) rfl

/-- Outside a scrambled range memory reads as before. -/
theorem State.sameByte_scramble_outside (s : State) (g : Region) (a : Nat) (h : g.holds a = false) :
    SameByte s (s.scramble g) a := by
  simp [SameByte, State.byteAt, State.anyValueAt, Memory.get?_forget, h, unlistedByte, Scramble.covers_eq_holds]

/-- Inside a scrambled range memory holds a free value, and it reads as any value. -/
theorem State.byteAt_scramble_inside (s : State) (g : Region) (a : Nat) (h : g.holds a = true) :
    (s.scramble g).byteAt a = Config.freeByte s.fresh a ∧ (s.scramble g).anyValueAt a = true := by
  simp [State.byteAt, State.anyValueAt, Memory.get?_forget, h, unlistedByte, Scramble.covers_eq_holds]

/-- A scramble takes no byte back from those that hold any value. -/
theorem State.anyValueAt_scramble {s : State} {a : Nat} (h : s.anyValueAt a = true) (g : Region) :
    (s.scramble g).anyValueAt a = true := by
  cases hg : g.holds a with
  | true => exact (State.byteAt_scramble_inside s g a hg).2
  | false => rw [(State.sameByte_scramble_outside s g a hg).2, h]

theorem State.anyValueAt_scrambleAll {s : State} {a : Nat} (h : s.anyValueAt a = true) (gs : List Region) :
    (s.scrambleAll gs).anyValueAt a = true := by
  induction gs generalizing s with
  | nil => exact h
  | cons g gs ih => exact ih (State.anyValueAt_scramble h g)

/-- Inside the scrambled ranges every byte holds any value. -/
theorem State.anyValueIn_scrambleAll (s : State) (gs : List Region) : AnyValueIn gs (s.scrambleAll gs) := by
  induction gs generalizing s with
  | nil => exact fun a h => by simp at h
  | cons g gs ih =>
    intro a h
    rw [anyHolds_cons, Bool.or_eq_true] at h
    rcases h with h | h
    · exact State.anyValueAt_scrambleAll (State.byteAt_scramble_inside s g a h).2 gs
    · exact ih _ a h

/-- Outside all the scrambled ranges memory reads as before. -/
theorem State.sameByte_scrambleAll_outside (s : State) (gs : List Region) (a : Nat) (h : anyHolds gs a = false) :
    SameByte s (s.scrambleAll gs) a := by
  induction gs generalizing s with
  | nil => exact .refl s a
  | cons g gs ih =>
    simp only [anyHolds_cons, Bool.or_eq_false_iff] at h
    exact (State.sameByte_scramble_outside s g a h.1).trans (ih _ h.2)

theorem State.wf_scrambleAll {s : State} (h : s.mem.wf = true) (gs : List Region) : (s.scrambleAll gs).mem.wf = true := by
  induction gs generalizing s with
  | nil => exact h
  | cons g gs ih => exact ih (s := s.scramble g) (Memory.wf_forget h g)

@[simp] theorem State.readBytes_length (s : State) (g : Region) : (s.readBytes g).length = g.size := by
  simp [State.readBytes]

@[simp] theorem State.readBytes_getElem (s : State) (g : Region) (k : Nat) (h : k < (s.readBytes g).length) :
    (s.readBytes g)[k] = s.byteAt (g.base + k) := by
  simp [State.readBytes]

/-- Bytes written and read back. -/
theorem State.readBytes_writeBytes (s : State) (a : Nat) (vs : List Byte) :
    (s.writeBytes a vs).readBytes ⟨a, vs.length⟩ = vs := by
  apply List.ext_getElem
  · simp
  · intro k h1 h2
    rw [State.readBytes_getElem]
    exact State.byteAt_writeBytes_inside _ _ _ _ h2

end Sys2Proof.Machine
end

