-- ==== Sys2Proof/Laws/Ops.lean ====
section
/-! SUPPORT. What the shared operations can do, said once: the window conditions, the outcome of a piece of pseudocode,
the error completion, and the inversion of a command's complete step. -/

namespace Sys2Proof.Machine

/-! ### The window conditions (R63) -/

/-- R63 (c) is broken exactly when some address lies in a range the command may write and in another it uses. -/
theorem windowsOverlap_false_iff (i : Instr) (r : Regs) :
    windowsOverlap i r = false ↔
      (∀ g ∈ writeRegions i r, ∀ h ∈ readRegions i r, g.overlaps h = false) ∧
      (writeRegions i r).Pairwise (fun g h => g.overlaps h = false) := by
  simp [windowsOverlap]

theorem windowsNonOrdinary_false_iff (i : Instr) (r : Regs) (platform : List Region) :
    windowsNonOrdinary i r platform = false ↔ ∀ g ∈ usedRegions i r, ∀ h ∈ platform, g.overlaps h = false := by
  simp [windowsNonOrdinary]

theorem windowBreach_none_iff (i : Instr) (r : Regs) (platform : List Region) :
    windowBreach i r platform = none ↔ windowsOverlap i r = false ∧ windowsNonOrdinary i r platform = false := by
  unfold windowBreach
  cases windowsOverlap i r <;> cases windowsNonOrdinary i r platform <;> simp

/-- The commands that use no window keep R63 whatever the registers hold. -/
theorem windowsOk_of_unused {i : Instr} (h : readWindows i = [] ∧ writeWindows i = []) (s : State) : WindowsOk i s := by
  simp [WindowsOk, windowBreach_none_iff, windowsOverlap, windowsNonOrdinary, usedRegions, readRegions, writeRegions,
    h.1, h.2]

/-! ### Pseudocode -/

@[simp] theorem Run.bind_done (s : State) (k : State → Run) : (Run.done s).bind k = k s := rfl

@[simp] theorem Run.bind_raised (e : Report) (s : State) (k : State → Run) : (Run.raised e s).bind k = .raised e s := rfl

theorem Run.bind_eq_done_iff (r : Run) (k : State → Run) (t : State) :
    r.bind k = .done t ↔ ∃ s, r = .done s ∧ k s = .done t := by
  cases r <;> simp [Run.bind]

theorem Run.bind_eq_raised_iff (r : Run) (k : State → Run) (e : Report) (t : State) :
    r.bind k = .raised e t ↔ r = .raised e t ∨ ∃ s, r = .done s ∧ k s = .raised e t := by
  cases r <;> simp [Run.bind]

/-- Whatever way the pseudocode ended, its state has this property. -/
def Run.All (P : State → Prop) : Run → Prop
  | .done s => P s
  | .raised _ s => P s

theorem Run.All.bind {P Q : State → Prop} {r : Run} {k : State → Run} (hr : r.All P) (hPQ : ∀ s, P s → Q s)
    (hk : ∀ s, P s → (k s).All Q) : (r.bind k).All Q := by
  cases r with
  | done s => exact hk s hr
  | raised e s => exact hPQ s hr

/-- The range check passes and changes nothing, or raises `RANGE` with the window's number and address (R50). -/
theorem checkRange_cases (w : Window) (len : Word) (s : State) :
    (InRange (s.regs.addr w) len ∧ checkRange w len s = .done s) ∨
    (¬ InRange (s.regs.addr w) len ∧ checkRange w len s = .raised ⟨.range, w.number, s.regs.addr w⟩ s) := by
  unfold checkRange outOfRange InRange
  split <;> simp_all

theorem checkRange_of_inRange {w : Window} {len : Word} {s : State} (h : InRange (s.regs.addr w) len) :
    checkRange w len s = .done s := by
  rcases checkRange_cases w len s with h1 | h1
  · exact h1.2
  · exact absurd h h1.1

theorem checkRange_of_not_inRange {w : Window} {len : Word} {s : State} (h : ¬ InRange (s.regs.addr w) len) :
    checkRange w len s = .raised ⟨.range, w.number, s.regs.addr w⟩ s := by
  rcases checkRange_cases w len s with h1 | h1
  · exact absurd h1.1 h
  · exact h1.2

theorem checkRange_all {P : State → Prop} {w : Window} {len : Word} {s : State} (h : P s) : (checkRange w len s).All P := by
  unfold checkRange
  split <;> exact h

/-! ### Completion -/

theorem runCommand_of_done {i : Instr} {body : State → Run} {s t : State} (hw : WindowsOk i s) (h : body s = .done t) :
    runCommand i body s = .next t.succeed := by
  unfold WindowsOk at hw
  simp [runCommand, hw, h]

theorem runCommand_of_raised {i : Instr} {body : State → Run} {s t : State} {e : Report} (hw : WindowsOk i s)
    (h : body s = .raised e t) : runCommand i body s = .next (t.fail (writeWindows i) (isComposite i) e) := by
  unfold WindowsOk at hw
  simp [runCommand, hw, h]

/-- What a complete step can answer: a refusal where R63 is broken, else the successful or the error completion. -/
theorem runCommand_next_iff (i : Instr) (body : State → Run) (s t : State) :
    runCommand i body s = .next t ↔
      WindowsOk i s ∧ ((∃ u, body s = .done u ∧ t = u.succeed) ∨
        ∃ e u, body s = .raised e u ∧ t = u.fail (writeWindows i) (isComposite i) e) := by
  unfold runCommand WindowsOk
  cases windowBreach i s.regs s.platform with
  | some why => simp
  | none =>
    cases body s with
    | done u => simp [eq_comm]
    | raised e u => simp [eq_comm]

theorem runCommand_ne_fault (i : Instr) (body : State → Run) (s : State) (r : Fault) :
    runCommand i body s ≠ .fault r := by
  cases r

/-! ### The error completion -/

theorem State.fail_regs (outs : List Window) (c : Bool) (e : Report) (s : State) :
    (s.fail outs c e).regs =
      ((if c then s.regs.clearValid else s.regs).zeroLens outs).reportError e := by
  unfold State.fail
  split <;> simp

@[simp] theorem State.fail_freq (outs : List Window) (c : Bool) (e : Report) (s : State) :
    (s.fail outs c e).freq = s.freq := by
  unfold State.fail; split <;> simp

@[simp] theorem State.fail_node (outs : List Window) (c : Bool) (e : Report) (s : State) :
    (s.fail outs c e).node = s.node := by
  unfold State.fail; split <;> simp

@[simp] theorem State.fail_code (outs : List Window) (c : Bool) (e : Report) (s : State) :
    (s.fail outs c e).code = s.code := by
  unfold State.fail; split <;> simp

@[simp] theorem State.fail_resetIn (outs : List Window) (c : Bool) (e : Report) (s : State) :
    (s.fail outs c e).resetIn = s.resetIn := by
  unfold State.fail; split <;> simp

@[simp] theorem State.fail_platform (outs : List Window) (c : Bool) (e : Report) (s : State) :
    (s.fail outs c e).platform = s.platform := by
  unfold State.fail; split <;> simp

@[simp] theorem State.fail_script (outs : List Window) (c : Bool) (e : Report) (s : State) :
    (s.fail outs c e).script = s.script := by
  unfold State.fail; split <;> simp

@[simp] theorem State.fail_observed (outs : List Window) (c : Bool) (e : Report) (s : State) :
    (s.fail outs c e).observed = s.observed := by
  unfold State.fail; split <;> simp

/-- After one of the errors that wrote nothing, memory is as it was (R57). -/
theorem State.fail_memory_same {outs : List Window} {c : Bool} {e : Report} {s : State} (h : e.kind.writesNothing = true) :
    (s.fail outs c e).mem = s.mem ∧ (s.fail outs c e).scrambles = s.scrambles := by
  simp [State.fail, h]

/-- After any error, memory outside the capacity ranges of the writable windows is as it was (R57). -/
theorem State.fail_sameByte_outside (outs : List Window) (c : Bool) (e : Report) (s : State) (a : Nat)
    (h : anyHolds (outs.map s.regs.writeRegion) a = false) : SameByte s (s.fail outs c e) a := by
  unfold State.fail
  split
  · exact .congr (by simp) (by simp) a
  · exact (State.sameByte_scrambleAll_outside s _ a h).trans (.congr (by simp) (by simp) a)

/-- After the other errors every byte of the capacity ranges of the writable windows holds any value (R57). -/
theorem State.fail_anyValueIn {e : Report} (he : e.kind.writesNothing = false) (outs : List Window) (c : Bool) (s : State) :
    AnyValueIn (outs.map s.regs.writeRegion) (s.fail outs c e) := fun a h => by
  have := State.anyValueIn_scrambleAll s (outs.map s.regs.writeRegion) a h
  rw [← this]
  exact (SameByte.congr (s := s.scrambleAll (outs.map s.regs.writeRegion)) (by simp [State.fail, he])
    (by simp [State.fail, he]) a).2

theorem State.fail_mem_wf {s : State} (h : s.mem.wf = true) (outs : List Window) (c : Bool) (e : Report) :
    (s.fail outs c e).mem.wf = true := by
  unfold State.fail
  split
  · simpa using h
  · simpa using State.wf_scrambleAll h _

theorem State.byteAt_succeed (s : State) (a : Nat) : s.succeed.byteAt a = s.byteAt a :=
  State.byteAt_congr (by simp) (by simp) a

theorem State.sameByte_succeed (s : State) (a : Nat) : SameByte s s.succeed a := .congr rfl rfl a

theorem State.sameByte_clearValid (s : State) (a : Nat) : SameByte s s.clearValid a := .congr rfl rfl a

/-! ### `BITCNT` -/

@[simp] theorem Regs.bitcnt_setBitcnt (r : Regs) (v : BitVec 64) : (r.setBitcnt v).bitcnt = v := by
  apply BitVec.eq_of_getLsbD_eq
  intro i hi
  simp only [Regs.bitcnt, Regs.setBitcnt_bitcntHi, Regs.setBitcnt_bitcntLo, BitVec.getLsbD_append,
    BitVec.getLsbD_extractLsb']
  by_cases h : i < 32
  · simp [h]
  · have h1 : i - 32 < 32 := by omega
    have h2 : 32 + (i - 32) = i := by omega
    simp [h, h1, h2]

end Sys2Proof.Machine
end

