-- ==== Sys2Proof/Laws/Encoder.lean ====
section
/-! SUPPORT. The bit encoder: the cover pass finds the first byte without a code and sums the lengths (spec/43_bit_encoder.md
R108, R113), and the packer writes the payload most significant bit first, padded with zeros (R110 to R112). -/

namespace Sys2Proof.Machine

/-! ### A packed bit string (spec/30_encoding.md R75, R76) -/

/-- A bit string packed into `ceil8` bytes, bit `t` at bit `7 - (t mod 8)` of byte `t div 8`, padding 0 (R75, R76). -/
def packBytes (p : BitString) : List Byte :=
  (List.range (ceil8 p.length)).map (fun k => msbFirst 8 (fun r => p[8 * k + r]?.getD false))

@[simp] theorem packBytes_length (p : BitString) : (packBytes p).length = ceil8 p.length := by simp [packBytes]

theorem packBytes_getElem (p : BitString) (k : Nat) (h : k < (packBytes p).length) :
    (packBytes p)[k] = msbFirst 8 (fun r => p[8 * k + r]?.getD false) := by simp [packBytes]

/-- Each bit of a packed string is where R75 puts it. -/
theorem packedBit_packBytes (p : BitString) (H : Nat → Byte) (t : Nat) (ht : t < p.length)
    (hH : ∀ k (hk : k < (packBytes p).length), H k = (packBytes p)[k]) : packedBit H t = p[t] := by
  have hk : t / 8 < (packBytes p).length := by
    simp only [packBytes_length, ceil8]
    omega
  rw [packedBit, hH _ hk, packBytes_getElem, getLsbD_msbFirst]
  have h2 : 8 - 1 - (7 - t % 8) = t % 8 := by omega
  have h3 : 8 * (t / 8) + t % 8 = t := by omega
  have h1 : 7 - t % 8 < 8 := by omega
  simp [h1, h2, h3, ht]

/-- The bits after the last payload bit are 0 (R76). -/
theorem padding_packBytes (p : BitString) (k r : Nat) (hk : k < (packBytes p).length) (hr : r < 8)
    (h : p.length ≤ 8 * k + r) : (packBytes p)[k].getLsbD (7 - r) = false := by
  rw [packBytes_getElem, getLsbD_msbFirst]
  have h2 : 8 - 1 - (7 - r) = r := by omega
  simp [h2, List.getElem?_eq_none h]

@[simp] theorem packBytes_nil : packBytes [] = [] := rfl

/-- Eight bits at the front are one byte at the front. -/
theorem packBytes_append_eight (d v : BitString) (h : d.length = 8) :
    packBytes (d ++ v) = msbFirst 8 (fun r => d[r]?.getD false) :: packBytes v := by
  apply List.ext_getElem
  · simp [ceil8, h]
    omega
  · intro k h1 h2
    rw [packBytes_getElem]
    cases k with
    | zero =>
      rw [List.getElem_cons_zero]
      apply BitVec.eq_of_getLsbD_eq
      intro i hi
      rw [getLsbD_msbFirst, getLsbD_msbFirst]
      rw [List.getElem?_append_left (by omega)]
      simp
    | succ k =>
      rw [List.getElem_cons_succ, packBytes_getElem]
      apply BitVec.eq_of_getLsbD_eq
      intro i hi
      rw [getLsbD_msbFirst, getLsbD_msbFirst]
      rw [List.getElem?_append_right (by omega)]
      have : 8 * (k + 1) + (8 - 1 - i) - d.length = 8 * k + (8 - 1 - i) := by omega
      rw [this]

/-- A short bit string is one byte, left-aligned. -/
theorem packBytes_short (d : BitString) (h0 : 0 < d.length) (h : d.length < 8) :
    packBytes d = [msbFirst 8 (fun r => d[r]?.getD false)] := by
  have hc : ceil8 d.length = 1 := by unfold ceil8; omega
  simp [packBytes, hc]

/-! ### The packer (R110, R111) -/

/-- What `ACC` holds after the bits `d` (R110). -/
def accOf (d : BitString) : Byte := d.foldl (fun acc b => acc.shiftConcat b) 0#8

theorem getLsbD_accOf (d : BitString) (i : Nat) :
    (accOf d).getLsbD i = (decide (i < 8) && (decide (i < d.length) && d[d.length - 1 - i]?.getD false)) := by
  induction d using List.reverseRecOn generalizing i with
  | nil => simp [accOf]
  | append_singleton d b ih =>
    have step : accOf (d ++ [b]) = (accOf d).shiftConcat b := by simp [accOf]
    rw [step, getLsbD_shiftConcat]
    simp only [List.length_append, List.length_singleton]
    cases i with
    | zero => simp
    | succ i =>
      rw [if_neg (Nat.succ_ne_zero i), Nat.add_sub_cancel, ih]
      by_cases h1 : i + 1 < 8
      · by_cases h2 : i < d.length
        · have e : d.length + 1 - 1 - (i + 1) = d.length - 1 - i := by omega
          rw [e, List.getElem?_append_left (by omega)]
          simp [h1, h2, Nat.lt_of_succ_lt h1]
        · have h3 : ¬ i + 1 < d.length + 1 := by omega
          simp [h2, h3]
      · simp [h1]

theorem accOf_eight (d : BitString) (h : d.length = 8) : accOf d = msbFirst 8 (fun r => d[r]?.getD false) := by
  apply BitVec.eq_of_getLsbD_eq
  intro i hi
  rw [getLsbD_accOf, getLsbD_msbFirst, h]
  simp [hi]

theorem accOf_shifted (d : BitString) (h : d.length < 8) :
    accOf d <<< (8 - d.length) = msbFirst 8 (fun r => d[r]?.getD false) := by
  apply BitVec.eq_of_getLsbD_eq
  intro i hi
  rw [BitVec.getLsbD_shiftLeft, getLsbD_accOf, getLsbD_msbFirst]
  by_cases h1 : i < 8 - d.length
  · have : d.length ≤ 8 - 1 - i := by omega
    simp [h1, List.getElem?_eq_none this]
  · have e : d.length - 1 - (i - (8 - d.length)) = 8 - 1 - i := by omega
    have h2 : i - (8 - d.length) < d.length := by omega
    have h3 : i - (8 - d.length) < 8 := by omega
    rw [e]
    simp only [hi, h1, h2, h3, decide_true, decide_false, Bool.not_false, Bool.true_and]

/-- The packer holding the bits `d`, then given the bits `v` and flushed, writes the packed string `d ++ v` (R110,
R111). -/
theorem putBits_flush (v d : BitString) (wp : Word) (total : BitVec 64) (hd : d.length < 8) :
    let p : Packer := ⟨accOf d, ⟨d.length, hd⟩, wp, total⟩
    (putBits p v).2 ++ (flush (putBits p v).1).2 = packBytes (d ++ v) ∧
    (flush (putBits p v).1).1.wp = wp + BitVec.ofNat 32 (ceil8 (d ++ v).length) := by
  induction v generalizing d wp with
  | nil =>
    intro p
    simp only [putBits, List.nil_append, List.append_nil]
    by_cases h0 : d.length = 0
    · rw [List.length_eq_zero_iff] at h0
      subst h0
      simp [p, flush]
    · have hn : p.nb ≠ 0 := by
        intro e
        exact h0 (congrArg Fin.val e)
      have hc : ceil8 d.length = 1 := by unfold ceil8; omega
      rw [packBytes_short d (by omega) hd, hc]
      simp only [flush, if_neg hn]
      exact ⟨by rw [← accOf_shifted d hd], rfl⟩
  | cons b v ih =>
    intro p
    have hacc : p.acc.shiftConcat b = accOf (d ++ [b]) := by simp [p, accOf]
    by_cases h7 : d.length = 7
    · have hn : p.nb = 7 := Fin.ext h7
      have hput : putBit p b = (⟨accOf [], ⟨0, by omega⟩, wp + 1#32, total⟩, [accOf (d ++ [b])]) := by
        simp only [putBit, if_pos hn, hacc]
        rfl
      obtain ⟨ih1, ih2⟩ := ih [] (wp + 1#32) (by simp)
      simp only [List.nil_append, List.length_nil] at ih1 ih2
      have e : d ++ b :: v = (d ++ [b]) ++ v := by simp
      have hl : (d ++ [b]).length = 8 := by simp [h7]
      rw [e, packBytes_append_eight _ _ hl, ← accOf_eight _ hl]
      simp only [putBits, hput]
      refine ⟨?_, ?_⟩
      · rw [List.append_assoc, ih1]
        rfl
      · rw [ih2, List.length_append, hl]
        have hc : ceil8 (8 + v.length) = 1 + ceil8 v.length := by unfold ceil8; omega
        rw [hc, BitVec.add_assoc]
        congr 1
        apply BitVec.eq_of_toNat_eq
        simp
    · have hn : p.nb ≠ 7 := fun e => h7 (congrArg Fin.val e)
      have hd' : (d ++ [b]).length < 8 := by simp; omega
      have hput : putBit p b = (⟨accOf (d ++ [b]), ⟨(d ++ [b]).length, hd'⟩, wp, total⟩, []) := by
        simp only [putBit, if_neg hn, hacc]
        congr 2
        apply Fin.ext
        simp [p, Fin.val_add]
        omega
      obtain ⟨ih1, ih2⟩ := ih (d ++ [b]) wp hd'
      have e : d ++ b :: v = (d ++ [b]) ++ v := by simp
      rw [e]
      simp only [putBits, hput, List.nil_append]
      exact ⟨ih1, ih2⟩

/-- Pass 2 writes the packed payload, and `WP` ends as its length in bytes (R108, R112). -/
theorem packPass_spec (code : CodeTable) (bs : List Byte) (total : BitVec 64) :
    (packPass code bs total).2 = packBytes (payload code bs) ∧
    (packPass code bs total).1.wp = BitVec.ofNat 32 (ceil8 (payload code bs).length) := by
  have h := putBits_flush (payload code bs) [] 0#32 total (by simp)
  simp only [List.nil_append, List.length_nil, BitVec.zero_add] at h
  exact h

/-! ### Pass 1 (R108, R113) -/

theorem payload_length_cons (code : CodeTable) (b : Byte) (bs : List Byte) :
    (payload code (b :: bs)).length = (tableGet code b).len.toNat + (payload code bs).length := by
  simp [payload]

/-- `BITCNT = sum over k of CODE[SRC[k]].len` (R112). -/
theorem payload_length (code : CodeTable) (bs : List Byte) :
    (payload code bs).length = (bs.map (fun b => (tableGet code b).len.toNat)).sum := by
  induction bs with
  | nil => rfl
  | cons b bs ih => rw [payload_length_cons, ih]; simp

/-- Every code has at most 255 bits (R112). -/
theorem payload_length_le (code : CodeTable) (bs : List Byte) : (payload code bs).length ≤ 255 * bs.length := by
  induction bs with
  | nil => simp [payload]
  | cons b bs ih =>
    rw [payload_length_cons, List.length_cons]
    have := (tableGet code b).len.isLt
    omega

/-- Where every byte has a code the pass ends with the total. -/
theorem coverPass_ok {code : CodeTable} {bs : List Byte} (h : ∀ b ∈ bs, b ∈ coded code) (k : Word) (total : BitVec 64) :
    coverPass code bs k total = .ok (total + BitVec.ofNat 64 (payload code bs).length) := by
  induction bs generalizing k total with
  | nil => simp [coverPass, payload]
  | cons b bs ih =>
    have hb := (mem_coded code b).1 (h b (by simp))
    rw [coverPass, if_neg hb, ih (fun c hc => h c (by simp [hc])), payload_length_cons]
    congr 1
    apply BitVec.eq_of_toNat_eq
    have := (tableGet code b).len.isLt
    simp only [BitVec.toNat_add, BitVec.toNat_ofNat, BitVec.toNat_setWidth]
    omega

/-- The first byte without a code is reported, with its offset (R108, R159). -/
theorem coverPass_uncovered {code : CodeTable} {pre post : List Byte} {b : Byte} (h : ∀ c ∈ pre, c ∈ coded code)
    (hb : b ∉ coded code) (k : Word) (total : BitVec 64) :
    coverPass code (pre ++ b :: post) k total = .error ⟨.uncoveredSymbol, b, k + BitVec.ofNat 32 pre.length⟩ := by
  induction pre generalizing k total with
  | nil =>
    rw [mem_coded, not_not] at hb
    simp [coverPass, hb]
  | cons c pre ih =>
    have hc := (mem_coded code c).1 (h c (by simp))
    rw [List.cons_append, coverPass, if_neg hc, ih (fun c hc => h c (by simp [hc]))]
    have e : k + 1#32 + BitVec.ofNat 32 pre.length = k + BitVec.ofNat 32 (c :: pre).length := by
      apply BitVec.eq_of_toNat_eq
      simp only [BitVec.toNat_add, BitVec.toNat_ofNat, List.length_cons]
      omega
    rw [e]

end Sys2Proof.Machine
end

