-- ==== Sys2Proof/Laws/BitDecoder.lean ====
section
/-! SUPPORT. The bit decoder: on a prefix-free table the decode trie has one symbol a leaf (spec/45_bit_decoder.md R128), and
the walk over a payload emits its bytes in order (R131, R136), and stops by name where the payload ends mid-code, asks for
a missing child or does not fit (R132, R133, R135). -/

namespace Sys2Proof.Machine

/-! ### The decode trie (R128) -/

theorem mem_codeBook (code : CodeTable) (s : Byte) (p : BitString) :
    (s, p) ∈ codeBook code ↔ s ∈ coded code ∧ p = codeOf code s := by
  simp only [codeBook, List.mem_map, Prod.mk.injEq, codeOf]
  constructor
  · rintro ⟨u, hu, rfl, rfl⟩; exact ⟨hu, rfl⟩
  · rintro ⟨hs, rfl⟩; exact ⟨s, hs, rfl, rfl⟩

/-- A leaf has the symbol whose code it is; on a prefix-free table there is at most one (R128). -/
theorem leafSymbol_code {code : CodeTable} (hf : PrefixFree code) {s : Byte} (hs : s ∈ coded code) :
    leafSymbol (codeBook code) (codeOf code s) = some s := by
  unfold leafSymbol
  cases hfind : (codeBook code).find? (fun row => row.2 == codeOf code s) with
  | none =>
    rw [List.find?_eq_none] at hfind
    have := hfind (s, codeOf code s) ((mem_codeBook _ _ _).2 ⟨hs, rfl⟩)
    simp at this
  | some row =>
    obtain ⟨u, p⟩ := row
    have h1 := List.find?_some hfind
    have h2 := (mem_codeBook _ _ _).1 (List.mem_of_find?_eq_some hfind)
    simp only [beq_iff_eq] at h1
    by_cases e : u = s
    · simp [e]
    · exact absurd (by rw [← h2.2, h1]) (hf u s h2.1 hs e)

theorem leafSymbol_none {code : CodeTable} {p : BitString} (h : ∀ s ∈ coded code, codeOf code s ≠ p) :
    leafSymbol (codeBook code) p = none := by
  unfold leafSymbol
  rw [Option.map_eq_none_iff, List.find?_eq_none]
  rintro ⟨u, q⟩ hu
  obtain ⟨h1, rfl⟩ := (mem_codeBook _ _ _).1 hu
  simpa using h u h1

theorem leafSymbol_some {code : CodeTable} {p : BitString} {s : Byte} (h : leafSymbol (codeBook code) p = some s) :
    s ∈ coded code ∧ codeOf code s = p := by
  unfold leafSymbol at h
  rw [Option.map_eq_some_iff] at h
  obtain ⟨⟨u, q⟩, hfind, rfl⟩ := h
  have h1 := List.find?_some hfind
  have h2 := (mem_codeBook _ _ _).1 (List.mem_of_find?_eq_some hfind)
  simp only [beq_iff_eq] at h1
  exact ⟨h2.1, by rw [← h2.2]; exact h1⟩

/-- An internal node is a proper prefix of some code (R128). -/
theorem isInternal_iff (code : CodeTable) (p : BitString) :
    isInternal (codeBook code) p = true ↔ ∃ s ∈ coded code, p <+: codeOf code s ∧ p ≠ codeOf code s := by
  simp only [isInternal, List.any_eq_true, Bool.and_eq_true, List.isPrefixOf_iff_prefix, bne_iff_ne]
  constructor
  · rintro ⟨⟨u, q⟩, hu, h1, h2⟩
    obtain ⟨h3, rfl⟩ := (mem_codeBook _ _ _).1 hu
    exact ⟨u, h3, h1, h2⟩
  · rintro ⟨s, hs, h1, h2⟩
    exact ⟨(s, codeOf code s), (mem_codeBook _ _ _).2 ⟨hs, rfl⟩, h1, h2⟩

/-- A proper prefix of a code is no code (R128: "no node is both a leaf and internal"). -/
theorem leafSymbol_of_internal {code : CodeTable} (hf : PrefixFree code) {p : BitString}
    (h : isInternal (codeBook code) p = true) : leafSymbol (codeBook code) p = none := by
  obtain ⟨s, hs, h1, h2⟩ := (isInternal_iff _ _).1 h
  refine leafSymbol_none fun u hu e => ?_
  by_cases hus : u = s
  · subst hus; exact h2 e.symm
  · exact hf u s hu hs hus (e ▸ h1)

/-! ### The walk (R130) -/

/-- What a walk emitted, put in front of what the rest of it emits. -/
def emitted (bs : List Byte) : Except Report (Decoder × List Byte) → Except Report (Decoder × List Byte)
  | .error e => .error e
  | .ok (d, more) => .ok (d, bs ++ more)

@[simp] theorem emitted_ok (bs : List Byte) (d : Decoder) (more : List Byte) :
    emitted bs (.ok (d, more)) = .ok (d, bs ++ more) := rfl

@[simp] theorem emitted_error (bs : List Byte) (e : Report) : emitted bs (.error e) = .error e := rfl

theorem emitted_nil (r : Except Report (Decoder × List Byte)) : emitted [] r = r := by
  cases r with
  | error e => rfl
  | ok x => rfl

theorem emitted_emitted (as bs : List Byte) (r : Except Report (Decoder × List Byte)) :
    emitted as (emitted bs r) = emitted (as ++ bs) r := by
  cases r with
  | error e => rfl
  | ok x => simp [emitted]

theorem decodeLoop_succ (book : List (Byte × BitString)) (bitAt : Nat → Bool) (cap : Word) (n : Nat) (d : Decoder) :
    decodeLoop book bitAt cap (n + 1) d =
      match decodeStep book bitAt cap d with
      | .error e => .error e
      | .ok (d', out) => emitted out (decodeLoop book bitAt cap n d') := by
  rw [decodeLoop]
  rcases decodeStep book bitAt cap d with e | ⟨d', out⟩
  · rfl
  · simp only
    rcases decodeLoop book bitAt cap n d' with e | ⟨last, more⟩ <;> rfl

theorem BitsFrom.head {bitAt : Nat → Bool} {rp : Nat} {b : Bool} {v : BitString} (h : BitsFrom bitAt rp (b :: v)) :
    bitAt rp = b := h 0 (by simp)

theorem BitsFrom.tail {bitAt : Nat → Bool} {rp : Nat} {b : Bool} {v : BitString} (h : BitsFrom bitAt rp (b :: v)) :
    BitsFrom bitAt (rp + 1) v := fun j hj => by
  have := h (j + 1) (by simpa using hj)
  rw [Nat.add_assoc, Nat.add_comm 1 j]
  simpa using this

theorem bitsFrom_append {bitAt : Nat → Bool} {rp : Nat} {u v : BitString} :
    BitsFrom bitAt rp (u ++ v) ↔ BitsFrom bitAt rp u ∧ BitsFrom bitAt (rp + u.length) v := by
  induction u generalizing rp with
  | nil => simp [BitsFrom]
  | cons b u ih =>
    constructor
    · intro h
      obtain ⟨h1, h2⟩ := ih.1 h.tail
      refine ⟨fun j hj => ?_, ?_⟩
      · cases j with
        | zero => exact h.head
        | succ j =>
          have := h1 j (by simpa using hj)
          rw [Nat.add_assoc, Nat.add_comm 1 j] at this
          simpa using this
      · rw [List.length_cons, Nat.add_comm u.length 1, ← Nat.add_assoc]
        exact h2
    · rintro ⟨h1, h2⟩ j hj
      by_cases hlt : j < (b :: u).length
      · rw [List.getElem_append_left hlt]
        exact h1 j hlt
      · rw [List.getElem_append_right (by omega)]
        have := h2 (j - (b :: u).length) (by simp only [List.length_append] at hj; omega)
        rwa [Nat.add_assoc, Nat.add_sub_cancel' (by omega)] at this

section
variable {code : CodeTable} (hf : PrefixFree code) (bitAt : Nat → Bool) (cap : Word)
include hf

/-- A step that stays at an internal node. -/
theorem decodeStep_internal {d : Decoder} {b : Bool} (hb : bitAt d.rp.toNat = b)
    (hi : isInternal (codeBook code) (d.path ++ [b]) = true) :
    decodeStep (codeBook code) bitAt cap d = .ok (⟨d.path ++ [b], d.rp + 1#64, d.out⟩, []) := by
  simp only [decodeStep, hb, leafSymbol_of_internal hf hi, hi, if_true]

/-- A step that reaches a leaf (R131, R135). -/
theorem decodeStep_leaf {d : Decoder} {b : Bool} {s : Byte} (hb : bitAt d.rp.toNat = b) (hs : s ∈ coded code)
    (hc : d.path ++ [b] = codeOf code s) :
    decodeStep (codeBook code) bitAt cap d =
      if d.out = cap then .error ⟨.overflow, 3#8, cap⟩ else .ok (⟨[], d.rp + 1#64, d.out + 1#32⟩, [s]) := by
  simp only [decodeStep, hb, hc, leafSymbol_code hf hs]

/-- The walk over the rest `v` of the code of `s`: it emits `s`, if there is room. -/
theorem decodeLoop_code {s : Byte} (hs : s ∈ coded code) (v : BitString) (hv : v ≠ []) (n : Nat) (d : Decoder)
    (hc : d.path ++ v = codeOf code s) (hbits : BitsFrom bitAt d.rp.toNat v) (hrp : d.rp.toNat + v.length < 2 ^ 64) :
    decodeLoop (codeBook code) bitAt cap (v.length + n) d =
      if d.out = cap then .error ⟨.overflow, 3#8, cap⟩
      else emitted [s] (decodeLoop (codeBook code) bitAt cap n
        ⟨[], d.rp + BitVec.ofNat 64 v.length, d.out + 1#32⟩) := by
  induction v generalizing d with
  | nil => exact absurd rfl hv
  | cons b v ih =>
    have hlen : (b :: v).length + n = (v.length + n) + 1 := by simp; omega
    rw [hlen, decodeLoop_succ]
    by_cases hv0 : v = []
    · subst hv0
      rw [decodeStep_leaf hf bitAt cap hbits.head hs hc]
      by_cases hcap : d.out = cap
      · simp [hcap]
      · simp [hcap]
    · have hpre : isInternal (codeBook code) (d.path ++ [b]) = true := by
        refine (isInternal_iff _ _).2 ⟨s, hs, ⟨v, by rw [← hc]; simp⟩, fun e => hv0 ?_⟩
        rw [← hc] at e
        simpa using e
      rw [decodeStep_internal hf bitAt cap hbits.head hpre]
      simp only [List.length_cons] at hrp
      have hrp1 : (d.rp + 1#64).toNat = d.rp.toNat + 1 := by
        rw [BitVec.toNat_add]
        simp
        omega
      have ih' := ih hv0 ⟨d.path ++ [b], d.rp + 1#64, d.out⟩ (by rw [← hc]; simp)
        (by simp only [hrp1]; exact hbits.tail) (by simp only [hrp1]; omega)
      simp only [emitted_nil, ih', List.length_cons]
      have e : d.rp + 1#64 + BitVec.ofNat 64 v.length = d.rp + BitVec.ofNat 64 (v.length + 1) := by
        apply BitVec.eq_of_toNat_eq
        simp only [BitVec.toNat_add, BitVec.toNat_ofNat]
        omega
      rw [e]

/-- The walk over a payload from the root emits its bytes in order, if there is room for them all (R131, R136). -/
theorem decodeLoop_payload (bs : List Byte) (hbs : ∀ b ∈ bs, b ∈ coded code) (n : Nat) (rp : BitVec 64) (out : Word)
    (hbits : BitsFrom bitAt rp.toNat (payload code bs)) (hrp : rp.toNat + (payload code bs).length < 2 ^ 64)
    (hcap : out.toNat + bs.length ≤ cap.toNat) :
    decodeLoop (codeBook code) bitAt cap ((payload code bs).length + n) ⟨[], rp, out⟩ =
      emitted bs (decodeLoop (codeBook code) bitAt cap n
        ⟨[], rp + BitVec.ofNat 64 (payload code bs).length, out + BitVec.ofNat 32 bs.length⟩) := by
  induction bs generalizing rp out with
  | nil => simp [payload, emitted_nil]
  | cons b bs ih =>
    have hb := hbs b (by simp)
    have hp : payload code (b :: bs) = codeOf code b ++ payload code bs := rfl
    have hlenb : (codeOf code b).length = (tableGet code b).len.toNat := CodeEntry.path_length _
    have hne : codeOf code b ≠ [] := by
      intro e
      rw [mem_coded] at hb
      apply hb
      apply BitVec.eq_of_toNat_eq
      rw [← hlenb, e]
      rfl
    rw [hp] at hbits hrp ⊢
    rw [List.length_append] at hrp
    rw [List.length_append, Nat.add_assoc]
    obtain ⟨hbits1, hbits2⟩ := bitsFrom_append.1 hbits
    have hlt := (tableGet code b).len.isLt
    rw [decodeLoop_code hf bitAt cap hb _ hne _ _ (by simp) hbits1 (by simp only; omega)]
    simp only [List.length_cons] at hcap
    have hcapb := cap.isLt
    have hne2 : out ≠ cap := by rintro rfl; omega
    have hrp1 : (rp + BitVec.ofNat 64 (codeOf code b).length).toNat = rp.toNat + (codeOf code b).length := by
      rw [BitVec.toNat_add, BitVec.toNat_ofNat]
      omega
    have hout1 : (out + 1#32).toNat = out.toNat + 1 := by
      rw [BitVec.toNat_add, BitVec.toNat_ofNat]
      omega
    rw [if_neg hne2]
    dsimp only
    rw [ih (fun c hc => hbs c (by simp [hc])) _ _ (by rw [hrp1]; exact hbits2) (by omega) (by omega),
      emitted_emitted]
    have e1 : rp + BitVec.ofNat 64 (codeOf code b).length + BitVec.ofNat 64 (payload code bs).length =
        rp + BitVec.ofNat 64 ((codeOf code b).length + (payload code bs).length) := by
      apply BitVec.eq_of_toNat_eq
      simp only [BitVec.toNat_add, BitVec.toNat_ofNat]
      omega
    have e2 : out + 1#32 + BitVec.ofNat 32 bs.length = out + BitVec.ofNat 32 (b :: bs).length := by
      apply BitVec.eq_of_toNat_eq
      simp only [BitVec.toNat_add, BitVec.toNat_ofNat, List.length_cons]
      omega
    rw [e1, e2]
    rfl

/-- The walk into an unfinished code ends at an internal node (R133). -/
theorem decodeLoop_unfinished (v : BitString) (d : Decoder) (hbits : BitsFrom bitAt d.rp.toNat v)
    (hrp : d.rp.toNat + v.length < 2 ^ 64) (hi : v ≠ [] → isInternal (codeBook code) (d.path ++ v) = true) :
    decodeLoop (codeBook code) bitAt cap v.length d =
      .ok (⟨d.path ++ v, d.rp + BitVec.ofNat 64 v.length, d.out⟩, []) := by
  induction v generalizing d with
  | nil => simp [decodeLoop]
  | cons b v ih =>
    obtain ⟨s, hs, hpre, hne⟩ := (isInternal_iff _ _).1 (hi (by simp))
    have hpre' : isInternal (codeBook code) (d.path ++ [b]) = true := by
      refine (isInternal_iff _ _).2 ⟨s, hs, List.IsPrefix.trans ⟨v, by simp⟩ hpre, fun e => ?_⟩
      have h1 := hpre.length_le
      have h2 := congrArg List.length e
      simp only [List.length_append, List.length_cons, List.length_nil] at h1 h2
      have hv : v = [] := List.length_eq_zero_iff.1 (by omega)
      subst hv
      exact hne e
    simp only [List.length_cons] at hrp
    have hrp1 : (d.rp + 1#64).toNat = d.rp.toNat + 1 := by
      rw [BitVec.toNat_add]
      simp
      omega
    rw [List.length_cons, decodeLoop_succ, decodeStep_internal hf bitAt cap hbits.head hpre']
    have ih' := ih ⟨d.path ++ [b], d.rp + 1#64, d.out⟩ (by simp only [hrp1]; exact hbits.tail)
      (by simp only [hrp1]; omega) (fun _ => by simpa using hi (by simp))
    simp only [emitted_nil, ih']
    have e : d.rp + 1#64 + BitVec.ofNat 64 v.length = d.rp + BitVec.ofNat 64 (v.length + 1) := by
      apply BitVec.eq_of_toNat_eq
      simp only [BitVec.toNat_add, BitVec.toNat_ofNat]
      omega
    simp [e]

/-- At a bit whose child does not exist the walk stops (R132), whatever follows. -/
theorem decodeLoop_noChild (v : BitString) (b : Bool) (n : Nat) (d : Decoder)
    (hbits : BitsFrom bitAt d.rp.toNat (v ++ [b])) (hrp : d.rp.toNat + v.length < 2 ^ 64)
    (hi : v ≠ [] → isInternal (codeBook code) (d.path ++ v) = true)
    (hno : ∀ s ∈ coded code, ¬ (d.path ++ v ++ [b]) <+: codeOf code s) :
    decodeLoop (codeBook code) bitAt cap (v.length + (n + 1)) d =
      .error ⟨.truncatedStream, 3#8, (d.rp + BitVec.ofNat 64 v.length).setWidth 32⟩ := by
  induction v generalizing d with
  | nil =>
    simp only [List.append_nil, List.nil_append, List.length_nil, Nat.zero_add] at *
    rw [decodeLoop_succ]
    have h1 : leafSymbol (codeBook code) (d.path ++ [b]) = none :=
      leafSymbol_none fun s hs e => hno s hs (e ▸ List.prefix_refl _)
    have h2 : isInternal (codeBook code) (d.path ++ [b]) = false := by
      rw [← Bool.not_eq_true, isInternal_iff]
      rintro ⟨s, hs, h, -⟩
      exact hno s hs h
    simp [decodeStep, hbits.head, h1, h2]
  | cons c v ih =>
    obtain ⟨s, hs, hpre, hne⟩ := (isInternal_iff _ _).1 (hi (by simp))
    have hpre' : isInternal (codeBook code) (d.path ++ [c]) = true := by
      refine (isInternal_iff _ _).2 ⟨s, hs, List.IsPrefix.trans ⟨v, by simp⟩ hpre, fun e => ?_⟩
      have h1 := hpre.length_le
      have h2 := congrArg List.length e
      simp only [List.length_append, List.length_cons, List.length_nil] at h1 h2
      have hv : v = [] := List.length_eq_zero_iff.1 (by omega)
      subst hv
      exact hne e
    rw [List.cons_append] at hbits
    simp only [List.length_cons] at hrp
    have hrp1 : (d.rp + 1#64).toNat = d.rp.toNat + 1 := by
      rw [BitVec.toNat_add]
      simp
      omega
    have hlen : (c :: v).length + (n + 1) = (v.length + (n + 1)) + 1 := by simp; omega
    rw [hlen, decodeLoop_succ, decodeStep_internal hf bitAt cap hbits.head hpre']
    have ih' := ih ⟨d.path ++ [c], d.rp + 1#64, d.out⟩ (by simp only [hrp1]; exact hbits.tail)
      (by simp only [hrp1]; omega) (fun _ => by simpa using hi (by simp)) (fun s hs => by simpa using hno s hs)
    simp only [emitted_nil, ih', List.length_cons]
    have e : d.rp + 1#64 + BitVec.ofNat 64 v.length = d.rp + BitVec.ofNat 64 (v.length + 1) := by
      apply BitVec.eq_of_toNat_eq
      simp only [BitVec.toNat_add, BitVec.toNat_ofNat]
      omega
    rw [e]

end

end Sys2Proof.Machine
end

