-- ==== Sys2Proof/Laws/TreeBuilder.lean ====
section
/-! SUPPORT. The tree builder: the queue extracts its least key (spec/41_tree_builder.md R93), and `SEED` then `FUSE` until
one node remains leave a tree of the frequency table (R96). -/

namespace Sys2Proof.Machine

/-! ### The queue (R93) -/

theorem keyLt_iff (node : NodeTable) (i j : Nat) :
    keyLt node i j = true ↔
      (nodeAt node i).f.toNat < (nodeAt node j).f.toNat ∨ ((nodeAt node i).f.toNat = (nodeAt node j).f.toNat ∧ i < j) := by
  simp [keyLt, BitVec.lt_def, BitVec.toNat_inj]

theorem keyLt_trans {node : NodeTable} {i j k : Nat} (h1 : keyLt node i j = true) (h2 : keyLt node j k = true) :
    keyLt node i k = true := by
  rw [keyLt_iff] at *
  omega

theorem keyLt_total (node : NodeTable) (i j : Nat) : keyLt node i j = true ∨ i = j ∨ keyLt node j i = true := by
  simp only [keyLt_iff]
  omega

theorem keyLt_irrefl (node : NodeTable) (i : Nat) : keyLt node i i = false := by
  rw [← Bool.not_eq_true, keyLt_iff]
  omega

/-- The index of smallest key is one of the indices, and every other key is greater. -/
theorem minKey_spec (node : NodeTable) (i : Nat) (rest : List Nat) :
    minKey node i rest ∈ i :: rest ∧
      ∀ j ∈ i :: rest, j = minKey node i rest ∨ keyLt node (minKey node i rest) j = true := by
  induction rest generalizing i with
  | nil => simp [minKey]
  | cons k rest ih =>
    have h := ih (if keyLt node k i then k else i)
    simp only [minKey]
    refine ⟨?_, ?_⟩
    · have h1 := h.1
      by_cases hk : keyLt node k i = true
      · rw [if_pos hk] at h1 ⊢
        exact List.mem_cons_of_mem _ h1
      · rw [if_neg hk] at h1 ⊢
        simp only [List.mem_cons] at h1 ⊢
        tauto
    · intro j hj
      have hmin := h.2 (if keyLt node k i then k else i) (by simp)
      have hrest : ∀ j ∈ rest, j = minKey node (if keyLt node k i then k else i) rest ∨
          keyLt node (minKey node (if keyLt node k i then k else i) rest) j = true :=
        fun j hj => h.2 j (by simp [hj])
      rcases List.mem_cons.1 hj with rfl | hj
      · by_cases hk : keyLt node k j = true
        · rw [if_pos hk] at hmin ⊢
          rcases hmin with h1 | h1
          · rw [← h1]; exact .inr hk
          · exact .inr (keyLt_trans h1 hk)
        · rw [if_neg hk] at hmin ⊢
          exact hmin
      · rcases List.mem_cons.1 hj with rfl | hj
        · by_cases hk : keyLt node j i = true
          · rw [if_pos hk] at hmin ⊢
            exact hmin
          · rw [if_neg hk] at hmin ⊢
            rcases keyLt_total node i j with h2 | h2 | h2
            · rcases hmin with h1 | h1
              · rw [← h1]; exact .inr h2
              · exact .inr (keyLt_trans h1 h2)
            · subst h2; exact hmin
            · exact absurd h2 hk
        · exact hrest j hj

/-- `ExtractMin` gives an index of the queue whose key is below every other, and the queue without it (R93). -/
theorem extractMin_spec {node : NodeTable} {pq q : List Nat} {m : Nat} (h : extractMin node pq = some (m, q)) :
    m ∈ pq ∧ q = pq.erase m ∧ ∀ j ∈ pq, j = m ∨ keyLt node m j = true := by
  cases pq with
  | nil => simp [extractMin] at h
  | cons i rest =>
    simp only [extractMin, Option.some.injEq, Prod.mk.injEq] at h
    obtain ⟨rfl, rfl⟩ := h
    exact ⟨(minKey_spec node i rest).1, rfl, (minKey_spec node i rest).2⟩

theorem extractMin_isSome {node : NodeTable} {pq : List Nat} (h : pq ≠ []) : ∃ m q, extractMin node pq = some (m, q) := by
  cases pq with
  | nil => exact absurd rfl h
  | cons i rest => exact ⟨_, _, rfl⟩

/-! ### The arena -/

theorem nodeAt_setIfInBounds (node : NodeTable) (n i : Nat) (v : Node) (hn : n < 511) :
    nodeAt (node.setIfInBounds n v) i = if i = n then v else nodeAt node i := by
  unfold nodeAt
  by_cases h : i = n
  · subst h
    simp [hn]
  · simp only [h, if_false]
    rw [Vector.getElem?_setIfInBounds_ne (Ne.symm h)]

theorem Builder.push_node (b : Builder) (v : Node) (i : Nat) (hn : b.n < 511) :
    nodeAt (b.push v).node i = if i = b.n then v else nodeAt b.node i := nodeAt_setIfInBounds _ _ _ _ hn

@[simp] theorem Builder.push_pq (b : Builder) (v : Node) : (b.push v).pq = b.n :: b.pq := rfl

@[simp] theorem Builder.push_n (b : Builder) (v : Node) : (b.push v).n = b.n + 1 := rfl

/-! ### `SEED` (R91) -/

/-- Leaves pushed for a list of symbols. -/
theorem seed_fold (freq : FreqTable) (l : List Byte) (b : Builder) (h : b.n + l.length ≤ 511) :
    let r := l.foldl (fun b s => b.push (leafNode freq s)) b
    r.n = b.n + l.length ∧
    (∀ i, i ∈ r.pq ↔ i ∈ b.pq ∨ (b.n ≤ i ∧ i < b.n + l.length)) ∧
    (b.pq.Nodup → (∀ i ∈ b.pq, i < b.n) → r.pq.Nodup) ∧
    r.pq.length = b.pq.length + l.length ∧
    (∀ i, i < b.n → nodeAt r.node i = nodeAt b.node i) ∧
    (∀ i (hi : i < l.length), nodeAt r.node (b.n + i) = leafNode freq l[i]) ∧
    (r.pq.map (fun i => (nodeAt r.node i).f.toNat)).sum =
      (b.pq.map (fun i => (nodeAt r.node i).f.toNat)).sum + (l.map (fun s => (tableGet freq s).toNat)).sum := by
  induction l generalizing b with
  | nil =>
    exact ⟨rfl, fun i => ⟨.inl, fun h => h.elim id (fun h => by simp at h; omega)⟩, fun h _ => h, rfl, fun _ _ => rfl,
      fun i hi => absurd hi (by simp), by simp⟩
  | cons s l ih =>
    simp only [List.length_cons] at h
    have hn : b.n < 511 := by omega
    have ih' := ih (b.push (leafNode freq s)) (by simp; omega)
    simp only [List.foldl_cons, List.length_cons, Builder.push_n, Builder.push_pq, List.mem_cons, List.length_cons,
      List.map_cons, List.sum_cons] at ih' ⊢
    obtain ⟨h1, h2, h3, h4, h5, h6, h7⟩ := ih'
    refine ⟨by omega, ?_, ?_, by omega, ?_, ?_, ?_⟩
    · intro i
      rw [h2]
      constructor
      · rintro ((rfl | h) | h)
        · exact .inr (by omega)
        · exact .inl h
        · exact .inr (by omega)
      · rintro (h | h)
        · exact .inl (.inr h)
        · by_cases e : i = b.n
          · exact .inl (.inl e)
          · exact .inr (by omega)
    · intro hnd hlt
      refine h3 (List.nodup_cons.2 ⟨fun hm => Nat.lt_irrefl _ (hlt _ hm), hnd⟩) ?_
      rintro i (rfl | hi)
      · omega
      · have := hlt i hi; omega
    · intro i hi
      rw [h5 i (by omega), Builder.push_node _ _ _ hn, if_neg (by omega)]
    · intro i hi
      cases i with
      | zero => rw [Nat.add_zero, h5 b.n (by omega), Builder.push_node _ _ _ hn, if_pos rfl]; rfl
      | succ i =>
        have := h6 i (by omega)
        rw [show b.n + 1 + i = b.n + (i + 1) by omega] at this
        simpa using this
    · rw [h7, h5 b.n (by omega), Builder.push_node _ _ _ hn, if_pos rfl]
      simp only [leafNode]
      omega

/-! ### The shape of the arena while `BUILD` runs -/

/-- A parent of `j` among the internal nodes from `k` up to `n`. -/
def ParentIn (node : NodeTable) (k n i j : Nat) : Prop :=
  k ≤ i ∧ i < n ∧ ((nodeAt node i).left.toNat = j ∨ (nodeAt node i).right.toNat = j)

/-- What holds between two rounds of `FUSE`. -/
structure Building (freq : FreqTable) (b : Builder) : Prop where
  lo       : (present freq).length ≤ b.n
  count    : b.pq.length + b.n = 2 * (present freq).length
  nodup    : b.pq.Nodup
  below    : ∀ i ∈ b.pq, i < b.n
  newest   : b.n - 1 ∈ b.pq
  leaves   : ∀ i (h : i < (present freq).length), nodeAt b.node i = leafNode freq (present freq)[i]
  internal : ∀ i, (present freq).length ≤ i → i < b.n →
    (nodeAt b.node i).leaf = false ∧ (nodeAt b.node i).sym = 0#8 ∧
    (nodeAt b.node i).left.toNat < i ∧ (nodeAt b.node i).right.toNat < i ∧
    (nodeAt b.node i).left ≠ (nodeAt b.node i).right ∧
    (nodeAt b.node i).f.toNat =
      (nodeAt b.node (nodeAt b.node i).left.toNat).f.toNat + (nodeAt b.node (nodeAt b.node i).right.toNat).f.toNat
  orphans  : ∀ j ∈ b.pq, ∀ i, ¬ ParentIn b.node (present freq).length b.n i j
  parents  : ∀ j, j < b.n → j ∉ b.pq → ∃ i, ParentIn b.node (present freq).length b.n i j ∧
    ∀ i', ParentIn b.node (present freq).length b.n i' j → i' = i
  total    : (b.pq.map (fun i => (nodeAt b.node i).f.toNat)).sum = totalCount freq

/-- The counts of the present symbols are all the counts. -/
theorem sum_present (freq : FreqTable) : ((present freq).map (fun s => (tableGet freq s).toNat)).sum = totalCount freq := by
  unfold present totalCount
  generalize symbols = l
  induction l with
  | nil => rfl
  | cons s l ih =>
    rw [List.filter_cons]
    by_cases h : tableGet freq s = 0#32
    · simp [h, ih]
    · simp [h, ih]

theorem seed_building (freq : FreqTable) (node : NodeTable) (h : 1 ≤ (present freq).length) :
    Building freq (seed freq node) := by
  have hle := present_length_le freq
  have hf := seed_fold freq (present freq) ⟨node, [], 0⟩ (by simp; omega)
  simp only [show (present freq).foldl (fun b s => b.push (leafNode freq s)) ⟨node, [], 0⟩ = seed freq node from rfl,
    List.not_mem_nil, false_or, List.nodup_nil, forall_const, Nat.zero_add, List.length_nil, Nat.zero_le,
    true_and, List.map_nil, List.sum_nil, IsEmpty.forall_iff] at hf
  obtain ⟨h1, h2, h3, h4, -, h6, h7⟩ := hf
  refine ⟨by omega, by omega, h3, fun i hi => ?_, ?_, h6, fun i hi hi' => by omega, fun j _ i hp => ?_, fun j hj hnj => ?_, ?_⟩
  · rw [h2] at hi; omega
  · rw [h2]; omega
  · have := hp.1; have := hp.2.1; omega
  · exact absurd ((h2 j).2 (by omega)) hnj
  · rw [h7, sum_present]

/-- One round of `FUSE` (R92, R94): the two least keys become the left and the right child of the next node. -/
theorem fuse_eq {b : Builder} (h : 2 ≤ b.pq.length) :
    ∃ a c q q', extractMin b.node b.pq = some (a, q) ∧ extractMin b.node q = some (c, q') ∧
      fuse b = Builder.push ⟨b.node, q', b.n⟩ (fusedNode b.node a c) := by
  obtain ⟨a, q, haq⟩ := extractMin_isSome (node := b.node) (pq := b.pq) (by intro e; simp [e] at h)
  have hq : q ≠ [] := by
    have := (extractMin_spec haq)
    intro e
    have hl : q.length = b.pq.length - 1 := by rw [this.2.1, List.length_erase_of_mem this.1]
    simp [e] at hl
    omega
  obtain ⟨c, q', hcq⟩ := extractMin_isSome (node := b.node) hq
  exact ⟨a, c, q, q', haq, hcq, by simp [fuse, haq, hcq]⟩

theorem sum_erase {l : List Nat} {a : Nat} (h : a ∈ l) (g : Nat → Nat) : (l.map g).sum = g a + ((l.erase a).map g).sum := by
  have := (List.perm_cons_erase h).map g
  rw [this.sum_eq]
  simp

theorem fuse_building {freq : FreqTable} {b : Builder} (hb : Building freq b) (ht : totalCount freq < 2 ^ 32)
    (h : 2 ≤ b.pq.length) : Building freq (fuse b) ∧ (fuse b).pq.length = b.pq.length - 1 := by
  obtain ⟨a, c, q, q', haq, hcq, hfuse⟩ := fuse_eq h
  obtain ⟨ha, hq, -⟩ := extractMin_spec haq
  obtain ⟨hc, hq', -⟩ := extractMin_spec hcq
  have hle := present_length_le freq
  have hcount := hb.count
  have hlo := hb.lo
  have hn : b.n < 511 := by omega
  have hqnd : q.Nodup := hq ▸ hb.nodup.erase a
  have hcb : c ∈ b.pq := by rw [hq] at hc; exact List.mem_of_mem_erase hc
  have hac : a ≠ c := by
    rintro rfl
    rw [hq] at hc
    exact absurd hc hb.nodup.not_mem_erase
  have hlt_a := hb.below a ha
  have hlt_c := hb.below c hcb
  have mem_q' : ∀ j, j ∈ q' ↔ j ∈ b.pq ∧ j ≠ a ∧ j ≠ c := by
    intro j
    rw [hq', hqnd.mem_erase_iff, hq, hb.nodup.mem_erase_iff]
    exact ⟨fun ⟨x, y, z⟩ => ⟨z, y, x⟩, fun ⟨x, y, z⟩ => ⟨z, y, x⟩⟩
  have hq'len : q'.length = b.pq.length - 2 := by
    rw [hq', List.length_erase_of_mem hc, hq, List.length_erase_of_mem ha]
    omega
  have hsum : (b.pq.map (fun i => (nodeAt b.node i).f.toNat)).sum =
      (nodeAt b.node a).f.toNat + ((nodeAt b.node c).f.toNat + (q'.map (fun i => (nodeAt b.node i).f.toNat)).sum) := by
    rw [sum_erase ha, ← hq, sum_erase hc, ← hq']
  have hbound : (nodeAt b.node a).f.toNat + (nodeAt b.node c).f.toNat < 2 ^ 32 := by
    have := hb.total
    omega
  have hnode : ∀ i, nodeAt (fuse b).node i = if i = b.n then fusedNode b.node a c else nodeAt b.node i := by
    intro i
    rw [hfuse]
    exact Builder.push_node _ _ _ hn
  have hnode_lt : ∀ i, i < b.n → nodeAt (fuse b).node i = nodeAt b.node i := fun i hi => by
    rw [hnode, if_neg (by omega)]
  have hpq : (fuse b).pq = b.n :: q' := by rw [hfuse]; rfl
  have hfn : (fuse b).n = b.n + 1 := by rw [hfuse]; rfl
  have hfl : (fusedNode b.node a c).left.toNat = a := by simp [fusedNode]; omega
  have hfr : (fusedNode b.node a c).right.toNat = c := by simp [fusedNode]; omega
  have hparent : ∀ i j, ParentIn (fuse b).node (present freq).length (fuse b).n i j ↔
      (ParentIn b.node (present freq).length b.n i j ∨ (i = b.n ∧ (j = a ∨ j = c))) := by
    intro i j
    unfold ParentIn
    rw [hfn]
    by_cases hi : i = b.n
    · subst hi
      rw [hnode, if_pos rfl, hfl, hfr]
      constructor
      · rintro ⟨-, -, e⟩; right; exact ⟨rfl, by rcases e with e | e <;> simp [e]⟩
      · rintro (⟨-, h2, -⟩ | ⟨-, e⟩)
        · omega
        · exact ⟨hlo, by omega, by rcases e with e | e <;> simp [e]⟩
    · rw [hnode, if_neg hi]
      constructor
      · rintro ⟨h1, h2, e⟩; exact .inl ⟨h1, by omega, e⟩
      · rintro (⟨h1, h2, e⟩ | ⟨e, -⟩)
        · exact ⟨h1, by omega, e⟩
        · exact absurd e hi
  refine ⟨⟨by omega, ?_, ?_, ?_, ?_, ?_, ?_, ?_, ?_, ?_⟩, ?_⟩
  · rw [hpq, hfn, List.length_cons]; omega
  · rw [hpq, List.nodup_cons]
    refine ⟨fun hm => ?_, ?_⟩
    · have := hb.below _ ((mem_q' _).1 hm).1
      omega
    · rw [hq']; exact hqnd.erase c
  · intro i hi
    rw [hpq, List.mem_cons] at hi
    rw [hfn]
    rcases hi with rfl | hi
    · omega
    · have := hb.below _ ((mem_q' _).1 hi).1
      omega
  · rw [hpq, hfn]; simp
  · intro i hi
    rw [hnode_lt i (by omega)]
    exact hb.leaves i hi
  · intro i hi hi'
    rw [hfn] at hi'
    by_cases e : i = b.n
    · subst e
      rw [hnode, if_pos rfl, hfl, hfr, hnode_lt a hlt_a, hnode_lt c hlt_c]
      refine ⟨rfl, rfl, hlt_a, hlt_c, ?_, ?_⟩
      · intro e
        exact hac (hfl.symm.trans ((congrArg BitVec.toNat e).trans hfr))
      · simp only [fusedNode, BitVec.toNat_add]
        omega
    · have h1 := hb.internal i hi (by omega)
      rw [hnode_lt i (by omega), hnode_lt _ (by omega), hnode_lt _ (by omega)]
      exact h1
  · intro j hj i hp
    rw [hparent] at hp
    rw [hpq, List.mem_cons] at hj
    rcases hj with rfl | hj
    · rcases hp with hp | ⟨-, hp⟩
      · have h1 := hb.internal i hp.1 hp.2.1
        have h2 := hp.2.1
        have h3 := hp.2.2
        omega
      · omega
    · rw [mem_q'] at hj
      rcases hp with hp | ⟨-, hp⟩
      · exact hb.orphans j hj.1 i hp
      · rcases hp with hp | hp
        · exact hj.2.1 hp
        · exact hj.2.2 hp
  · intro j hj hnj
    rw [hfn] at hj
    rw [hpq, List.mem_cons, not_or, mem_q'] at hnj
    have hj' : j < b.n := by omega
    by_cases hjb : j ∈ b.pq
    · have hjac : j = a ∨ j = c := by
        by_contra hcon
        rw [not_or] at hcon
        exact hnj.2 ⟨hjb, hcon⟩
      refine ⟨b.n, (hparent _ _).2 (.inr ⟨rfl, hjac⟩), fun i' hp => ?_⟩
      rcases (hparent _ _).1 hp with hp | hp
      · exact absurd hp (hb.orphans j hjb i')
      · exact hp.1
    · obtain ⟨i, hp, huniq⟩ := hb.parents j hj' hjb
      refine ⟨i, (hparent _ _).2 (.inl hp), fun i' hp' => ?_⟩
      rcases (hparent _ _).1 hp' with hp' | hp'
      · exact huniq i' hp'
      · rcases hp'.2 with e | e
        · exact absurd (e ▸ ha) hjb
        · exact absurd (e ▸ hcb) hjb
  · rw [hpq, List.map_cons, List.sum_cons, hnode, if_pos rfl]
    have hcongr : q'.map (fun i => (nodeAt (fuse b).node i).f.toNat) = q'.map (fun i => (nodeAt b.node i).f.toNat) := by
      apply List.map_congr_left
      intro i hi
      rw [hnode_lt i (hb.below _ ((mem_q' _).1 hi).1)]
    rw [hcongr]
    have := hb.total
    rw [hsum] at this
    simp only [fusedNode, BitVec.toNat_add]
    omega
  · rw [hpq, List.length_cons]; omega

theorem fuseAll_building {freq : FreqTable} (ht : totalCount freq < 2 ^ 32) (k : Nat) {b : Builder} (hb : Building freq b)
    (hk : b.pq.length ≤ k) : Building freq (fuseAll k b) ∧ (fuseAll k b).pq.length ≤ 1 := by
  induction k generalizing b with
  | zero => exact ⟨hb, by simpa [fuseAll] using Nat.le_trans hk (Nat.zero_le 1)⟩
  | succ k ih =>
    unfold fuseAll
    split
    · rename_i h; exact ⟨hb, h⟩
    · rename_i h
      obtain ⟨h1, h2⟩ := fuse_building hb ht (by omega)
      exact ih h1 (by omega)

/-- The result of `BUILD` on a table with at least one symbol (R90, R96): `n = 2 * NSYM - 1`, the one element of the queue
is `n - 1`, and the arena holds a tree of the table. -/
theorem buildTree_spec {freq : FreqTable} (node : NodeTable) (h : 1 ≤ (present freq).length)
    (ht : totalCount freq < 2 ^ 32) :
    (buildTree freq node).n = 2 * (present freq).length - 1 ∧
    (buildTree freq node).pq = [2 * (present freq).length - 2] ∧
    IsTreeOf freq (buildTree freq node).node := by
  obtain ⟨hb, hlen⟩ := fuseAll_building ht _ (seed_building freq node h) (le_refl _)
  change Building freq (buildTree freq node) at hb
  change (buildTree freq node).pq.length ≤ 1 at hlen
  generalize buildTree freq node = b at hb hlen
  have hlen1 : b.pq.length = 1 := by
    have := List.length_pos_of_mem hb.newest
    omega
  have hcount := hb.count
  have hn : b.n = 2 * (present freq).length - 1 := by omega
  have hpq : b.pq = [2 * (present freq).length - 2] := by
    obtain ⟨x, hx⟩ := List.length_eq_one_iff.1 hlen1
    have := hb.newest
    rw [hx, List.mem_singleton] at this
    rw [hx, ← this, hn]
    congr 1
  refine ⟨hn, hpq, h, hb.leaves, fun i h1 h2 => hb.internal i h1 (by omega), fun j hj => ?_, ?_⟩
  · obtain ⟨i, hp, huniq⟩ := hb.parents j (by omega) (by rw [hpq, List.mem_singleton]; omega)
    refine ⟨i, ⟨hp.1, by have := hp.2.1; omega, hp.2.2⟩, fun i' h1 h2 h3 => huniq i' ⟨h1, by omega, h3⟩⟩
  · have := hb.total
    rw [hpq] at this
    simpa using this

end Sys2Proof.Machine
end

