-- ==== Sys2Proof/Laws/CodeGenerator.lean ====
section
/-! SUPPORT. The code table generator: on a tree of a frequency table, `Walk` gives every present symbol the one path from the
root to its leaf, so the codes are distinct, prefix-free and at most 255 bits long (spec/42_code_generator.md R103 to
R105). -/

namespace Sys2Proof.Machine

/-- The child of a node on the side of a bit (R101). -/
def childAt (node : NodeTable) (i : Nat) (b : Bool) : Nat :=
  if b then (nodeAt node i).right.toNat else (nodeAt node i).left.toNat

/-- From node `i` the path `q` leads, through internal nodes, to node `j`. -/
def Reaches (node : NodeTable) : Nat → BitString → Nat → Prop
  | i, [], j => i = j
  | i, b :: q, j => (nodeAt node i).leaf = false ∧ Reaches node (childAt node i b) q j

theorem Reaches.follow {node : NodeTable} {i : Nat} {q : BitString} {j : Nat} (h : Reaches node i q j) :
    Machine.follow node i q = j := by
  induction q generalizing i with
  | nil => exact h
  | cons b q ih => exact ih h.2

theorem reaches_append {node : NodeTable} {i : Nat} {p q : BitString} {j : Nat} :
    Reaches node i (p ++ q) j ↔ ∃ m, Reaches node i p m ∧ Reaches node m q j := by
  induction p generalizing i with
  | nil => simp [Reaches]
  | cons b p ih =>
    simp only [List.cons_append, Reaches, ih]
    constructor
    · rintro ⟨h, m, h1, h2⟩; exact ⟨m, ⟨h, h1⟩, h2⟩
    · rintro ⟨m, ⟨h, h1⟩, h2⟩; exact ⟨h, m, h1, h2⟩

theorem reaches_snoc {node : NodeTable} {i : Nat} {p : BitString} {b : Bool} {j : Nat} :
    Reaches node i (p ++ [b]) j ↔ ∃ m, Reaches node i p m ∧ (nodeAt node m).leaf = false ∧ childAt node m b = j := by
  simp [reaches_append, Reaches]

/-- `q` leads from `i` to a leaf of symbol `s`. -/
def LeadsTo (node : NodeTable) (i : Nat) (q : BitString) (s : Byte) : Prop :=
  ∃ j, Reaches node i q j ∧ (nodeAt node j).leaf = true ∧ (nodeAt node j).sym = s

theorem leadsTo_cons {node : NodeTable} {i : Nat} {b : Bool} {q : BitString} {s : Byte} :
    LeadsTo node i (b :: q) s ↔ (nodeAt node i).leaf = false ∧ LeadsTo node (childAt node i b) q s := by
  constructor
  · rintro ⟨j, ⟨h1, h2⟩, h3⟩; exact ⟨h1, j, h2, h3⟩
  · rintro ⟨h1, j, h2, h3⟩; exact ⟨j, ⟨h1, h2⟩, h3⟩

/-! ### `Walk` (R101) -/

/-- A symbol that no short enough path leads to keeps its entry. -/
theorem walk_other (node : NodeTable) (d i : Nat) (p : BitString) (code : CodeTable) (s : Byte)
    (h : ∀ q, q.length < d → ¬ LeadsTo node i q s) : tableGet (walk node d i p code) s = tableGet code s := by
  induction d generalizing i p code with
  | zero => rfl
  | succ d ih =>
    unfold walk
    split
    · rename_i hl
      refine tableGet_tableSet_other _ _ ?_
      rintro rfl
      exact h [] (by simp) ⟨i, rfl, hl, rfl⟩
    · rename_i hl
      have hl' : (nodeAt node i).leaf = false := by simpa using hl
      have sub : ∀ b q, q.length < d → ¬ LeadsTo node (childAt node i b) q s := fun b q hq hr =>
        h (b :: q) (by simpa using hq) (leadsTo_cons.2 ⟨hl', hr⟩)
      exact (ih _ _ _ (sub true)).trans (ih _ _ _ (sub false))

/-- The symbol that exactly one path leads to gets that path, after the path so far. -/
theorem walk_leaf (node : NodeTable) (d i : Nat) (p : BitString) (code : CodeTable) (s : Byte) (q : BitString)
    (hq : LeadsTo node i q s) (hd : q.length < d) (huniq : ∀ q', LeadsTo node i q' s → q' = q) :
    tableGet (walk node d i p code) s = CodeEntry.store (p ++ q) := by
  induction d generalizing i p code q with
  | zero => omega
  | succ d ih =>
    unfold walk
    cases q with
    | nil =>
      obtain ⟨j, rfl, hl, hs⟩ := hq
      rw [if_pos hl, hs]
      simp
    | cons b q =>
      obtain ⟨hl, hsub⟩ := leadsTo_cons.1 hq
      rw [if_neg (by simp [hl])]
      have usub : ∀ q', LeadsTo node (childAt node i b) q' s → q' = q := fun q' h' => by
        have := huniq (b :: q') (leadsTo_cons.2 ⟨hl, h'⟩)
        simpa using this
      have hlen : q.length < d := by simpa using hd
      cases b with
      | true =>
        have := ih (childAt node i true) (p ++ [true]) (walk node d (nodeAt node i).left.toNat (p ++ [false]) code) q
          hsub hlen usub
        simpa [childAt] using this
      | false =>
        have hno : ∀ q', q'.length < d → ¬ LeadsTo node (nodeAt node i).right.toNat q' s := fun q' _ h' => by
          have := huniq (true :: q') (leadsTo_cons.2 ⟨hl, h'⟩)
          simp at this
        rw [walk_other _ _ _ _ _ _ hno]
        have := ih (childAt node i false) (p ++ [false]) code q hsub hlen usub
        simpa [childAt] using this

/-! ### Paths in a tree of a frequency table -/

section
variable {freq : FreqTable} {node : NodeTable} (t : IsTreeOf freq node)
include t

theorem IsTreeOf.leaf_iff {i : Nat} (hi : i < 2 * (present freq).length - 1) :
    (nodeAt node i).leaf = true ↔ i < (present freq).length := by
  constructor
  · intro h
    by_contra hge
    rw [(t.internal i (by omega) hi).1] at h
    exact absurd h (by simp)
  · intro h
    rw [t.leaves i h]
    rfl

theorem IsTreeOf.childAt_lt {i : Nat} (hi : i < 2 * (present freq).length - 1) (hl : (nodeAt node i).leaf = false)
    (b : Bool) : childAt node i b < i := by
  have hge : (present freq).length ≤ i := by
    by_contra h
    rw [(t.leaf_iff hi).2 (by omega)] at hl
    exact absurd hl (by simp)
  have := t.internal i hge hi
  cases b <;> simp [childAt] <;> omega

/-- Down a path the index falls by at least one a step, so a path to node `j` is no longer than `i - j`. -/
theorem IsTreeOf.reaches_le {i : Nat} {q : BitString} {j : Nat} (hi : i < 2 * (present freq).length - 1)
    (h : Reaches node i q j) : j + q.length ≤ i := by
  induction q generalizing i with
  | nil => exact Nat.le_of_eq h.symm
  | cons b q ih =>
    have hlt := t.childAt_lt hi h.1 b
    have := ih (by omega) h.2
    simp only [List.length_cons]
    omega

/-- A path from the root to a leaf has at most `NSYM - 1` bits (R105). -/
theorem IsTreeOf.path_length {q : BitString} {s : Byte} (h : LeadsTo node (2 * (present freq).length - 2) q s) :
    q.length ≤ (present freq).length - 1 := by
  obtain ⟨j, hr, hl, -⟩ := h
  have hne := t.nonempty
  rcases q.eq_nil_or_concat with rfl | ⟨q', b, rfl⟩
  · simp
  · rw [List.concat_eq_append, reaches_snoc] at hr
    obtain ⟨m, hm, hml, -⟩ := hr
    have h1 := t.reaches_le (by omega) hm
    have h2 : (present freq).length ≤ m := by
      by_contra hlt
      rw [(t.leaf_iff (by omega)).2 (by omega)] at hml
      exact absurd hml (by simp)
    rw [List.concat_eq_append, List.length_append, List.length_singleton]
    omega

/-- Every node is reached from the root (R96: "every index is the child of exactly one node and `ROOT` of none"). -/
theorem IsTreeOf.exists_path {j : Nat} (hj : j < 2 * (present freq).length - 1) :
    ∃ q, Reaches node (2 * (present freq).length - 2) q j := by
  have key : ∀ n j, j + n = 2 * (present freq).length - 2 → ∃ q, Reaches node (2 * (present freq).length - 2) q j := by
    intro n
    induction n using Nat.strong_induction_on with
    | _ n ih =>
      intro j hjn
      by_cases hz : n = 0
      · exact ⟨[], by simp only [Reaches]; omega⟩
      · obtain ⟨i, ⟨hi1, hi2, hc⟩, -⟩ := t.oneParent j (by omega)
        have hint := t.internal i hi1 hi2
        obtain ⟨q, hq⟩ := ih (2 * (present freq).length - 2 - i) (by omega) i (by omega)
        rcases hc with hc | hc
        · exact ⟨q ++ [false], reaches_snoc.2 ⟨i, hq, hint.1, by simp [childAt, hc]⟩⟩
        · exact ⟨q ++ [true], reaches_snoc.2 ⟨i, hq, hint.1, by simp [childAt, hc]⟩⟩
  exact key (2 * (present freq).length - 2 - j) j (by omega)

/-- Only one path leads from the root to a node (R96: "the tree is acyclic and has no shared subtrees"). -/
theorem IsTreeOf.path_unique {p q : BitString} {j : Nat} (hp : Reaches node (2 * (present freq).length - 2) p j)
    (hq : Reaches node (2 * (present freq).length - 2) q j) : p = q := by
  have hne := t.nonempty
  have hbound : ∀ {r : BitString} {m : Nat}, Reaches node (2 * (present freq).length - 2) r m →
      m < 2 * (present freq).length - 1 := fun h => by
    have := t.reaches_le (by omega) h
    omega
  have hge : ∀ {m : Nat}, m < 2 * (present freq).length - 1 → (nodeAt node m).leaf = false → (present freq).length ≤ m :=
    fun h1 h2 => by
      by_contra hlt
      rw [(t.leaf_iff h1).2 (by omega)] at h2
      exact absurd h2 (by simp)
  induction hn : p.length generalizing p q j with
  | zero =>
    rw [List.length_eq_zero_iff] at hn
    subst hn
    simp only [Reaches] at hp
    subst hp
    have := t.reaches_le (by omega) hq
    exact (List.length_eq_zero_iff.1 (by omega)).symm
  | succ n ih =>
    rcases p.eq_nil_or_concat with rfl | ⟨p', b, rfl⟩
    · simp at hn
    rcases q.eq_nil_or_concat with rfl | ⟨q', c, rfl⟩
    · simp only [Reaches] at hq
      have := t.reaches_le (by omega) hp
      rw [hn] at this
      omega
    · rw [List.concat_eq_append] at hp hq hn ⊢
      rw [List.concat_eq_append]
      obtain ⟨m, hm, hml, hmj⟩ := reaches_snoc.1 hp
      obtain ⟨m', hm', hml', hmj'⟩ := reaches_snoc.1 hq
      have hmb := hbound hm
      have hmb' := hbound hm'
      have hj := t.childAt_lt hmb hml b
      obtain ⟨i, -, huniq⟩ := t.oneParent j (by omega)
      have side : ∀ {x : Nat} {d : Bool}, childAt node x d = j →
          (nodeAt node x).left.toNat = j ∨ (nodeAt node x).right.toNat = j := fun {x} {d} h => by
        cases d <;> simp [childAt] at h <;> simp [h]
      have e1 := huniq m (hge hmb hml) hmb (side hmj)
      have e2 := huniq m' (hge hmb' hml') hmb' (side hmj')
      have e : m = m' := e1.trans e2.symm
      subst e
      have hint := t.internal m (hge hmb hml) hmb
      have hbc : b = c := by
        have hlr : (nodeAt node m).left.toNat ≠ (nodeAt node m).right.toNat := fun h =>
          hint.2.2.2.2.1 (BitVec.eq_of_toNat_eq h)
        cases b <;> cases c <;> simp [childAt] at hmj hmj' <;> first | rfl | omega
      have := ih hm hm' (by simpa using hn)
      rw [this, hbc]

/-- The leaf of a present symbol, and the one path to it. -/
theorem IsTreeOf.leadsTo_present {s : Byte} (hs : s ∈ present freq) :
    ∃ q, LeadsTo node (2 * (present freq).length - 2) q s := by
  obtain ⟨i, hi, rfl⟩ := List.getElem_of_mem hs
  obtain ⟨q, hq⟩ := t.exists_path (j := i) (by omega)
  exact ⟨q, i, hq, (t.leaf_iff (by omega)).2 hi, by rw [t.leaves i hi]; rfl⟩

theorem IsTreeOf.present_of_leadsTo {q : BitString} {s : Byte} (h : LeadsTo node (2 * (present freq).length - 2) q s) :
    s ∈ present freq := by
  obtain ⟨j, hr, hl, rfl⟩ := h
  have hne := t.nonempty
  have := t.reaches_le (by omega) hr
  have hj := (t.leaf_iff (by omega)).1 hl
  rw [t.leaves j hj]
  exact List.getElem_mem hj

theorem IsTreeOf.leadsTo_unique {p q : BitString} {s : Byte} (hp : LeadsTo node (2 * (present freq).length - 2) p s)
    (hq : LeadsTo node (2 * (present freq).length - 2) q s) : p = q := by
  obtain ⟨i, hi, hil, his⟩ := hp
  obtain ⟨j, hj, hjl, hjs⟩ := hq
  have hne := t.nonempty
  have bi := t.reaches_le (by omega) hi
  have bj := t.reaches_le (by omega) hj
  have li := (t.leaf_iff (by omega)).1 hil
  have lj := (t.leaf_iff (by omega)).1 hjl
  rw [t.leaves i li] at his
  rw [t.leaves j lj] at hjs
  have e : (present freq)[i] = (present freq)[j] := his.trans hjs.symm
  have : i = j := (nodup_of_ascending (present_ascending freq)).getElem_inj_iff.1 e
  subst this
  exact t.path_unique hi hj

/-! ### The generated table -/

/-- With two symbols or more the root is no leaf, and a present symbol's code is the path to its leaf (R103). -/
theorem IsTreeOf.genCode_path (h2 : 2 ≤ (present freq).length) {s : Byte} {q : BitString}
    (hq : LeadsTo node (2 * (present freq).length - 2) q s) :
    tableGet (genCode node (2 * (present freq).length - 2)) s = CodeEntry.store q := by
  have hroot : (nodeAt node (2 * (present freq).length - 2)).leaf = false :=
    (t.internal _ (by omega) (by omega)).1
  have hlen := t.path_length hq
  have hle := present_length_le freq
  unfold genCode
  rw [if_neg (by simp [hroot])]
  have := walk_leaf node walkDepth (2 * (present freq).length - 2) [] noCodes s q hq
    (by unfold walkDepth; omega) (fun q' hq' => t.leadsTo_unique hq' hq)
  simpa using this

/-- A symbol that is not present has no code (R101). -/
theorem IsTreeOf.genCode_absent {s : Byte} (hs : s ∉ present freq) :
    tableGet (genCode node (2 * (present freq).length - 2)) s = CodeEntry.noCode := by
  unfold genCode
  have hno : ∀ q, ¬ LeadsTo node (2 * (present freq).length - 2) q s := fun q hq => hs (t.present_of_leadsTo hq)
  split
  · rename_i hl
    rw [tableGet_tableSet_other _ _ (fun e => hno [] ⟨_, rfl, hl, e.symm⟩), tableGet_noCodes]
  · rw [walk_other _ _ _ _ _ _ (fun q _ => hno q), tableGet_noCodes]

/-- One symbol: its code is exactly `"0"` (R102). -/
theorem IsTreeOf.genCode_single (h1 : (present freq).length = 1) {s : Byte} (hs : s ∈ present freq) :
    tableGet (genCode node (2 * (present freq).length - 2)) s = CodeEntry.store [false] := by
  have hl : (nodeAt node (2 * (present freq).length - 2)).leaf = true := (t.leaf_iff (by omega)).2 (by omega)
  obtain ⟨i, hi, rfl⟩ := List.getElem_of_mem hs
  have hsym : (nodeAt node (2 * (present freq).length - 2)).sym = (present freq)[i] := by
    have e : 2 * (present freq).length - 2 = i := by omega
    rw [e, t.leaves i hi]
    rfl
  unfold genCode
  rw [if_pos hl, hsym]
  simp

/-- The code of a present symbol, as a path or as `"0"`. -/
theorem IsTreeOf.genCode_present {s : Byte} (hs : s ∈ present freq) :
    ∃ q, tableGet (genCode node (2 * (present freq).length - 2)) s = CodeEntry.store q ∧
      1 ≤ q.length ∧ q.length ≤ max 1 ((present freq).length - 1) ∧
      ((present freq).length = 1 ∧ q = [false] ∨
        2 ≤ (present freq).length ∧ LeadsTo node (2 * (present freq).length - 2) q s) := by
  by_cases h1 : (present freq).length = 1
  · exact ⟨[false], t.genCode_single h1 hs, by simp, by simp, .inl ⟨h1, rfl⟩⟩
  · have hne := t.nonempty
    obtain ⟨q, hq⟩ := t.leadsTo_present hs
    have hlen := t.path_length hq
    refine ⟨q, t.genCode_path (by omega) hq, ?_, by omega, .inr ⟨by omega, hq⟩⟩
    cases q with
    | cons => simp
    | nil =>
      obtain ⟨j, rfl, hl, -⟩ := hq
      rw [(t.internal _ (by omega) (by omega)).1] at hl
      exact absurd hl (by simp)

/-- "`CODE[s].len != 0` exactly when `FREQ[s] != 0`" (R104 (a), (d)). -/
theorem IsTreeOf.coded_genCode : coded (genCode node (2 * (present freq).length - 2)) = present freq := by
  show symbols.filter (fun s => (tableGet (genCode node (2 * (present freq).length - 2)) s).len != 0#8) =
    symbols.filter (fun s => tableGet freq s != 0#32)
  apply List.filter_congr
  intro s _
  have hle := present_length_le freq
  by_cases hs : s ∈ present freq
  · obtain ⟨q, hq, h1, h2, -⟩ := t.genCode_present hs
    have hlen := CodeEntry.store_len (p := q) (by omega)
    rw [mem_present] at hs
    have : (CodeEntry.store q).len ≠ 0#8 := by
      intro e
      have h0 : (CodeEntry.store q).len.toNat = 0 := by rw [e]; rfl
      omega
    simp only [hq, bne_iff_ne.2 this, bne_iff_ne.2 hs]
  · rw [t.genCode_absent hs]
    rw [mem_present, not_not] at hs
    simp [hs, CodeEntry.noCode]

/-- Every entry is clean (R37). -/
theorem IsTreeOf.genCode_clean : CleanBits (genCode node (2 * (present freq).length - 2)) := by
  intro s
  have hle := present_length_le freq
  by_cases hs : s ∈ present freq
  · obtain ⟨q, hq, h1, h2, -⟩ := t.genCode_present hs
    rw [hq]
    exact CodeEntry.store_clean (by omega)
  · rw [t.genCode_absent hs]
    exact CodeEntry.noCode_clean

/-- "no code in a generated CodeTable is a prefix of another code in the same table" (R104 (b), (c)): "no leaf lies on the
path to another leaf". -/
theorem IsTreeOf.genCode_prefixFree : PrefixFree (genCode node (2 * (present freq).length - 2)) := by
  intro a b ha hb hab hpre
  rw [t.coded_genCode] at ha hb
  have hle := present_length_le freq
  obtain ⟨p, hp, p1, p2, hpa⟩ := t.genCode_present ha
  obtain ⟨q, hq, q1, q2, hqb⟩ := t.genCode_present hb
  unfold codeOf at hpre
  rw [hp, hq, CodeEntry.path_store (by omega), CodeEntry.path_store (by omega)] at hpre
  rcases hpa with ⟨h1, -⟩ | ⟨h2, hpa⟩
  · obtain ⟨x, hx⟩ := List.length_eq_one_iff.1 h1
    rw [hx, List.mem_singleton] at ha hb
    exact hab (ha.trans hb.symm)
  · rcases hqb with ⟨h1, -⟩ | ⟨-, hqb⟩
    · omega
    · obtain ⟨r, rfl⟩ := hpre
      obtain ⟨j, hj, hjl, hjs⟩ := hpa
      obtain ⟨k, hk, hkl, hks⟩ := hqb
      obtain ⟨m, hm, hmr⟩ := reaches_append.1 hk
      have e : m = j := by rw [← hm.follow, ← hj.follow]
      subst e
      cases r with
      | nil =>
        simp only [Reaches] at hmr
        subst hmr
        exact hab (hjs.symm.trans hks)
      | cons c r =>
        rw [hmr.1] at hjl
        exact absurd hjl (by simp)

end

end Sys2Proof.Machine
end

