-- ==== Sys2Proof/Laws/Counter.lean ====
section
/-! SUPPORT. The frequency counter: the table it makes is the table of the numbers of occurrences (spec/40_frequency_counter.md
R86). -/

namespace Sys2Proof.Machine

theorem tableGet_bump (freq : FreqTable) (b u : Byte) :
    tableGet (bump freq b) u = if u = b then tableGet freq b + 1#32 else tableGet freq u := by
  simp [bump, tableGet_tableSet]

/-- The count of a symbol is the number of its occurrences (R86), as a 32-bit word. -/
theorem tableGet_countBytes (bs : List Byte) (u : Byte) : tableGet (countBytes bs) u = BitVec.ofNat 32 (bs.count u) := by
  have key : ∀ (bs : List Byte) (freq : FreqTable),
      tableGet (bs.foldl bump freq) u = tableGet freq u + BitVec.ofNat 32 (bs.count u) := by
    intro bs
    induction bs with
    | nil => simp
    | cons b bs ih =>
      intro freq
      rw [List.foldl_cons, ih, tableGet_bump, List.count_cons]
      by_cases h : u = b
      · subst h
        apply BitVec.eq_of_toNat_eq
        simp
        omega
      · have h' : (b == u) = false := by simpa using fun e => h e.symm
        simp [h, h']
  simpa [countBytes] using key bs (Vector.replicate 256 0#32)

/-- No count wraps in an input shorter than `2^32` (R12 (a)). -/
theorem countBytes_toNat {bs : List Byte} (h : bs.length < 2 ^ 32) (u : Byte) :
    (tableGet (countBytes bs) u).toNat = bs.count u := by
  rw [tableGet_countBytes, BitVec.toNat_ofNat, Nat.mod_eq_of_lt]
  exact Nat.lt_of_le_of_lt List.count_le_length h

/-- "key set equals the distinct byte values present" (R86). -/
theorem mem_present_countBytes {bs : List Byte} (h : bs.length < 2 ^ 32) (u : Byte) :
    u ∈ present (countBytes bs) ↔ u ∈ bs := by
  rw [mem_present, ← List.count_pos_iff, ← countBytes_toNat h u]
  constructor
  · intro hne
    refine Nat.pos_of_ne_zero fun h0 => hne (BitVec.eq_of_toNat_eq (by simpa using h0))
  · intro hpos h0
    rw [h0] at hpos
    simp at hpos

theorem sum_map_count (l bs : List Byte) (hl : l.Nodup) (hb : ∀ b ∈ bs, b ∈ l) :
    (l.map (fun u => bs.count u)).sum = bs.length := by
  induction bs with
  | nil => simp
  | cons b bs ih =>
    have h1 := ih (fun x hx => hb x (List.mem_cons_of_mem _ hx))
    have h2 : (l.map (fun u => (b :: bs).count u)).sum = (l.map (fun u => bs.count u)).sum + (l.map (fun u => if b = u then 1 else 0)).sum := by
      rw [← List.sum_map_add]
      simp [List.count_cons]
    have h3 : (l.map (fun u => if b = u then 1 else 0)).sum = 1 := by
      have hbl := hb b (by simp)
      clear ih h1 h2 hb
      induction l with
      | nil => simp at hbl
      | cons c l ih =>
        rw [List.nodup_cons] at hl
        simp only [List.map_cons, List.sum_cons]
        by_cases hbc : b = c
        · subst hbc
          have : (l.map (fun u => if b = u then 1 else 0)).sum = 0 := by
            rw [List.sum_eq_zero_iff]
            simp only [List.mem_map, forall_exists_index, and_imp, forall_apply_eq_imp_iff₂]
            intro a ha
            have : b ≠ a := fun e => hl.1 (e ▸ ha)
            simp [this]
          simp [this]
        · simp only [hbc, if_false, Nat.zero_add]
          exact ih hl.2 (by simpa [hbc] using hbl)
    rw [h2, h1, h3, List.length_cons]

/-- The counts "sum to the input length" (R86). -/
theorem totalCount_countBytes {bs : List Byte} (h : bs.length < 2 ^ 32) : totalCount (countBytes bs) = bs.length := by
  unfold totalCount
  simp only [countBytes_toNat h]
  exact sum_map_count symbols bs (nodup_of_ascending symbols_ascending) (fun b _ => mem_symbols b)

end Sys2Proof.Machine
end

