-- ==== Sys2Proof/Laws/Header.lean ====
section
/-! SUPPORT. The header: its size (spec/30_encoding.md R74), what the prefix check reports (spec/44_header.md R120, R122), that
what is accepted is a valid table (R121), and that the writer's bytes are read back (R124). -/

namespace Sys2Proof.Machine

/-! ### Size (R74) -/

@[simp] theorem cbitsBytes_length (e : CodeEntry) : (cbitsBytes e).length = ceil8 e.len.toNat := by simp [cbitsBytes]

theorem entryBytes_length (code : CodeTable) (s : Byte) :
    (entryBytes code s).length = 2 + ceil8 (tableGet code s).len.toNat := by
  simp [entryBytes]
  omega

/-- The writer's bytes are as many as `HSIZE` says (R74, R116). -/
theorem headerBytes_length (code : CodeTable) (bitcnt : BitVec 64) :
    (headerBytes code bitcnt).length = headerSize code := by
  simp only [headerBytes, headerSize, List.length_append, List.length_flatMap, entryBytes_length, bigEndian_length,
    List.length_cons, List.length_nil]
  omega

/-- A header has 14 to 8715 bytes (R74). -/
theorem headerSize_bounds {code : CodeTable} (h : coded code ≠ []) : 14 ≤ headerSize code ∧ headerSize code ≤ 8715 := by
  have hlen := coded_length_le code
  have hupper : ((coded code).map (fun s => 2 + ceil8 (tableGet code s).len.toNat)).sum ≤ 34 * (coded code).length := by
    generalize coded code = l
    induction l with
    | nil => simp
    | cons s l ih =>
      have := (tableGet code s).len.isLt
      have hc : ceil8 (tableGet code s).len.toNat ≤ 32 := (ceil8_le_iff _ _).2 (by omega)
      simp only [List.map_cons, List.sum_cons, List.length_cons]
      omega
  have hlower : 3 ≤ ((coded code).map (fun s => 2 + ceil8 (tableGet code s).len.toNat)).sum := by
    obtain ⟨s, l, hl⟩ := List.exists_cons_of_ne_nil h
    have hs : s ∈ coded code := by rw [hl]; simp
    rw [mem_coded] at hs
    have hpos : 0 < (tableGet code s).len.toNat :=
      Nat.pos_of_ne_zero fun e => hs (BitVec.eq_of_toNat_eq (by simpa using e))
    have hc : 1 ≤ ceil8 (tableGet code s).len.toNat := by unfold ceil8; omega
    rw [hl]
    simp only [List.map_cons, List.sum_cons]
    omega
  unfold headerSize
  omega

/-! ### The prefix check (R120, R122) -/

/-- The check passes exactly on a prefix-free table (R122). -/
theorem prefixBreach_none_iff (T : CodeTable) : prefixBreach T = none ↔ PrefixFree T := by
  unfold prefixBreach PrefixFree codeOf
  simp only [List.findSome?_eq_none_iff, Option.map_eq_none_iff, List.find?_eq_none, Bool.and_eq_true, bne_iff_ne,
    List.isPrefixOf_iff_prefix, not_and]
  exact ⟨fun h a b ha hb hab => h a ha b hb (Ne.symm hab), fun h a ha b hb hab => h a b ha hb (Ne.symm hab)⟩

theorem find?_ascending {l : List Byte} (hl : l.Pairwise (fun a b => a.toNat < b.toNat)) {p : Byte → Bool} {b : Byte}
    (h : l.find? p = some b) : ∀ c ∈ l, p c = true → b.toNat ≤ c.toNat := by
  induction l with
  | nil => simp at h
  | cons x l ih =>
    rw [List.pairwise_cons] at hl
    rw [List.find?_cons] at h
    intro c hc hpc
    by_cases hx : p x = true
    · simp only [hx, Option.some.injEq] at h
      subst h
      rcases List.mem_cons.1 hc with rfl | hc
      · exact Nat.le_refl _
      · exact Nat.le_of_lt (hl.1 c hc)
    · simp only [hx] at h
      rcases List.mem_cons.1 hc with rfl | hc
      · exact absurd hpc hx
      · exact ih hl.2 h c hc hpc

/-- The pair reported breaks prefix-freedom, has the smallest first symbol of all such pairs, and for it the smallest
second (R120). -/
theorem prefixBreach_some {T : CodeTable} {a b : Byte} (h : prefixBreach T = some (a, b)) :
    (a ∈ coded T ∧ b ∈ coded T ∧ a ≠ b ∧ codeOf T a <+: codeOf T b) ∧
    (∀ c d, c ∈ coded T → d ∈ coded T → c ≠ d → codeOf T c <+: codeOf T d →
      a.toNat ≤ c.toNat ∧ (c = a → b.toNat ≤ d.toNat)) := by
  unfold prefixBreach at h
  obtain ⟨l1, x, l2, hsplit, hx, hnone⟩ := List.findSome?_eq_some_iff.1 h
  rw [Option.map_eq_some_iff] at hx
  obtain ⟨y, hfind, hxy⟩ := hx
  simp only [Prod.mk.injEq] at hxy
  obtain ⟨rfl, rfl⟩ := hxy
  have hasc := coded_ascending T
  have hx_mem : x ∈ coded T := by rw [hsplit]; simp
  have hp := List.find?_some hfind
  simp only [Bool.and_eq_true, bne_iff_ne, List.isPrefixOf_iff_prefix] at hp
  refine ⟨⟨hx_mem, List.mem_of_find?_eq_some hfind, Ne.symm hp.1, hp.2⟩, fun c d hc hd hcd hpre => ⟨?_, ?_⟩⟩
  · by_contra hlt
    have hc1 : c ∈ l1 := by
      rw [hsplit] at hc hasc
      rcases List.mem_append.1 hc with hc | hc
      · exact hc
      · rw [List.pairwise_append] at hasc
        rcases List.mem_cons.1 hc with rfl | hc
        · exact absurd (Nat.le_refl _) hlt
        · exact absurd (Nat.le_of_lt ((List.pairwise_cons.1 hasc.2.1).1 c hc)) hlt
    have := hnone c hc1
    rw [Option.map_eq_none_iff, List.find?_eq_none] at this
    exact this d hd (by simp only [Bool.and_eq_true, bne_iff_ne, List.isPrefixOf_iff_prefix]; exact ⟨Ne.symm hcd, hpre⟩)
  · rintro rfl
    exact find?_ascending hasc hfind d hd
      (by simp only [Bool.and_eq_true, bne_iff_ne, List.isPrefixOf_iff_prefix]; exact ⟨Ne.symm hcd, hpre⟩)

/-! ### What is accepted is a valid table (R121) -/

/-- Giving a code to a symbol that has none adds it to the coded symbols. -/
theorem coded_tableSet {T : CodeTable} {s : Byte} {e : CodeEntry} (hs : s ∉ coded T) (he : e.len ≠ 0#8) :
    (coded (tableSet T s e)).Perm (s :: coded T) := by
  rw [List.perm_ext_iff_of_nodup (nodup_of_ascending (coded_ascending _))
    (List.nodup_cons.2 ⟨hs, nodup_of_ascending (coded_ascending _)⟩)]
  intro u
  rw [mem_coded, tableGet_tableSet, List.mem_cons, mem_coded]
  by_cases h : u = s
  · simp [h, he]
  · simp [h]

theorem store_len_ne_zero {p : BitString} (h0 : p ≠ []) (h : p.length ≤ 255) : (CodeEntry.store p).len ≠ 0#8 := by
  intro e
  have h1 := CodeEntry.store_len h
  rw [e] at h1
  exact h0 (List.length_eq_zero_iff.1 h1.symm)

/-- Reading entries adds one code for each, keeps every entry clean, and stays inside the header (R120). -/
theorem parseEntries_ok {H : Nat → Byte} {L n o o' : Nat} {T T' : CodeTable}
    (h : parseEntries H L n o T = .ok (o', T')) (hc : CleanBits T) :
    CleanBits T' ∧ (coded T').length = (coded T).length + n := by
  induction n generalizing o T with
  | zero =>
    simp only [parseEntries, Except.ok.injEq, Prod.mk.injEq] at h
    obtain ⟨rfl, rfl⟩ := h
    exact ⟨hc, rfl⟩
  | succ n ih =>
    simp only [parseEntries] at h
    split at h
    · exact absurd h (by simp)
    split at h
    · exact absurd h (by simp)
    split at h
    · exact absurd h (by simp)
    split at h
    · exact absurd h (by simp)
    rename_i h1 h2 h3 h4
    rw [not_not] at h3
    have hlt := (H (o + 1)).isLt
    generalize hp : (List.range (H (o + 1)).toNat).map (packedBit fun q => H (o + 2 + q)) = p at h
    have hpl : p.length = (H (o + 1)).toNat := by rw [← hp]; simp
    have hp0 : p ≠ [] := fun e => h2 (by rw [← hpl, e]; rfl)
    have hs : H o ∉ coded T := by rw [mem_coded, not_not]; exact h3
    obtain ⟨h5, h6⟩ := ih h (fun u => by
      rw [tableGet_tableSet]
      split
      · exact CodeEntry.store_clean (by omega)
      · exact hc u)
    refine ⟨h5, ?_⟩
    rw [h6, (coded_tableSet hs (store_len_ne_zero hp0 (by omega))).length_eq, List.length_cons]
    omega

theorem coded_noCodes : coded noCodes = [] := by
  unfold coded
  rw [List.filter_eq_nil_iff]
  intro s _
  simp [CodeEntry.noCode]

theorem noCodes_clean : CleanBits noCodes := fun s => by
  rw [tableGet_noCodes]
  exact CodeEntry.noCode_clean

/-- A header that is accepted gives a clean prefix-free table of `NENT` codes, 1 to 256 of them (R118, R121). -/
theorem parseHeader_ok {H : Nat → Byte} {L : Nat} {h : ParsedHeader} (hok : parseHeader H L = .ok h) :
    PrefixFree h.code ∧ CleanBits h.code ∧ (coded h.code).length = h.nent ∧ 1 ≤ h.nent ∧ h.nent ≤ 256 := by
  unfold parseHeader at hok
  split at hok
  · exact absurd hok (by simp)
  split at hok
  · exact absurd hok (by simp)
  split at hok
  · exact absurd hok (by simp)
  simp only at hok
  split at hok
  · exact absurd hok (by simp)
  rename_i h1 h2 h3 h4
  cases hent : parseEntries H L (bigEndianVal H 1 2) 3 noCodes with
  | error e => rw [hent] at hok; exact absurd hok (by simp)
  | ok r =>
    obtain ⟨o, T⟩ := r
    rw [hent] at hok
    simp only [parseTail] at hok
    split at hok
    · exact absurd hok (by simp)
    split at hok
    · exact absurd hok (by simp)
    obtain ⟨h5, h6⟩ := parseEntries_ok hent noCodes_clean
    rw [coded_noCodes, List.length_nil, Nat.zero_add] at h6
    cases hpre : prefixBreach T with
    | some ab => rw [hpre] at hok; exact absurd hok (by simp)
    | none =>
      rw [hpre] at hok
      simp only [Except.ok.injEq] at hok
      subst hok
      exact ⟨(prefixBreach_none_iff T).1 hpre, h5, h6, by dsimp only; omega, by dsimp only; omega⟩

/-! ### The writer's bytes are read back (R124) -/

theorem bytesFrom_append {H : Nat → Byte} {o : Nat} {as bs : List Byte} :
    BytesFrom H o (as ++ bs) ↔ BytesFrom H o as ∧ BytesFrom H (o + as.length) bs := by
  constructor
  · intro h
    refine ⟨fun k hk => ?_, fun k hk => ?_⟩
    · rw [h k (by rw [List.length_append]; omega), List.getElem_append_left hk]
    · rw [Nat.add_assoc, h (as.length + k) (by rw [List.length_append]; omega),
        List.getElem_append_right (by omega)]
      simp
  · rintro ⟨h1, h2⟩ k hk
    by_cases hlt : k < as.length
    · rw [List.getElem_append_left hlt]; exact h1 k hlt
    · rw [List.getElem_append_right (by omega), ← h2 (k - as.length) (by rw [List.length_append] at hk; omega)]
      congr 1
      omega

theorem bytesFrom_cons {H : Nat → Byte} {o : Nat} {b : Byte} {bs : List Byte} :
    BytesFrom H o (b :: bs) ↔ H o = b ∧ BytesFrom H (o + 1) bs := by
  have := bytesFrom_append (H := H) (o := o) (as := [b]) (bs := bs)
  simp only [List.singleton_append, List.length_singleton] at this
  rw [this]
  constructor
  · rintro ⟨h1, h2⟩; exact ⟨h1 0 (by simp), h2⟩
  · rintro ⟨h1, h2⟩
    refine ⟨fun k hk => ?_, h2⟩
    have hk0 : k = 0 := by simpa using hk
    subst hk0
    exact h1

/-- The code bits of an entry are read back (R73, R75). -/
theorem cbits_readback {H : Nat → Byte} {o : Nat} {e : CodeEntry} (h : BytesFrom H o (cbitsBytes e)) :
    (List.range e.len.toNat).map (packedBit fun q => H (o + q)) = e.path := by
  apply List.ext_getElem
  · simp
  · intro j h1 h2
    rw [CodeEntry.path_getElem]
    simp only [List.getElem_map, List.getElem_range]
    simp only [List.length_map, List.length_range] at h1
    have hk : j / 8 < (cbitsBytes e).length := by
      rw [cbitsBytes_length]
      unfold ceil8
      omega
    rw [packedBit, h _ hk]
    simp only [cbitsBytes, List.getElem_map, List.getElem_range, getLsbD_msbFirst]
    have e1 : 8 - 1 - (7 - j % 8) = j % 8 := by omega
    have e2 : 8 * (j / 8) + j % 8 = j := by omega
    have e3 : 7 - j % 8 < 8 := by omega
    simp [e1, e2, e3]

/-- The table that entries read from a code table build up. -/
def copyCodes (code : CodeTable) (l : List Byte) (T : CodeTable) : CodeTable :=
  l.foldl (fun T s => tableSet T s (tableGet code s)) T

theorem tableGet_copyCodes (code : CodeTable) (l : List Byte) (T : CodeTable) (u : Byte) :
    tableGet (copyCodes code l T) u = if u ∈ l then tableGet code u else tableGet T u := by
  induction l generalizing T with
  | nil => simp [copyCodes]
  | cons s l ih =>
    have : copyCodes code (s :: l) T = copyCodes code l (tableSet T s (tableGet code s)) := rfl
    rw [this, ih, tableGet_tableSet]
    by_cases h1 : u ∈ l
    · simp [h1]
    · by_cases h2 : u = s
      · subst h2; simp [h1]
      · simp [h1, h2]

/-- The writer's entries are read back (R116, R120). -/
theorem parseEntries_entryBytes {H : Nat → Byte} {L : Nat} {code : CodeTable} (hc : CleanBits code) (l : List Byte)
    (hl : ∀ s ∈ l, s ∈ coded code) (hnd : l.Nodup) (o : Nat) (T : CodeTable) (hT : ∀ s ∈ l, (tableGet T s).len = 0#8)
    (hb : BytesFrom H o (l.flatMap (entryBytes code))) (hL : o + (l.flatMap (entryBytes code)).length ≤ L) :
    parseEntries H L l.length o T = .ok (o + (l.flatMap (entryBytes code)).length, copyCodes code l T) := by
  induction l generalizing o T with
  | nil => rfl
  | cons s l ih =>
    rw [List.flatMap_cons] at hb hL ⊢
    rw [List.length_append, entryBytes_length] at hL ⊢
    obtain ⟨hb1, hb2⟩ := bytesFrom_append.1 hb
    rw [entryBytes_length] at hb2
    obtain ⟨hsym, hb1⟩ := bytesFrom_cons.1 hb1
    obtain ⟨hlen, hbits⟩ := bytesFrom_cons.1 hb1
    rw [Nat.add_assoc] at hbits
    have hs := (mem_coded code s).1 (hl s (by simp))
    have hpos : (tableGet code s).len.toNat ≠ 0 := fun e => hs (BitVec.eq_of_toNat_eq (by simpa using e))
    rw [List.nodup_cons] at hnd
    have hread := cbits_readback hbits
    have hstore : CodeEntry.store (tableGet code s).path = tableGet code s := by
      have h255 : (tableGet code s).path.length ≤ 255 := by
        have := (tableGet code s).len.isLt
        simp
        omega
      exact CodeEntry.ext_of_path (CodeEntry.store_clean h255) (hc s) (CodeEntry.path_store h255)
    have hlenN : (H (o + 1)).toNat = (tableGet code s).len.toNat := by rw [hlen]
    simp only [List.length_cons, parseEntries, hsym, hlenN]
    rw [if_neg (by omega), if_neg hpos, if_neg (by simpa using hT s (by simp)), if_neg (by omega), hread, hstore]
    rw [ih (fun u hu => hl u (by simp [hu])) hnd.2 _ _ (fun u hu => by
        have hus : u ≠ s := by
          rintro rfl
          exact hnd.1 hu
        rw [tableGet_tableSet_other _ _ hus]
        exact hT u (by simp [hu])) (by rw [Nat.add_assoc]; exact hb2) (by omega)]
    simp only [Except.ok.injEq, Prod.mk.injEq]
    exact ⟨by omega, rfl⟩

/-- `RDHDR` reads back what `WRHDR` wrote: "round-trips every symbol/code pair and the exact payload bit count"
(R124). -/
theorem parseHeader_headerBytes {H : Nat → Byte} {code : CodeTable} {bitcnt : BitVec 64} (hc : CleanBits code)
    (hf : PrefixFree code) (hne : coded code ≠ []) (hb : BytesFrom H 0 (headerBytes code bitcnt)) :
    parseHeader H (headerSize code) = .ok ⟨code, (coded code).length, bitcnt⟩ := by
  have hbounds := headerSize_bounds hne
  have hle := coded_length_le code
  have hpos : 0 < (coded code).length := List.length_pos_of_ne_nil hne
  have hlen := headerBytes_length code bitcnt
  unfold headerBytes at hb hlen
  obtain ⟨hb, hbits⟩ := bytesFrom_append.1 hb
  obtain ⟨hb, hents⟩ := bytesFrom_append.1 hb
  obtain ⟨hfmt, hnent⟩ := bytesFrom_append.1 hb
  simp only [List.length_append, List.length_singleton, bigEndian_length, Nat.zero_add] at hbits hents hnent hlen
  have hfmt0 : H 0 = Config.fmtMsbFirst := by
    have := hfmt 0 (by simp)
    simpa using this
  have hn : bigEndianVal H 1 2 = (coded code).length :=
    bigEndianVal_bigEndian H 1 2 _ (by omega) (fun j hj => hnent j (by simpa using hj))
  have hv : bigEndianVal H (3 + ((coded code).flatMap (entryBytes code)).length) 8 = bitcnt.toNat :=
    bigEndianVal_bigEndian H _ 8 _ (by have := bitcnt.isLt; omega) (fun j hj => hbits j (by simpa using hj))
  have hpe := parseEntries_entryBytes (L := headerSize code) hc (coded code) (fun s h => h)
    (nodup_of_ascending (coded_ascending code)) 3 noCodes (fun s _ => by rw [tableGet_noCodes]; rfl) hents (by omega)
  have hcopy : copyCodes code (coded code) noCodes = code := by
    apply table_ext
    intro u
    rw [tableGet_copyCodes, tableGet_noCodes]
    split
    · rfl
    · rename_i h
      rw [mem_coded, not_not] at h
      have h0 := CodeEntry.noCode_clean
      refine CodeEntry.ext_of_path h0 (hc u) ?_
      simp [CodeEntry.path, CodeEntry.noCode, h]
  unfold parseHeader
  rw [if_neg (by omega), if_neg (by simp [hfmt0]), if_neg (by omega)]
  simp only [hn]
  rw [if_neg (by omega), hpe, hcopy]
  simp only [parseTail]
  rw [if_neg (by omega), if_neg (by omega), (prefixBreach_none_iff code).2 hf, hv]
  simp

end Sys2Proof.Machine
end

