-- ==== Sys2Proof/Laws/Bodies.lean ====
section
/-! SUPPORT. What each command's pseudocode can do, said once per way it can end (spec/40 to spec/46): under what
conditions it runs to its end, with which state, and which error it raises otherwise. -/

namespace Sys2Proof.Machine

/-- A command's pseudocode by name. -/
def bodyOf : Instr → State → Run
  | .nop => nopBody
  | .clear => clearBody
  | .count => countBody
  | .build => buildBody
  | .gencode => gencodeBody
  | .encode => encodeBody
  | .wrhdr => wrhdrBody
  | .rdhdr => rdhdrBody
  | .decode => decodeBody
  | .compress => compressBody
  | .decompress => decompressBody

theorem exec_eq (i : Instr) (s : State) : exec i s = runCommand i (bodyOf i) s := by cases i <;> rfl

theorem exec_of_done {i : Instr} {s t : State} (hw : WindowsOk i s) (h : bodyOf i s = .done t) :
    exec i s = .next t.succeed := exec_eq i s ▸ runCommand_of_done hw h

theorem exec_of_raised {i : Instr} {s t : State} {e : Report} (hw : WindowsOk i s) (h : bodyOf i s = .raised e t) :
    exec i s = .next (t.fail (writeWindows i) (isComposite i) e) := exec_eq i s ▸ runCommand_of_raised hw h

/-- What a complete step that is not refused did. -/
theorem exec_next_iff (i : Instr) (s t : State) :
    exec i s = .next t ↔
      WindowsOk i s ∧ ((∃ u, bodyOf i s = .done u ∧ t = u.succeed) ∨
        ∃ e u, bodyOf i s = .raised e u ∧ t = u.fail (writeWindows i) (isComposite i) e) := by
  rw [exec_eq, runCommand_next_iff]

theorem exec_refused_iff (i : Instr) (s : State) (why : Refusal) :
    exec i s = .refused why ↔ windowBreach i s.regs s.platform = some why := by
  rw [exec_eq, runCommand]
  cases h : windowBreach i s.regs s.platform with
  | some w => simp
  | none => cases bodyOf i s <;> simp

theorem State.fail_err (outs : List Window) (c : Bool) (e : Report) (s : State) : (s.fail outs c e).regs.err = true := by
  rw [State.fail_regs]; rfl

/-- A complete step that reports no error ran its pseudocode to the end. -/
theorem exec_success {i : Instr} {s t : State} (h : exec i s = .next t) (he : t.regs.err = false) :
    WindowsOk i s ∧ ∃ u, bodyOf i s = .done u ∧ t = u.succeed := by
  obtain ⟨hw, ⟨u, hu, rfl⟩ | ⟨e, u, hu, rfl⟩⟩ := (exec_next_iff i s t).1 h
  · exact ⟨hw, u, hu, rfl⟩
  · rw [State.fail_err] at he
    exact absurd he (by simp)

/-! ### `COUNT` (R85) -/

/-- The state `COUNT`'s pseudocode ends with. -/
def State.counted (s : State) : State :=
  { s with
    freq := countBytes s.srcBytes
    regs := { s.regs.clearValid with
      nsym := BitVec.ofNat 9 (present (countBytes s.srcBytes)).length, freqValid := true } }

theorem countBody_done {s : State} (h : InRange s.regs.srcAddr s.regs.srcLen) : countBody s = .done s.counted := by
  unfold countBody
  rw [checkRange_of_inRange (s := s.clearValid) (w := .src) h]
  rfl

theorem countBody_range {s : State} (h : ¬ InRange s.regs.srcAddr s.regs.srcLen) :
    countBody s = .raised ⟨.range, 0#8, s.regs.srcAddr⟩ s.clearValid := by
  unfold countBody
  rw [checkRange_of_not_inRange (s := s.clearValid) (w := .src) h]
  rfl

theorem countBody_done_iff (s t : State) :
    countBody s = .done t ↔ InRange s.regs.srcAddr s.regs.srcLen ∧ t = s.counted := by
  by_cases h : InRange s.regs.srcAddr s.regs.srcLen
  · simp [countBody_done h, h, eq_comm]
  · simp [countBody_range h, h]

/-! ### `BUILD` (R90) -/

/-- The state `BUILD`'s pseudocode ends with. -/
def State.built (s : State) : State :=
  { s with
    node := (buildTree s.freq s.node).node
    regs := { s.regs with
      root := BitVec.ofNat 9 ((buildTree s.freq s.node).pq.headD 0)
      nnode := BitVec.ofNat 10 (buildTree s.freq s.node).n
      treeValid := true, codeValid := false } }

theorem buildBody_done {s : State} (hf : s.regs.freqValid = true) (hn : s.regs.nsym ≠ 0#9) :
    buildBody s = .done s.built := by
  simp [buildBody, hf, hn, State.built]

theorem buildBody_empty {s : State} (hf : s.regs.freqValid = true) (hn : s.regs.nsym = 0#9) :
    buildBody s =
      .raised ⟨.emptyInput, 0#8, 0#32⟩ { s with regs := { s.regs with treeValid := false, codeValid := false } } := by
  simp [buildBody, hf, hn]

theorem buildBody_sequence {s : State} (hf : s.regs.freqValid = false) :
    buildBody s = .raised ⟨.sequence, 1#8, 0#32⟩ s := by
  simp [buildBody, hf]

theorem buildBody_done_iff (s t : State) :
    buildBody s = .done t ↔ s.regs.freqValid = true ∧ s.regs.nsym ≠ 0#9 ∧ t = s.built := by
  cases hf : s.regs.freqValid with
  | false => simp [buildBody_sequence hf]
  | true =>
    by_cases hn : s.regs.nsym = 0#9
    · simp [buildBody_empty hf hn, hn]
    · simp [buildBody_done hf hn, hn, eq_comm]

/-! ### `GENCODE` (R101) -/

/-- The state `GENCODE`'s pseudocode ends with. -/
def State.generated (s : State) : State :=
  { s with code := genCode s.node s.regs.root.toNat, regs := { s.regs with codeValid := true } }

theorem gencodeBody_done {s : State} (h : s.regs.treeValid = true) : gencodeBody s = .done s.generated := by
  simp [gencodeBody, h, State.generated]

theorem gencodeBody_sequence {s : State} (h : s.regs.treeValid = false) :
    gencodeBody s = .raised ⟨.sequence, 2#8, 0#32⟩ s := by
  simp [gencodeBody, h]

theorem gencodeBody_done_iff (s t : State) :
    gencodeBody s = .done t ↔ s.regs.treeValid = true ∧ t = s.generated := by
  cases h : s.regs.treeValid with
  | false => simp [gencodeBody_sequence h]
  | true => simp [gencodeBody_done h, eq_comm]

/-! ### `ENCODE` (R108) -/

/-- The state `ENCODE`'s pseudocode ends with. -/
def State.packed (s : State) : State :=
  { s with
    mem := s.mem.setBytes s.regs.pkdAddr.toNat (packBytes (payload s.code s.srcBytes))
    regs := { s.regs.setBitcnt (BitVec.ofNat 64 (payload s.code s.srcBytes).length) with
      pkdLen := BitVec.ofNat 32 (ceil8 (payload s.code s.srcBytes).length) } }

theorem State.srcBytes_length (s : State) : s.srcBytes.length = s.regs.srcLen.toNat := by
  simp [State.srcBytes, Regs.readRegion, Regs.readLen]

/-- No payload is as long as 2^40 bits (R12 (c)). -/
theorem payload_lt (s : State) : (payload s.code s.srcBytes).length < 2 ^ 40 := by
  have h1 := payload_length_le s.code s.srcBytes
  have h2 := s.srcBytes_length
  have h3 := s.regs.srcLen.isLt
  omega

theorem encodeBody_done {s : State} (hc : s.regs.codeValid = true) (hs : InRange s.regs.srcAddr s.regs.srcLen)
    (hp : InRange s.regs.pkdAddr s.regs.pkdCap) (hcov : ∀ b ∈ s.srcBytes, b ∈ coded s.code)
    (hfit : ceil8 (payload s.code s.srcBytes).length ≤ s.regs.pkdCap.toNat) : encodeBody s = .done s.packed := by
  have hlt := payload_lt s
  have hn : ((0#64 + BitVec.ofNat 64 (payload s.code s.srcBytes).length : BitVec 64)).toNat =
      (payload s.code s.srcBytes).length := by
    simp; omega
  unfold encodeBody
  rw [if_pos hc, checkRange_of_inRange (s := s) (w := .src) hs, Run.bind_done,
    checkRange_of_inRange (s := s) (w := .pkd) hp, Run.bind_done]
  simp only
  rw [show s.readBytes (s.regs.readRegion .src) = s.srcBytes from rfl, coverPass_ok hcov]
  simp only [hn]
  rw [if_neg (by omega), (packPass_spec _ _ _).1, (packPass_spec _ _ _).2]
  simp [State.packed, State.writeBytes]

theorem encodeBody_overflow {s : State} (hc : s.regs.codeValid = true) (hs : InRange s.regs.srcAddr s.regs.srcLen)
    (hp : InRange s.regs.pkdAddr s.regs.pkdCap) (hcov : ∀ b ∈ s.srcBytes, b ∈ coded s.code)
    (hfit : s.regs.pkdCap.toNat < ceil8 (payload s.code s.srcBytes).length) :
    encodeBody s = .raised
      ⟨.overflow, 2#8, BitVec.ofNat 32 (min (ceil8 (payload s.code s.srcBytes).length) 0xFFFFFFFF)⟩ s := by
  have hlt := payload_lt s
  have hn : ((0#64 + BitVec.ofNat 64 (payload s.code s.srcBytes).length : BitVec 64)).toNat =
      (payload s.code s.srcBytes).length := by
    simp; omega
  unfold encodeBody
  rw [if_pos hc, checkRange_of_inRange (s := s) (w := .src) hs, Run.bind_done,
    checkRange_of_inRange (s := s) (w := .pkd) hp, Run.bind_done]
  simp only
  rw [show s.readBytes (s.regs.readRegion .src) = s.srcBytes from rfl, coverPass_ok hcov]
  simp only [hn]
  rw [if_pos hfit]

theorem encodeBody_uncovered {s : State} {pre post : List Byte} {b : Byte} (hc : s.regs.codeValid = true)
    (hs : InRange s.regs.srcAddr s.regs.srcLen) (hp : InRange s.regs.pkdAddr s.regs.pkdCap)
    (hsrc : s.srcBytes = pre ++ b :: post) (hpre : ∀ c ∈ pre, c ∈ coded s.code) (hb : b ∉ coded s.code) :
    encodeBody s = .raised ⟨.uncoveredSymbol, b, BitVec.ofNat 32 pre.length⟩ s := by
  unfold encodeBody
  rw [if_pos hc, checkRange_of_inRange (s := s) (w := .src) hs, Run.bind_done,
    checkRange_of_inRange (s := s) (w := .pkd) hp, Run.bind_done]
  simp only
  rw [show s.readBytes (s.regs.readRegion .src) = s.srcBytes from rfl, hsrc, coverPass_uncovered hpre hb]
  simp

theorem encodeBody_sequence {s : State} (hc : s.regs.codeValid = false) :
    encodeBody s = .raised ⟨.sequence, 3#8, 0#32⟩ s := by
  simp [encodeBody, hc]

theorem encodeBody_range_src {s : State} (hc : s.regs.codeValid = true) (hs : ¬ InRange s.regs.srcAddr s.regs.srcLen) :
    encodeBody s = .raised ⟨.range, 0#8, s.regs.srcAddr⟩ s := by
  unfold encodeBody
  rw [if_pos hc, checkRange_of_not_inRange (s := s) (w := .src) hs]
  rfl

theorem encodeBody_range_pkd {s : State} (hc : s.regs.codeValid = true) (hs : InRange s.regs.srcAddr s.regs.srcLen)
    (hp : ¬ InRange s.regs.pkdAddr s.regs.pkdCap) : encodeBody s = .raised ⟨.range, 2#8, s.regs.pkdAddr⟩ s := by
  unfold encodeBody
  rw [if_pos hc, checkRange_of_inRange (s := s) (w := .src) hs, Run.bind_done,
    checkRange_of_not_inRange (s := s) (w := .pkd) hp]
  rfl

/-- A list that is not wholly covered has a first byte that is not (R159). -/
theorem first_uncovered {P : Byte → Prop} {l : List Byte} (h : ¬ ∀ b ∈ l, P b) :
    ∃ pre b post, l = pre ++ b :: post ∧ (∀ c ∈ pre, P c) ∧ ¬ P b := by
  induction l with
  | nil => simp at h
  | cons a l ih =>
    by_cases ha : P a
    · obtain ⟨pre, b, post, rfl, hpre, hb⟩ := ih fun hl => h (by simpa [ha] using hl)
      exact ⟨a :: pre, b, post, rfl, by simpa [ha] using hpre, hb⟩
    · exact ⟨[], a, l, rfl, by simp, ha⟩

/-- `ENCODE`'s pseudocode either runs to its end, or raises one of its errors with nothing changed. -/
theorem encodeBody_cases (s : State) :
    (s.regs.codeValid = true ∧ InRange s.regs.srcAddr s.regs.srcLen ∧ InRange s.regs.pkdAddr s.regs.pkdCap ∧
      (∀ b ∈ s.srcBytes, b ∈ coded s.code) ∧ ceil8 (payload s.code s.srcBytes).length ≤ s.regs.pkdCap.toNat ∧
      encodeBody s = .done s.packed) ∨
    ∃ e : Report, encodeBody s = .raised e s ∧
      e.kind ∈ [ErrKind.sequence, .range, .uncoveredSymbol, .overflow] := by
  cases hc : s.regs.codeValid with
  | false => exact .inr ⟨_, encodeBody_sequence hc, by simp⟩
  | true =>
    by_cases hs : InRange s.regs.srcAddr s.regs.srcLen
    · by_cases hp : InRange s.regs.pkdAddr s.regs.pkdCap
      · by_cases hcov : ∀ b ∈ s.srcBytes, b ∈ coded s.code
        · rcases Nat.lt_or_ge s.regs.pkdCap.toNat (ceil8 (payload s.code s.srcBytes).length) with h | h
          · exact .inr ⟨_, encodeBody_overflow hc hs hp hcov h, by simp⟩
          · exact .inl ⟨rfl, hs, hp, hcov, h, encodeBody_done hc hs hp hcov h⟩
        · obtain ⟨pre, b, post, h1, h2, h3⟩ := first_uncovered hcov
          exact .inr ⟨_, encodeBody_uncovered hc hs hp h1 h2 h3, by simp⟩
      · exact .inr ⟨_, encodeBody_range_pkd hc hs hp, by simp⟩
    · exact .inr ⟨_, encodeBody_range_src hc hs, by simp⟩

/-! ### `WRHDR` (R116) -/

/-- The state `WRHDR`'s pseudocode ends with. -/
def State.headed (s : State) : State :=
  { s with
    mem := s.mem.setBytes s.regs.hdrAddr.toNat (headerBytes s.code s.regs.bitcnt)
    regs := { s.regs with hdrLen := BitVec.ofNat 32 (headerSize s.code) } }

theorem wrhdrBody_done {s : State} (hc : s.regs.codeValid = true) (hh : InRange s.regs.hdrAddr s.regs.hdrCap)
    (hfit : headerSize s.code ≤ s.regs.hdrCap.toNat) : wrhdrBody s = .done s.headed := by
  unfold wrhdrBody
  rw [if_pos hc, checkRange_of_inRange (s := s) (w := .hdr) hh, Run.bind_done]
  simp only
  rw [if_neg (by omega)]
  simp [State.headed, State.writeBytes, headerBytes_length]

theorem wrhdrBody_overflow {s : State} (hc : s.regs.codeValid = true) (hh : InRange s.regs.hdrAddr s.regs.hdrCap)
    (hfit : s.regs.hdrCap.toNat < headerSize s.code) :
    wrhdrBody s = .raised ⟨.overflow, 1#8, BitVec.ofNat 32 (headerSize s.code)⟩ s := by
  unfold wrhdrBody
  rw [if_pos hc, checkRange_of_inRange (s := s) (w := .hdr) hh, Run.bind_done]
  simp only
  rw [if_pos hfit]

theorem wrhdrBody_range {s : State} (hc : s.regs.codeValid = true) (hh : ¬ InRange s.regs.hdrAddr s.regs.hdrCap) :
    wrhdrBody s = .raised ⟨.range, 1#8, s.regs.hdrAddr⟩ s := by
  unfold wrhdrBody
  rw [if_pos hc, checkRange_of_not_inRange (s := s) (w := .hdr) hh]
  rfl

theorem wrhdrBody_sequence {s : State} (hc : s.regs.codeValid = false) :
    wrhdrBody s = .raised ⟨.sequence, 3#8, 0#32⟩ s := by
  simp [wrhdrBody, hc]

theorem wrhdrBody_cases (s : State) :
    (s.regs.codeValid = true ∧ InRange s.regs.hdrAddr s.regs.hdrCap ∧ headerSize s.code ≤ s.regs.hdrCap.toNat ∧
      wrhdrBody s = .done s.headed) ∨
    ∃ e : Report, wrhdrBody s = .raised e s ∧ e.kind ∈ [ErrKind.sequence, .range, .overflow] := by
  cases hc : s.regs.codeValid with
  | false => exact .inr ⟨_, wrhdrBody_sequence hc, by simp⟩
  | true =>
    by_cases hh : InRange s.regs.hdrAddr s.regs.hdrCap
    · rcases Nat.lt_or_ge s.regs.hdrCap.toNat (headerSize s.code) with h | h
      · exact .inr ⟨_, wrhdrBody_overflow hc hh h, by simp⟩
      · exact .inl ⟨rfl, hh, h, wrhdrBody_done hc hh h⟩
    · exact .inr ⟨_, wrhdrBody_range hc hh, by simp⟩

/-! ### `RDHDR` (R119) -/

/-- The state `RDHDR`'s pseudocode ends with on a header that parses. -/
def State.loaded (s : State) (h : ParsedHeader) : State :=
  { s with
    code := h.code
    regs := { s.regs.clearValid.setBitcnt h.bitcnt with nsym := BitVec.ofNat 9 h.nent, codeValid := true } }

theorem rdhdrBody_done {s : State} {h : ParsedHeader} (hr : InRange s.regs.hdrAddr s.regs.hdrLen)
    (hp : parseHeader s.headerByte s.regs.hdrLen.toNat = .ok h) : rdhdrBody s = .done (s.loaded h) := by
  unfold rdhdrBody
  rw [checkRange_of_inRange (s := s.clearValid) (w := .hdr) hr, Run.bind_done]
  have hp' : parseHeader (fun o => s.clearValid.byteAt (s.clearValid.regs.hdrAddr.toNat + o))
      s.clearValid.regs.hdrLen.toNat = .ok h := hp
  rw [hp']
  rfl

theorem rdhdrBody_malformed {s : State} {e : Report} (hr : InRange s.regs.hdrAddr s.regs.hdrLen)
    (hp : parseHeader s.headerByte s.regs.hdrLen.toNat = .error e) :
    rdhdrBody s = .raised e s.clearValid.freeCode := by
  unfold rdhdrBody
  rw [checkRange_of_inRange (s := s.clearValid) (w := .hdr) hr, Run.bind_done]
  have hp' : parseHeader (fun o => s.clearValid.byteAt (s.clearValid.regs.hdrAddr.toNat + o))
      s.clearValid.regs.hdrLen.toNat = .error e := hp
  rw [hp']
  rfl

theorem rdhdrBody_range {s : State} (hr : ¬ InRange s.regs.hdrAddr s.regs.hdrLen) :
    rdhdrBody s = .raised ⟨.range, 1#8, s.regs.hdrAddr⟩ s.clearValid.freeCode := by
  unfold rdhdrBody
  rw [checkRange_of_not_inRange (s := s.clearValid) (w := .hdr) hr]
  rfl

theorem rdhdrBody_cases (s : State) :
    (∃ h, InRange s.regs.hdrAddr s.regs.hdrLen ∧ parseHeader s.headerByte s.regs.hdrLen.toNat = .ok h ∧
      rdhdrBody s = .done (s.loaded h)) ∨
    ∃ e : Report, rdhdrBody s = .raised e s.clearValid.freeCode ∧
      (¬ InRange s.regs.hdrAddr s.regs.hdrLen ∧ e = ⟨.range, 1#8, s.regs.hdrAddr⟩ ∨
        InRange s.regs.hdrAddr s.regs.hdrLen ∧ parseHeader s.headerByte s.regs.hdrLen.toNat = .error e) := by
  by_cases hr : InRange s.regs.hdrAddr s.regs.hdrLen
  · cases hp : parseHeader s.headerByte s.regs.hdrLen.toNat with
    | ok h => exact .inl ⟨h, hr, rfl, rdhdrBody_done hr hp⟩
    | error e => exact .inr ⟨e, rdhdrBody_malformed hr hp, .inr ⟨hr, rfl⟩⟩
  · exact .inr ⟨_, rdhdrBody_range hr, .inl ⟨hr, rfl⟩⟩

/-! ### `DECODE` (R129) -/

/-- `DECODE`'s walk over the payload of a state. -/
def State.walked (s : State) : Except Report (Decoder × List Byte) :=
  decodeLoop (codeBook s.code) s.packedStreamBit s.regs.dstCap s.regs.bitcnt.toNat Decoder.start

/-- The state `DECODE`'s pseudocode ends with. -/
def State.unpacked (s : State) (d : Decoder) (out : List Byte) : State :=
  { s with mem := s.mem.setBytes s.regs.dstAddr.toNat out, regs := { s.regs with dstLen := d.out } }

theorem decodeBody_sequence {s : State} (hc : s.regs.codeValid = false) :
    decodeBody s = .raised ⟨.sequence, 3#8, 0#32⟩ s := by
  simp [decodeBody, hc]

theorem decodeBody_range_pkd {s : State} (hc : s.regs.codeValid = true) (hp : ¬ InRange s.regs.pkdAddr s.regs.pkdLen) :
    decodeBody s = .raised ⟨.range, 2#8, s.regs.pkdAddr⟩ s := by
  unfold decodeBody
  rw [if_pos hc, checkRange_of_not_inRange (s := s) (w := .pkd) hp]
  rfl

theorem decodeBody_range_dst {s : State} (hc : s.regs.codeValid = true) (hp : InRange s.regs.pkdAddr s.regs.pkdLen)
    (hd : ¬ InRange s.regs.dstAddr s.regs.dstCap) : decodeBody s = .raised ⟨.range, 3#8, s.regs.dstAddr⟩ s := by
  unfold decodeBody
  rw [if_pos hc, checkRange_of_inRange (s := s) (w := .pkd) hp, Run.bind_done,
    checkRange_of_not_inRange (s := s) (w := .dst) hd]
  rfl

/-- With its table and its windows in order, `DECODE` is the length check, the walk, and the check that the walk is at the
root. -/
theorem decodeBody_eq {s : State} (hc : s.regs.codeValid = true) (hp : InRange s.regs.pkdAddr s.regs.pkdLen)
    (hd : InRange s.regs.dstAddr s.regs.dstCap) :
    decodeBody s =
      if 8 * s.regs.pkdLen.toNat < s.regs.bitcnt.toNat then .raised ⟨.truncatedStream, 1#8, s.regs.pkdLen⟩ s
      else
        match s.walked with
        | .error e => .raised e s
        | .ok (d, out) =>
          if d.path ≠ [] then .raised ⟨.truncatedStream, 2#8, BitVec.ofNat 32 d.path.length⟩ s
          else .done (s.unpacked d out) := by
  unfold decodeBody
  rw [if_pos hc, checkRange_of_inRange (s := s) (w := .pkd) hp, Run.bind_done,
    checkRange_of_inRange (s := s) (w := .dst) hd, Run.bind_done]
  rfl

/-- The walk emits at most `DST_CAP` bytes, counts them, and fails only with the two errors of the stream. -/
theorem decodeLoop_bound (book : List (Byte × BitString)) (bitAt : Nat → Bool) (cap : Word) (n : Nat) (d : Decoder)
    (hd : d.out.toNat ≤ cap.toNat) :
    (∀ d' out, decodeLoop book bitAt cap n d = .ok (d', out) →
      d'.out.toNat = d.out.toNat + out.length ∧ d'.out.toNat ≤ cap.toNat) ∧
    (∀ e, decodeLoop book bitAt cap n d = .error e → e.kind ∈ [ErrKind.truncatedStream, .overflow]) := by
  induction n generalizing d with
  | zero => simp [decodeLoop]; omega
  | succ n ih =>
    unfold decodeLoop decodeStep
    simp only
    cases hl : leafSymbol book (d.path ++ [bitAt d.rp.toNat]) with
    | some s =>
      simp only
      by_cases hcap : d.out = cap
      · simp [hcap]
      · have hne : d.out.toNat ≠ cap.toNat := fun h => hcap (BitVec.eq_of_toNat_eq h)
        have hcapLt := cap.isLt
        have hout : (d.out + 1#32).toNat = d.out.toNat + 1 := by
          rw [BitVec.toNat_add]
          simp
          omega
        have h := ih ⟨[], d.rp + 1#64, d.out + 1#32⟩ (by simp only [hout]; omega)
        rw [if_neg hcap]
        simp only
        cases hr : decodeLoop book bitAt cap n ⟨[], d.rp + 1#64, d.out + 1#32⟩ with
        | error e => simpa [hr] using h.2 e hr
        | ok r =>
          obtain ⟨d', out⟩ := r
          have := h.1 d' out hr
          simp only [hout] at this
          simp
          omega
    | none =>
      simp only
      by_cases hi : isInternal book (d.path ++ [bitAt d.rp.toNat]) = true
      · rw [if_pos hi]
        simp only
        have h := ih ⟨d.path ++ [bitAt d.rp.toNat], d.rp + 1#64, d.out⟩ hd
        cases hr : decodeLoop book bitAt cap n ⟨d.path ++ [bitAt d.rp.toNat], d.rp + 1#64, d.out⟩ with
        | error e => simpa [hr] using h.2 e hr
        | ok r =>
          obtain ⟨d', out⟩ := r
          have := h.1 d' out hr
          simpa using this
      · rw [if_neg hi]
        simp

/-- `DECODE`'s pseudocode either runs to its end, or raises one of its errors with nothing changed. -/
theorem decodeBody_cases (s : State) :
    (∃ d out, s.regs.codeValid = true ∧ InRange s.regs.pkdAddr s.regs.pkdLen ∧ InRange s.regs.dstAddr s.regs.dstCap ∧
      s.regs.bitcnt.toNat ≤ 8 * s.regs.pkdLen.toNat ∧ s.walked = .ok (d, out) ∧ d.path = [] ∧
      d.out.toNat = out.length ∧ out.length ≤ s.regs.dstCap.toNat ∧ decodeBody s = .done (s.unpacked d out)) ∨
    ∃ e : Report, decodeBody s = .raised e s ∧ e.kind ∈ [ErrKind.sequence, .range, .truncatedStream, .overflow] := by
  cases hc : s.regs.codeValid with
  | false => exact .inr ⟨_, decodeBody_sequence hc, by simp⟩
  | true =>
    by_cases hp : InRange s.regs.pkdAddr s.regs.pkdLen
    · by_cases hd : InRange s.regs.dstAddr s.regs.dstCap
      · rw [decodeBody_eq hc hp hd]
        have hb := decodeLoop_bound (codeBook s.code) s.packedStreamBit s.regs.dstCap s.regs.bitcnt.toNat Decoder.start
          (by simp [Decoder.start])
        by_cases hbits : 8 * s.regs.pkdLen.toNat < s.regs.bitcnt.toNat
        · exact .inr ⟨_, by rw [if_pos hbits], by simp⟩
        · rw [if_neg hbits]
          cases hw : s.walked with
          | error e =>
            refine .inr ⟨e, rfl, ?_⟩
            have := hb.2 e hw
            simp only [List.mem_cons, List.not_mem_nil, or_false] at this ⊢
            tauto
          | ok r =>
            obtain ⟨d, out⟩ := r
            by_cases hpath : d.path = []
            · have := hb.1 d out hw
              simp only [Decoder.start] at this
              simp at this
              exact .inl ⟨d, out, rfl, hp, hd, by omega, rfl, hpath, this.1, by omega, by simp [hpath]⟩
            · exact .inr ⟨⟨.truncatedStream, 2#8, BitVec.ofNat 32 d.path.length⟩, by simp [hpath], by simp⟩
      · exact .inr ⟨_, decodeBody_range_dst hc hp hd, by simp⟩
    · exact .inr ⟨_, decodeBody_range_pkd hc hp, by simp⟩

end Sys2Proof.Machine
end

