-- ==== Sys2Proof/Laws/HeaderForm.lean ====
section
/-! SUPPORT. The reader's parse (spec/44_header.md R120) and the form of a valid header (R118): entries that lie in the window
are read one after another, and what the parse answers is what the form says. -/

namespace Sys2Proof.Machine

/-- The scratch table that a list of entries builds up. -/
def loadEntries (es : List HeaderEntry) (T : CodeTable) : CodeTable :=
  es.foldl (fun T e => tableSet T e.1 (CodeEntry.store e.2)) T

@[simp] theorem loadEntries_nil (T : CodeTable) : loadEntries [] T = T := rfl

@[simp] theorem loadEntries_cons (e : HeaderEntry) (es : List HeaderEntry) (T : CodeTable) :
    loadEntries (e :: es) T = loadEntries es (tableSet T e.1 (CodeEntry.store e.2)) := rfl

theorem loadEntries_append (es fs : List HeaderEntry) (T : CodeTable) :
    loadEntries (es ++ fs) T = loadEntries fs (loadEntries es T) := List.foldl_append

@[simp] theorem entriesSize_nil : entriesSize [] = 0 := rfl

@[simp] theorem entriesSize_cons (e : HeaderEntry) (es : List HeaderEntry) :
    entriesSize (e :: es) = e.size + entriesSize es := by simp [entriesSize]

theorem entriesSize_append (es fs : List HeaderEntry) : entriesSize (es ++ fs) = entriesSize es + entriesSize fs := by
  simp [entriesSize]

theorem entriesAt_append {H : Nat → Byte} {o : Nat} {es fs : List HeaderEntry} :
    EntriesAt H o (es ++ fs) ↔ EntriesAt H o es ∧ EntriesAt H (o + entriesSize es) fs := by
  induction es generalizing o with
  | nil => simp [EntriesAt]
  | cons e es ih =>
    simp only [List.cons_append, EntriesAt, ih, entriesSize_cons, Nat.add_assoc, and_assoc]

theorem tableGet_loadEntries_other {es : List HeaderEntry} {s : Byte} (h : s ∉ es.map (·.1)) (T : CodeTable) :
    tableGet (loadEntries es T) s = tableGet T s := by
  induction es generalizing T with
  | nil => rfl
  | cons e es ih =>
    simp only [List.map_cons, List.mem_cons, not_or] at h
    rw [loadEntries_cons, ih h.2, tableGet_tableSet_other _ _ h.1]

theorem tableGet_loadEntries {es : List HeaderEntry} (hn : (es.map (·.1)).Nodup) {e : HeaderEntry} (he : e ∈ es)
    (T : CodeTable) : tableGet (loadEntries es T) e.1 = CodeEntry.store e.2 := by
  induction es generalizing T with
  | nil => simp at he
  | cons x es ih =>
    rw [List.map_cons, List.nodup_cons] at hn
    rw [loadEntries_cons]
    rcases List.mem_cons.1 he with rfl | he
    · rw [tableGet_loadEntries_other hn.1]; simp
    · exact ih hn.2 he _

/-- An entry that lies in the window has a code of 1 to 255 bits (R73). -/
theorem EntryAt.length_le {H : Nat → Byte} {o : Nat} {e : HeaderEntry} (h : EntryAt H o e) : e.2.length ≤ 255 := by
  have := (H (o + 1)).isLt
  have := h.2.2.1
  omega

theorem EntriesAt.mem {H : Nat → Byte} {o : Nat} {es : List HeaderEntry} (h : EntriesAt H o es) {e : HeaderEntry}
    (he : e ∈ es) : 1 ≤ e.2.length ∧ e.2.length ≤ 255 := by
  induction es generalizing o with
  | nil => simp at he
  | cons x es ih =>
    rcases List.mem_cons.1 he with rfl | he
    · exact ⟨h.1.2.1, h.1.length_le⟩
    · exact ih h.2 he

theorem EntryAt.readback {H : Nat → Byte} {o : Nat} {e : HeaderEntry} (h : EntryAt H o e) :
    (List.range e.2.length).map (packedBit fun q => H (o + 2 + q)) = e.2 := by
  apply List.ext_getElem (by simp)
  intro j h1 h2
  have := h.2.2.2 j h2
  rw [Nat.zero_add] at this
  simpa using this

/-- Entries that lie in the window are read one after another (R120). -/
theorem parseEntries_entries {H : Nat → Byte} {L : Nat} (es : List HeaderEntry) (k o : Nat) (T : CodeTable)
    (he : EntriesAt H o es) (hn : (es.map (·.1)).Nodup) (hT : ∀ e ∈ es, (tableGet T e.1).len = 0#8)
    (hL : o + entriesSize es ≤ L) :
    parseEntries H L (es.length + k) o T = parseEntries H L k (o + entriesSize es) (loadEntries es T) := by
  induction es generalizing o T with
  | nil => simp
  | cons e es ih =>
    rw [List.map_cons, List.nodup_cons] at hn
    obtain ⟨h1, h2⟩ := he
    rw [entriesSize_cons, HeaderEntry.size] at hL
    have hr := h1.readback
    obtain ⟨hs, hpos, hlen, -⟩ := h1
    have e1 : (e :: es).length + k = (es.length + k) + 1 := by simp; omega
    rw [e1, parseEntries]
    simp only [hs, hlen, hr]
    rw [if_neg (by omega), if_neg (by omega), if_neg (by simpa using hT e (by simp)), if_neg (by omega)]
    rw [HeaderEntry.size, ← Nat.add_assoc] at h2
    rw [ih _ _ h2 hn.2 (fun f hf => by
        have : f.1 ≠ e.1 := fun h => hn.1 (h ▸ List.mem_map_of_mem hf)
        rw [tableGet_tableSet_other _ _ this]
        exact hT f (by simp [hf])) (by omega)]
    rw [entriesSize_cons, loadEntries_cons, HeaderEntry.size]
    congr 1
    omega

theorem bigEndianVal_two (H : Nat → Byte) (o : Nat) : bigEndianVal H o 2 = (H o).toNat * 256 + (H (o + 1)).toNat := by
  simp [bigEndianVal, List.range_succ]

theorem bigEndianVal_lt (H : Nat → Byte) (o k : Nat) : bigEndianVal H o k < 256 ^ k := by
  unfold bigEndianVal
  induction k with
  | zero => simp
  | succ k ih =>
    have := (H (o + k)).isLt
    rw [List.range_succ, List.foldl_append, Nat.pow_succ]
    simp only [List.foldl_cons, List.foldl_nil]
    omega

/-- A header that begins well is read down to the end of its entries (R120). -/
theorem HeaderBegins.parse {H : Nat → Byte} {L n : Nat} {es : List HeaderEntry} (h : HeaderBegins H L n es) :
    parseHeader H L =
      match parseEntries H L (n - es.length) (3 + entriesSize es) (loadEntries es noCodes) with
      | .error e => .error e
      | .ok (o, T) => parseTail H L n o T := by
  obtain ⟨h1, h2, h3, h4, h5, h6⟩ := h
  have hn : bigEndianVal H 1 2 = n := by rw [bigEndianVal_two]; exact h2
  unfold parseHeader
  rw [if_neg (by omega), if_neg (by rw [h1]; simp [Config.fmtMsbFirst]), if_neg (by omega)]
  simp only [hn]
  rw [if_neg (by omega)]
  have := parseEntries_entries (L := L) es (n - es.length) 3 noCodes h4 h5
    (fun e _ => by rw [tableGet_noCodes]; rfl) h6
  rw [Nat.add_sub_cancel' h3.2.2] at this
  rw [this]
  all_goals rcases parseEntries H L (n - es.length) (3 + entriesSize es) (loadEntries es noCodes) with e | ⟨o, T⟩ <;> rfl

section
variable {H : Nat → Byte} {L n : Nat} {es : List HeaderEntry}

/-- The symbols with a code in the table of a list of entries are those of the entries. -/
theorem mem_coded_loadEntries (he : ∀ e ∈ es, 1 ≤ e.2.length ∧ e.2.length ≤ 255) (hn : (es.map (·.1)).Nodup) (s : Byte) :
    s ∈ coded (loadEntries es noCodes) ↔ s ∈ es.map (·.1) := by
  rw [mem_coded]
  constructor
  · intro h
    by_contra hs
    rw [tableGet_loadEntries_other hs, tableGet_noCodes] at h
    exact h rfl
  · intro h
    obtain ⟨e, hm, rfl⟩ := List.mem_map.1 h
    rw [tableGet_loadEntries hn hm]
    exact store_len_ne_zero (by intro e0; have := (he e hm).1; rw [e0] at this; simp at this) (he e hm).2

theorem codeOf_loadEntries (he : ∀ e ∈ es, 1 ≤ e.2.length ∧ e.2.length ≤ 255) (hn : (es.map (·.1)).Nodup)
    {e : HeaderEntry} (hm : e ∈ es) : codeOf (loadEntries es noCodes) e.1 = e.2 := by
  rw [codeOf, tableGet_loadEntries hn hm, CodeEntry.path_store (he e hm).2]

theorem tableOfEntries_loadEntries (he : ∀ e ∈ es, 1 ≤ e.2.length ∧ e.2.length ≤ 255) (hn : (es.map (·.1)).Nodup) :
    TableOfEntries es (loadEntries es noCodes) := by
  refine ⟨fun s => ?_, fun e hm => codeOf_loadEntries he hn hm, fun s hs => ?_⟩
  · by_cases hs : s ∈ es.map (·.1)
    · obtain ⟨e, hm, rfl⟩ := List.mem_map.1 hs
      rw [tableGet_loadEntries hn hm]
      exact CodeEntry.store_clean (he e hm).2
    · rw [tableGet_loadEntries_other hs, tableGet_noCodes]
      exact CodeEntry.noCode_clean
  · rw [tableGet_loadEntries_other hs, tableGet_noCodes]

/-- There is one table of a list of entries. -/
theorem TableOfEntries.unique {c d : CodeTable} (hc : TableOfEntries es c) (hd : TableOfEntries es d) : c = d := by
  apply table_ext
  intro s
  by_cases hs : s ∈ es.map (·.1)
  · obtain ⟨e, hm, rfl⟩ := List.mem_map.1 hs
    exact CodeEntry.ext_of_path (hc.1 _) (hd.1 _) ((hc.2.1 e hm).trans (hd.2.1 e hm).symm)
  · rw [hc.2.2 s hs, hd.2.2 s hs]

theorem prefixFree_loadEntries (he : ∀ e ∈ es, 1 ≤ e.2.length ∧ e.2.length ≤ 255) (hn : (es.map (·.1)).Nodup) :
    PrefixFree (loadEntries es noCodes) ↔ ∀ a ∈ es, ∀ b ∈ es, a.1 ≠ b.1 → ¬ a.2 <+: b.2 := by
  constructor
  · intro h a ha b hb hab
    have := h a.1 b.1 ((mem_coded_loadEntries he hn _).2 (List.mem_map_of_mem ha))
      ((mem_coded_loadEntries he hn _).2 (List.mem_map_of_mem hb)) hab
    rwa [codeOf_loadEntries he hn ha, codeOf_loadEntries he hn hb] at this
  · intro h x y hx hy hxy
    obtain ⟨a, ha, rfl⟩ := List.mem_map.1 ((mem_coded_loadEntries he hn _).1 hx)
    obtain ⟨b, hb, rfl⟩ := List.mem_map.1 ((mem_coded_loadEntries he hn _).1 hy)
    rw [codeOf_loadEntries he hn ha, codeOf_loadEntries he hn hb]
    exact h a ha b hb hxy

/-- A valid header is accepted with the table of its entries (R118, R121). -/
theorem HeaderHolds.parse {nb : BitVec 64} (h : HeaderHolds H L es nb) :
    parseHeader H L = .ok ⟨loadEntries es noCodes, es.length, nb⟩ := by
  have hb : HeaderBegins H L es.length es :=
    ⟨h.format, h.count, ⟨h.bounds.1, h.bounds.2, Nat.le_refl _⟩, h.entries, h.once, by have := h.size; omega⟩
  have hm : ∀ e ∈ es, 1 ≤ e.2.length ∧ e.2.length ≤ 255 := fun e he => h.entries.mem he
  have hsz := h.size
  rw [hb.parse, Nat.sub_self]
  simp only [parseEntries, parseTail]
  rw [if_neg (by omega), if_neg (by omega), (prefixBreach_none_iff _).2 ((prefixFree_loadEntries hm h.once).2 h.prefixFree),
    h.bitcnt]
  simp

/-- A header with a fault is refused with its sub-code and information word (R153). -/
theorem HeaderFault.parse {sub : Byte} {info : Nat} (h : HeaderFault H L sub info) :
    parseHeader H L = .error (malformed sub info) := by
  have step : ∀ (n : Nat) (es : List HeaderEntry), HeaderBegins H L n es → es.length < n →
      ∃ k, n - es.length = k + 1 := fun n es _ hlt => ⟨n - es.length - 1, by omega⟩
  have fresh : ∀ (n : Nat) (es : List HeaderEntry) (s : Byte), HeaderBegins H L n es →
      ((tableGet (loadEntries es noCodes) s).len ≠ 0#8 ↔ s ∈ es.map (·.1)) := fun n es s hb => by
    rw [← mem_coded_loadEntries (fun e he => hb.entries.mem he) hb.once, mem_coded]
  cases h with
  | noFormat h => unfold parseHeader; rw [if_pos (by omega)]
  | badFormat h1 h2 => unfold parseHeader; rw [if_neg (by omega), if_pos (by exact h2)]
  | countCut h1 h2 h3 =>
    unfold parseHeader
    rw [if_neg (by omega), if_neg (by rw [h3]; simp [Config.fmtMsbFirst]), if_pos (by omega)]
  | badCount n h1 h2 h3 h4 =>
    unfold parseHeader
    rw [if_neg (by omega), if_neg (by rw [h2]; simp [Config.fmtMsbFirst]), if_neg (by omega)]
    simp only [bigEndianVal_two, Nat.reduceAdd]
    rw [if_pos (by omega)]
  | entryCut n es o hb ho hlt h1 =>
    obtain ⟨k, hk⟩ := step n es hb hlt
    subst ho
    rw [hb.parse, hk, parseEntries, if_pos h1]
  | zeroLength n es o hb ho hlt h1 h2 =>
    obtain ⟨k, hk⟩ := step n es hb hlt
    subst ho
    rw [hb.parse, hk, parseEntries, if_neg (by omega)]
    simp only [h2]
    rw [if_pos (by rfl)]
  | dupSymbol n es o hb ho hlt h1 h2 h3 =>
    obtain ⟨k, hk⟩ := step n es hb hlt
    subst ho
    have h0 : (H (3 + entriesSize es + 1)).toNat ≠ 0 := fun e => h2 (BitVec.eq_of_toNat_eq (by simpa using e))
    rw [hb.parse, hk, parseEntries, if_neg (by omega)]
    simp only
    rw [if_neg h0, if_pos ((fresh n es _ hb).2 h3)]
  | bitsCut n es o hb ho hlt h1 h2 h3 h4 =>
    obtain ⟨k, hk⟩ := step n es hb hlt
    subst ho
    have h0 : (H (3 + entriesSize es + 1)).toNat ≠ 0 := fun e => h2 (BitVec.eq_of_toNat_eq (by simpa using e))
    rw [hb.parse, hk, parseEntries, if_neg (by omega)]
    simp only
    rw [if_neg h0, if_neg (fun e => h3 ((fresh n es _ hb).1 e)), if_pos (by omega)]
  | bitcntCut n es o hb ho hlt h1 =>
    subst ho
    rw [hb.parse, hlt, Nat.sub_self]
    simp only [parseEntries, parseTail]
    rw [if_pos h1]
  | trailing n es o hb ho hlt h1 =>
    subst ho
    rw [hb.parse, hlt, Nat.sub_self]
    simp only [parseEntries, parseTail]
    rw [if_neg (by omega), if_pos (by omega)]
  | notPrefixFree n es o a b hb ho hlt h1 ha hb' hab hpre hmin =>
    subst ho
    rw [hb.parse, hlt, Nat.sub_self]
    simp only [parseEntries, parseTail]
    rw [if_neg (by omega), if_neg (by omega)]
    have hm : ∀ e ∈ es, 1 ≤ e.2.length ∧ e.2.length ≤ 255 := fun e he => hb.entries.mem he
    cases hp : prefixBreach (loadEntries es noCodes) with
    | none =>
      exact absurd hpre ((prefixFree_loadEntries hm hb.once).1 ((prefixBreach_none_iff _).1 hp) a ha b hb' hab)
    | some xy =>
      obtain ⟨x, y⟩ := xy
      obtain ⟨⟨hx, hy, hxy, hp1⟩, hp2⟩ := prefixBreach_some hp
      have hma := (mem_coded_loadEntries hm hb.once _).2 (List.mem_map_of_mem ha)
      have hmb := (mem_coded_loadEntries hm hb.once _).2 (List.mem_map_of_mem hb')
      have h2 := hp2 a.1 b.1 hma hmb hab
        (by rw [codeOf_loadEntries hm hb.once ha, codeOf_loadEntries hm hb.once hb']; exact hpre)
      obtain ⟨c, hc, rfl⟩ := List.mem_map.1 ((mem_coded_loadEntries hm hb.once _).1 hx)
      obtain ⟨d, hd, rfl⟩ := List.mem_map.1 ((mem_coded_loadEntries hm hb.once _).1 hy)
      rw [codeOf_loadEntries hm hb.once hc, codeOf_loadEntries hm hb.once hd] at hp1
      have h3 := hmin c hc d hd hxy hp1
      have e1 : c.1 = a.1 := by
        apply BitVec.eq_of_toNat_eq
        rcases h3 with h3 | h3
        · omega
        · exact congrArg _ h3.1.symm
      have e2 : d.1.toNat = b.1.toNat := by
        have := h2.2 e1.symm
        rcases h3 with h3 | h3
        · rw [e1] at h3; omega
        · omega
      simp only [e1, e2]

end

/-- From a header that begins well, the rest of the parse ends in a valid header or in a fault. -/
theorem HeaderBegins.ends {H : Nat → Byte} {L n : Nat} (k : Nat) {es : List HeaderEntry} (hb : HeaderBegins H L n es)
    (hk : n = es.length + k) :
    (∃ es' nb, HeaderHolds H L es' nb) ∨ ∃ sub info, HeaderFault H L sub info := by
  induction k generalizing es with
  | zero =>
    have hlen : es.length = n := by omega
    have hm : ∀ e ∈ es, 1 ≤ e.2.length ∧ e.2.length ≤ 255 := fun e he => hb.entries.mem he
    by_cases h1 : L < 3 + entriesSize es + 8
    · exact .inr ⟨_, _, .bitcntCut n es _ hb rfl hlen h1⟩
    by_cases h2 : 3 + entriesSize es + 8 < L
    · exact .inr ⟨_, _, .trailing n es _ hb rfl hlen h2⟩
    cases hp : prefixBreach (loadEntries es noCodes) with
    | none =>
      refine .inl ⟨es, BitVec.ofNat 64 (bigEndianVal H (3 + entriesSize es) 8), hb.format, by rw [hb.count]; omega,
        ⟨by have := hb.bounds; omega, by have := hb.bounds; omega⟩, hb.entries, hb.once, by omega, ?_,
        (prefixFree_loadEntries hm hb.once).1 ((prefixBreach_none_iff _).1 hp)⟩
      rw [BitVec.toNat_ofNat, Nat.mod_eq_of_lt]
      exact bigEndianVal_lt H _ 8
    | some xy =>
      obtain ⟨x, y⟩ := xy
      obtain ⟨⟨hx, hy, hxy, hp1⟩, hp2⟩ := prefixBreach_some hp
      obtain ⟨a, ha, rfl⟩ := List.mem_map.1 ((mem_coded_loadEntries hm hb.once _).1 hx)
      obtain ⟨b, hb', rfl⟩ := List.mem_map.1 ((mem_coded_loadEntries hm hb.once _).1 hy)
      rw [codeOf_loadEntries hm hb.once ha, codeOf_loadEntries hm hb.once hb'] at hp1
      refine .inr ⟨_, _, .notPrefixFree n es _ a b hb rfl hlen (by omega) ha hb' hxy hp1 fun c hc d hd hcd hpre => ?_⟩
      have := hp2 c.1 d.1 ((mem_coded_loadEntries hm hb.once _).2 (List.mem_map_of_mem hc))
        ((mem_coded_loadEntries hm hb.once _).2 (List.mem_map_of_mem hd)) hcd
        (by rw [codeOf_loadEntries hm hb.once hc, codeOf_loadEntries hm hb.once hd]; exact hpre)
      by_cases e : a.1 = c.1
      · exact .inr ⟨e, this.2 e.symm⟩
      · exact .inl (Nat.lt_of_le_of_ne this.1 fun h => e (BitVec.eq_of_toNat_eq h))
  | succ k ih =>
    have hlt : es.length < n := by omega
    generalize ho : 3 + entriesSize es = o
    by_cases h1 : L < o + 2
    · exact .inr ⟨_, _, .entryCut n es _ hb ho.symm hlt h1⟩
    by_cases h2 : H (o + 1) = 0#8
    · exact .inr ⟨_, _, .zeroLength n es _ hb ho.symm hlt (by omega) h2⟩
    by_cases h3 : H o ∈ es.map (·.1)
    · exact .inr ⟨_, _, .dupSymbol n es _ hb ho.symm hlt (by omega) h2 h3⟩
    by_cases h4 : L < o + 2 + ceil8 (H (o + 1)).toNat
    · exact .inr ⟨_, _, .bitsCut n es _ hb ho.symm hlt (by omega) h2 h3 h4⟩
    have h0 : (H (o + 1)).toNat ≠ 0 := fun e => h2 (BitVec.eq_of_toNat_eq (by simpa using e))
    let e : HeaderEntry := (H o, (List.range (H (o + 1)).toNat).map (packedBit fun q => H (o + 2 + q)))
    have hel : e.2.length = (H (o + 1)).toNat := by simp [e]
    refine ih (es := es ++ [e]) ⟨hb.format, hb.count, ⟨hb.bounds.1, hb.bounds.2.1, by simp; omega⟩, ?_, ?_, ?_⟩
      (by simp; omega)
    · rw [entriesAt_append, ho]
      refine ⟨hb.entries, ⟨rfl, by omega, hel.symm, fun j hj => ?_⟩, trivial⟩
      rw [Nat.zero_add]
      simp [e]
    · rw [List.map_append, List.map_singleton, List.nodup_append]
      refine ⟨hb.once, by simp, ?_⟩
      intro x hx y hy hxy
      rw [List.mem_singleton.1 hy] at hxy
      subst hxy
      exact h3 hx
    · rw [entriesSize_append, entriesSize_cons, entriesSize_nil, HeaderEntry.size, hel]
      omega

/-- Every window holds a valid header or has a first fault (R118, R153). -/
theorem headerHolds_or_fault (H : Nat → Byte) (L : Nat) :
    (∃ es nb, HeaderHolds H L es nb) ∨ ∃ sub info, HeaderFault H L sub info := by
  by_cases h1 : L = 0
  · exact .inr ⟨_, _, .noFormat h1⟩
  by_cases h2 : H 0 = 0x01#8
  · by_cases h3 : L < 3
    · exact .inr ⟨_, _, .countCut (by omega) h3 h2⟩
    by_cases h4 : (H 1).toNat * 256 + (H 2).toNat = 0 ∨ 256 < (H 1).toNat * 256 + (H 2).toNat
    · exact .inr ⟨_, _, .badCount _ (by omega) h2 rfl h4⟩
    · exact HeaderBegins.ends (n := (H 1).toNat * 256 + (H 2).toNat) _ (es := [])
        ⟨h2, rfl, ⟨by omega, by omega, by simp⟩, trivial, by simp, by simp; omega⟩ (by simp; rfl)
  · exact .inr ⟨_, _, .badFormat (by omega) h2⟩

/-- What the parse accepts is a valid header. -/
theorem parseHeader_ok_iff (H : Nat → Byte) (L : Nat) (h : ParsedHeader) :
    parseHeader H L = .ok h ↔
      ∃ es nb, HeaderHolds H L es nb ∧ h = ⟨loadEntries es noCodes, es.length, nb⟩ := by
  constructor
  · intro hp
    rcases headerHolds_or_fault H L with ⟨es, nb, hh⟩ | ⟨sub, info, hf⟩
    · rw [hh.parse] at hp
      exact ⟨es, nb, hh, (Except.ok.inj hp).symm⟩
    · rw [hf.parse] at hp
      exact absurd hp (by simp)
  · rintro ⟨es, nb, hh, rfl⟩
    exact hh.parse

/-- What the parse refuses has a fault. -/
theorem parseHeader_error_iff (H : Nat → Byte) (L : Nat) (e : Report) :
    parseHeader H L = .error e ↔ ∃ sub info, HeaderFault H L sub info ∧ e = malformed sub info := by
  constructor
  · intro hp
    rcases headerHolds_or_fault H L with ⟨es, nb, hh⟩ | ⟨sub, info, hf⟩
    · rw [hh.parse] at hp
      exact absurd hp (by simp)
    · rw [hf.parse] at hp
      exact ⟨sub, info, hf, (Except.error.inj hp).symm⟩
  · rintro ⟨sub, info, hf, rfl⟩
    exact hf.parse

/-! ### The writer's bytes are a valid header (R116, R118) -/

/-- The entries of a code table, in ascending symbol order. -/
def codeEntries (code : CodeTable) (l : List Byte) : List HeaderEntry := l.map fun a => (a, codeOf code a)

theorem codeOf_length (code : CodeTable) (a : Byte) : (codeOf code a).length = (tableGet code a).len.toNat :=
  CodeEntry.path_length _

theorem codeOf_pos {code : CodeTable} {a : Byte} (h : a ∈ coded code) : 1 ≤ (codeOf code a).length := by
  rw [codeOf_length]
  rw [mem_coded] at h
  exact Nat.pos_of_ne_zero fun e => h (BitVec.eq_of_toNat_eq (by simpa using e))

theorem entriesSize_codeEntries (code : CodeTable) (l : List Byte) :
    entriesSize (codeEntries code l) = (l.flatMap (entryBytes code)).length := by
  induction l with
  | nil => rfl
  | cons a l ih =>
    simp only [codeEntries, List.map_cons, entriesSize_cons, List.flatMap_cons, List.length_append,
      entryBytes_length] at ih ⊢
    rw [ih, HeaderEntry.size, codeOf_length]

/-- Entries written one after another lie one after another (R73). -/
theorem entriesAt_entryBytes {H : Nat → Byte} {code : CodeTable} (l : List Byte) (hl : ∀ s ∈ l, s ∈ coded code) (o : Nat)
    (hb : BytesFrom H o (l.flatMap (entryBytes code))) : EntriesAt H o (codeEntries code l) := by
  induction l generalizing o with
  | nil => trivial
  | cons a l ih =>
    rw [List.flatMap_cons] at hb
    obtain ⟨hb1, hb2⟩ := bytesFrom_append.1 hb
    have hsize := entryBytes_length code a
    rw [hsize] at hb2
    obtain ⟨hsym, hb1⟩ := bytesFrom_cons.1 hb1
    obtain ⟨hlen, hbits⟩ := bytesFrom_cons.1 hb1
    rw [Nat.add_assoc] at hbits
    have hread := cbits_readback hbits
    refine ⟨⟨hsym, codeOf_pos (hl a (by simp)), by rw [hlen]; exact (codeOf_length code a).symm, fun j hj => ?_⟩, ?_⟩
    · rw [Nat.zero_add]
      have hj' : j < ((List.range (tableGet code a).len.toNat).map (packedBit fun q => H (o + 2 + q))).length := by
        simpa [codeOf_length] using hj
      have : ((List.range (tableGet code a).len.toNat).map (packedBit fun q => H (o + 2 + q)))[j] = (codeOf code a)[j] := by
        simp only [hread]
        rfl
      rw [← this]
      simp
    · rw [HeaderEntry.size, codeOf_length]
      exact ih (fun s hs => hl s (by simp [hs])) _ hb2

/-- A window that holds the writer's bytes holds a valid header of the coded symbols and the bit count. -/
theorem headerHolds_headerBytes {H : Nat → Byte} {code : CodeTable} {bitcnt : BitVec 64}
    (hf : PrefixFree code) (hne : coded code ≠ []) (hb : BytesFrom H 0 (headerBytes code bitcnt)) :
    HeaderHolds H (headerSize code) (codeEntries code (coded code)) bitcnt := by
  have hle := coded_length_le code
  have hpos : 0 < (coded code).length := List.length_pos_of_ne_nil hne
  have hlen := headerBytes_length code bitcnt
  unfold headerBytes at hb hlen
  obtain ⟨hb, hbits⟩ := bytesFrom_append.1 hb
  obtain ⟨hb, hents⟩ := bytesFrom_append.1 hb
  obtain ⟨hfmt, hnent⟩ := bytesFrom_append.1 hb
  simp only [List.length_append, List.length_singleton, bigEndian_length, Nat.zero_add] at hbits hents hnent hlen
  have hsize := entriesSize_codeEntries code (coded code)
  have hmem : ∀ e ∈ codeEntries code (coded code), e.1 ∈ coded code ∧ e.2 = codeOf code e.1 := by
    intro e he
    obtain ⟨a, ha, rfl⟩ := List.mem_map.1 he
    exact ⟨ha, rfl⟩
  have hsyms : (codeEntries code (coded code)).map (·.1) = coded code := by simp [codeEntries, Function.comp_def]
  refine ⟨?_, ?_, ⟨by simp [codeEntries]; omega, by simpa [codeEntries] using hle⟩,
    entriesAt_entryBytes _ (fun _ h => h) 3 hents, ?_, by omega, ?_, ?_⟩
  · have := hfmt 0 (by simp)
    simpa [Config.fmtMsbFirst] using this
  · rw [← bigEndianVal_two H 1, bigEndianVal_bigEndian H 1 2 (coded code).length (by omega)
      (fun j hj => hnent j (by simpa using hj))]
    simp [codeEntries]
  · rw [hsyms]
    exact nodup_of_ascending (coded_ascending code)
  · rw [hsize]
    exact bigEndianVal_bigEndian H _ 8 _ (by have := bitcnt.isLt; omega) (fun j hj => hbits j (by simpa using hj))
  · intro a ha b hb' hab
    obtain ⟨ha1, ha2⟩ := hmem a ha
    obtain ⟨hb1, hb2⟩ := hmem b hb'
    rw [ha2, hb2]
    exact hf a.1 b.1 ha1 hb1 hab

/-- The bytes of a window, read as a list or one by one. -/
theorem readBytes_eq_iff (s : State) (g : Region) (bs : List Byte) :
    s.readBytes g = bs ↔ g.size = bs.length ∧ BytesFrom (fun k => s.byteAt (g.base + k)) 0 bs := by
  constructor
  · rintro rfl
    exact ⟨by simp [State.readBytes], fun k hk => by simp [State.readBytes]⟩
  · rintro ⟨h1, h2⟩
    apply List.ext_getElem
    · simp [State.readBytes, h1]
    · intro k h3 h4
      have := h2 k h4
      rw [Nat.zero_add] at this
      simpa [State.readBytes] using this

end Sys2Proof.Machine
end

