-- ==== Sys2Proof/Laws/Frames.lean ====
section
/-! SUPPORT. What the pseudocode of each command leaves alone, however it ends (spec/46_control_and_composite.md R140,
spec/20_memory.md R55): one row of the table as one predicate, proved once per command. -/

namespace Sys2Proof.Machine

/-- A command's row of R140, read as what it leaves alone: from `s` its pseudocode came to `u`. -/
structure Kept (i : Instr) (s u : State) : Prop where
  operands : SameOperands s.regs u.regs
  around   : SameSurroundings s u
  life     : u.regs.busy = s.regs.busy ∧ u.regs.done = s.regs.done ∧ u.regs.err = s.regs.err ∧
    u.regs.errCode = s.regs.errCode ∧ u.regs.errSub = s.regs.errSub ∧ u.regs.errInfo = s.regs.errInfo
  memory   : SameMemoryOutside (writeRegions i s.regs) s u
  wf       : s.mem.wf = true → u.mem.wf = true
  nsym     : i ∉ [Instr.clear, .count, .rdhdr, .compress, .decompress] → u.regs.nsym = s.regs.nsym
  tree     : i ∉ [Instr.clear, .build, .compress] → u.regs.nnode = s.regs.nnode ∧ u.regs.root = s.regs.root
  bitcnt   : i ∉ [Instr.encode, .rdhdr, .compress, .decompress] →
    u.regs.bitcntLo = s.regs.bitcntLo ∧ u.regs.bitcntHi = s.regs.bitcntHi
  hdrLen   : i ∉ [Instr.wrhdr, .compress] → u.regs.hdrLen = s.regs.hdrLen
  pkdLen   : i ∉ [Instr.encode, .compress] → u.regs.pkdLen = s.regs.pkdLen
  dstLen   : i ∉ [Instr.decode, .decompress] → u.regs.dstLen = s.regs.dstLen
  freq     : i ∉ [Instr.count, .compress] → u.freq = s.freq
  node     : i ∉ [Instr.build, .compress] → u.node = s.node
  code     : i ∉ [Instr.gencode, .rdhdr, .compress, .decompress] → u.code = s.code

theorem SameOperands.refl (r : Regs) : SameOperands r r := by simp [SameOperands]

theorem SameOperands.trans {r q p : Regs} (h : SameOperands r q) (h' : SameOperands q p) : SameOperands r p := by
  unfold SameOperands at *
  obtain ⟨a1, a2, a3, a4, a5, a6, a7, a8, a9, a10, a11, a12⟩ := h
  obtain ⟨b1, b2, b3, b4, b5, b6, b7, b8, b9, b10, b11, b12⟩ := h'
  exact ⟨b1.trans a1, b2.trans a2, b3.trans a3, b4.trans a4, b5.trans a5, b6.trans a6, b7.trans a7, b8.trans a8,
    b9.trans a9, b10.trans a10, b11.trans a11, b12.trans a12⟩

theorem SameOperands.addr {r q : Regs} (h : SameOperands r q) (w : Window) : q.addr w = r.addr w := by
  obtain ⟨a1, a2, a3, a4, a5, a6, a7, a8, a9, a10, a11, a12⟩ := h
  cases w <;> assumption

theorem SameOperands.cap {r q : Regs} (h : SameOperands r q) (w : Window) : q.cap w = r.cap w := by
  obtain ⟨a1, a2, a3, a4, a5, a6, a7, a8, a9, a10, a11, a12⟩ := h
  cases w <;> first | rfl | assumption

theorem SameOperands.writeRegions {r q : Regs} (h : SameOperands r q) (i : Instr) :
    writeRegions i q = writeRegions i r := by
  unfold Machine.writeRegions
  refine List.map_congr_left fun w _ => ?_
  simp [Regs.writeRegion, h.addr, h.cap]

theorem SameMemoryOutside.mono {gs hs : List Region} {s t : State} (h : SameMemoryOutside gs s t)
    (hsub : ∀ g ∈ gs, g ∈ hs) : SameMemoryOutside hs s t := fun a ha => h a <| by
  rw [← Bool.not_eq_true, anyHolds_iff] at ha ⊢
  rintro ⟨g, hg, hga⟩
  exact ha ⟨g, hsub g hg, hga⟩

theorem Kept.refl (i : Instr) (s : State) : Kept i s s :=
  ⟨.refl _, ⟨rfl, rfl, rfl, rfl⟩, ⟨rfl, rfl, rfl, rfl, rfl, rfl⟩, fun a _ => .refl _ a, id, fun _ => rfl, fun _ => ⟨rfl, rfl⟩,
    fun _ => ⟨rfl, rfl⟩, fun _ => rfl, fun _ => rfl, fun _ => rfl, fun _ => rfl, fun _ => rfl, fun _ => rfl⟩

theorem Kept.trans {i : Instr} {s u v : State} (h : Kept i s u) (h' : Kept i u v) : Kept i s v where
  operands := h.operands.trans h'.operands
  around := by
    obtain ⟨a1, a2, a3, a4⟩ := h.around
    obtain ⟨b1, b2, b3, b4⟩ := h'.around
    exact ⟨b1.trans a1, b2.trans a2, b3.trans a3, b4.trans a4⟩
  life := by
    obtain ⟨a1, a2, a3, a4, a5, a6⟩ := h.life
    obtain ⟨b1, b2, b3, b4, b5, b6⟩ := h'.life
    exact ⟨b1.trans a1, b2.trans a2, b3.trans a3, b4.trans a4, b5.trans a5, b6.trans a6⟩
  memory := fun a ha => (h.memory a ha).trans (h'.memory a (by rwa [h.operands.writeRegions]))
  wf := h'.wf ∘ h.wf
  nsym := fun hi => (h'.nsym hi).trans (h.nsym hi)
  tree := fun hi => ⟨(h'.tree hi).1.trans (h.tree hi).1, (h'.tree hi).2.trans (h.tree hi).2⟩
  bitcnt := fun hi => ⟨(h'.bitcnt hi).1.trans (h.bitcnt hi).1, (h'.bitcnt hi).2.trans (h.bitcnt hi).2⟩
  hdrLen := fun hi => (h'.hdrLen hi).trans (h.hdrLen hi)
  pkdLen := fun hi => (h'.pkdLen hi).trans (h.pkdLen hi)
  dstLen := fun hi => (h'.dstLen hi).trans (h.dstLen hi)
  freq := fun hi => (h'.freq hi).trans (h.freq hi)
  node := fun hi => (h'.node hi).trans (h.node hi)
  code := fun hi => (h'.code hi).trans (h.code hi)

/-- A stage's row is part of its composite command's row. -/
theorem Kept.stage {i j : Instr} {s u : State} (h : Kept i s u)
    (hij : (j = .compress ∧ i ∈ [Instr.count, .build, .gencode, .encode, .wrhdr]) ∨
      (j = .decompress ∧ i ∈ [Instr.rdhdr, .decode])) : Kept j s u where
  operands := h.operands
  around := h.around
  life := h.life
  memory := by
    refine h.memory.mono fun g hg => ?_
    unfold writeRegions at *
    rcases hij with ⟨rfl, hi⟩ | ⟨rfl, hi⟩ <;> simp at hi <;> rcases hi with rfl | rfl | rfl | rfl | rfl <;>
      simp_all [writeWindows]
  wf := h.wf
  nsym := fun hi => h.nsym (by rcases hij with ⟨rfl, _⟩ | ⟨rfl, _⟩ <;> simp at hi)
  tree := fun hi => h.tree (by rcases hij with ⟨rfl, hj⟩ | ⟨rfl, hj⟩ <;> revert hi hj <;> cases i <;> decide)
  bitcnt := fun hi => h.bitcnt (by rcases hij with ⟨rfl, hj⟩ | ⟨rfl, hj⟩ <;> revert hi hj <;> cases i <;> decide)
  hdrLen := fun hi => h.hdrLen (by rcases hij with ⟨rfl, hj⟩ | ⟨rfl, hj⟩ <;> revert hi hj <;> cases i <;> decide)
  pkdLen := fun hi => h.pkdLen (by rcases hij with ⟨rfl, hj⟩ | ⟨rfl, hj⟩ <;> revert hi hj <;> cases i <;> decide)
  dstLen := fun hi => h.dstLen (by rcases hij with ⟨rfl, hj⟩ | ⟨rfl, hj⟩ <;> revert hi hj <;> cases i <;> decide)
  freq := fun hi => h.freq (by rcases hij with ⟨rfl, hj⟩ | ⟨rfl, hj⟩ <;> revert hi hj <;> cases i <;> decide)
  node := fun hi => h.node (by rcases hij with ⟨rfl, hj⟩ | ⟨rfl, hj⟩ <;> revert hi hj <;> cases i <;> decide)
  code := fun hi => h.code (by rcases hij with ⟨rfl, hj⟩ | ⟨rfl, hj⟩ <;> revert hi hj <;> cases i <;> decide)

/-! ### Where a command's bytes go -/

theorem anyHolds_singleton (g : Region) (a : Nat) : anyHolds [g] a = g.holds a := by simp

/-- Consecutive bytes written inside a region leave every byte outside it. -/
theorem sameByte_setBytes_outside {s u : State} {g : Region} {vs : List Byte} (hm : u.mem = s.mem.setBytes g.base vs)
    (hs : u.scrambles = s.scrambles) (hlen : vs.length ≤ g.size) {a : Nat} (ha : g.holds a = false) :
    SameByte s u a := by
  refine (State.sameByte_writeBytes_outside s g.base a vs ?_).trans (.congr (s := s.writeBytes g.base vs) hm hs a)
  rw [← Bool.not_eq_true, Region.holds_iff] at ha
  omega

theorem definedIn_nil (s : State) : DefinedIn [] s := fun _ h => nomatch h

/-- Consecutive bytes written are known, whatever they held. -/
theorem definedIn_setBytes {s u : State} {a n : Nat} {vs : List Byte} (hm : u.mem = s.mem.setBytes a vs)
    (hn : n ≤ vs.length) : DefinedIn [⟨a, n⟩] u := fun b hb => by
  rw [anyHolds_singleton, Region.holds_iff] at hb
  obtain ⟨k, rfl⟩ := Nat.exists_eq_add_of_le hb.1
  have hk : k < vs.length := by have := hb.2; simp only at this; omega
  exact State.anyValueAt_eq_false_of_get? (v := vs[k]) (by rw [hm]; exact Memory.get?_setBytes_inside s.mem a vs k hk)

/-- A known byte stays known when bytes are written. -/
theorem anyValueAt_setBytes {s u : State} {a : Nat} {vs : List Byte} (hm : u.mem = s.mem.setBytes a vs)
    (hs : u.scrambles = s.scrambles) {b : Nat} (hb : s.anyValueAt b = false) : u.anyValueAt b = false := by
  by_cases h : b < a ∨ a + vs.length ≤ b
  · rw [((State.sameByte_writeBytes_outside s a b vs h).trans (.congr (s := s.writeBytes a vs) hm hs b)).2, hb]
  · refine definedIn_setBytes hm le_rfl b ?_
    rw [anyHolds_singleton, Region.holds_iff]
    simp only
    omega

/-- Consecutive bytes written are read back. -/
theorem readBytes_setBytes {s u : State} {a : Nat} {vs : List Byte} (hm : u.mem = s.mem.setBytes a vs)
    (hs : u.scrambles = s.scrambles) : u.readBytes ⟨a, vs.length⟩ = vs := by
  refine Eq.trans (List.map_congr_left fun k _ => ?_) (State.readBytes_writeBytes s a vs)
  exact State.byteAt_congr (s := s.writeBytes a vs) hm hs _

theorem kept_packed {s : State} (hp : InRange s.regs.pkdAddr s.regs.pkdCap)
    (hfit : ceil8 (payload s.code s.srcBytes).length ≤ s.regs.pkdCap.toNat) : Kept .encode s s.packed where
  operands := by simp [SameOperands, State.packed]
  around := ⟨rfl, rfl, rfl, rfl⟩
  life := ⟨rfl, rfl, rfl, rfl, rfl, rfl⟩
  memory := fun a ha => sameByte_setBytes_outside (s := s) (u := s.packed) (g := s.regs.writeRegion .pkd)
    (vs := packBytes (payload s.code s.srcBytes)) rfl rfl ((packBytes_length _).trans_le hfit)
    (by simpa [writeRegions, writeWindows] using ha)
  wf := fun h => Memory.wf_setBytes h _ _ (by unfold InRange at hp; simp only [packBytes_length]; omega)
  nsym := fun _ => rfl
  tree := fun _ => ⟨rfl, rfl⟩
  bitcnt := fun h => by simp at h
  hdrLen := fun _ => rfl
  pkdLen := fun h => by simp at h
  dstLen := fun _ => rfl
  freq := fun _ => rfl
  node := fun _ => rfl
  code := fun _ => rfl

theorem kept_headed {s : State} (hh : InRange s.regs.hdrAddr s.regs.hdrCap)
    (hfit : headerSize s.code ≤ s.regs.hdrCap.toNat) : Kept .wrhdr s s.headed where
  operands := by simp [SameOperands, State.headed]
  around := ⟨rfl, rfl, rfl, rfl⟩
  life := ⟨rfl, rfl, rfl, rfl, rfl, rfl⟩
  memory := fun a ha => sameByte_setBytes_outside (s := s) (u := s.headed) (g := s.regs.writeRegion .hdr)
    (vs := headerBytes s.code s.regs.bitcnt) rfl rfl ((headerBytes_length _ _).trans_le hfit) (by simpa [writeRegions, writeWindows] using ha)
  wf := fun h => Memory.wf_setBytes h _ _ (by unfold InRange at hh; simp only [headerBytes_length]; omega)
  nsym := fun _ => rfl
  tree := fun _ => ⟨rfl, rfl⟩
  bitcnt := fun _ => ⟨rfl, rfl⟩
  hdrLen := fun h => by simp at h
  pkdLen := fun _ => rfl
  dstLen := fun _ => rfl
  freq := fun _ => rfl
  node := fun _ => rfl
  code := fun _ => rfl

theorem kept_unpacked {s : State} (hd : InRange s.regs.dstAddr s.regs.dstCap) (d : Decoder) {out : List Byte}
    (hfit : out.length ≤ s.regs.dstCap.toNat) : Kept .decode s (s.unpacked d out) where
  operands := by simp [SameOperands, State.unpacked]
  around := ⟨rfl, rfl, rfl, rfl⟩
  life := ⟨rfl, rfl, rfl, rfl, rfl, rfl⟩
  memory := fun a ha => sameByte_setBytes_outside (s := s) (u := s.unpacked d out) (g := s.regs.writeRegion .dst)
    (vs := out) rfl rfl hfit
    (by simpa [writeRegions, writeWindows] using ha)
  wf := fun h => Memory.wf_setBytes h _ _ (by unfold InRange at hd; omega)
  nsym := fun _ => rfl
  tree := fun _ => ⟨rfl, rfl⟩
  bitcnt := fun _ => ⟨rfl, rfl⟩
  hdrLen := fun _ => rfl
  pkdLen := fun _ => rfl
  dstLen := fun h => by simp at h
  freq := fun _ => rfl
  node := fun _ => rfl
  code := fun _ => rfl

/-- A change of the valid flags alone is in every row. -/
theorem kept_flags (i : Instr) (s : State) (f t c : Bool) :
    Kept i s { s with regs := { s.regs with freqValid := f, treeValid := t, codeValid := c } } :=
  ⟨by simp [SameOperands], ⟨rfl, rfl, rfl, rfl⟩, ⟨rfl, rfl, rfl, rfl, rfl, rfl⟩, fun a _ => .refl _ a, id, fun _ => rfl,
    fun _ => ⟨rfl, rfl⟩, fun _ => ⟨rfl, rfl⟩, fun _ => rfl, fun _ => rfl, fun _ => rfl, fun _ => rfl, fun _ => rfl,
    fun _ => rfl⟩

theorem kept_clearValid (i : Instr) (s : State) : Kept i s s.clearValid := kept_flags i s false false false

theorem countBody_kept (s : State) : (countBody s).All (Kept .count s) := by
  by_cases h : InRange s.regs.srcAddr s.regs.srcLen
  · rw [countBody_done h]
    exact ⟨by simp [SameOperands, State.counted], ⟨rfl, rfl, rfl, rfl⟩, ⟨rfl, rfl, rfl, rfl, rfl, rfl⟩, fun a _ => .refl _ a,
      id, fun h => by simp at h, fun _ => ⟨rfl, rfl⟩, fun _ => ⟨rfl, rfl⟩, fun _ => rfl, fun _ => rfl, fun _ => rfl,
      fun h => by simp at h, fun _ => rfl, fun _ => rfl⟩
  · rw [countBody_range h]
    exact kept_clearValid _ s

theorem buildBody_kept (s : State) : (buildBody s).All (Kept .build s) := by
  cases hf : s.regs.freqValid with
  | false => rw [buildBody_sequence hf]; exact .refl _ s
  | true =>
    by_cases hn : s.regs.nsym = 0#9
    · rw [buildBody_empty hf hn]
      exact kept_flags _ s _ false false
    · rw [buildBody_done hf hn]
      exact ⟨by simp [SameOperands, State.built], ⟨rfl, rfl, rfl, rfl⟩, ⟨rfl, rfl, rfl, rfl, rfl, rfl⟩, fun a _ => .refl _ a,
        id, fun _ => rfl, fun h => by simp at h, fun _ => ⟨rfl, rfl⟩, fun _ => rfl, fun _ => rfl, fun _ => rfl,
        fun _ => rfl, fun h => by simp at h, fun _ => rfl⟩

theorem gencodeBody_kept (s : State) : (gencodeBody s).All (Kept .gencode s) := by
  cases h : s.regs.treeValid with
  | false => rw [gencodeBody_sequence h]; exact .refl _ s
  | true =>
    rw [gencodeBody_done h]
    exact ⟨by simp [SameOperands, State.generated], ⟨rfl, rfl, rfl, rfl⟩, ⟨rfl, rfl, rfl, rfl, rfl, rfl⟩,
      fun a _ => .congr rfl rfl a, id, fun _ => rfl, fun _ => ⟨rfl, rfl⟩, fun _ => ⟨rfl, rfl⟩, fun _ => rfl, fun _ => rfl,
      fun _ => rfl, fun _ => rfl, fun _ => rfl, fun h => by simp at h⟩

theorem encodeBody_kept (s : State) : (encodeBody s).All (Kept .encode s) := by
  rcases encodeBody_cases s with ⟨_, _, hp, _, hfit, h⟩ | ⟨e, h, _⟩
  · rw [h]; exact kept_packed hp hfit
  · rw [h]; exact .refl _ s

theorem wrhdrBody_kept (s : State) : (wrhdrBody s).All (Kept .wrhdr s) := by
  rcases wrhdrBody_cases s with ⟨_, hh, hfit, h⟩ | ⟨e, h, _⟩
  · rw [h]; exact kept_headed hh hfit
  · rw [h]; exact .refl _ s

theorem kept_loaded (s : State) (h : ParsedHeader) : Kept .rdhdr s (s.loaded h) :=
  ⟨by simp [SameOperands, State.loaded], ⟨rfl, rfl, rfl, rfl⟩, ⟨rfl, rfl, rfl, rfl, rfl, rfl⟩, fun a _ => .refl _ a,
    id, fun h => by simp at h, fun _ => ⟨rfl, rfl⟩, fun h => by simp at h, fun _ => rfl, fun _ => rfl,
    fun _ => rfl, fun _ => rfl, fun _ => rfl, fun h => by simp at h⟩

theorem kept_spoiled (s : State) : Kept .rdhdr s s.clearValid.freeCode :=
  ⟨by simp [SameOperands], ⟨rfl, rfl, rfl, rfl⟩, ⟨rfl, rfl, rfl, rfl, rfl, rfl⟩, fun a _ => .refl _ a,
    id, fun h => by simp at h, fun _ => ⟨rfl, rfl⟩, fun h => by simp at h, fun _ => rfl, fun _ => rfl,
    fun _ => rfl, fun _ => rfl, fun _ => rfl, fun h => by simp at h⟩

theorem rdhdrBody_kept (s : State) : (rdhdrBody s).All (Kept .rdhdr s) := by
  rcases rdhdrBody_cases s with ⟨h, _, _, hb⟩ | ⟨e, hb, _⟩
  · rw [hb]; exact kept_loaded s h
  · rw [hb]; exact kept_spoiled s

theorem decodeBody_kept (s : State) : (decodeBody s).All (Kept .decode s) := by
  rcases decodeBody_cases s with ⟨d, out, _, _, hd, _, _, _, _, hfit, h⟩ | ⟨e, h, _⟩
  · rw [h]; exact kept_unpacked hd d hfit
  · rw [h]; exact .refl _ s

theorem Run.All.mono {P Q : State → Prop} {r : Run} (h : r.All P) (hPQ : ∀ s, P s → Q s) : r.All Q := by
  cases r with
  | done s => exact hPQ s h
  | raised e s => exact hPQ s h

/-- One stage after another inside a composite command. -/
theorem Kept.seq {j : Instr} {s : State} {r : Run} {k : State → Run} (hr : r.All (Kept j s))
    (hk : ∀ u, (k u).All (Kept j u)) : (r.bind k).All (Kept j s) :=
  hr.bind (fun _ h => h) fun u hu => (hk u).mono fun _ h => hu.trans h

theorem compressBody_kept (s : State) : (compressBody s).All (Kept .compress s) := by
  unfold compressBody
  refine Kept.seq (checkRange_all (kept_clearValid _ s)) fun s => ?_
  refine Kept.seq (checkRange_all (.refl _ s)) fun s => ?_
  refine Kept.seq (checkRange_all (.refl _ s)) fun s => ?_
  split
  · exact .refl _ s
  · refine Kept.seq ((countBody_kept s).mono fun u h => h.stage (by simp)) fun s => ?_
    refine Kept.seq ((buildBody_kept s).mono fun u h => h.stage (by simp)) fun s => ?_
    refine Kept.seq ((gencodeBody_kept s).mono fun u h => h.stage (by simp)) fun s => ?_
    refine Kept.seq ((encodeBody_kept s).mono fun u h => h.stage (by simp)) fun s => ?_
    refine Kept.seq ((wrhdrBody_kept s).mono fun u h => h.stage (by simp)) fun s => ?_
    exact kept_clearValid _ s

theorem decompressBody_kept (s : State) : (decompressBody s).All (Kept .decompress s) := by
  unfold decompressBody
  refine Kept.seq (checkRange_all (kept_clearValid _ s)) fun s => ?_
  refine Kept.seq (checkRange_all (.refl _ s)) fun s => ?_
  refine Kept.seq (checkRange_all (.refl _ s)) fun s => ?_
  refine Kept.seq ((rdhdrBody_kept s).mono fun u h => h.stage (by simp)) fun s => ?_
  refine Kept.seq ((decodeBody_kept s).mono fun u h => h.stage (by simp)) fun s => ?_
  exact kept_clearValid _ s

/-- Every command keeps to its row of R140, however its pseudocode ends. -/
theorem bodyOf_kept (i : Instr) (s : State) : (bodyOf i s).All (Kept i s) := by
  cases i with
  | nop => exact .refl _ s
  | clear =>
    exact ⟨by simp [SameOperands], ⟨rfl, rfl, rfl, rfl⟩, ⟨rfl, rfl, rfl, rfl, rfl, rfl⟩, fun a _ => .refl _ a,
      id, fun h => by simp at h, fun h => by simp at h, fun _ => ⟨rfl, rfl⟩, fun _ => rfl, fun _ => rfl,
      fun _ => rfl, fun _ => rfl, fun _ => rfl, fun _ => rfl⟩
  | count => exact countBody_kept s
  | build => exact buildBody_kept s
  | gencode => exact gencodeBody_kept s
  | encode => exact encodeBody_kept s
  | wrhdr => exact wrhdrBody_kept s
  | rdhdr => exact rdhdrBody_kept s
  | decode => exact decodeBody_kept s
  | compress => exact compressBody_kept s
  | decompress => exact decompressBody_kept s

/-- What an answer of a complete step is made of: the state its pseudocode came to, and the completion of it. -/
theorem exec_cases {i : Instr} {s t : State} (h : exec i s = .next t) :
    WindowsOk i s ∧ ∃ u, Kept i s u ∧
      ((bodyOf i s = .done u ∧ t = u.succeed) ∨
        ∃ e, bodyOf i s = .raised e u ∧ t = u.fail (writeWindows i) (isComposite i) e) := by
  have hk := bodyOf_kept i s
  obtain ⟨hw, ⟨u, hu, rfl⟩ | ⟨e, u, hu, rfl⟩⟩ := (exec_next_iff i s t).1 h
  · rw [hu] at hk
    exact ⟨hw, u, hk, .inl ⟨hu, rfl⟩⟩
  · rw [hu] at hk
    exact ⟨hw, u, hk, .inr ⟨e, hu, rfl⟩⟩

end Sys2Proof.Machine
end

