-- ==== Sys2Proof/Laws/Stages.lean ====
section
/-! SUPPORT. The stages on good operands: `COUNT` then `BUILD` then `GENCODE` keep the invariant of spec/10_state.md R43,
and a composite command is its stages one after another with every check of theirs already made
(spec/46_control_and_composite.md R145 to R147). -/

namespace Sys2Proof.Machine

/-! ### The invariant of R43 along the step commands -/

theorem State.srcBytes_lt (s : State) : s.srcBytes.length < 2 ^ 32 := by
  rw [s.srcBytes_length]
  exact s.regs.srcLen.isLt

theorem present_length_ofNat (freq : FreqTable) : (BitVec.ofNat 9 (present freq).length).toNat = (present freq).length := by
  have := present_length_le freq
  simp
  omega

theorem ContextInv.of_invalid {s : State} (hf : s.regs.freqValid = false) (ht : s.regs.treeValid = false)
    (hc : s.regs.codeValid = false) : ContextInv s := by
  constructor <;> simp [hf, ht, hc]

theorem contextInv_clearValid (s : State) : ContextInv s.clearValid := .of_invalid rfl rfl rfl

theorem contextInv_counted (s : State) : ContextInv s.counted where
  freqNsym := fun _ => present_length_ofNat _
  freqTotal := fun _ => (totalCount_countBytes s.srcBytes_lt).trans_lt s.srcBytes_lt
  treeFreq := fun h => by simp [State.counted] at h
  treeShape := fun h => by simp [State.counted] at h
  treeRegs := fun h => by simp [State.counted] at h
  codeNsym := fun h => by simp [State.counted] at h
  codeFree := fun h => by simp [State.counted] at h
  codeClean := fun h => by simp [State.counted] at h
  codeTree := fun h => by simp [State.counted] at h

/-- What `BUILD` leaves on a valid, non-empty frequency table (R90, R96). -/
theorem State.built_spec {s : State} (hi : ContextInv s) (hf : s.regs.freqValid = true) (hn : s.regs.nsym ≠ 0#9) :
    IsTreeOf s.freq s.built.node ∧ s.built.regs.nnode.toNat = 2 * s.regs.nsym.toNat - 1 ∧
      s.built.regs.root.toNat = s.built.regs.nnode.toNat - 1 := by
  have hlen := hi.freqNsym hf
  have hpos : 1 ≤ (present s.freq).length := by
    rw [← hlen]
    exact Nat.one_le_iff_ne_zero.2 fun h => hn (BitVec.eq_of_toNat_eq h)
  have hle := present_length_le s.freq
  obtain ⟨h1, h2, h3⟩ := buildTree_spec s.node hpos (hi.freqTotal hf)
  refine ⟨h3, ?_, ?_⟩
  · simp only [State.built, h1, hlen]
    simp
    omega
  · simp only [State.built, h1, h2]
    simp
    omega

theorem contextInv_built {s : State} (hi : ContextInv s) (hf : s.regs.freqValid = true) (hn : s.regs.nsym ≠ 0#9) :
    ContextInv s.built where
  freqNsym := hi.freqNsym
  freqTotal := hi.freqTotal
  treeFreq := fun _ => hf
  treeShape := fun _ => (State.built_spec hi hf hn).1
  treeRegs := fun _ =>
    ⟨Nat.one_le_iff_ne_zero.2 fun h => hn (BitVec.eq_of_toNat_eq h), (State.built_spec hi hf hn).2⟩
  codeNsym := fun h => by simp [State.built] at h
  codeFree := fun h => by simp [State.built] at h
  codeClean := fun h => by simp [State.built] at h
  codeTree := fun h => by simp [State.built] at h

/-- The root of a valid tree (R43 (b)). -/
theorem ContextInv.root_eq {s : State} (hi : ContextInv s) (ht : s.regs.treeValid = true) :
    s.regs.root.toNat = 2 * (present s.freq).length - 2 ∧ s.regs.nsym.toNat = (present s.freq).length := by
  have h1 := hi.freqNsym (hi.treeFreq ht)
  have h2 := hi.treeRegs ht
  omega

theorem contextInv_generated {s : State} (hi : ContextInv s) (ht : s.regs.treeValid = true) : ContextInv s.generated := by
  have hroot := hi.root_eq ht
  have htree := hi.treeShape ht
  have hcode : s.generated.code = genCode s.node (2 * (present s.freq).length - 2) := by
    simp only [State.generated, hroot.1]
  exact
    { freqNsym := hi.freqNsym
      freqTotal := hi.freqTotal
      treeFreq := hi.treeFreq
      treeShape := hi.treeShape
      treeRegs := hi.treeRegs
      codeNsym := fun _ => by
        rw [hcode, htree.coded_genCode]
        exact ⟨(hi.treeRegs ht).1, hroot.2⟩
      codeFree := fun _ => by rw [hcode]; exact htree.genCode_prefixFree
      codeClean := fun _ => by rw [hcode]; exact htree.genCode_clean
      codeTree := fun _ _ => rfl }

/-! ### The three stages of `COMPRESS` before `ENCODE` -/

/-- The state after `COUNT`, `BUILD` and `GENCODE` of a non-empty input. -/
def State.tabled (s : State) : State := s.clearValid.counted.built.generated

theorem counted_nsym_ne_zero {s : State} (h : s.regs.srcLen ≠ 0#32) : s.counted.regs.nsym ≠ 0#9 := by
  intro hn
  have h0 : s.counted.regs.nsym.toNat = 0 := by rw [hn]; rfl
  have h1 : (present (countBytes s.srcBytes)).length = 0 := (present_length_ofNat _).symm.trans h0
  have h2 : s.srcBytes = [] := by
    refine List.eq_nil_iff_forall_not_mem.2 fun b hb => ?_
    have := (mem_present_countBytes s.srcBytes_lt b).2 hb
    rw [List.length_eq_zero_iff.1 h1] at this
    simp at this
  have h3 := s.srcBytes_length
  rw [h2] at h3
  exact h (BitVec.eq_of_toNat_eq (by simpa using h3.symm))

theorem contextInv_tabled {s : State} (h : s.regs.srcLen ≠ 0#32) : ContextInv s.tabled :=
  contextInv_generated
    (contextInv_built (contextInv_counted _) rfl (counted_nsym_ne_zero (s := s.clearValid) h)) rfl

@[simp] theorem tabled_srcBytes (s : State) : s.tabled.srcBytes = s.srcBytes := rfl

@[simp] theorem tabled_srcAddr (s : State) : s.tabled.regs.srcAddr = s.regs.srcAddr := rfl
@[simp] theorem tabled_srcLen (s : State) : s.tabled.regs.srcLen = s.regs.srcLen := rfl
@[simp] theorem tabled_hdrAddr (s : State) : s.tabled.regs.hdrAddr = s.regs.hdrAddr := rfl
@[simp] theorem tabled_hdrCap (s : State) : s.tabled.regs.hdrCap = s.regs.hdrCap := rfl
@[simp] theorem tabled_pkdAddr (s : State) : s.tabled.regs.pkdAddr = s.regs.pkdAddr := rfl
@[simp] theorem tabled_pkdCap (s : State) : s.tabled.regs.pkdCap = s.regs.pkdCap := rfl
@[simp] theorem tabled_dstAddr (s : State) : s.tabled.regs.dstAddr = s.regs.dstAddr := rfl
@[simp] theorem tabled_dstCap (s : State) : s.tabled.regs.dstCap = s.regs.dstCap := rfl
@[simp] theorem tabled_codeValid (s : State) : s.tabled.regs.codeValid = true := rfl
@[simp] theorem packed_srcAddr (s : State) : s.packed.regs.srcAddr = s.regs.srcAddr := rfl
@[simp] theorem packed_srcLen (s : State) : s.packed.regs.srcLen = s.regs.srcLen := rfl
@[simp] theorem packed_hdrAddr (s : State) : s.packed.regs.hdrAddr = s.regs.hdrAddr := rfl
@[simp] theorem packed_hdrCap (s : State) : s.packed.regs.hdrCap = s.regs.hdrCap := rfl
@[simp] theorem packed_pkdAddr (s : State) : s.packed.regs.pkdAddr = s.regs.pkdAddr := rfl
@[simp] theorem packed_pkdCap (s : State) : s.packed.regs.pkdCap = s.regs.pkdCap := rfl
@[simp] theorem packed_dstAddr (s : State) : s.packed.regs.dstAddr = s.regs.dstAddr := rfl
@[simp] theorem packed_dstCap (s : State) : s.packed.regs.dstCap = s.regs.dstCap := rfl
@[simp] theorem packed_codeValid (s : State) : s.packed.regs.codeValid = s.regs.codeValid := rfl
@[simp] theorem packed_code (s : State) : s.packed.code = s.code := rfl

/-- The table made of an input has a code for exactly its bytes (R104 (a)). -/
theorem coded_tabled {s : State} (h : s.regs.srcLen ≠ 0#32) (b : Byte) : b ∈ coded s.tabled.code ↔ b ∈ s.srcBytes := by
  have hi := contextInv_built (contextInv_counted s.clearValid) rfl (counted_nsym_ne_zero (s := s.clearValid) h)
  have hroot := (hi.root_eq rfl).1
  have hcode : s.tabled.code =
      genCode s.clearValid.counted.built.node (2 * (present s.clearValid.counted.built.freq).length - 2) := by
    simp only [State.tabled, State.generated, hroot]
  rw [hcode, (hi.treeShape rfl).coded_genCode]
  exact mem_present_countBytes s.srcBytes_lt b

/-- With its checks passed, `COMPRESS` is `ENCODE` and `WRHDR` on the tables made of the input (R145). -/
theorem compressBody_eq {s : State} (hs : InRange s.regs.srcAddr s.regs.srcLen) (hh : InRange s.regs.hdrAddr s.regs.hdrCap)
    (hp : InRange s.regs.pkdAddr s.regs.pkdCap) (h0 : s.regs.srcLen ≠ 0#32) :
    compressBody s = (encodeBody s.tabled).bind fun u => (wrhdrBody u).bind discardContext := by
  unfold compressBody
  rw [checkRange_of_inRange (s := s.clearValid) (w := .src) (len := s.regs.srcLen) hs, Run.bind_done,
    checkRange_of_inRange (s := s.clearValid) (w := .hdr) (len := s.clearValid.regs.hdrCap) hh, Run.bind_done,
    checkRange_of_inRange (s := s.clearValid) (w := .pkd) (len := s.clearValid.regs.pkdCap) hp, Run.bind_done,
    if_neg (show s.clearValid.regs.srcLen ≠ 0#32 from h0), countBody_done (s := s.clearValid) hs, Run.bind_done,
    buildBody_done (s := s.clearValid.counted) rfl (counted_nsym_ne_zero (s := s.clearValid) h0), Run.bind_done,
    gencodeBody_done (s := s.clearValid.counted.built) rfl, Run.bind_done]
  rfl

theorem encodeBody_tabled {s : State} (hs : InRange s.regs.srcAddr s.regs.srcLen)
    (hp : InRange s.regs.pkdAddr s.regs.pkdCap) (h0 : s.regs.srcLen ≠ 0#32) :
    (ceil8 (payload s.tabled.code s.srcBytes).length ≤ s.regs.pkdCap.toNat ∧
      encodeBody s.tabled = .done s.tabled.packed) ∨
    (s.regs.pkdCap.toNat < ceil8 (payload s.tabled.code s.srcBytes).length ∧
      encodeBody s.tabled = .raised
        ⟨.overflow, 2#8, BitVec.ofNat 32 (min (ceil8 (payload s.tabled.code s.srcBytes).length) 0xFFFFFFFF)⟩
        s.tabled) := by
  have hcov : ∀ b ∈ s.tabled.srcBytes, b ∈ coded s.tabled.code := fun b hb => (coded_tabled h0 b).2 hb
  rcases Nat.lt_or_ge s.regs.pkdCap.toNat (ceil8 (payload s.tabled.code s.srcBytes).length) with h | h
  · exact .inr ⟨h, encodeBody_overflow (by simp) (by simpa using hs) (by simpa using hp) hcov (by simpa using h)⟩
  · exact .inl ⟨h, encodeBody_done (by simp) (by simpa using hs) (by simpa using hp) hcov (by simpa using h)⟩

/-- The ways `COMPRESS` can end (R145): its checks in order, then `OVERFLOW` of `PKD`, then of `HDR`. -/
inductive CompressEnds (s : State) : Run → Prop where
  | rangeSrc : ¬ InRange s.regs.srcAddr s.regs.srcLen →
      CompressEnds s (.raised ⟨.range, 0#8, s.regs.srcAddr⟩ s.clearValid)
  | rangeHdr : InRange s.regs.srcAddr s.regs.srcLen → ¬ InRange s.regs.hdrAddr s.regs.hdrCap →
      CompressEnds s (.raised ⟨.range, 1#8, s.regs.hdrAddr⟩ s.clearValid)
  | rangePkd : InRange s.regs.srcAddr s.regs.srcLen → InRange s.regs.hdrAddr s.regs.hdrCap →
      ¬ InRange s.regs.pkdAddr s.regs.pkdCap → CompressEnds s (.raised ⟨.range, 2#8, s.regs.pkdAddr⟩ s.clearValid)
  | empty : InRange s.regs.srcAddr s.regs.srcLen → InRange s.regs.hdrAddr s.regs.hdrCap →
      InRange s.regs.pkdAddr s.regs.pkdCap → s.regs.srcLen = 0#32 →
      CompressEnds s (.raised ⟨.emptyInput, 0#8, 0#32⟩ s.clearValid)
  | overflowPkd : InRange s.regs.srcAddr s.regs.srcLen → InRange s.regs.hdrAddr s.regs.hdrCap →
      InRange s.regs.pkdAddr s.regs.pkdCap → s.regs.srcLen ≠ 0#32 →
      s.regs.pkdCap.toNat < ceil8 (payload s.tabled.code s.srcBytes).length →
      CompressEnds s (.raised
        ⟨.overflow, 2#8, BitVec.ofNat 32 (min (ceil8 (payload s.tabled.code s.srcBytes).length) 0xFFFFFFFF)⟩ s.tabled)
  | overflowHdr : InRange s.regs.srcAddr s.regs.srcLen → InRange s.regs.hdrAddr s.regs.hdrCap →
      InRange s.regs.pkdAddr s.regs.pkdCap → s.regs.srcLen ≠ 0#32 →
      ceil8 (payload s.tabled.code s.srcBytes).length ≤ s.regs.pkdCap.toNat →
      s.regs.hdrCap.toNat < headerSize s.tabled.code →
      CompressEnds s (.raised ⟨.overflow, 1#8, BitVec.ofNat 32 (headerSize s.tabled.code)⟩ s.tabled.packed)
  | done : InRange s.regs.srcAddr s.regs.srcLen → InRange s.regs.hdrAddr s.regs.hdrCap →
      InRange s.regs.pkdAddr s.regs.pkdCap → s.regs.srcLen ≠ 0#32 →
      ceil8 (payload s.tabled.code s.srcBytes).length ≤ s.regs.pkdCap.toNat →
      headerSize s.tabled.code ≤ s.regs.hdrCap.toNat →
      CompressEnds s (.done s.tabled.packed.headed.clearValid)

theorem compressBody_ends (s : State) : CompressEnds s (compressBody s) := by
  by_cases hs : InRange s.regs.srcAddr s.regs.srcLen
  · by_cases hh : InRange s.regs.hdrAddr s.regs.hdrCap
    · by_cases hp : InRange s.regs.pkdAddr s.regs.pkdCap
      · by_cases h0 : s.regs.srcLen = 0#32
        · have : compressBody s = .raised ⟨.emptyInput, 0#8, 0#32⟩ s.clearValid := by
            unfold compressBody
            rw [checkRange_of_inRange (s := s.clearValid) (w := .src) (len := s.regs.srcLen) hs, Run.bind_done,
              checkRange_of_inRange (s := s.clearValid) (w := .hdr) (len := s.clearValid.regs.hdrCap) hh, Run.bind_done,
              checkRange_of_inRange (s := s.clearValid) (w := .pkd) (len := s.clearValid.regs.pkdCap) hp, Run.bind_done,
              if_pos (show s.clearValid.regs.srcLen = 0#32 from h0)]
          rw [this]
          exact .empty hs hh hp h0
        · rw [compressBody_eq hs hh hp h0]
          rcases encodeBody_tabled hs hp h0 with ⟨hfit, he⟩ | ⟨hfit, he⟩
          · rw [he, Run.bind_done]
            rcases Nat.lt_or_ge s.regs.hdrCap.toNat (headerSize s.tabled.code) with h | h
            · rw [wrhdrBody_overflow (s := s.tabled.packed) (by simp) (by simpa using hh) (by simpa using h), packed_code]
              exact .overflowHdr hs hh hp h0 hfit h
            · rw [wrhdrBody_done (s := s.tabled.packed) (by simp) (by simpa using hh) (by simpa using h)]
              exact .done hs hh hp h0 hfit h
          · rw [he]
            exact .overflowPkd hs hh hp h0 hfit
      · have : compressBody s = .raised ⟨.range, 2#8, s.regs.pkdAddr⟩ s.clearValid := by
          unfold compressBody
          rw [checkRange_of_inRange (s := s.clearValid) (w := .src) (len := s.regs.srcLen) hs, Run.bind_done,
            checkRange_of_inRange (s := s.clearValid) (w := .hdr) (len := s.clearValid.regs.hdrCap) hh, Run.bind_done,
            checkRange_of_not_inRange (s := s.clearValid) (w := .pkd) (len := s.clearValid.regs.pkdCap) hp]
          rfl
        rw [this]
        exact .rangePkd hs hh hp
    · have : compressBody s = .raised ⟨.range, 1#8, s.regs.hdrAddr⟩ s.clearValid := by
        unfold compressBody
        rw [checkRange_of_inRange (s := s.clearValid) (w := .src) (len := s.regs.srcLen) hs, Run.bind_done,
          checkRange_of_not_inRange (s := s.clearValid) (w := .hdr) (len := s.clearValid.regs.hdrCap) hh]
        rfl
      rw [this]
      exact .rangeHdr hs hh
  · have : compressBody s = .raised ⟨.range, 0#8, s.regs.srcAddr⟩ s.clearValid := by
      unfold compressBody
      rw [checkRange_of_not_inRange (s := s.clearValid) (w := .src) (len := s.regs.srcLen) hs]
      rfl
    rw [this]
    exact .rangeSrc hs

/-! ### The stages of `DECOMPRESS` -/

/-- With its windows in range, `DECOMPRESS` is `RDHDR` and then `DECODE` (R147). -/
theorem decompressBody_eq {s : State} (hh : InRange s.regs.hdrAddr s.regs.hdrLen)
    (hp : InRange s.regs.pkdAddr s.regs.pkdLen) (hd : InRange s.regs.dstAddr s.regs.dstCap) :
    decompressBody s = (rdhdrBody s.clearValid).bind fun u => (decodeBody u).bind discardContext := by
  unfold decompressBody
  rw [checkRange_of_inRange (s := s.clearValid) (w := .hdr) (len := s.regs.hdrLen) hh, Run.bind_done,
    checkRange_of_inRange (s := s.clearValid) (w := .pkd) (len := s.clearValid.regs.pkdLen) hp, Run.bind_done,
    checkRange_of_inRange (s := s.clearValid) (w := .dst) (len := s.clearValid.regs.dstCap) hd, Run.bind_done]

theorem rdhdrBody_clearValid (s : State) : rdhdrBody s.clearValid = rdhdrBody s := rfl

theorem decompressBody_range {s : State} (h : ¬ (InRange s.regs.hdrAddr s.regs.hdrLen ∧
    InRange s.regs.pkdAddr s.regs.pkdLen ∧ InRange s.regs.dstAddr s.regs.dstCap)) :
    ∃ e : Report, e.kind = .range ∧ decompressBody s = .raised e s.clearValid := by
  unfold decompressBody
  by_cases hh : InRange s.regs.hdrAddr s.regs.hdrLen
  · rw [checkRange_of_inRange (s := s.clearValid) (w := .hdr) (len := s.regs.hdrLen) hh, Run.bind_done]
    by_cases hp : InRange s.regs.pkdAddr s.regs.pkdLen
    · rw [checkRange_of_inRange (s := s.clearValid) (w := .pkd) (len := s.clearValid.regs.pkdLen) hp, Run.bind_done]
      have hd : ¬ InRange s.regs.dstAddr s.regs.dstCap := fun hd => h ⟨hh, hp, hd⟩
      rw [checkRange_of_not_inRange (s := s.clearValid) (w := .dst) (len := s.clearValid.regs.dstCap) hd]
      exact ⟨_, rfl, rfl⟩
    · rw [checkRange_of_not_inRange (s := s.clearValid) (w := .pkd) (len := s.clearValid.regs.pkdLen) hp]
      exact ⟨_, rfl, rfl⟩
  · rw [checkRange_of_not_inRange (s := s.clearValid) (w := .hdr) (len := s.regs.hdrLen) hh]
    exact ⟨_, rfl, rfl⟩

/-! ### Errors come before the command's first write -/

/-- Pseudocode that raises `RANGE`, `SEQUENCE` or `ILLEGAL_CMD` has written no byte (R57). -/
theorem bodyOf_raised_memory {i : Instr} {s u : State} {e : Report} (h : bodyOf i s = .raised e u)
    (he : e.kind.writesNothing = true) : u.mem = s.mem ∧ u.scrambles = s.scrambles := by
  cases i with
  | nop => simp [bodyOf, nopBody] at h
  | clear => simp [bodyOf, clearBody] at h
  | count =>
    by_cases hr : InRange s.regs.srcAddr s.regs.srcLen
    · simp [bodyOf, countBody_done hr] at h
    · simp only [bodyOf, countBody_range hr, Run.raised.injEq] at h
      rw [← h.2]; exact ⟨rfl, rfl⟩
  | build =>
    cases hf : s.regs.freqValid with
    | false =>
      simp only [bodyOf, buildBody_sequence hf, Run.raised.injEq] at h
      rw [← h.2]; exact ⟨rfl, rfl⟩
    | true =>
      by_cases hn : s.regs.nsym = 0#9
      · simp only [bodyOf, buildBody_empty hf hn, Run.raised.injEq] at h
        rw [← h.2]; exact ⟨rfl, rfl⟩
      · simp [bodyOf, buildBody_done hf hn] at h
  | gencode =>
    cases ht : s.regs.treeValid with
    | false =>
      simp only [bodyOf, gencodeBody_sequence ht, Run.raised.injEq] at h
      rw [← h.2]; exact ⟨rfl, rfl⟩
    | true => simp [bodyOf, gencodeBody_done ht] at h
  | encode =>
    rcases encodeBody_cases s with ⟨_, _, _, _, _, hb⟩ | ⟨e', hb, _⟩
    · simp [bodyOf, hb] at h
    · simp only [bodyOf, hb, Run.raised.injEq] at h
      rw [← h.2]; exact ⟨rfl, rfl⟩
  | wrhdr =>
    rcases wrhdrBody_cases s with ⟨_, _, _, hb⟩ | ⟨e', hb, _⟩
    · simp [bodyOf, hb] at h
    · simp only [bodyOf, hb, Run.raised.injEq] at h
      rw [← h.2]; exact ⟨rfl, rfl⟩
  | rdhdr =>
    rcases rdhdrBody_cases s with ⟨_, _, _, hb⟩ | ⟨e', hb, _⟩
    · simp [bodyOf, hb] at h
    · simp only [bodyOf, hb, Run.raised.injEq] at h
      rw [← h.2]; exact ⟨rfl, rfl⟩
  | decode =>
    rcases decodeBody_cases s with ⟨_, _, _, _, _, _, _, _, _, _, hb⟩ | ⟨e', hb, _⟩
    · simp [bodyOf, hb] at h
    · simp only [bodyOf, hb, Run.raised.injEq] at h
      rw [← h.2]; exact ⟨rfl, rfl⟩
  | compress =>
    have hends := compressBody_ends s
    rw [show compressBody s = .raised e u from h] at hends
    cases hends with
    | overflowHdr => simp [ErrKind.writesNothing] at he
    | rangeSrc => exact ⟨rfl, rfl⟩
    | rangeHdr => exact ⟨rfl, rfl⟩
    | rangePkd => exact ⟨rfl, rfl⟩
    | empty => exact ⟨rfl, rfl⟩
    | overflowPkd => exact ⟨rfl, rfl⟩
  | decompress =>
    by_cases hr : InRange s.regs.hdrAddr s.regs.hdrLen ∧ InRange s.regs.pkdAddr s.regs.pkdLen ∧
        InRange s.regs.dstAddr s.regs.dstCap
    · simp only [bodyOf, decompressBody_eq hr.1 hr.2.1 hr.2.2, rdhdrBody_clearValid] at h
      rcases rdhdrBody_cases s with ⟨hd, _, _, hb⟩ | ⟨e', hb, _⟩
      · rw [hb, Run.bind_done] at h
        rcases decodeBody_cases (s.loaded hd) with ⟨_, _, _, _, _, _, _, _, _, _, hb'⟩ | ⟨e'', hb', _⟩
        · simp [hb', discardContext] at h
        · simp only [hb', Run.bind_raised, Run.raised.injEq] at h
          rw [← h.2]; exact ⟨rfl, rfl⟩
      · simp only [hb, Run.bind_raised, Run.raised.injEq] at h
        rw [← h.2]; exact ⟨rfl, rfl⟩
    · obtain ⟨e', _, hb⟩ := decompressBody_range hr
      simp only [bodyOf, hb, Run.raised.injEq] at h
      rw [← h.2]; exact ⟨rfl, rfl⟩

/-! ### Where the bytes of a successful command are (R56) -/

theorem tabled_sameByte (s : State) (a : Nat) : SameByte s s.tabled a := .congr rfl rfl a

theorem sameByte_packed_outside (s : State) {g : Region} (hb : g.base = s.regs.pkdAddr.toNat)
    (hl : ceil8 (payload s.code s.srcBytes).length ≤ g.size) {a : Nat} (ha : g.holds a = false) :
    SameByte s s.packed a :=
  sameByte_setBytes_outside (s := s) (u := s.packed) (g := g) (vs := packBytes (payload s.code s.srcBytes))
    (by rw [hb]; rfl) rfl ((packBytes_length _).trans_le hl) ha

theorem sameByte_headed_outside (s : State) {g : Region} (hb : g.base = s.regs.hdrAddr.toNat)
    (hl : headerSize s.code ≤ g.size) {a : Nat} (ha : g.holds a = false) : SameByte s s.headed a :=
  sameByte_setBytes_outside (s := s) (u := s.headed) (g := g) (vs := headerBytes s.code s.regs.bitcnt)
    (by rw [hb]; rfl) rfl ((headerBytes_length _ _).trans_le hl) ha

theorem sameByte_unpacked_outside (s : State) (d : Decoder) (out : List Byte) {g : Region}
    (hb : g.base = s.regs.dstAddr.toNat) (hl : out.length ≤ g.size) {a : Nat} (ha : g.holds a = false) :
    SameByte s (s.unpacked d out) a :=
  sameByte_setBytes_outside (s := s) (u := s.unpacked d out) (g := g) (vs := out) (by rw [hb]; rfl) rfl hl ha

theorem readBytes_packed (s : State) :
    s.packed.readBytes ⟨s.regs.pkdAddr.toNat, ceil8 (payload s.code s.srcBytes).length⟩ =
      packBytes (payload s.code s.srcBytes) := by
  have h := readBytes_setBytes (s := s) (u := s.packed) (a := s.regs.pkdAddr.toNat)
    (vs := packBytes (payload s.code s.srcBytes)) rfl rfl
  rwa [packBytes_length] at h

theorem readBytes_headed (s : State) :
    s.headed.readBytes ⟨s.regs.hdrAddr.toNat, headerSize s.code⟩ = headerBytes s.code s.regs.bitcnt := by
  have h := readBytes_setBytes (s := s) (u := s.headed) (a := s.regs.hdrAddr.toNat)
    (vs := headerBytes s.code s.regs.bitcnt) rfl rfl
  rwa [headerBytes_length] at h

theorem readBytes_unpacked (s : State) (d : Decoder) (out : List Byte) :
    (s.unpacked d out).readBytes ⟨s.regs.dstAddr.toNat, out.length⟩ = out :=
  readBytes_setBytes (s := s) (u := s.unpacked d out) (vs := out) rfl rfl

theorem packed_pkdLen_toNat {s : State} (h : ceil8 (payload s.code s.srcBytes).length ≤ s.regs.pkdCap.toNat) :
    s.packed.regs.pkdLen.toNat = ceil8 (payload s.code s.srcBytes).length := by
  have := s.regs.pkdCap.isLt
  simp only [State.packed, BitVec.toNat_ofNat]
  omega

theorem headed_hdrLen_toNat {s : State} (h : headerSize s.code ≤ s.regs.hdrCap.toNat) :
    s.headed.regs.hdrLen.toNat = headerSize s.code := by
  have := s.regs.hdrCap.isLt
  simp only [State.headed, BitVec.toNat_ofNat]
  omega

theorem headed_pkdLen (s : State) : s.headed.regs.pkdLen = s.regs.pkdLen := rfl

/-- The bytes of the three results are known. -/
theorem definedIn_packed {s : State} {n : Nat} (h : n ≤ ceil8 (payload s.code s.srcBytes).length) :
    DefinedIn [⟨s.regs.pkdAddr.toNat, n⟩] s.packed :=
  definedIn_setBytes (s := s) (vs := packBytes (payload s.code s.srcBytes)) rfl (h.trans_eq (packBytes_length _).symm)

theorem definedIn_headed {s : State} {n : Nat} (h : n ≤ headerSize s.code) :
    DefinedIn [⟨s.regs.hdrAddr.toNat, n⟩] s.headed :=
  definedIn_setBytes (s := s) (vs := headerBytes s.code s.regs.bitcnt) rfl (h.trans_eq (headerBytes_length _ _).symm)

theorem anyValueAt_headed {s : State} {a : Nat} (h : s.anyValueAt a = false) : s.headed.anyValueAt a = false :=
  anyValueAt_setBytes (s := s) (u := s.headed) (a := s.regs.hdrAddr.toNat) (vs := headerBytes s.code s.regs.bitcnt) rfl rfl
    h

theorem definedIn_unpacked {s : State} {d : Decoder} {out : List Byte} {n : Nat} (h : n ≤ out.length) :
    DefinedIn [⟨s.regs.dstAddr.toNat, n⟩] (s.unpacked d out) :=
  definedIn_setBytes (s := s) (vs := out) rfl h

/-- A header written beside a packed stream: the bytes of both are known. -/
theorem definedIn_both {s : State} (hp : DefinedIn [⟨s.regs.pkdAddr.toNat, s.regs.pkdLen.toNat⟩] s)
    (hh : s.headed.regs.hdrLen.toNat ≤ headerSize s.code) :
    DefinedIn (resultRegions .compress s.headed.clearValid.regs) s.headed.clearValid := fun a ha => by
  rw [resultRegions, writeWindows, List.map_cons, List.map_cons, List.map_nil, anyHolds_cons, Bool.or_eq_true] at ha
  refine (State.sameByte_clearValid s.headed a).2.trans ?_
  rcases ha with ha | ha
  · exact definedIn_headed hh a ((anyHolds_singleton _ a).trans ha)
  · exact anyValueAt_headed (hp a ha)

/-- The ways `DECOMPRESS` can end without error: its two stages' ends, one after the other (R147). -/
theorem decompressBody_done {s u : State} (h : decompressBody s = .done u) :
    ∃ hd d out, InRange s.regs.hdrAddr s.regs.hdrLen ∧ InRange s.regs.pkdAddr s.regs.pkdLen ∧
      InRange s.regs.dstAddr s.regs.dstCap ∧ rdhdrBody s = .done (s.loaded hd) ∧
      decodeBody (s.loaded hd) = .done ((s.loaded hd).unpacked d out) ∧ d.out.toNat = out.length ∧
      out.length ≤ s.regs.dstCap.toNat ∧ u = ((s.loaded hd).unpacked d out).clearValid := by
  by_cases hr : InRange s.regs.hdrAddr s.regs.hdrLen ∧ InRange s.regs.pkdAddr s.regs.pkdLen ∧
      InRange s.regs.dstAddr s.regs.dstCap
  · rw [decompressBody_eq hr.1 hr.2.1 hr.2.2, rdhdrBody_clearValid] at h
    rcases rdhdrBody_cases s with ⟨hd, _, _, hb⟩ | ⟨e', hb, _⟩
    · rw [hb, Run.bind_done] at h
      rcases decodeBody_cases (s.loaded hd) with ⟨d, out, _, _, _, _, _, _, h1, h2, hb'⟩ | ⟨e'', hb', _⟩
      · rw [hb', Run.bind_done] at h
        simp only [discardContext, Run.done.injEq] at h
        exact ⟨hd, d, out, hr.1, hr.2.1, hr.2.2, hb, hb', h1, h2, h.symm⟩
      · simp [hb'] at h
    · simp [hb] at h
  · obtain ⟨e', _, hb⟩ := decompressBody_range hr
    simp [hb] at h

/-- `ENCODE` and then `WRHDR`, both fitting their windows, change only the bytes of the two results, which are then
known. -/
theorem two_stage_memory {c : State} (hfit : ceil8 (payload c.code c.srcBytes).length ≤ c.regs.pkdCap.toNat)
    (hfit2 : headerSize c.code ≤ c.regs.hdrCap.toNat) :
    SameMemoryOutside (resultRegions .compress c.packed.headed.clearValid.regs) c c.packed.headed.clearValid ∧
      DefinedIn (resultRegions .compress c.packed.headed.clearValid.regs) c.packed.headed.clearValid ∧
      ∀ w ∈ writeWindows .compress, (c.packed.headed.clearValid.regs.readLen w).toNat ≤ (c.regs.cap w).toNat := by
  have hl := packed_pkdLen_toNat hfit
  have hl2 := headed_hdrLen_toNat (s := c.packed) hfit2
  refine ⟨fun a ha => ?_, definedIn_both (definedIn_packed hl.le) hl2.le, ?_⟩
  · simp only [resultRegions, writeWindows, List.map_cons, List.map_nil, anyHolds_cons, anyHolds_nil, Bool.or_false,
      Bool.or_eq_false_iff] at ha
    have e1 : SameByte c.packed c.packed.headed a :=
      sameByte_headed_outside c.packed
        (g := ⟨c.packed.regs.hdrAddr.toNat, c.packed.headed.regs.hdrLen.toNat⟩) rfl hl2.ge ha.1
    have e2 : SameByte c c.packed a :=
      sameByte_packed_outside c (g := ⟨c.regs.pkdAddr.toNat, c.packed.regs.pkdLen.toNat⟩) rfl hl.ge ha.2
    exact e2.trans (e1.trans (State.sameByte_clearValid _ a))
  · simp only [writeWindows, List.mem_cons, List.not_mem_nil, or_false, forall_eq_or_imp, forall_eq]
    exact ⟨hl2.trans_le hfit2, hl.trans_le hfit⟩

/-- A command that runs to its end has changed no byte but the bytes of its results (R56), which are then known and fit
their windows. -/
theorem bodyOf_done_memory {i : Instr} {s u : State} (h : bodyOf i s = .done u) :
    SameMemoryOutside (resultRegions i u.regs) s u ∧ DefinedIn (resultRegions i u.regs) u ∧
      ∀ w ∈ writeWindows i, (u.regs.readLen w).toNat ≤ (s.regs.cap w).toNat := by
  cases i with
  | nop =>
    simp only [bodyOf, nopBody, Run.done.injEq] at h
    rw [h]
    exact ⟨fun a _ => .congr rfl rfl a, definedIn_nil _, by simp [writeWindows]⟩
  | clear =>
    simp only [bodyOf, clearBody, Run.done.injEq] at h
    rw [← h]
    exact ⟨fun a _ => .congr rfl rfl a, definedIn_nil _, by simp [writeWindows]⟩
  | count =>
    rw [((countBody_done_iff s u).1 h).2]
    exact ⟨fun a _ => .congr rfl rfl a, definedIn_nil _, by simp [writeWindows]⟩
  | build =>
    rw [((buildBody_done_iff s u).1 h).2.2]
    exact ⟨fun a _ => .congr rfl rfl a, definedIn_nil _, by simp [writeWindows]⟩
  | gencode =>
    rw [((gencodeBody_done_iff s u).1 h).2]
    exact ⟨fun a _ => .congr rfl rfl a, definedIn_nil _, by simp [writeWindows]⟩
  | encode =>
    rcases encodeBody_cases s with ⟨_, _, _, _, hfit, hb⟩ | ⟨e, hb, _⟩
    · simp only [bodyOf, hb, Run.done.injEq] at h
      rw [← h]
      have hl := packed_pkdLen_toNat hfit
      refine ⟨fun a ha => ?_, definedIn_packed hl.le, ?_⟩
      · refine sameByte_packed_outside s (g := ⟨s.regs.pkdAddr.toNat, s.packed.regs.pkdLen.toNat⟩) rfl hl.ge ?_
        rwa [resultRegions, writeWindows, List.map_cons, List.map_nil, anyHolds_singleton] at ha
      · simpa [writeWindows, Regs.readLen, Regs.cap, hl] using hfit
    · simp [bodyOf, hb] at h
  | wrhdr =>
    rcases wrhdrBody_cases s with ⟨_, _, hfit, hb⟩ | ⟨e, hb, _⟩
    · simp only [bodyOf, hb, Run.done.injEq] at h
      rw [← h]
      have hl := headed_hdrLen_toNat hfit
      refine ⟨fun a ha => ?_, definedIn_headed hl.le, ?_⟩
      · refine sameByte_headed_outside s (g := ⟨s.regs.hdrAddr.toNat, s.headed.regs.hdrLen.toNat⟩) rfl hl.ge ?_
        rwa [resultRegions, writeWindows, List.map_cons, List.map_nil, anyHolds_singleton] at ha
      · simpa [writeWindows, Regs.readLen, Regs.cap, hl] using hfit
    · simp [bodyOf, hb] at h
  | rdhdr =>
    rcases rdhdrBody_cases s with ⟨_, _, _, hb⟩ | ⟨e, hb, _⟩
    · simp only [bodyOf, hb, Run.done.injEq] at h
      rw [← h]
      exact ⟨fun a _ => .congr rfl rfl a, definedIn_nil _, by simp [writeWindows]⟩
    · simp [bodyOf, hb] at h
  | decode =>
    rcases decodeBody_cases s with ⟨d, out, _, _, _, _, _, _, h1, hfit, hb⟩ | ⟨e, hb, _⟩
    · simp only [bodyOf, hb, Run.done.injEq] at h
      rw [← h]
      refine ⟨fun a ha => ?_, definedIn_unpacked (s := s) (d := d) h1.le, ?_⟩
      · refine sameByte_unpacked_outside s d out (g := ⟨s.regs.dstAddr.toNat, d.out.toNat⟩) rfl h1.ge ?_
        rwa [resultRegions, writeWindows, List.map_cons, List.map_nil, anyHolds_singleton] at ha
      · simpa [writeWindows, Regs.readLen, Regs.cap, State.unpacked, h1] using hfit
    · simp [bodyOf, hb] at h
  | compress =>
    have hends := compressBody_ends s
    rw [show compressBody s = .done u from h] at hends
    cases hends with
    | done hs hh hp h0 hfit hfit2 =>
      have h2 := two_stage_memory (c := s.tabled) hfit hfit2
      exact ⟨fun a ha => (tabled_sameByte s a).trans (h2.1 a ha), h2.2⟩
  | decompress =>
    obtain ⟨hd, d, out, _, _, _, _, _, h1, h2, rfl⟩ := decompressBody_done h
    refine ⟨fun a ha => ?_, definedIn_unpacked (s := s.loaded hd) (d := d) h1.le, ?_⟩
    · refine sameByte_unpacked_outside (s.loaded hd) d out (g := ⟨s.regs.dstAddr.toNat, d.out.toNat⟩) rfl h1.ge ?_
      rwa [resultRegions, writeWindows, List.map_cons, List.map_nil, anyHolds_singleton] at ha
    · simpa [writeWindows, Regs.readLen, Regs.cap, State.unpacked, h1] using h2

end Sys2Proof.Machine
end

