-- ==== Sys2Proof/Laws/Walks.lean ====
section
/-! SUPPORT. `DECODE`'s walk over a whole payload (spec/45_bit_decoder.md R129 to R136): what it answers on the codes of a byte
sequence, on a stream with a fault, and that it looks at the payload bits alone. -/

namespace Sys2Proof.Machine

theorem payload_snoc (code : CodeTable) (bs : List Byte) (x : Byte) :
    payload code (bs ++ [x]) = payload code bs ++ codeOf code x := by simp [payload, codeOf]

/-- The decoder right after the codes of a byte sequence. -/
def Decoder.after (code : CodeTable) (bs : List Byte) : Decoder :=
  ⟨[], BitVec.ofNat 64 (payload code bs).length, BitVec.ofNat 32 bs.length⟩

@[simp] theorem Decoder.after_path (code : CodeTable) (bs : List Byte) : (Decoder.after code bs).path = [] := rfl

@[simp] theorem Decoder.after_rp (code : CodeTable) (bs : List Byte) :
    (Decoder.after code bs).rp.toNat = (payload code bs).length % 2 ^ 64 := BitVec.toNat_ofNat _ _

@[simp] theorem Decoder.after_out (code : CodeTable) (bs : List Byte) :
    (Decoder.after code bs).out = BitVec.ofNat 32 bs.length := rfl

/-- The walk over the codes of a byte sequence that fits, with `n` bits left after them. -/
theorem State.walked_prefix {s : State} (hf : PrefixFree s.code) (bs : List Byte) (n : Nat)
    (hbs : ∀ b ∈ bs, b ∈ coded s.code) (hb : BitsFrom s.packedStreamBit 0 (payload s.code bs))
    (hn : (payload s.code bs).length + n = s.regs.bitcnt.toNat) (hc : bs.length ≤ s.regs.dstCap.toNat) :
    s.walked = emitted bs (decodeLoop (codeBook s.code) s.packedStreamBit s.regs.dstCap n
      (.after s.code bs)) := by
  have := s.regs.bitcnt.isLt
  have h := decodeLoop_payload hf s.packedStreamBit s.regs.dstCap bs hbs n 0#64 0#32 hb (by simp; omega)
    (by simpa using hc)
  rw [State.walked, ← hn, Decoder.start, h]
  simp [Decoder.after]

/-- The walk over a payload ends at the root with its bytes emitted (R131). -/
theorem State.walked_payload {s : State} {bs : List Byte} (hf : PrefixFree s.code) (hbs : ∀ b ∈ bs, b ∈ coded s.code)
    (hb : BitsFrom s.packedStreamBit 0 (payload s.code bs)) (hn : s.regs.bitcnt.toNat = (payload s.code bs).length)
    (hc : bs.length ≤ s.regs.dstCap.toNat) :
    s.walked = .ok (⟨[], s.regs.bitcnt, BitVec.ofNat 32 bs.length⟩, bs) := by
  rw [State.walked_prefix hf bs 0 hbs hb (by omega) hc]
  simp only [decodeLoop, emitted_ok, List.append_nil, Decoder.after, ← hn]
  simp

/-- `DECODE`'s pseudocode runs to its end on a payload that fits. -/
theorem decodeBody_payload {s : State} {bs : List Byte} (hf : PrefixFree s.code) (hc : s.regs.codeValid = true)
    (hp : InRange s.regs.pkdAddr s.regs.pkdLen) (hd : InRange s.regs.dstAddr s.regs.dstCap)
    (hbs : ∀ b ∈ bs, b ∈ coded s.code) (hb : BitsFrom s.packedStreamBit 0 (payload s.code bs))
    (hn : s.regs.bitcnt.toNat = (payload s.code bs).length) (hle : s.regs.bitcnt.toNat ≤ 8 * s.regs.pkdLen.toNat)
    (hcap : bs.length ≤ s.regs.dstCap.toNat) :
    decodeBody s = .done (s.unpacked ⟨[], s.regs.bitcnt, BitVec.ofNat 32 bs.length⟩ bs) := by
  rw [decodeBody_eq hc hp hd, if_neg (by omega), State.walked_payload hf hbs hb hn hcap]
  simp

/-- A stream with a fault ends the walk with it (R132, R133, R135). -/
theorem decodeBody_fault {s : State} {e : Report} (hf : PrefixFree s.code) (hc : s.regs.codeValid = true)
    (hp : InRange s.regs.pkdAddr s.regs.pkdLen) (hd : InRange s.regs.dstAddr s.regs.dstCap)
    (hle : s.regs.bitcnt.toNat ≤ 8 * s.regs.pkdLen.toNat)
    (h : DecodeFault s.code s.packedStreamBit s.regs.bitcnt.toNat s.regs.dstCap e) : decodeBody s = .raised e s := by
  have hlt := s.regs.bitcnt.isLt
  rw [decodeBody_eq hc hp hd, if_neg (by omega)]
  have start : ∀ {bs : List Byte} {v : BitString}, (payload s.code bs ++ v).length ≤ s.regs.bitcnt.toNat →
      BitsFrom s.packedStreamBit (0 + (payload s.code bs).length) v →
      BitsFrom s.packedStreamBit (BitVec.ofNat 64 (payload s.code bs).length).toNat v := by
    intro bs v h1 h2
    rw [List.length_append] at h1
    rw [BitVec.toNat_ofNat, Nat.mod_eq_of_lt (by omega)]
    rwa [Nat.zero_add] at h2
  cases h with
  | midCode bs v h1 h2 h3 h4 h5 h6 =>
    obtain ⟨h41, h42⟩ := bitsFrom_append.1 h4
    have hstart := start h5.le h42
    rw [List.length_append] at h5
    rw [State.walked_prefix hf bs v.length h1 h41 h5 h6]
    rw [decodeLoop_unfinished hf _ _ v (.after s.code bs) hstart (by rw [Decoder.after_rp]; omega) (fun _ => (isInternal_iff _ _).2 h3)]
    simp [h2]
  | noChild bs v b h1 h2 h3 h4 h5 h6 =>
    rw [List.append_assoc] at h4
    obtain ⟨h41, h42⟩ := bitsFrom_append.1 h4
    have hstart := start (by simp only [List.length_append, List.length_singleton] at h5 ⊢; omega) h42
    rw [List.length_append] at h5
    rw [State.walked_prefix hf bs (v.length + (s.regs.bitcnt.toNat - (payload s.code bs).length - v.length - 1 + 1)) h1
      h41 (by omega) h6]
    rw [decodeLoop_noChild hf _ _ v b _ (.after s.code bs) hstart (by rw [Decoder.after_rp]; omega) (fun hv => (isInternal_iff _ _).2 (h2 hv))
      (by simpa using h3)]
    simp only [emitted_error, Run.raised.injEq, Report.mk.injEq, true_and, and_true]
    apply BitVec.eq_of_toNat_eq
    simp only [BitVec.toNat_setWidth, BitVec.toNat_add, BitVec.toNat_ofNat, List.length_append, Decoder.after_rp]
    omega
  | overflow bs x h1 h2 h3 h4 h5 =>
    rw [payload_snoc] at h3 h4
    obtain ⟨h41, h42⟩ := bitsFrom_append.1 h3
    have hstart := start h4 h42
    rw [List.length_append] at h4
    have hx := codeOf_pos h2
    rw [State.walked_prefix hf bs ((codeOf s.code x).length +
      (s.regs.bitcnt.toNat - (payload s.code bs).length - (codeOf s.code x).length)) h1 h41 (by omega) (by omega)]
    rw [decodeLoop_code hf _ _ h2 (codeOf s.code x) (by intro e; rw [e] at hx; simp at hx) _ (.after s.code bs) (by simp)
      hstart (by rw [Decoder.after_rp]; omega), if_pos (by simp [h5])]
    simp

/-- The walk looks at the payload bits alone (R134, R136). -/
theorem decodeLoop_congr (book : List (Byte × BitString)) {bitAt bitAt' : Nat → Bool} (cap : Word) (n : Nat) (d : Decoder)
    (hrp : d.rp.toNat + n < 2 ^ 64) (h : ∀ t, d.rp.toNat ≤ t → t < d.rp.toNat + n → bitAt t = bitAt' t) :
    decodeLoop book bitAt cap n d = decodeLoop book bitAt' cap n d := by
  induction n generalizing d with
  | zero => rfl
  | succ n ih =>
    have hb : bitAt d.rp.toNat = bitAt' d.rp.toNat := h _ (Nat.le_refl _) (by omega)
    have hrp1 : (d.rp + 1#64).toNat = d.rp.toNat + 1 := by
      rw [BitVec.toNat_add]
      simp
      omega
    have hstep : decodeStep book bitAt cap d = decodeStep book bitAt' cap d := by simp only [decodeStep, hb]
    rw [decodeLoop_succ, decodeLoop_succ, hstep]
    cases hd : decodeStep book bitAt' cap d with
    | error e => rfl
    | ok r =>
      obtain ⟨d', out⟩ := r
      have hrp' : d'.rp = d.rp + 1#64 := by
        unfold decodeStep at hd
        simp only at hd
        split at hd
        · split at hd
          · cases hd
          · cases hd; rfl
        · split at hd
          · cases hd; rfl
          · cases hd
      simp only
      rw [ih d' (by rw [hrp', hrp1]; omega) (fun t h1 h2 => h t (by rw [hrp', hrp1] at h1; omega)
        (by rw [hrp', hrp1] at h2; omega))]

end Sys2Proof.Machine
end

