-- ==== Sys2Proof/Laws/Composites.lean ====
section
/-! SUPPORT. The composite commands and the round trips (spec/46_control_and_composite.md R145 to R149): what lies in the
windows after `ENCODE` and `WRHDR`, read bit by bit and byte by byte, and that the two results do not disturb each
other. -/

namespace Sys2Proof.Machine

/-! ### The result of `ENCODE` (R112, R75, R76) -/

/-- A window that holds the packed form of a bit string holds its bits (R75). -/
theorem bitsFrom_of_packed {s : State} {v : BitString}
    (h : s.readBytes ⟨s.regs.pkdAddr.toNat, ceil8 v.length⟩ = packBytes v) : BitsFrom s.packedStreamBit 0 v := by
  have hb := ((readBytes_eq_iff _ _ _).1 h).2
  intro j hj
  rw [Nat.zero_add]
  refine packedBit_packBytes v (fun k => s.byteAt (s.regs.pkdAddr.toNat + k)) j hj fun k hk => ?_
  have := hb k hk
  rwa [Nat.zero_add] at this

/-- The bits of its last byte past the bit string are 0 (R76, R111). -/
theorem padding_of_packed {s : State} {v : BitString}
    (h : s.readBytes ⟨s.regs.pkdAddr.toNat, ceil8 v.length⟩ = packBytes v) {n : Nat} (h1 : v.length ≤ n)
    (h2 : n < 8 * ceil8 v.length) : s.packedStreamBit n = false := by
  have hk : n / 8 < (packBytes v).length := by rw [packBytes_length]; omega
  have hb := ((readBytes_eq_iff _ _ _).1 h).2 (n / 8) hk
  rw [Nat.zero_add] at hb
  simp only at hb
  simp only [State.packedStreamBit, packedBit, hb]
  exact padding_packBytes v (n / 8) (n % 8) hk (by omega) (by omega)

theorem packed_bitcnt (s : State) : s.packed.regs.bitcnt.toNat = (payload s.code s.srcBytes).length := by
  have h : s.packed.regs.bitcnt = BitVec.ofNat 64 (payload s.code s.srcBytes).length :=
    Regs.bitcnt_setBitcnt { s.regs with pkdLen := s.packed.regs.pkdLen } _
  have hlt := payload_lt s
  rw [h, BitVec.toNat_ofNat, Nat.mod_eq_of_lt (by omega)]

/-! ### The windows of `COMPRESS` do not overlap (R63 (c)) -/

theorem disjoint_of_windowsOk_compress {s : State} (hw : WindowsOk .compress s) {a : Nat} :
    ¬ ((Region.mk s.regs.hdrAddr.toNat s.regs.hdrCap.toNat).holds a = true ∧
      (Region.mk s.regs.pkdAddr.toNat s.regs.pkdCap.toNat).holds a = true) := by
  have h := ((windowsOverlap_false_iff _ _).1 ((windowBreach_none_iff _ _ _).1 hw).1).2
  simp only [writeRegions, writeWindows, List.map_cons, List.map_nil, List.pairwise_cons, List.mem_singleton,
    forall_eq] at h
  rw [← Bool.not_eq_true, Region.overlaps_iff] at h
  exact fun ha => h.1 ⟨a, ha⟩

/-- The packed stream that `ENCODE` left is still there after `WRHDR` (R145). -/
theorem byteAt_headed_packed {s c : State} (hw : WindowsOk .compress s) (hc : SameOperands s.regs c.regs)
    (hfit : headerSize c.code ≤ c.regs.hdrCap.toNat) (hpk : ceil8 (payload c.code c.srcBytes).length ≤ c.regs.pkdCap.toNat)
    {k : Nat} (hk : k < ceil8 (payload c.code c.srcBytes).length) :
    c.packed.headed.byteAt (c.regs.pkdAddr.toNat + k) = c.packed.byteAt (c.regs.pkdAddr.toNat + k) := by
  refine (sameByte_headed_outside c.packed (g := ⟨c.packed.regs.hdrAddr.toNat, c.packed.regs.hdrCap.toNat⟩) rfl hfit ?_).1
  rw [← Bool.not_eq_true]
  intro hh
  obtain ⟨-, -, h1, h2, h3, h4, -⟩ := hc
  refine disjoint_of_windowsOk_compress hw (a := c.regs.pkdAddr.toNat + k) ⟨?_, ?_⟩
  · rw [← h1, ← h2]
    exact hh
  · rw [← h3, ← h4]
    simp only [Region.holds, Bool.and_eq_true, decide_eq_true_eq]
    omega

theorem sameOperands_tabled (s : State) : SameOperands s.regs s.tabled.regs :=
  ⟨rfl, rfl, rfl, rfl, rfl, rfl, rfl, rfl, rfl, rfl, rfl, rfl⟩

theorem tabled_regs (s : State) :
    s.tabled.regs = { s.regs with
      nsym := s.tabled.regs.nsym, nnode := s.tabled.regs.nnode, root := s.tabled.regs.root, freqValid := true,
      treeValid := true, codeValid := true } := rfl

theorem tabled_surroundings (s : State) : SameSurroundings s s.tabled := ⟨rfl, rfl, rfl, rfl⟩

theorem tabled_nsym (s : State) : s.tabled.regs.nsym = BitVec.ofNat 9 (present (countBytes s.srcBytes)).length := rfl

theorem tabled_freq (s : State) : s.tabled.freq = countBytes s.srcBytes := rfl

/-- The number of distinct symbols of an input (R85). -/
theorem present_countBytes_length {bs : List Byte} (h : bs.length < 2 ^ 32) :
    (present (countBytes bs)).length = bs.dedup.length := by
  apply List.Perm.length_eq
  rw [List.perm_ext_iff_of_nodup (nodup_of_ascending (present_ascending _)) (List.nodup_dedup _)]
  intro a
  rw [mem_present_countBytes h, List.mem_dedup]

/-- What the tables made of an input are (R145): everything a later stage needs of `State.tabled`, so that no proof
unfolds it. -/
structure Tabled (s c : State) : Prop where
  src          : c.srcBytes = s.srcBytes
  bytes        : ∀ a, SameByte s c a
  surroundings : SameSurroundings s c
  regs         : c.regs = { s.regs with
    nsym := c.regs.nsym, nnode := c.regs.nnode, root := c.regs.root, freqValid := true, treeValid := true,
    codeValid := true }
  nsym         : c.regs.nsym.toNat = s.srcBytes.dedup.length
  freq         : ∀ b, (tableGet c.freq b).toNat = s.srcBytes.count b
  inv          : ContextInv c
  covered      : ∀ b, b ∈ coded c.code ↔ b ∈ s.srcBytes

theorem tabled_spec {s : State} (h0 : s.regs.srcLen ≠ 0#32) : Tabled s s.tabled where
  src := rfl
  bytes := tabled_sameByte s
  surroundings := tabled_surroundings s
  regs := tabled_regs s
  nsym := (present_length_ofNat _).trans (present_countBytes_length s.srcBytes_lt)
  freq := fun b => countBytes_toNat s.srcBytes_lt b
  inv := contextInv_tabled h0
  covered := coded_tabled h0

/-- The state `COMPRESS` ends with, field by field, from the tables it made. -/
structure Compressed (c t : State) : Prop where
  freq  : t.freq = c.freq
  node  : t.node = c.node
  code  : t.code = c.code
  bytes : ∀ a, SameByte c.packed.headed t a
  sur   : SameSurroundings c t
  regs  : t.regs = { c.regs.setBitcnt c.packed.regs.bitcnt with
    pkdLen := c.packed.regs.pkdLen, hdrLen := c.packed.headed.regs.hdrLen, freqValid := false, treeValid := false,
    codeValid := false }.reportSuccess

theorem packed_bitcnt_eq (c : State) : c.packed.regs.bitcnt = BitVec.ofNat 64 (payload c.code c.srcBytes).length :=
  Regs.bitcnt_setBitcnt { c.regs with pkdLen := c.packed.regs.pkdLen } _

theorem compressed_spec (c : State) : Compressed c c.packed.headed.clearValid.succeed where
  freq := by simp only [State.succeed, State.freeHidden, State.clearValid, State.headed, State.packed]
  node := by simp only [State.succeed, State.freeHidden, State.clearValid, State.headed, State.packed]
  code := by simp only [State.succeed, State.freeHidden, State.clearValid, State.headed, State.packed]
  bytes := fun a => (State.sameByte_clearValid c.packed.headed a).trans (State.sameByte_succeed _ a)
  sur := by
    simp only [SameSurroundings, State.succeed, State.freeHidden, State.clearValid, State.headed, State.packed, and_self]
  regs := by
    rw [packed_bitcnt_eq]
    simp only [State.succeed, State.freeHidden, State.clearValid, State.headed, State.packed, Regs.reportSuccess,
      Regs.clearValid, Regs.setBitcnt]

/-- What lies in the windows when `COMPRESS` has run to its end. -/
theorem compress_results {s c : State} (h : Tabled s c) (hw : WindowsOk .compress s)
    (hpk : ceil8 (payload c.code s.srcBytes).length ≤ s.regs.pkdCap.toNat)
    (hfit : headerSize c.code ≤ s.regs.hdrCap.toNat) :
    c.packed.headed.readBytes ⟨s.regs.pkdAddr.toNat, ceil8 (payload c.code s.srcBytes).length⟩ =
        packBytes (payload c.code s.srcBytes) ∧
      c.packed.headed.readBytes ⟨s.regs.hdrAddr.toNat, headerSize c.code⟩ =
        headerBytes c.code c.packed.regs.bitcnt := by
  have hso : SameOperands s.regs c.regs := by rw [h.regs]; simp [SameOperands]
  have h1 := h.src
  have h2 : c.regs.pkdAddr = s.regs.pkdAddr := by rw [h.regs]
  have h3 : c.regs.hdrAddr = s.regs.hdrAddr := by rw [h.regs]
  have h4 : c.regs.pkdCap = s.regs.pkdCap := by rw [h.regs]
  have h5 : c.regs.hdrCap = s.regs.hdrCap := by rw [h.regs]
  refine ⟨?_, ?_⟩
  · have hp := readBytes_packed c
    rw [h1, h2] at hp
    rw [← hp]
    apply List.map_congr_left
    intro k hk
    have := byteAt_headed_packed hw hso (by rw [h5]; exact hfit) (by rw [h1, h4]; exact hpk)
      (k := k) (by rw [h1]; simpa using hk)
    rw [h2] at this
    exact this
  · have := readBytes_headed c.packed
    rw [packed_hdrAddr, packed_code, h3] at this
    exact this

/-- With its checks passed and its results fitting, `COMPRESS` ends in the state of `Compressed` (R145). -/
theorem compressBody_done {s c : State} (hc : s.tabled = c) (hs : InRange s.regs.srcAddr s.regs.srcLen)
    (hh : InRange s.regs.hdrAddr s.regs.hdrCap) (hp : InRange s.regs.pkdAddr s.regs.pkdCap) (h0 : s.regs.srcLen ≠ 0#32)
    (hpk : ceil8 (payload c.code s.srcBytes).length ≤ s.regs.pkdCap.toNat)
    (hfit : headerSize c.code ≤ s.regs.hdrCap.toNat) : compressBody s = .done c.packed.headed.clearValid := by
  subst hc
  have h := compressBody_ends s
  generalize compressBody s = r at h ⊢
  cases h with
  | done => rfl
  | rangeSrc h => exact absurd hs h
  | rangeHdr _ h => exact absurd hh h
  | rangePkd _ _ h => exact absurd hp h
  | empty _ _ _ h => exact absurd h h0
  | overflowPkd _ _ _ _ h => omega
  | overflowHdr _ _ _ _ _ h => omega

/-- What a successful `COMPRESS` did: the tables it made, the state it ended in, and that its results fit. -/
theorem compress_success {s t : State} (h : exec .compress s = .next t) (he : t.regs.err = false) :
    ∃ c, c = s.tabled ∧ Tabled s c ∧ Compressed c t ∧ s.regs.srcLen ≠ 0#32 ∧ WindowsOk .compress s ∧
      ceil8 (payload c.code s.srcBytes).length ≤ s.regs.pkdCap.toNat ∧ headerSize c.code ≤ s.regs.hdrCap.toNat := by
  obtain ⟨hw, u, hb, rfl⟩ := exec_success h he
  change compressBody s = _ at hb
  have hen := compressBody_ends s
  rw [hb] at hen
  cases hen with
  | done h1 h2 h3 h4 h5 h6 => exact ⟨_, rfl, tabled_spec h4, compressed_spec _, h4, hw, h5, h6⟩

/-- The same results, register by register and window by window, of the state the host sees. -/
theorem compress_seen {s t : State} (h : exec .compress s = .next t) (he : t.regs.err = false) :
    ∃ c, c = s.tabled ∧ Tabled s c ∧ t.code = c.code ∧ s.regs.srcLen ≠ 0#32 ∧
      t.regs.hdrAddr = s.regs.hdrAddr ∧ t.regs.pkdAddr = s.regs.pkdAddr ∧
      t.regs.bitcnt.toNat = (payload c.code s.srcBytes).length ∧
      t.regs.pkdLen.toNat = ceil8 (payload c.code s.srcBytes).length ∧ t.regs.hdrLen.toNat = headerSize c.code ∧
      t.readBytes ⟨s.regs.pkdAddr.toNat, t.regs.pkdLen.toNat⟩ = packBytes (payload c.code s.srcBytes) ∧
      t.readBytes ⟨s.regs.hdrAddr.toNat, t.regs.hdrLen.toNat⟩ = headerBytes c.code t.regs.bitcnt := by
  obtain ⟨c, hc, htc, hct, h0, hw, hpk, hfit⟩ := compress_success h he
  obtain ⟨r1, r2⟩ := compress_results htc hw hpk hfit
  have a4 : c.regs.hdrCap = s.regs.hdrCap := by rw [htc.regs]
  have a6 : c.regs.pkdCap = s.regs.pkdCap := by rw [htc.regs]
  have p1 := packed_pkdLen_toNat (s := c) (by rw [htc.src, a6]; exact hpk)
  have p2 := headed_hdrLen_toNat (s := c.packed) (by rw [packed_code, packed_hdrCap, a4]; exact hfit)
  have p3 := packed_bitcnt c
  have q1 : t.regs.hdrLen = c.packed.headed.regs.hdrLen := by rw [hct.regs]; rfl
  have q2 : t.regs.pkdLen = c.packed.regs.pkdLen := by rw [hct.regs]; rfl
  have q3 : t.regs.bitcnt = c.packed.regs.bitcnt := by rw [hct.regs]; exact Regs.bitcnt_setBitcnt c.regs _
  have q4 : t.regs.hdrAddr = s.regs.hdrAddr := by rw [hct.regs, htc.regs]; rfl
  have q5 : t.regs.pkdAddr = s.regs.pkdAddr := by rw [hct.regs, htc.regs]; rfl
  rw [htc.src] at p1 p3
  rw [packed_code] at p2
  refine ⟨c, hc, htc, hct.code, h0, q4, q5, by rw [q3, p3], by rw [q2, p1], by rw [q1, p2], ?_, ?_⟩
  · rw [q2, p1]
    exact (List.map_congr_left fun k _ => (hct.bytes _).1).trans r1
  · rw [q1, p2, q3]
    exact (List.map_congr_left fun k _ => (hct.bytes _).1).trans r2

/-! ### A chain of step commands against a composite command (R146 (b), R147) -/

/-- Two states that differ at most in the life-cycle registers, the hidden registers, `PEND` and the count of free values
drawn: what a completion in between two stages leaves different. -/
def Twin (x y : State) : Prop :=
  ∃ b d e c k i h p f, y = { x with
    regs := { x.regs with busy := b, done := d, err := e, errCode := c, errSub := k, errInfo := i }
    hidden := h, pend := p, fresh := f }

theorem Twin.refl (x : State) : Twin x x := ⟨_, _, _, _, _, _, _, _, _, rfl⟩

theorem Twin.trans {x y z : State} (h : Twin x y) (h' : Twin y z) : Twin x z := by
  obtain ⟨_, _, _, _, _, _, _, _, _, rfl⟩ := h
  obtain ⟨_, _, _, _, _, _, _, _, _, rfl⟩ := h'
  exact ⟨_, _, _, _, _, _, _, _, _, rfl⟩

theorem Twin.succeed (x : State) : Twin x x.succeed := ⟨_, _, _, _, _, _, _, _, _, rfl⟩

theorem Twin.clearValid {x y : State} (h : Twin x y) : Twin x.clearValid y.clearValid := by
  obtain ⟨_, _, _, _, _, _, _, _, _, rfl⟩ := h
  exact ⟨_, _, _, _, _, _, _, _, _, rfl⟩

theorem Twin.built {x y : State} (h : Twin x y) : Twin x.built y.built := by
  obtain ⟨_, _, _, _, _, _, _, _, _, rfl⟩ := h
  exact ⟨_, _, _, _, _, _, _, _, _, rfl⟩

theorem Twin.generated {x y : State} (h : Twin x y) : Twin x.generated y.generated := by
  obtain ⟨_, _, _, _, _, _, _, _, _, rfl⟩ := h
  exact ⟨_, _, _, _, _, _, _, _, _, rfl⟩

theorem Twin.packed {x y : State} (h : Twin x y) : Twin x.packed y.packed := by
  obtain ⟨_, _, _, _, _, _, _, _, _, rfl⟩ := h
  exact ⟨_, _, _, _, _, _, _, _, _, rfl⟩

theorem Twin.headed {x y : State} (h : Twin x y) : Twin x.headed y.headed := by
  obtain ⟨_, _, _, _, _, _, _, _, _, rfl⟩ := h
  exact ⟨_, _, _, _, _, _, _, _, _, rfl⟩

theorem Twin.loaded {x y : State} (h : Twin x y) (hd : ParsedHeader) : Twin (x.loaded hd) (y.loaded hd) := by
  obtain ⟨_, _, _, _, _, _, _, _, _, rfl⟩ := h
  exact ⟨_, _, _, _, _, _, _, _, _, rfl⟩

theorem Twin.unpacked {x y : State} (h : Twin x y) (d : Decoder) (out : List Byte) :
    Twin (x.unpacked d out) (y.unpacked d out) := by
  obtain ⟨_, _, _, _, _, _, _, _, _, rfl⟩ := h
  exact ⟨_, _, _, _, _, _, _, _, _, rfl⟩

/-- After a successful completion twins agree on everything the host can see. -/
theorem Twin.completed {x y : State} (h : Twin x y) :
    y.succeed.regs = x.succeed.regs ∧ SameTables x.succeed y.succeed ∧ SameMemory x.succeed y.succeed ∧
      SameSurroundings x.succeed y.succeed := by
  obtain ⟨_, _, _, _, _, _, _, _, _, rfl⟩ := h
  exact ⟨rfl, ⟨rfl, rfl, rfl⟩, fun a => .congr rfl rfl a, rfl, rfl, rfl, rfl⟩

/-- `COUNT`, `BUILD` and `GENCODE` one after the other make the tables of `State.tabled` (R143, R145). -/
theorem three_steps {s s1 s2 s3 : State} (hs : InRange s.regs.srcAddr s.regs.srcLen) (h0 : s.regs.srcLen ≠ 0#32)
    (e1 : exec .count s = .next s1) (e2 : exec .build s1 = .next s2) (e3 : exec .gencode s2 = .next s3) :
    Twin s.tabled s3 := by
  obtain rfl : s.counted.succeed = s1 :=
    Host.Outcome.next.inj ((exec_of_done ((exec_cases e1).1) (countBody_done hs)).symm.trans e1)
  obtain rfl : s.counted.succeed.built.succeed = s2 :=
    Host.Outcome.next.inj ((exec_of_done ((exec_cases e2).1) (buildBody_done rfl (counted_nsym_ne_zero h0))).symm.trans e2)
  obtain rfl : s.counted.succeed.built.succeed.generated.succeed = s3 :=
    Host.Outcome.next.inj ((exec_of_done ((exec_cases e3).1) (gencodeBody_done rfl)).symm.trans e3)
  exact ((Twin.succeed s.counted).built.trans (Twin.succeed _)).generated.trans (Twin.succeed _)

/-! ### `DECOMPRESS` on a valid header and a payload (R147) -/

/-- With a header that parses and a payload of its bit count that fits, `DECOMPRESS` runs to its end. -/
theorem decompressBody_payload {s : State} {p : ParsedHeader} {bs : List Byte} (hh : InRange s.regs.hdrAddr s.regs.hdrLen)
    (hp : InRange s.regs.pkdAddr s.regs.pkdLen) (hd : InRange s.regs.dstAddr s.regs.dstCap)
    (hparse : parseHeader s.headerByte s.regs.hdrLen.toNat = .ok p) (hbs : ∀ b ∈ bs, b ∈ coded p.code)
    (hb : BitsFrom s.packedStreamBit 0 (payload p.code bs)) (hn : p.bitcnt.toNat = (payload p.code bs).length)
    (hle : p.bitcnt.toNat ≤ 8 * s.regs.pkdLen.toNat) (hcap : bs.length ≤ s.regs.dstCap.toNat) :
    decompressBody s =
      .done ((s.loaded p).unpacked ⟨[], p.bitcnt, BitVec.ofNat 32 bs.length⟩ bs).clearValid := by
  have hbit : (s.loaded p).regs.bitcnt = p.bitcnt := Regs.bitcnt_setBitcnt s.regs.clearValid p.bitcnt
  have h2 := decodeBody_payload (s := s.loaded p) (bs := bs) (parseHeader_ok hparse).1 rfl hp hd hbs hb
    (by rw [hbit]; exact hn) (by rw [hbit]; exact hle) hcap
  rw [hbit] at h2
  rw [decompressBody_eq hh hp hd, rdhdrBody_clearValid, rdhdrBody_done hh hparse, Run.bind_done, h2]
  rfl

end Sys2Proof.Machine
end

