-- ==== Sys2Proof/Laws/Deterministic.lean ====
section
/-! SUPPORT. `BUILD` is a function of `FREQ` alone and `GENCODE` of the tree alone (spec/41_tree_builder.md R98,
spec/46_control_and_composite.md R146 (a)): what the arena held before does not matter. -/

namespace Sys2Proof.Machine

/-! ### The builder -/

/-- Two builders at the same point, over arenas that agree below the next free index. -/
structure SameBuild (b b' : Builder) : Prop where
  pq    : b'.pq = b.pq
  n     : b'.n = b.n
  below : ∀ i ∈ b.pq, i < b.n
  nodes : ∀ i, i < b.n → nodeAt b'.node i = nodeAt b.node i

theorem nodeAt_set_eq {node node' : NodeTable} {n : Nat} (h : ∀ i, i < n → nodeAt node' i = nodeAt node i) (v : Node) {i : Nat}
    (hi : i < n + 1) : nodeAt (node'.setIfInBounds n v) i = nodeAt (node.setIfInBounds n v) i := by
  by_cases hn : n < 511
  · rw [nodeAt_setIfInBounds _ _ _ _ hn, nodeAt_setIfInBounds _ _ _ _ hn]
    split
    · rfl
    · exact h i (by omega)
  · have key : ∀ x : NodeTable, x.setIfInBounds n v = x := fun x => by
      apply Vector.ext
      intro j hj
      rw [Vector.getElem_setIfInBounds_ne hj (by omega)]
    rw [key, key]
    by_cases e : i = n
    · subst e
      simp [nodeAt, hn]
    · exact h i (by omega)

theorem SameBuild.push {b b' : Builder} (h : SameBuild b b') (v : Node) : SameBuild (b.push v) (b'.push v) where
  pq := by simp [h.pq, h.n]
  n := by simp [h.n]
  below := fun i hi => by
    simp only [Builder.push_pq, List.mem_cons, Builder.push_n] at hi ⊢
    rcases hi with rfl | hi
    · omega
    · have := h.below i hi; omega
  nodes := fun i hi => by
    have := nodeAt_set_eq h.nodes v hi
    simpa [Builder.push, h.n] using this

theorem keyLt_congr {node node' : NodeTable} {i j : Nat} (hi : nodeAt node' i = nodeAt node i)
    (hj : nodeAt node' j = nodeAt node j) : keyLt node' i j = keyLt node i j := by simp [keyLt, hi, hj]

theorem minKey_congr {node node' : NodeTable} (i : Nat) (rest : List Nat)
    (h : ∀ j ∈ i :: rest, nodeAt node' j = nodeAt node j) : minKey node' i rest = minKey node i rest := by
  induction rest generalizing i with
  | nil => rfl
  | cons j rest ih =>
    rw [minKey, minKey, keyLt_congr (h j (by simp)) (h i (by simp))]
    apply ih
    intro k hk
    rcases List.mem_cons.1 hk with rfl | hk
    · split
      · exact h j (by simp)
      · exact h i (by simp)
    · exact h k (by simp [hk])

theorem extractMin_congr {node node' : NodeTable} {pq : List Nat} (h : ∀ j ∈ pq, nodeAt node' j = nodeAt node j) :
    extractMin node' pq = extractMin node pq := by
  cases pq with
  | nil => rfl
  | cons i rest => rw [extractMin, extractMin, minKey_congr i rest h]

theorem SameBuild.fuse {b b' : Builder} (h : SameBuild b b') : SameBuild (fuse b) (fuse b') := by
  have hq : ∀ j ∈ b.pq, nodeAt b'.node j = nodeAt b.node j := fun j hj => h.nodes j (h.below j hj)
  unfold Machine.fuse
  rw [h.pq, extractMin_congr hq]
  cases h1 : extractMin b.node b.pq with
  | none => exact h
  | some r =>
    obtain ⟨a, q⟩ := r
    obtain ⟨ha, rfl, -⟩ := extractMin_spec h1
    simp only
    rw [extractMin_congr fun j hj => hq j (List.mem_of_mem_erase hj)]
    cases h2 : extractMin b.node (b.pq.erase a) with
    | none => exact h
    | some r' =>
      obtain ⟨c, q'⟩ := r'
      obtain ⟨hc, rfl, -⟩ := extractMin_spec h2
      have e : fusedNode b'.node a c = fusedNode b.node a c := by
        simp only [fusedNode, hq a ha, hq c (List.mem_of_mem_erase hc)]
      simp only [e]
      exact SameBuild.push (b := ⟨b.node, (b.pq.erase a).erase c, b.n⟩) (b' := ⟨b'.node, (b.pq.erase a).erase c, b'.n⟩)
        ⟨rfl, h.n, fun i hi => h.below i (List.mem_of_mem_erase (List.mem_of_mem_erase hi)), h.nodes⟩ _

theorem SameBuild.fuseAll {b b' : Builder} (h : SameBuild b b') (k : Nat) : SameBuild (fuseAll k b) (fuseAll k b') := by
  induction k generalizing b b' with
  | zero => exact h
  | succ k ih =>
    rw [Machine.fuseAll, Machine.fuseAll, h.pq]
    split
    · exact h
    · exact ih h.fuse

/-- The builder's result does not depend on what the arena held (R98). -/
theorem sameBuild_buildTree (freq : FreqTable) (node node' : NodeTable) :
    SameBuild (buildTree freq node) (buildTree freq node') := by
  have hs : SameBuild (seed freq node) (seed freq node') := by
    unfold seed
    have h0 : SameBuild ⟨node, [], 0⟩ ⟨node', [], 0⟩ := ⟨rfl, rfl, by simp, by simp⟩
    revert h0
    generalize (⟨node, [], 0⟩ : Builder) = b
    generalize (⟨node', [], 0⟩ : Builder) = b'
    generalize present freq = l
    intro h0
    induction l generalizing b b' with
    | nil => exact h0
    | cons s l ih => exact ih _ _ (h0.push _)
  unfold buildTree
  simp only
  rw [hs.pq]
  exact hs.fuseAll _

/-! ### The generator -/

theorem walk_congr {node node' : NodeTable} {n : Nat} (hn : ∀ i, i < n → nodeAt node' i = nodeAt node i)
    (hc : ∀ i, i < n → (nodeAt node i).leaf = false →
      (nodeAt node i).left.toNat < n ∧ (nodeAt node i).right.toNat < n)
    (d i : Nat) (hi : i < n) (p : BitString) (code : CodeTable) : walk node' d i p code = walk node d i p code := by
  induction d generalizing i p code with
  | zero => rfl
  | succ d ih =>
    rw [walk, walk, hn i hi]
    split
    · rfl
    · rename_i hl
      obtain ⟨h1, h2⟩ := hc i hi (by simpa using hl)
      rw [ih _ h1, ih _ h2]

theorem genCode_congr {freq : FreqTable} {node node' : NodeTable} (ht : IsTreeOf freq node)
    (hn : ∀ i, i < 2 * (present freq).length - 1 → nodeAt node' i = nodeAt node i) :
    genCode node' (2 * (present freq).length - 2) = genCode node (2 * (present freq).length - 2) := by
  have hpos := ht.nonempty
  have hroot : 2 * (present freq).length - 2 < 2 * (present freq).length - 1 := by omega
  rw [genCode, genCode, hn _ hroot]
  split
  · rfl
  · refine walk_congr hn (fun i hi hl => ?_) _ _ hroot _ _
    by_cases hlow : i < (present freq).length
    · rw [ht.leaves i hlow] at hl
      simp [leafNode] at hl
    · have h := ht.internal i (by omega) hi
      omega

/-! ### The tables made of an input -/

theorem tabled_code_eq {s : State} (h : s.regs.srcLen ≠ 0#32) :
    s.tabled.code = genCode s.tabled.node (2 * (present s.tabled.freq).length - 2) := by
  have hi := contextInv_tabled h
  rw [hi.codeTree rfl rfl, (hi.root_eq rfl).1]

/-- The tables made of the same input agree (R146 (a)). -/
theorem tabled_congr {s u : State} (h : s.srcBytes = u.srcBytes) (hs : s.regs.srcLen ≠ 0#32) (hu : u.regs.srcLen ≠ 0#32) :
    s.tabled.code = u.tabled.code ∧ s.tabled.regs.nsym = u.tabled.regs.nsym ∧
      s.tabled.regs.nnode = u.tabled.regs.nnode ∧ s.tabled.regs.root = u.tabled.regs.root := by
  have hf : u.tabled.freq = s.tabled.freq := by rw [tabled_freq, tabled_freq, h]
  have hb := sameBuild_buildTree (countBytes s.srcBytes) s.node u.node
  have hsn : s.tabled.node = (buildTree (countBytes s.srcBytes) s.node).node := rfl
  have hun : u.tabled.node = (buildTree (countBytes u.srcBytes) u.node).node := rfl
  have is := contextInv_tabled hs
  have iu := contextInv_tabled hu
  have hn : u.tabled.regs.nsym = s.tabled.regs.nsym := by rw [tabled_nsym, tabled_nsym, h]
  have hspec := buildTree_spec (freq := countBytes s.srcBytes) s.node (is.treeShape rfl).nonempty (is.freqTotal rfl)
  refine ⟨?_, hn.symm, ?_, ?_⟩
  · rw [tabled_code_eq hs, tabled_code_eq hu, hf]
    refine (genCode_congr (is.treeShape rfl) fun i hi => ?_).symm
    rw [hsn, hun, ← h]
    refine hb.nodes i ?_
    rw [hspec.1]
    exact hi
  · apply BitVec.eq_of_toNat_eq
    rw [(is.treeRegs rfl).2.1, (iu.treeRegs rfl).2.1, hn]
  · apply BitVec.eq_of_toNat_eq
    rw [(is.treeRegs rfl).2.2, (iu.treeRegs rfl).2.2, (is.treeRegs rfl).2.1, (iu.treeRegs rfl).2.1, hn]

end Sys2Proof.Machine
end

