-- ==== Sys2Proof/Laws/HostPort.lean ====
section
/-! SUPPORT. The words the register port shows, bit by bit (spec/10_state.md R20, R21, R34, spec/30_encoding.md R79). -/

namespace Sys2Proof.Machine

/-- `STATUS` bit by bit (R20). -/
theorem statusWord_getLsbD (r : Regs) :
    r.statusWord.getLsbD 0 = r.busy ∧ r.statusWord.getLsbD 1 = r.done ∧ r.statusWord.getLsbD 2 = r.err ∧
      r.statusWord.getLsbD 4 = r.freqValid ∧ r.statusWord.getLsbD 5 = r.treeValid ∧
      r.statusWord.getLsbD 6 = r.codeValid := by
  unfold Regs.statusWord
  cases r.busy <;> cases r.done <;> cases r.err <;> cases r.freqValid <;> cases r.treeValid <;> cases r.codeValid <;>
    decide

/-- The reserved bits of `STATUS` (R20, R34 (f)). -/
theorem statusWord_reserved (r : Regs) : r.statusWord.getLsbD 3 = false ∧ ∀ j, 7 ≤ j → r.statusWord.getLsbD j = false := by
  have h : r.statusWord.getLsbD 3 = false ∧ ∀ j, j < 32 → 7 ≤ j → r.statusWord.getLsbD j = false := by
    unfold Regs.statusWord
    cases r.busy <;> cases r.done <;> cases r.err <;> cases r.freqValid <;> cases r.treeValid <;> cases r.codeValid <;>
      decide
  refine ⟨h.1, fun j hj => ?_⟩
  by_cases h32 : j < 32
  · exact h.2 j h32 hj
  · exact BitVec.getLsbD_of_ge _ _ (by omega)

/-- Reserved bits above a field: the word is the field extended with zeros. -/
theorem zero_append_eq {n w : Nat} (x : BitVec w) : 0#n ++ x = x.setWidth (n + w) := by
  apply BitVec.eq_of_toNat_eq
  have := x.isLt
  have := Nat.pow_le_pow_right (n := 2) (by omega) (Nat.le_add_left w n)
  rw [BitVec.toNat_append, BitVec.toNat_setWidth, Nat.mod_eq_of_lt (by omega)]
  simp

/-- A read without a defined value that shows `STATUS` shows its bit `BUSY` (V4). -/
theorem shownWord_status (s : State) (free : Word) : (shownWord s 0x08#8 free).getLsbD 0 = s.regs.busy := by
  unfold shownWord
  rw [if_pos (by decide), BitVec.getLsbD_or, BitVec.getLsbD_and, BitVec.getLsbD_and, (statusWord_getLsbD s.regs).1]
  simp

/-- `CTRL` bit 0 (R21). -/
theorem ctrl_getLsbD (r : Regs) : (r.readValue .ctrl).getLsbD 0 = r.ien := by
  have h : ∀ b, (0#31 ++ BitVec.ofBool b : Word).getLsbD 0 = b := by decide
  exact h r.ien

/-- A node's link word bit by bit (R79). -/
theorem linkWord_getLsbD (x : Node) (j : Nat) :
    x.linkWord.getLsbD j =
      if j < 9 then x.left.getLsbD j
      else if j < 18 then x.right.getLsbD (j - 9)
      else if j < 26 then x.sym.getLsbD (j - 18)
      else decide (j = 26) && x.leaf := by
  unfold Node.linkWord
  rw [BitVec.getLsbD_append (y := x.left), BitVec.getLsbD_append (y := x.right), BitVec.getLsbD_append (y := x.sym),
    BitVec.getLsbD_append (y := BitVec.ofBool x.leaf)]
  have e1 : j - 9 - 9 = j - 18 := by omega
  have e2 : j - 18 - 8 = j - 26 := by omega
  have c2 : ¬ j < 9 → (j - 9 < 9 ↔ j < 18) := by omega
  have c3 : ¬ j < 18 → (j - 18 < 8 ↔ j < 26) := by omega
  have c4 : ¬ j < 26 → (j - 26 < 1 ↔ j = 26) := by omega
  simp only [e1, e2, BitVec.getLsbD_zero]
  by_cases h1 : j < 9
  · simp [h1]
  by_cases h2 : j < 18
  · simp [h1, h2, c2 h1]
  by_cases h3 : j < 26
  · simp [h1, h2, h3, c2 h1, c3 h2]
  by_cases h4 : j = 26
  · subst h4; simp
  · simp [h1, h2, h3, h4, c2 h1, c3 h2, c4 h3]

/-- The register at each offset of the map (R17); every offset of the map is aligned. -/
theorem regAt_of_mem {row : BitVec 8 × RegName} (h : row ∈ regMap) :
    regAt row.1 = some row.2 ∧ aligned32 row.1 4 = true := by
  revert row
  decide

/-- A register of an idle block, `TDATA` apart, reads the value it holds (R17, R34). -/
theorem portRead_idle {s : State} (hb : s.regs.busy = false) {off : BitVec 8} {n : RegName} (h : (off, n) ∈ regMap)
    (hn : n ≠ .tdata) : portRead s off 4 = some (s.regs.readValue n) := by
  obtain ⟨h1, h2⟩ := regAt_of_mem h
  simp only [portRead, h1, h2, if_true, readDefined, hb]
  cases n <;> first | contradiction | rfl

end Sys2Proof.Machine
end

