-- ==== Sys2Proof/Laws/Invariants.lean ====
section
/-! SUPPORT. The invariants at a complete step (spec/10_state.md R43): memory stays canonical, the report stays
consistent, and the valid flags stay true of the tables. -/

namespace Sys2Proof.Machine

/-! ### Memory -/

/-- A complete step keeps memory canonical. -/
theorem exec_memoryInv {i : Instr} {s t : State} (h : exec i s = .next t) (hm : MemoryInv s) : MemoryInv t := by
  obtain ⟨_, u, hk, ⟨hu, rfl⟩ | ⟨e, hu, rfl⟩⟩ := exec_cases h
  · exact hk.wf hm
  · exact State.fail_mem_wf (hk.wf hm) _ _ _

/-! ### The report -/

theorem StatusInv.of_regs {s r : State} (h : StatusInv r) (hr : s.regs = r.regs)
    (hi : s.resetIn = true → r.resetIn = true) : StatusInv s := by
  obtain ⟨h1, h2, h3, h4, h5⟩ := h
  exact ⟨by rw [hr]; exact h1, by rw [hr]; exact h2, by rw [hr]; exact h3, by rw [hr]; exact h4,
    fun h => by rw [hr]; exact h5 (hi h)⟩

/-- A complete step of a pending command keeps the report consistent. -/
theorem exec_statusInv {i : Instr} {s t : State} (h : exec i s = .next t) (hb : s.regs.busy = true) (hm : StatusInv s) :
    StatusInv t := by
  have hr : s.resetIn = false := by
    by_contra hc
    have := hm.inReset (by simpa using hc)
    rw [this] at hb
    simp [Regs.reset] at hb
  obtain ⟨_, u, hk, ⟨hu, rfl⟩ | ⟨e, hu, rfl⟩⟩ := exec_cases h
  · have := hk.around.1
    exact ⟨by simp, by simp, by simp, by simp, by simp [this, hr]⟩
  · have := hk.around.1
    refine ⟨?_, ?_, ?_, ?_, by simp [this, hr]⟩ <;> rw [State.fail_regs] <;> simp
    · cases e.kind <;> simp [ErrKind.code]
    · cases e.kind <;> simp [ErrKind.code]

/-! ### The context -/

theorem ContextInv.congr {s r : State} (h : ContextInv r) (hf : s.freq = r.freq) (hn : s.node = r.node)
    (hc : s.code = r.code) (h1 : s.regs.freqValid = r.regs.freqValid) (h2 : s.regs.treeValid = r.regs.treeValid)
    (h3 : s.regs.codeValid = r.regs.codeValid) (h4 : s.regs.nsym = r.regs.nsym) (h5 : s.regs.nnode = r.regs.nnode)
    (h6 : s.regs.root = r.regs.root) : ContextInv s := by
  obtain ⟨a, b, c, d, e, f, g, i, j⟩ := h
  constructor <;> simp only [hf, hn, hc, h1, h2, h3, h4, h5, h6] <;> assumption

theorem ContextInv.kept {i : Instr} {s u : State} (h : ContextInv s) (hk : Kept i s u)
    (hi : i ∈ [Instr.encode, .wrhdr, .decode, .nop]) (h1 : u.regs.freqValid = s.regs.freqValid)
    (h2 : u.regs.treeValid = s.regs.treeValid) (h3 : u.regs.codeValid = s.regs.codeValid) : ContextInv u := by
  simp only [List.mem_cons, List.not_mem_nil, or_false] at hi
  refine h.congr ?_ ?_ ?_ h1 h2 h3 ?_ ?_ ?_
  · apply hk.freq; rcases hi with rfl | rfl | rfl | rfl <;> simp
  · apply hk.node; rcases hi with rfl | rfl | rfl | rfl <;> simp
  · apply hk.code; rcases hi with rfl | rfl | rfl | rfl <;> simp
  · apply hk.nsym; rcases hi with rfl | rfl | rfl | rfl <;> simp
  · refine (hk.tree ?_).1; rcases hi with rfl | rfl | rfl | rfl <;> simp
  · refine (hk.tree ?_).2; rcases hi with rfl | rfl | rfl | rfl <;> simp

theorem contextInv_loaded {s : State} {h : ParsedHeader} (hp : parseHeader s.headerByte s.regs.hdrLen.toNat = .ok h) :
    ContextInv (s.loaded h) := by
  obtain ⟨h1, h2, h3, h4, h5⟩ := parseHeader_ok hp
  constructor <;> simp [State.loaded]
  · rw [h3]; constructor <;> omega
  · exact h1
  · exact h2

theorem contextInv_fail {s : State} (h : ContextInv s) (outs : List Window) (c : Bool) (e : Report) :
    ContextInv (s.fail outs c e) := by
  cases c with
  | false => refine h.congr ?_ ?_ ?_ ?_ ?_ ?_ ?_ ?_ ?_ <;> simp [State.fail_regs]
  | true => exact .of_invalid (by simp [State.fail_regs]) (by simp [State.fail_regs]) (by simp [State.fail_regs])

/-- Every command's pseudocode keeps what the valid flags claim, whether it ends or raises. -/
theorem bodyOf_contextInv {i : Instr} {s : State} (hm : ContextInv s) : (bodyOf i s).All ContextInv := by
  cases i with
  | nop => exact hm
  | clear => exact .of_invalid rfl rfl rfl
  | count =>
    by_cases hr : InRange s.regs.srcAddr s.regs.srcLen
    · simp only [bodyOf, countBody_done hr]; exact contextInv_counted s
    · simp only [bodyOf, countBody_range hr]; exact contextInv_clearValid s
  | build =>
    cases hf : s.regs.freqValid with
    | false => simp only [bodyOf, buildBody_sequence hf]; exact hm
    | true =>
      by_cases hn : s.regs.nsym = 0#9
      · simp only [bodyOf, buildBody_empty hf hn]
        constructor <;> simp
        · exact hm.freqNsym
        · exact hm.freqTotal
      · simp only [bodyOf, buildBody_done hf hn]; exact contextInv_built hm hf hn
  | gencode =>
    cases ht : s.regs.treeValid with
    | false => simp only [bodyOf, gencodeBody_sequence ht]; exact hm
    | true => simp only [bodyOf, gencodeBody_done ht]; exact contextInv_generated hm ht
  | encode =>
    rcases encodeBody_cases s with ⟨_, _, hp, _, hfit, hb⟩ | ⟨e, hb, _⟩
    · simp only [bodyOf, hb]; exact hm.kept (kept_packed hp hfit) (by simp) rfl rfl rfl
    · simp only [bodyOf, hb]; exact hm
  | wrhdr =>
    rcases wrhdrBody_cases s with ⟨_, hp, hfit, hb⟩ | ⟨e, hb, _⟩
    · simp only [bodyOf, hb]; exact hm.kept (kept_headed hp hfit) (by simp) rfl rfl rfl
    · simp only [bodyOf, hb]; exact hm
  | rdhdr =>
    rcases rdhdrBody_cases s with ⟨h, _, hp, hb⟩ | ⟨e, hb, _⟩
    · simp only [bodyOf, hb]; exact contextInv_loaded hp
    · simp only [bodyOf, hb]; exact .of_invalid rfl rfl rfl
  | decode =>
    rcases decodeBody_cases s with ⟨d, out, _, _, hd, _, _, _, h1, hfit, hb⟩ | ⟨e, hb, _⟩
    · simp only [bodyOf, hb]; exact hm.kept (kept_unpacked hd d hfit) (by simp) rfl rfl rfl
    · simp only [bodyOf, hb]; exact hm
  | compress =>
    have hends := compressBody_ends s
    show (compressBody s).All _
    generalize compressBody s = r at hends ⊢
    cases hends with
    | rangeSrc => exact contextInv_clearValid s
    | rangeHdr => exact contextInv_clearValid s
    | rangePkd => exact contextInv_clearValid s
    | empty => exact contextInv_clearValid s
    | overflowPkd _ _ _ h0 => exact contextInv_tabled h0
    | overflowHdr _ _ hp h0 hfit =>
       refine (contextInv_tabled h0).kept (kept_packed (s := s.tabled) (by simpa using hp) (by simpa using hfit)) (by simp) ?_ ?_ ?_
       · generalize s.tabled = c; rfl
       · generalize s.tabled = c; rfl
       · generalize s.tabled = c; rfl
    | done => exact contextInv_clearValid _
  | decompress =>
    show (decompressBody s).All _
    by_cases hr : InRange s.regs.hdrAddr s.regs.hdrLen ∧ InRange s.regs.pkdAddr s.regs.pkdLen ∧
        InRange s.regs.dstAddr s.regs.dstCap
    · rw [decompressBody_eq hr.1 hr.2.1 hr.2.2, rdhdrBody_clearValid]
      rcases rdhdrBody_cases s with ⟨hd, _, hp, hb⟩ | ⟨e', hb, _⟩
      · rw [hb, Run.bind_done]
        rcases decodeBody_cases (s.loaded hd) with ⟨d, out, _, _, _, _, _, _, h1, h2, hb'⟩ | ⟨e'', hb', _⟩
        · rw [hb', Run.bind_done]; exact contextInv_clearValid _
        · rw [hb']; exact contextInv_loaded hp
      · rw [hb]; exact .of_invalid rfl rfl rfl
    · obtain ⟨e', _, hb⟩ := decompressBody_range hr
      rw [hb]; exact contextInv_clearValid s

/-- A complete step keeps what the valid flags claim of the tables (R43 (a) to (d)). -/
theorem exec_contextInv {i : Instr} {s t : State} (h : exec i s = .next t) (hm : ContextInv s) : ContextInv t := by
  have hs := bodyOf_contextInv (i := i) hm
  obtain ⟨_, u, hk, ⟨hu, rfl⟩ | ⟨e, hu, rfl⟩⟩ := exec_cases h
  · rw [hu] at hs
    exact ContextInv.congr hs rfl rfl rfl rfl rfl rfl rfl rfl rfl
  · rw [hu] at hs
    exact contextInv_fail hs _ _ _

end Sys2Proof.Machine
end

