-- ==== Sys2Proof/Laws/TreeCost.lean ====
section
/-! SUPPORT. Sums over a built tree (spec/41_tree_builder.md R96, spec/42_code_generator.md R105): every node but the root is
one child of one internal node, so a sum over those nodes is a sum over the internal nodes' children; hence the code is
complete, and its weighted length is the sum of the internal nodes' frequencies. -/

namespace Sys2Proof.Machine

/-- A sum over a list is a sum over its places. -/
theorem sum_map_eq_sum_range {α : Type} (l : List α) (g : α → Nat) (g' : Nat → Nat)
    (h : ∀ j (hj : j < l.length), g l[j] = g' j) : (l.map g).sum = ∑ j ∈ Finset.range l.length, g' j := by
  induction l generalizing g' with
  | nil => simp
  | cons a l ih =>
    rw [List.map_cons, List.sum_cons, List.length_cons, Finset.sum_range_succ',
      ih (fun j => g' (j + 1)) (fun j hj => h (j + 1) (by simpa using hj)), Nat.add_comm]
    congr 1
    exact h 0 (by simp)

section
variable {freq : FreqTable} {node : NodeTable} (t : IsTreeOf freq node)
include t

/-- A sum over the children of the internal nodes is a sum over all nodes but the root. -/
theorem IsTreeOf.sum_children (g : Nat → Nat) :
    ∑ i ∈ Finset.Ico (present freq).length (2 * (present freq).length - 1),
        (g (nodeAt node i).left.toNat + g (nodeAt node i).right.toNat) =
      ∑ j ∈ Finset.range (2 * (present freq).length - 2), g j := by
  have h1 : ∀ i ∈ Finset.Ico (present freq).length (2 * (present freq).length - 1),
      g (nodeAt node i).left.toNat + g (nodeAt node i).right.toNat =
        ∑ j ∈ Finset.range (2 * (present freq).length - 2),
          ((if (nodeAt node i).left.toNat = j then g j else 0) + if (nodeAt node i).right.toNat = j then g j else 0) := by
    intro i hi
    rw [Finset.mem_Ico] at hi
    obtain ⟨-, -, hl, hr, -, -⟩ := t.internal i hi.1 hi.2
    rw [Finset.sum_add_distrib, Finset.sum_ite_eq, Finset.sum_ite_eq, if_pos (Finset.mem_range.2 (by omega)),
      if_pos (Finset.mem_range.2 (by omega))]
  rw [Finset.sum_congr rfl h1, Finset.sum_comm]
  refine Finset.sum_congr rfl fun j hj => ?_
  obtain ⟨i, ⟨hi1, hi2, hc⟩, huniq⟩ := t.oneParent j (Finset.mem_range.1 hj)
  rw [Finset.sum_eq_single i]
  · have hne : (nodeAt node i).left.toNat ≠ (nodeAt node i).right.toNat := fun h =>
      (t.internal i hi1 hi2).2.2.2.2.1 (BitVec.eq_of_toNat_eq h)
    rcases hc with h | h
    · rw [if_pos h, if_neg (fun h' => hne (h.trans h'.symm)), Nat.add_zero]
    · rw [if_neg (fun h' => hne (h'.trans h.symm)), if_pos h, Nat.zero_add]
  · intro i' hi' hne
    rw [Finset.mem_Ico] at hi'
    have hno : ¬ ((nodeAt node i').left.toNat = j ∨ (nodeAt node i').right.toNat = j) := fun h =>
      hne (huniq i' hi'.1 hi'.2 h)
    rw [not_or] at hno
    rw [if_neg hno.1, if_neg hno.2, Nat.add_zero]
  · intro h
    exact absurd (Finset.mem_Ico.2 ⟨hi1, hi2⟩) h

open Classical in
/-- The length of the one path from the root to a node. -/
noncomputable def depthOf (freq : FreqTable) (node : NodeTable) (j : Nat) : Nat :=
  if h : ∃ q, Reaches node (2 * (present freq).length - 2) q j then h.choose.length else 0

theorem IsTreeOf.depthOf_eq {q : BitString} {j : Nat} (h : Reaches node (2 * (present freq).length - 2) q j) :
    depthOf freq node j = q.length := by
  have hex : ∃ q, Reaches node (2 * (present freq).length - 2) q j := ⟨q, h⟩
  rw [depthOf, dif_pos hex, t.path_unique hex.choose_spec h]

theorem IsTreeOf.depthOf_root : depthOf freq node (2 * (present freq).length - 2) = 0 :=
  t.depthOf_eq (q := []) rfl

/-- The children of an internal node are one deeper. -/
theorem IsTreeOf.depthOf_child {i : Nat} (h1 : (present freq).length ≤ i) (h2 : i < 2 * (present freq).length - 1) :
    depthOf freq node (nodeAt node i).left.toNat = depthOf freq node i + 1 ∧
      depthOf freq node (nodeAt node i).right.toNat = depthOf freq node i + 1 := by
  obtain ⟨q, hq⟩ := t.exists_path h2
  have hl := (t.internal i h1 h2).1
  rw [t.depthOf_eq hq, t.depthOf_eq (q := q ++ [false]) (reaches_snoc.2 ⟨i, hq, hl, by simp [childAt]⟩),
    t.depthOf_eq (q := q ++ [true]) (reaches_snoc.2 ⟨i, hq, hl, by simp [childAt]⟩)]
  simp

/-- The code of a present symbol is as long as its leaf is deep (R103). -/
theorem IsTreeOf.codeOf_length_leaf (h2 : 2 ≤ (present freq).length) {j : Nat} (hj : j < (present freq).length) :
    (codeOf (genCode node (2 * (present freq).length - 2)) (present freq)[j]).length = depthOf freq node j := by
  obtain ⟨q, hq⟩ := t.exists_path (j := j) (by omega)
  have hleads : LeadsTo node (2 * (present freq).length - 2) q (present freq)[j] :=
    ⟨j, hq, (t.leaf_iff (by omega)).2 hj, by rw [t.leaves j hj]; rfl⟩
  have hlen := t.path_length hleads
  have hle := present_length_le freq
  rw [codeOf, t.genCode_path h2 hleads, CodeEntry.path_store (by omega), t.depthOf_eq hq]

theorem IsTreeOf.depthOf_le {j : Nat} (hj : j < 2 * (present freq).length - 1) : depthOf freq node j ≤ 510 := by
  obtain ⟨q, hq⟩ := t.exists_path hj
  have := t.reaches_le (by omega) hq
  have hle := present_length_le freq
  rw [t.depthOf_eq hq]
  omega

/-- An internal node is at most 254 deep, for its leaves are at most 255 deep. -/
theorem IsTreeOf.depthOf_internal_lt {i : Nat} (h1 : (present freq).length ≤ i) (h2 : i < 2 * (present freq).length - 1) :
    depthOf freq node i < (present freq).length - 1 := by
  obtain ⟨q, hq⟩ := t.exists_path h2
  have := t.reaches_le (by omega) hq
  rw [t.depthOf_eq hq]
  omega

/-- `Σ 2^(-len) = 1` over the codes of a tree of two or more symbols (R105). -/
theorem IsTreeOf.complete (h2 : 2 ≤ (present freq).length) :
    ∑ j ∈ Finset.range (present freq).length, 2 ^ (256 - depthOf freq node j) = 2 ^ 256 := by
  have hsum := t.sum_children fun j => 2 ^ (256 - depthOf freq node j)
  have hle := present_length_le freq
  have h1 : ∀ i ∈ Finset.Ico (present freq).length (2 * (present freq).length - 1),
      2 ^ (256 - depthOf freq node (nodeAt node i).left.toNat) + 2 ^ (256 - depthOf freq node (nodeAt node i).right.toNat) =
        2 ^ (256 - depthOf freq node i) := by
    intro i hi
    rw [Finset.mem_Ico] at hi
    obtain ⟨e1, e2⟩ := t.depthOf_child hi.1 hi.2
    have hd := t.depthOf_internal_lt hi.1 hi.2
    rw [e1, e2, ← Nat.two_mul, ← Nat.pow_succ']
    congr 1
    omega
  rw [Finset.sum_congr rfl h1] at hsum
  have e1 : 2 * (present freq).length - 1 = (2 * (present freq).length - 2) + 1 := by omega
  rw [e1, Finset.sum_Ico_succ_top (by omega), t.depthOf_root, Finset.range_eq_Ico,
    ← Finset.sum_Ico_consecutive _ (Nat.zero_le (present freq).length) (by omega), ← Finset.range_eq_Ico] at hsum
  simp only [Nat.sub_zero] at hsum
  omega

/-- The weighted length of the codes is the sum of the internal nodes' frequencies. -/
theorem IsTreeOf.weighted (h2 : 2 ≤ (present freq).length) :
    ∑ j ∈ Finset.range (present freq).length, (nodeAt node j).f.toNat * depthOf freq node j =
      ∑ i ∈ Finset.Ico (present freq).length (2 * (present freq).length - 1), (nodeAt node i).f.toNat := by
  have hsum := t.sum_children fun j => (nodeAt node j).f.toNat * depthOf freq node j
  have h1 : ∀ i ∈ Finset.Ico (present freq).length (2 * (present freq).length - 1),
      (nodeAt node (nodeAt node i).left.toNat).f.toNat * depthOf freq node (nodeAt node i).left.toNat +
          (nodeAt node (nodeAt node i).right.toNat).f.toNat * depthOf freq node (nodeAt node i).right.toNat =
        (nodeAt node i).f.toNat * depthOf freq node i + (nodeAt node i).f.toNat := by
    intro i hi
    rw [Finset.mem_Ico] at hi
    obtain ⟨e1, e2⟩ := t.depthOf_child hi.1 hi.2
    rw [e1, e2, (t.internal i hi.1 hi.2).2.2.2.2.2]
    ring
  rw [Finset.sum_congr rfl h1, Finset.sum_add_distrib] at hsum
  have e1 : 2 * (present freq).length - 1 = (2 * (present freq).length - 2) + 1 := by omega
  have e2 : ∑ i ∈ Finset.Ico (present freq).length (2 * (present freq).length - 1),
      (nodeAt node i).f.toNat * depthOf freq node i =
      ∑ i ∈ Finset.Ico (present freq).length (2 * (present freq).length - 2),
        (nodeAt node i).f.toNat * depthOf freq node i := by
    rw [e1, Finset.sum_Ico_succ_top (by omega), t.depthOf_root, Nat.mul_zero, Nat.add_zero]
  rw [e2, Finset.range_eq_Ico, ← Finset.sum_Ico_consecutive _ (Nat.zero_le (present freq).length) (by omega),
    ← Finset.range_eq_Ico] at hsum
  omega

end

end Sys2Proof.Machine
end

