-- ==== Sys2Proof/Laws/Optimal.lean ====
section
/-! SUPPORT. Towards the optimality of the built tree (spec/41_tree_builder.md R97): Kraft's inequality for prefix-free codes,
the exchange of the two least frequent items with the two deepest, and the greedy lower bound that follows for `FUSE` until
one node remains. -/

namespace Sys2Proof.Machine

/-! ### Kraft's inequality -/

/-- The Kraft sum of lengths is at most 1. -/
def Kraft {ι : Type} (S : Finset ι) (len : ι → Nat) : Prop := ∑ i ∈ S, (1 / 2 : ℝ) ^ len i ≤ 1

/-- Words of a prefix-free code that head two equal strings are equal. -/
theorem flatten_prefixFree {S : Set BitString} (h0 : [] ∉ S) (hp : ∀ u ∈ S, ∀ v ∈ S, u ≠ v → ¬ u <+: v) :
    InformationTheory.UniquelyDecodable S := by
  intro as
  induction as with
  | nil =>
    intro bs _ hb h
    cases bs with
    | nil => rfl
    | cons b bs =>
      have hb0 : b = [] := by
        have := congrArg List.length h
        simp only [List.flatten_nil, List.length_nil, List.flatten_cons, List.length_append] at this
        exact List.length_eq_zero_iff.1 (by omega)
      exact absurd (hb0 ▸ hb b (by simp)) h0
  | cons a as ih =>
    intro bs ha hb h
    cases bs with
    | nil =>
      have ha0 : a = [] := by
        have := congrArg List.length h
        simp only [List.flatten_nil, List.length_nil, List.flatten_cons, List.length_append] at this
        exact List.length_eq_zero_iff.1 (by omega)
      exact absurd (ha0 ▸ ha a (by simp)) h0
    | cons b bs =>
      rw [List.flatten_cons, List.flatten_cons] at h
      have hab : a = b := by
        by_contra hne
        have ha' := ha a (by simp)
        have hb' := hb b (by simp)
        rcases List.append_eq_append_iff.1 h with ⟨r, hr, -⟩ | ⟨r, hr, -⟩
        · exact hp a ha' b hb' hne ⟨r, hr.symm⟩
        · exact hp b hb' a ha' (Ne.symm hne) ⟨r, hr.symm⟩
      subst hab
      rw [List.append_cancel_left h |> ih bs (fun w hw => ha w (by simp [hw])) (fun w hw => hb w (by simp [hw]))]

/-- Kraft's inequality for a prefix-free code of non-empty words. -/
theorem kraft_of_prefixFree {ι : Type} [DecidableEq ι] (S : Finset ι) (c : ι → BitString) (h0 : ∀ a ∈ S, c a ≠ [])
    (hp : ∀ a ∈ S, ∀ b ∈ S, a ≠ b → ¬ c a <+: c b) : Kraft S fun a => (c a).length := by
  have hinj : Set.InjOn c S := by
    intro a ha b hb hab
    by_contra hne
    exact hp a ha b hb hne (hab ▸ List.prefix_refl _)
  have hud : InformationTheory.UniquelyDecodable ((S.image c : Finset BitString) : Set BitString) := by
    apply flatten_prefixFree
    · intro h
      obtain ⟨a, ha, he⟩ := Finset.mem_image.1 (Finset.mem_coe.1 h)
      exact h0 a ha he
    · intro u hu v hv huv
      obtain ⟨a, ha, rfl⟩ := Finset.mem_image.1 (Finset.mem_coe.1 hu)
      obtain ⟨b, hb, rfl⟩ := Finset.mem_image.1 (Finset.mem_coe.1 hv)
      exact hp a ha b hb fun e => huv (by rw [e])
  have := InformationTheory.kraft_mcmillan_inequality hud
  rw [Finset.sum_image (fun a ha b hb h => hinj ha hb h)] at this
  simpa [Kraft] using this

/-! ### The exchange -/

section
variable {ι : Type} [DecidableEq ι] {S : Finset ι} {w len : ι → Nat}

/-- With two items or more no length is 0 alone at the top. -/
theorem Kraft.pos (hk : Kraft S len) (h2 : 2 ≤ S.card) {x : ι} (hx : x ∈ S) : 1 ≤ len x := by
  by_contra h
  obtain ⟨y, hy, hne⟩ := Finset.exists_mem_ne (show 1 < S.card by omega) x
  have hle : ∑ i ∈ ({x, y} : Finset ι), (1 / 2 : ℝ) ^ len i ≤ ∑ i ∈ S, (1 / 2 : ℝ) ^ len i := by
    apply Finset.sum_le_sum_of_subset_of_nonneg
    · intro i hi
      rcases Finset.mem_insert.1 hi with rfl | hi
      · exact hx
      · rw [Finset.mem_singleton.1 hi]; exact hy
    · intro i _ _
      positivity
  rw [Finset.sum_pair hne.symm, show len x = 0 by omega, pow_zero] at hle
  have hpos : (0 : ℝ) < (1 / 2) ^ len y := by positivity
  have := hk
  unfold Kraft at this
  linarith

/-- If one item alone is deepest, it can be one less deep (the Kraft sum leaves room for it). -/
theorem Kraft.shorten (hk : Kraft S len) (h2 : 2 ≤ S.card) {x : ι} (hx : x ∈ S)
    (hmax : ∀ y ∈ S, y ≠ x → len y < len x) : Kraft S (Function.update len x (len x - 1)) := by
  have hpos := hk.pos h2 hx
  obtain ⟨m, hm⟩ : ∃ m, len x = m + 1 := ⟨len x - 1, by omega⟩
  have hterm : ∀ y ∈ S.erase x, (1 / 2 : ℝ) ^ len y = ((2 ^ (m - len y) : ℕ) : ℝ) * (1 / 2) ^ m := by
    intro y hy
    obtain ⟨hne, hyS⟩ := Finset.mem_erase.1 hy
    have hle : len y ≤ m := by have := hmax y hyS hne; omega
    have e : m = len y + (m - len y) := by omega
    conv_rhs => rw [e, pow_add]
    rw [show len y + (m - len y) - len y = m - len y by omega]
    push_cast
    rw [mul_comm, mul_assoc, ← mul_pow]
    norm_num
  have hsplit : ∀ f : ι → Nat, ∑ i ∈ S, (1 / 2 : ℝ) ^ f i = (1 / 2) ^ f x + ∑ i ∈ S.erase x, (1 / 2 : ℝ) ^ f i := fun f =>
    (Finset.add_sum_erase S (fun i => (1 / 2 : ℝ) ^ f i) hx).symm
  have hrest : ∑ i ∈ S.erase x, (1 / 2 : ℝ) ^ len i =
      ((∑ i ∈ S.erase x, 2 ^ (m - len i) : ℕ) : ℝ) * (1 / 2) ^ m := by
    rw [Finset.sum_congr rfl hterm, ← Finset.sum_mul]
    push_cast
    rfl
  have hk' := hk
  unfold Kraft at hk'
  rw [hsplit, hrest, hm] at hk'
  generalize (∑ i ∈ S.erase x, 2 ^ (m - len i) : ℕ) = n at hk' hrest
  have hhalf : (0 : ℝ) < (1 / 2) ^ m := by positivity
  have hinv : ((2 ^ m : ℕ) : ℝ) * (1 / 2) ^ m = 1 := by
    push_cast
    rw [← mul_pow]
    norm_num
  have hlt : n < 2 ^ m := by
    by_contra hge
    have : ((2 ^ m : ℕ) : ℝ) ≤ (n : ℝ) := by exact_mod_cast Nat.le_of_not_lt hge
    have h1 := mul_le_mul_of_nonneg_right this hhalf.le
    rw [hinv] at h1
    have h3 : (0 : ℝ) < (1 / 2) ^ (m + 1) := by positivity
    linarith
  have hle : (n : ℝ) + 1 ≤ ((2 ^ m : ℕ) : ℝ) := by exact_mod_cast hlt
  unfold Kraft
  rw [hsplit, Function.update_self, hm]
  have hsame : ∑ i ∈ S.erase x, (1 / 2 : ℝ) ^ Function.update len x (m + 1 - 1) i =
      ∑ i ∈ S.erase x, (1 / 2 : ℝ) ^ len i :=
    Finset.sum_congr rfl fun i hi => by rw [Function.update_of_ne (Finset.mem_erase.1 hi).1]
  rw [hsame, hrest, show m + 1 - 1 = m by omega]
  have := mul_le_mul_of_nonneg_right hle hhalf.le
  rw [hinv] at this
  linarith

/-- Two items exchange their lengths. -/
def swapLen (len : ι → Nat) (a x : ι) : ι → Nat := len ∘ Equiv.swap a x

theorem sum_swap (f : ι → ℝ) {a x : ι} (ha : a ∈ S) (hx : x ∈ S) :
    ∑ i ∈ S, f (Equiv.swap a x i) = ∑ i ∈ S, f i := by
  apply Finset.sum_equiv (Equiv.swap a x)
  · intro i
    by_cases h1 : i = a
    · subst h1; simp [ha, hx]
    · by_cases h2 : i = x
      · subst h2; simp [ha, hx]
      · rw [Equiv.swap_apply_of_ne_of_ne h1 h2]
  · intro i _
    rfl

theorem Kraft.swap (hk : Kraft S len) {a x : ι} (ha : a ∈ S) (hx : x ∈ S) : Kraft S (swapLen len a x) := by
  unfold Kraft at *
  rw [← sum_swap (fun i => (1 / 2 : ℝ) ^ len i) ha hx] at hk
  exact hk

/-- Giving the lighter item the greater length does not cost more. -/
theorem cost_swap {a x : ι} (ha : a ∈ S) (hx : x ∈ S) (hw : w a ≤ w x) (hl : len a ≤ len x) :
    ∑ i ∈ S, w i * swapLen len a x i ≤ ∑ i ∈ S, w i * len i := by
  by_cases e : a = x
  · subst e
    simp [swapLen]
  have hxa : x ∈ S.erase a := Finset.mem_erase.2 ⟨Ne.symm e, hx⟩
  have split : ∀ f : ι → Nat, ∑ i ∈ S, f i = f a + (f x + ∑ i ∈ (S.erase a).erase x, f i) := fun f => by
    rw [Finset.add_sum_erase _ _ hxa, Finset.add_sum_erase _ _ ha]
  rw [split, split (fun i => w i * len i)]
  have hrest : ∑ i ∈ (S.erase a).erase x, w i * swapLen len a x i = ∑ i ∈ (S.erase a).erase x, w i * len i := by
    refine Finset.sum_congr rfl fun i hi => ?_
    have h1 := Finset.mem_erase.1 hi
    have h2 := Finset.mem_erase.1 h1.2
    simp only [swapLen, Function.comp, Equiv.swap_apply_of_ne_of_ne h2.1 h1.1]
  rw [hrest]
  simp only [swapLen, Function.comp, Equiv.swap_apply_left, Equiv.swap_apply_right]
  obtain ⟨p, hp⟩ := Nat.exists_eq_add_of_le hw
  obtain ⟨q, hq⟩ := Nat.exists_eq_add_of_le hl
  rw [hp, hq]
  have : w a * (len a + q) + ((w a + p) * len a) ≤ w a * len a + ((w a + p) * (len a + q)) := by
    ring_nf
    omega
  omega

/-- Any lengths that meet Kraft's inequality can be changed, without costing more, so that the two lightest items have the
same length. -/
theorem exchange (a c : ι) (ha : a ∈ S) (hc : c ∈ S) (hac : a ≠ c) (hwa : ∀ x ∈ S, w a ≤ w x)
    (hwc : ∀ x ∈ S, x ≠ a → w c ≤ w x) (hk : Kraft S len) :
    ∃ len' : ι → Nat, Kraft S len' ∧ len' a = len' c ∧ 1 ≤ len' a ∧
      ∑ i ∈ S, w i * len' i ≤ ∑ i ∈ S, w i * len i := by
  have h2 : 2 ≤ S.card := Finset.one_lt_card.2 ⟨a, ha, c, hc, hac⟩
  induction hn : ∑ i ∈ S, len i using Nat.strong_induction_on generalizing len with
  | _ n ih =>
    obtain ⟨x, hx, hmax⟩ := Finset.exists_max_image S len ⟨a, ha⟩
    by_cases huniq : ∀ y ∈ S, y ≠ x → len y < len x
    · have hpos := hk.pos h2 hx
      have hk' := hk.shorten h2 hx huniq
      have hsum : ∀ f : ι → Nat, ∑ i ∈ S, f i = f x + ∑ i ∈ S.erase x, f i := fun f =>
        (Finset.add_sum_erase S f hx).symm
      have hrest : ∀ g : ι → Nat → Nat, ∑ i ∈ S.erase x, g i (Function.update len x (len x - 1) i) =
          ∑ i ∈ S.erase x, g i (len i) := fun g =>
        Finset.sum_congr rfl fun i hi => by rw [Function.update_of_ne (Finset.mem_erase.1 hi).1]
      obtain ⟨len', h1, h3, h4, h5⟩ := ih (∑ i ∈ S, Function.update len x (len x - 1) i) (by
        rw [← hn, hsum, hsum len, Function.update_self, hrest fun _ l => l]
        omega) hk' rfl
      refine ⟨len', h1, h3, h4, h5.trans ?_⟩
      rw [hsum, hsum (fun i => w i * len i), Function.update_self, hrest fun i l => w i * l]
      exact Nat.add_le_add_right (Nat.mul_le_mul_left _ (Nat.sub_le _ _)) _
    · obtain ⟨y, hy⟩ : ∃ y ∈ S, y ≠ x ∧ len y = len x := by
        by_contra hno
        exact huniq fun y hy hne => lt_of_le_of_ne (hmax y hy) fun e => hno ⟨y, hy, hne, e⟩
      obtain ⟨hyS, hyx, hlen⟩ := hy
      have hk1 := hk.swap ha hx
      have hc1 := cost_swap (w := w) ha hx (hwa x hx) (hmax a ha)
      have h1a : swapLen len a x a = len x := by simp [swapLen]
      -- the second deepest place after the exchange
      obtain ⟨z, hz, hza, hzl⟩ : ∃ z ∈ S, z ≠ a ∧ swapLen len a x z = len x := by
        by_cases e : y = a
        · subst e
          exact ⟨x, hx, Ne.symm hyx, by simp [swapLen, hlen]⟩
        · exact ⟨y, hyS, e, by simp only [swapLen, Function.comp, Equiv.swap_apply_of_ne_of_ne e hyx, hlen]⟩
      have hmax1 : ∀ i ∈ S, swapLen len a x i ≤ len x := by
        intro i hi
        by_cases e1 : i = a
        · subst e1; rw [h1a]
        · by_cases e2 : i = x
          · subst e2; simpa [swapLen] using hmax a ha
          · simpa only [swapLen, Function.comp, Equiv.swap_apply_of_ne_of_ne e1 e2] using hmax i hi
      have hk2 := hk1.swap hc hz
      have hc2 := cost_swap (w := w) (len := swapLen len a x) hc hz (hwc z hz hza) (by rw [hzl]; exact hmax1 c hc)
      refine ⟨_, hk2, ?_, hk2.pos h2 ha, hc2.trans hc1⟩
      have e1 : swapLen (swapLen len a x) c z a = len x := by
        simp only [swapLen, Function.comp] at h1a ⊢
        rw [Equiv.swap_apply_of_ne_of_ne hac (Ne.symm hza)]
        exact h1a
      have e2 : swapLen (swapLen len a x) c z c = len x := by
        rw [← hzl]
        simp [swapLen]
      rw [e1, e2]

end

/-! ### The greedy lower bound -/

theorem fuse_node_lt {b : Builder} (h : 2 ≤ b.pq.length) (hn : b.n < 511) {i : Nat} (hi : i < b.n) :
    nodeAt (fuse b).node i = nodeAt b.node i := by
  obtain ⟨a, c, q, q', -, -, hf⟩ := fuse_eq h
  rw [hf, Builder.push_node ⟨b.node, q', b.n⟩ _ _ hn, if_neg (show i ≠ b.n by omega)]

/-- `FUSE` until one node remains leaves the nodes that are there alone. -/
theorem fuseAll_node_lt {freq : FreqTable} (ht : totalCount freq < 2 ^ 32) (k : Nat) {b : Builder} (hb : Building freq b)
    {i : Nat} (hi : i < b.n) : nodeAt (fuseAll k b).node i = nodeAt b.node i := by
  induction k generalizing b with
  | zero => rfl
  | succ k ih =>
    rw [fuseAll]
    split
    · rfl
    · rename_i h
      have h2 : 2 ≤ b.pq.length := by omega
      have hn : b.n < 511 := by
        have := hb.count
        have := present_length_le freq
        omega
      obtain ⟨a, c, q, q', -, -, hf⟩ := fuse_eq h2
      rw [ih (fuse_building hb ht h2).1 (by rw [hf]; simp only [Builder.push_n]; omega), fuse_node_lt h2 hn hi]

/-- What the rest of the fusing costs is at most what any lengths that meet Kraft's inequality cost. -/
theorem fuseAll_cost {freq : FreqTable} (ht : totalCount freq < 2 ^ 32) (k : Nat) {b : Builder} (hb : Building freq b)
    (hk : b.pq.length ≤ k) (len : Nat → Nat) (hkr : Kraft b.pq.toFinset len) :
    ∑ i ∈ Finset.Ico b.n (2 * (present freq).length - 1), (nodeAt (fuseAll k b).node i).f.toNat ≤
      ∑ i ∈ b.pq.toFinset, (nodeAt b.node i).f.toNat * len i := by
  induction k generalizing b len with
  | zero =>
    have := List.length_pos_of_mem hb.newest
    omega
  | succ k ih =>
    have hcount := hb.count
    rw [fuseAll]
    split
    · rename_i h
      have := List.length_pos_of_mem hb.newest
      rw [Finset.Ico_eq_empty (by omega), Finset.sum_empty]
      exact Nat.zero_le _
    · rename_i h
      have h2 : 2 ≤ b.pq.length := by omega
      have hle := present_length_le freq
      have hn : b.n < 511 := by omega
      obtain ⟨hb', hlen'⟩ := fuse_building hb ht h2
      obtain ⟨a, c, q, q', haq, hcq, hf⟩ := fuse_eq h2
      obtain ⟨ha, rfl, hmina⟩ := extractMin_spec haq
      obtain ⟨hc, rfl, hminc⟩ := extractMin_spec hcq
      have hcb : c ∈ b.pq := List.mem_of_mem_erase hc
      have hac : a ≠ c := by
        rintro rfl
        exact absurd hc hb.nodup.not_mem_erase
      have hS : (fuse b).pq.toFinset = insert b.n ((b.pq.toFinset.erase a).erase c) := by
        rw [hf]
        ext i
        simp only [Builder.push_pq, List.toFinset_cons, Finset.mem_insert, List.mem_toFinset, Finset.mem_erase]
        rw [(hb.nodup.erase a).mem_erase_iff, hb.nodup.mem_erase_iff]
      have hnew : b.n ∉ (b.pq.toFinset.erase a).erase c := fun hm => by
        have := hb.below b.n (List.mem_toFinset.1 (Finset.mem_of_mem_erase (Finset.mem_of_mem_erase hm)))
        omega
      have hlt : ∀ x, ∀ j, j = x ∨ keyLt b.node x j = true → (nodeAt b.node x).f.toNat ≤ (nodeAt b.node j).f.toNat := by
        rintro x j (rfl | hj)
        · exact Nat.le_refl _
        · rw [keyLt_iff] at hj; omega
      obtain ⟨len1, k1, e1, p1, c1⟩ := exchange (S := b.pq.toFinset) (w := fun i => (nodeAt b.node i).f.toNat) a c
        (List.mem_toFinset.2 ha) (List.mem_toFinset.2 hcb) hac
        (fun x hx => hlt a x (hmina x (List.mem_toFinset.1 hx)))
        (fun x hx hxa => hlt c x (hminc x ((List.mem_erase_of_ne hxa).2 (List.mem_toFinset.1 hx)))) hkr
      -- the lengths with the fused node one less deep than its children
      let len2 : Nat → Nat := Function.update len1 b.n (len1 a - 1)
      have hca : c ∈ b.pq.toFinset.erase a := Finset.mem_erase.2 ⟨Ne.symm hac, List.mem_toFinset.2 hcb⟩
      have split : ∀ {M : Type} [AddCommMonoid M] (g : Nat → M), ∑ i ∈ b.pq.toFinset, g i =
          g a + (g c + ∑ i ∈ (b.pq.toFinset.erase a).erase c, g i) := fun g => by
        rw [Finset.add_sum_erase _ _ hca, Finset.add_sum_erase _ _ (List.mem_toFinset.2 ha)]
      have join : ∀ {M : Type} [AddCommMonoid M] (g : Nat → M), ∑ i ∈ (fuse b).pq.toFinset, g i =
          g b.n + ∑ i ∈ (b.pq.toFinset.erase a).erase c, g i := fun g => by
        rw [hS, Finset.sum_insert hnew]
      have rest : ∀ i ∈ (b.pq.toFinset.erase a).erase c, len2 i = len1 i := fun i hi =>
        Function.update_of_ne (by rintro rfl; exact hnew hi) _ _
      have hnodes : ∀ i, i < b.n → nodeAt (fuse b).node i = nodeAt b.node i := fun i hi => fuse_node_lt h2 hn hi
      have hbelow : ∀ i ∈ (b.pq.toFinset.erase a).erase c, i < b.n := fun i hi =>
        hb.below i (List.mem_toFinset.1 (Finset.mem_of_mem_erase (Finset.mem_of_mem_erase hi)))
      have hkr2 : Kraft (fuse b).pq.toFinset len2 := by
        unfold Kraft at k1 ⊢
        rw [split] at k1
        rw [join, Finset.sum_congr rfl fun i hi => by rw [rest i hi]]
        have e2 : len2 b.n = len1 a - 1 := Function.update_self ..
        have e3 : (1 / 2 : ℝ) ^ (len1 a - 1) = (1 / 2) ^ len1 a + (1 / 2) ^ len1 c := by
          rw [← e1]
          conv_rhs => rw [show len1 a = (len1 a - 1) + 1 by omega, pow_succ]
          ring
        rw [e2, e3]
        linarith
      have hn' : (fuse b).n = b.n + 1 := by rw [hf]; rfl
      have hnode : (nodeAt (fuse b).node b.n).f.toNat = (nodeAt b.node a).f.toNat + (nodeAt b.node c).f.toNat := by
        have hint := hb'.internal b.n hb.lo (by omega)
        have hna : nodeAt (fuse b).node b.n = fusedNode b.node a c := by
          rw [hf, Builder.push_node ⟨b.node, (b.pq.erase a).erase c, b.n⟩ _ _ hn, if_pos rfl]
        have ha511 := hb.below a ha
        have hc511 := hb.below c hcb
        rw [hint.2.2.2.2.2, hna]
        simp only [fusedNode, BitVec.toNat_ofNat]
        rw [Nat.mod_eq_of_lt (by omega), Nat.mod_eq_of_lt (by omega), hnodes a ha511, hnodes c hc511]
      have hrec := ih hb' (by omega) len2 hkr2
      have hlast : nodeAt (fuseAll k (fuse b)).node b.n = nodeAt (fuse b).node b.n :=
        fuseAll_node_lt ht k hb' (by omega)
      rw [Finset.sum_eq_sum_Ico_succ_bot (by omega), hlast, hnode, ← hn']
      have hsame : ∑ i ∈ (b.pq.toFinset.erase a).erase c, (nodeAt (fuse b).node i).f.toNat * len2 i =
          ∑ i ∈ (b.pq.toFinset.erase a).erase c, (nodeAt b.node i).f.toNat * len1 i :=
        Finset.sum_congr rfl fun i hi => by rw [rest i hi, hnodes i (hbelow i hi)]
      rw [join, hsame, hnode] at hrec
      rw [split] at c1
      have e2 : len2 b.n = len1 a - 1 := Function.update_self ..
      rw [e2] at hrec
      rw [← e1] at c1
      obtain ⟨m, hm⟩ : ∃ m, len1 a = m + 1 := ⟨len1 a - 1, by omega⟩
      rw [hm] at hrec c1
      rw [show m + 1 - 1 = m by omega] at hrec
      have e4 : ((nodeAt b.node a).f.toNat + (nodeAt b.node c).f.toNat) * m + ((nodeAt b.node a).f.toNat +
          (nodeAt b.node c).f.toNat) = (nodeAt b.node a).f.toNat * (m + 1) + (nodeAt b.node c).f.toNat * (m + 1) := by ring
      omega

/-! ### The built code is no longer than any other (R97) -/

theorem seed_queue (freq : FreqTable) (node : NodeTable) :
    (seed freq node).n = (present freq).length ∧ (seed freq node).pq.toFinset = Finset.range (present freq).length := by
  have hle := present_length_le freq
  have h := seed_fold freq (present freq) ⟨node, [], 0⟩ (by simp; omega)
  simp only [show (present freq).foldl (fun b s => b.push (leafNode freq s)) ⟨node, [], 0⟩ = seed freq node from rfl,
    List.not_mem_nil, false_or, Nat.zero_add, Nat.zero_le, true_and] at h
  refine ⟨h.1, ?_⟩
  ext i
  rw [List.mem_toFinset, h.2.1, Finset.mem_range]

/-- With two symbols or more, the codes of the built tree weigh no more than any prefix-free coding. -/
theorem builtCode_le {freq : FreqTable} (node : NodeTable) (h2 : 2 ≤ (present freq).length) (ht : totalCount freq < 2 ^ 32)
    (c : Byte → BitString) (h0 : ∀ a ∈ present freq, c a ≠ [])
    (hp : ∀ a ∈ present freq, ∀ b ∈ present freq, a ≠ b → ¬ c a <+: c b) :
    weightedLength freq (codeOf (genCode (buildTree freq node).node (2 * (present freq).length - 2))) ≤
      weightedLength freq c := by
  have hpos : 1 ≤ (present freq).length := by omega
  obtain ⟨-, -, t⟩ := buildTree_spec node hpos ht
  have hb := seed_building freq node hpos
  obtain ⟨hn, hset⟩ := seed_queue freq node
  unfold weightedLength
  have hleft : ((present freq).map fun s => (tableGet freq s).toNat *
      (codeOf (genCode (buildTree freq node).node (2 * (present freq).length - 2)) s).length).sum =
      ∑ i ∈ Finset.Ico (present freq).length (2 * (present freq).length - 1),
        (nodeAt (buildTree freq node).node i).f.toNat := by
    rw [← t.weighted h2]
    apply sum_map_eq_sum_range
    intro j hj
    rw [t.codeOf_length_leaf h2 hj, t.leaves j hj]
    rfl
  let len : Nat → Nat := fun j => if h : j < (present freq).length then (c (present freq)[j]).length else 0
  have hright : ((present freq).map fun s => (tableGet freq s).toNat * (c s).length).sum =
      ∑ j ∈ Finset.range (present freq).length, (nodeAt (seed freq node).node j).f.toNat * len j := by
    apply sum_map_eq_sum_range
    intro j hj
    rw [hb.leaves j hj]
    simp only [len, dif_pos hj]
    rfl
  have hkr : Kraft (seed freq node).pq.toFinset len := by
    have hk := kraft_of_prefixFree (Finset.range (present freq).length)
      (fun j => if h : j < (present freq).length then c (present freq)[j] else [])
      (fun j hj => by rw [dif_pos (Finset.mem_range.1 hj)]; exact h0 _ (List.getElem_mem _))
      (fun i hi j hj hij => by
        rw [dif_pos (Finset.mem_range.1 hi), dif_pos (Finset.mem_range.1 hj)]
        refine hp _ (List.getElem_mem _) _ (List.getElem_mem _) fun e => hij ?_
        exact (nodup_of_ascending (present_ascending freq)).getElem_inj_iff.1 e)
    rw [hset]
    convert hk using 1
    funext j
    simp only [len]
    split <;> rfl
  have hcost := fuseAll_cost ht _ hb (le_refl _) len hkr
  rw [hn, hset] at hcost
  rw [hleft, hright]
  exact hcost

/-- A payload is as long as the counts of its bytes weigh (R105). -/
theorem payload_length_weighted {bs : List Byte} (h : bs.length < 2 ^ 32) (code : CodeTable) :
    (payload code bs).length = weightedLength (countBytes bs) (codeOf code) := by
  have key : ∀ l : List Byte, l.Nodup → (∀ b ∈ bs, b ∈ l) →
      (payload code bs).length = (l.map fun s => bs.count s * (codeOf code s).length).sum := by
    intro l hl
    clear h
    induction bs with
    | nil => intro _; simp [payload]
    | cons b bs ih =>
      intro hb
      have hbl := hb b (by simp)
      have e : payload code (b :: bs) = codeOf code b ++ payload code bs := rfl
      rw [e, List.length_append, ih fun x hx => hb x (by simp [hx])]
      have hperm := List.perm_cons_erase hbl
      rw [(hperm.map _).sum_eq, (hperm.map (fun s => (b :: bs).count s * (codeOf code s).length)).sum_eq]
      simp only [List.map_cons, List.sum_cons, List.count_cons_self]
      have : (l.erase b).map (fun s => (b :: bs).count s * (codeOf code s).length) =
          (l.erase b).map (fun s => bs.count s * (codeOf code s).length) := by
        apply List.map_congr_left
        intro s hs
        have : s ≠ b := by
          rintro rfl
          exact hl.not_mem_erase hs
        rw [List.count_cons_of_ne (Ne.symm this)]
      rw [this]
      ring
  unfold weightedLength
  rw [key (present (countBytes bs)) (nodup_of_ascending (present_ascending _))
    (fun b hb => (mem_present_countBytes h b).2 hb)]
  congr 1
  apply List.map_congr_left
  intro s _
  rw [countBytes_toNat h]

end Sys2Proof.Machine
end

