-- ==== Sys2Proof/Laws/PerInstr.lean ====
section
/-! SUPPORT. What holds of every command as syntax, one lemma per constructor (spec/30_encoding.md R65, R66): the command
has exactly one row in the opcode map, the row's number is the `OP` of the encoder's word, and `ZERO` is 0 there. -/

namespace Sys2Proof.Laws.OpcodeRow

/-- The rows of the opcode map that name the command are the one row of its number, which its word carries in bits 7..0
below a `ZERO` field of 0. -/
def Statement (i : Instr) : Prop :=
  opcodeMap.filter (fun row => row.2 == i) = [(opOf i, i)] ∧ CmdWord.ofWord (encode i) = ⟨0#24, opOf i⟩

theorem nop : Statement .nop := by unfold Statement; decide
theorem clear : Statement .clear := by unfold Statement; decide
theorem count : Statement .count := by unfold Statement; decide
theorem build : Statement .build := by unfold Statement; decide
theorem gencode : Statement .gencode := by unfold Statement; decide
theorem encode : Statement .encode := by unfold Statement; decide
theorem wrhdr : Statement .wrhdr := by unfold Statement; decide
theorem rdhdr : Statement .rdhdr := by unfold Statement; decide
theorem decode : Statement .decode := by unfold Statement; decide
theorem compress : Statement .compress := by unfold Statement; decide
theorem decompress : Statement .decompress := by unfold Statement; decide

end Sys2Proof.Laws.OpcodeRow
end

