-- ==== Sys2Proof/Tests/Slice0.lean ====
section
/-! SUPPORT. The model's own tests, on small states: ill-formed words, words written out from spec/30_encoding.md, single
steps with the results of spec/95_test_vectors.md, and for every statement with hypotheses states that meet them all
(`test_hyps_…`). -/

namespace Sys2Proof.Tests

open Sys2Proof.Machine

/-! ### Words (R65 to R67) -/

/-- An ill-formed word for each check: `ZERO` not 0, and an `OP` that R66 does not assign. -/
theorem test_illformed_refused :
    (CmdWord.ofWord 0x00000102#32).zeroOk = false ∧ (CmdWord.ofWord 0x00000102#32).wf = false ∧
    (CmdWord.ofWord 0x00000009#32).opOk = false ∧ (CmdWord.ofWord 0x00000009#32).wf = false ∧
    (CmdWord.ofWord 0x00000011#32).wf = true := by decide

theorem test_decode_control :
    decode 0b00000000000000000000000000000000#32 = .ok .nop ∧
    decode 0b00000000000000000000000000000001#32 = .ok .clear := by decide

theorem test_decode_encoder :
    decode 0b00000000000000000000000000000010#32 = .ok .count ∧
    decode 0b00000000000000000000000000000011#32 = .ok .build ∧
    decode 0b00000000000000000000000000000100#32 = .ok .gencode ∧
    decode 0b00000000000000000000000000000101#32 = .ok .encode := by decide

theorem test_decode_header_decoder :
    decode 0b00000000000000000000000000000110#32 = .ok .wrhdr ∧
    decode 0b00000000000000000000000000000111#32 = .ok .rdhdr ∧
    decode 0b00000000000000000000000000001000#32 = .ok .decode := by decide

theorem test_decode_composite :
    decode 0b00000000000000000000000000010000#32 = .ok .compress ∧
    decode 0b00000000000000000000000000010001#32 = .ok .decompress := by decide

theorem test_decode_rejects :
    decode 0x0000000F#32 = .error (.unassignedOp 0x0F#8) ∧ decode 0x000000FF#32 = .error (.unassignedOp 0xFF#8) ∧
    decode 0x80000000#32 = .error (.zeroFieldSet 0x80000000#32) ∧ decodeTableWord 32 0x10 = some .compress ∧
    decodeTableWord 32 0x09 = none := by decide

/-! ### States to run on -/

/-- The reset machine with four windows laid out: the input at `0x100`, a header at `0x200`, a packed stream at `0x3000`,
room for six bytes at `0x4000`. -/
def holding (src hdr pkd : List Byte) (bitcnt : Nat) : State :=
  { State.reset with
    regs := { Regs.reset with
      srcAddr := 0x100#32, srcLen := BitVec.ofNat 32 src.length
      hdrAddr := 0x200#32, hdrCap := 8715#32, hdrLen := BitVec.ofNat 32 hdr.length
      pkdAddr := 0x3000#32, pkdCap := 192#32, pkdLen := BitVec.ofNat 32 pkd.length
      dstAddr := 0x4000#32, dstCap := 6#32, bitcntLo := BitVec.ofNat 32 bitcnt }
    mem := Memory.setBytes (Memory.setBytes (Memory.setBytes [] 0x100 src) 0x200 hdr) 0x3000 pkd }

/-- The input of V1 of spec/95_test_vectors.md: "aaabbc". -/
def v1Src : List Byte := [0x61#8, 0x61#8, 0x61#8, 0x62#8, 0x62#8, 0x63#8]

/-- V1's header. -/
def v1Hdr : List Byte :=
  [0x01#8, 0x00#8, 0x03#8, 0x61#8, 0x01#8, 0x00#8, 0x62#8, 0x02#8, 0xC0#8, 0x63#8, 0x02#8, 0x80#8,
   0x00#8, 0x00#8, 0x00#8, 0x00#8, 0x00#8, 0x00#8, 0x00#8, 0x09#8]

/-- V1's input, header, packed stream and bit count, each in its window. -/
def v1 : State := holding v1Src v1Hdr [0x1F#8, 0x00#8] 9

/-- The state after `BUILD` and `GENCODE` would have filled the tables, with a register change of the caller's. -/
def tabledWith (s : State) (f : Regs → Regs) : State := { s.tabled with regs := f s.tabled.regs }

/-- What a command leaves, where it is not refused. -/
def after (i : Instr) (s : State) : State :=
  match exec i s with
  | .next t => t
  | .fault _ | .refused _ => s

/-- A command is not refused. -/
def runs (i : Instr) (s : State) : Bool :=
  match exec i s with
  | .next _ => true
  | .fault _ | .refused _ => false

theorem after_spec {i : Instr} {s : State} (h : runs i s = true) : exec i s = .next (after i s) := by
  unfold runs at h
  unfold after
  split at h <;> simp_all

theorem runs_of_windowsOk {i : Instr} {s : State} (h : WindowsOk i s) : runs i s = true := by
  unfold runs
  rw [exec_eq, runCommand, show windowBreach i s.regs s.platform = none from h]
  cases bodyOf i s <;> rfl

/-- V1's code table as header entries. -/
def v1Entries : List HeaderEntry := [(0x61#8, [false]), (0x62#8, [true, true]), (0x63#8, [true, false])]

/-- V1's code table. -/
def v1Code : CodeTable := loadEntries v1Entries noCodes

/-- V1 after `RDHDR`'s pseudocode, with a register change of the caller's that keeps the context. -/
def loadedWith (f : Regs → Regs) : State := { v1.loaded ⟨v1Code, 3, 9#64⟩ with regs := f (v1.loaded ⟨v1Code, 3, 9#64⟩).regs }

theorem v1_entries : (∀ e ∈ v1Entries, 1 ≤ e.2.length ∧ e.2.length ≤ 255) ∧ (v1Entries.map (·.1)).Nodup := by decide

theorem v1_code : codeOf v1Code 0x61#8 = [false] ∧ codeOf v1Code 0x62#8 = [true, true] ∧ codeOf v1Code 0x63#8 = [true, false] :=
  ⟨codeOf_loadEntries v1_entries.1 v1_entries.2 (e := (0x61#8, [false])) (by decide),
    codeOf_loadEntries v1_entries.1 v1_entries.2 (e := (0x62#8, [true, true])) (by decide),
    codeOf_loadEntries v1_entries.1 v1_entries.2 (e := (0x63#8, [true, false])) (by decide)⟩

theorem v1_coded (s : Byte) : s ∈ coded v1Code ↔ s ∈ [0x61#8, 0x62#8, 0x63#8] :=
  mem_coded_loadEntries v1_entries.1 v1_entries.2 s

/-- Two ascending lists with the same symbols are equal. -/
theorem ascending_ext {l m : List Byte} (hl : l.Pairwise (fun a b => a.toNat < b.toNat))
    (hm : m.Pairwise (fun a b => a.toNat < b.toNat)) (h : ∀ a, a ∈ l ↔ a ∈ m) : l = m :=
  ((List.perm_ext_iff_of_nodup (nodup_of_ascending hl) (nodup_of_ascending hm)).2 h).eq_of_pairwise
    (fun a b _ _ h1 h2 => absurd h1 (by omega)) hl hm

theorem v1_coded_list : coded v1Code = [0x61#8, 0x62#8, 0x63#8] :=
  ascending_ext (coded_ascending _) (by decide) v1_coded

theorem v1_payload : payload v1Code v1Src = [false, false, false, true, true, true, true, true, false] := by
  obtain ⟨h1, h2, h3⟩ := v1_code
  simp only [codeOf] at h1 h2 h3
  simp [payload, v1Src, h1, h2, h3]

theorem v1_headerSize : headerSize v1Code = 20 := by
  have h := v1_coded_list
  obtain ⟨h1, h2, h3⟩ := v1_code
  have e1 := congrArg List.length h1
  have e2 := congrArg List.length h2
  have e3 := congrArg List.length h3
  rw [codeOf_length] at e1 e2 e3
  unfold headerSize
  rw [h]
  simp only [List.map_cons, List.map_nil, e1, e2, e3]
  rfl

theorem v1_header : HeaderHolds v1.headerByte v1.regs.hdrLen.toNat v1Entries 9#64 where
  format := by decide +kernel
  count := by decide +kernel
  bounds := by decide
  entries :=
    ⟨⟨by decide +kernel, by decide, by decide +kernel, by unfold BitsFrom; decide +kernel⟩,
      ⟨by decide +kernel, by decide, by decide +kernel, by unfold BitsFrom; decide +kernel⟩,
      ⟨by decide +kernel, by decide, by decide +kernel, by unfold BitsFrom; decide +kernel⟩, trivial⟩
  once := by decide
  size := by decide +kernel
  bitcnt := by decide +kernel
  prefixFree := by decide

theorem v1_parse : parseHeader v1.headerByte v1.regs.hdrLen.toNat = .ok ⟨v1Code, 3, 9#64⟩ := by
  rw [v1_header.parse, v1Code]
  rfl

theorem v1_windows (i : Instr) : WindowsOk i v1 := by unfold WindowsOk; cases i <;> decide +kernel

theorem loadedWith_inv (f : Regs → Regs) (h1 : ∀ r, (f r).freqValid = r.freqValid) (h2 : ∀ r, (f r).treeValid = r.treeValid)
    (h3 : ∀ r, (f r).codeValid = r.codeValid) (h4 : ∀ r, (f r).nsym = r.nsym) (h5 : ∀ r, (f r).nnode = r.nnode)
    (h6 : ∀ r, (f r).root = r.root) : ContextInv (loadedWith f) :=
  ContextInv.congr (r := v1.loaded ⟨v1Code, 3, 9#64⟩) (contextInv_loaded v1_parse) rfl rfl rfl (h1 _) (h2 _) (h3 _) (h4 _)
    (h5 _) (h6 _)

theorem v1_stream : BitsFrom v1.packedStreamBit 0 (payload v1Code v1Src) := by
  rw [v1_payload]; unfold BitsFrom; decide +kernel

/-- `COMPRESS` succeeds with room for the largest results. -/
theorem compress_ok {s : State} (hw : WindowsOk .compress s) (hs : InRange s.regs.srcAddr s.regs.srcLen)
    (hh : InRange s.regs.hdrAddr s.regs.hdrCap) (hp : InRange s.regs.pkdAddr s.regs.pkdCap) (h0 : s.regs.srcLen ≠ 0#32)
    (h1 : 8715 ≤ s.regs.hdrCap.toNat) (h2 : ceil8 (255 * s.regs.srcLen.toNat) ≤ s.regs.pkdCap.toNat) :
    ∃ t, exec .compress s = .next t ∧ t.regs.err = false := by
  have hl := payload_length_le s.tabled.code s.srcBytes
  have hb := s.srcBytes_length
  obtain ⟨hn, hc⟩ := (contextInv_tabled h0).codeNsym rfl
  have hz := (headerSize_bounds (List.ne_nil_of_length_pos (hc ▸ hn))).2
  refine ⟨_, exec_of_done hw (compressBody_done rfl hs hh hp h0 ?_ (by omega)), by simp⟩
  unfold ceil8 at *
  omega

/-! ### Commands, with the results of spec/95_test_vectors.md -/

theorem v1_src : v1.srcBytes = v1Src := by decide +kernel

theorem v1_present : present (countBytes v1Src) = [0x61#8, 0x62#8, 0x63#8] :=
  ascending_ext (present_ascending _) (by decide) fun a => by
    rw [mem_present_countBytes (by decide)]; simp [v1Src]

/-- V1, `COUNT`: `NSYM = 3`, `STATUS = 0x12`, and the counts. -/
theorem test_count_v1 :
    ∃ t, exec .count v1 = .next t ∧ t.regs.nsym = 3#9 ∧ t.regs.statusWord = 0x12#32 ∧
      tableGet t.freq 0x61#8 = 3#32 ∧ tableGet t.freq 0x64#8 = 0#32 := by
  refine ⟨_, exec_of_done (v1_windows _) (countBody_done (by unfold InRange; decide)), ?_, by decide +kernel, ?_, ?_⟩
  · show BitVec.ofNat 9 (present (countBytes v1.srcBytes)).length = 3#9
    rw [v1_src, v1_present]; rfl
  · decide +kernel
  · decide +kernel

/-- V1, `BUILD`: five nodes, root 4, and the two internal nodes. -/
theorem v1_tree :
    (buildTree (countBytes v1Src) State.reset.node).n = 5 ∧ (buildTree (countBytes v1Src) State.reset.node).pq = [4] ∧
    (nodeAt (buildTree (countBytes v1Src) State.reset.node).node 0).linkWord = 0x0587FFFF#32 ∧
    nodeAt (buildTree (countBytes v1Src) State.reset.node).node 3 = ⟨3#32, false, 0#8, 2#9, 1#9⟩ ∧
    nodeAt (buildTree (countBytes v1Src) State.reset.node).node 4 = ⟨6#32, false, 0#8, 0#9, 3#9⟩ := by
  unfold buildTree seed
  rw [v1_present]
  decide +kernel

theorem built_fields (s : State) :
    s.built.succeed.regs.nnode = BitVec.ofNat 10 (buildTree s.freq s.node).n ∧
    s.built.succeed.regs.root = BitVec.ofNat 9 ((buildTree s.freq s.node).pq.headD 0) ∧
    s.built.succeed.node = (buildTree s.freq s.node).node := ⟨rfl, rfl, rfl⟩

theorem test_build_v1 :
    ∃ t, exec .build v1.counted = .next t ∧ t.regs.nnode = 5#10 ∧ t.regs.root = 4#9 ∧
      nodeAt t.node 4 = ⟨6#32, false, 0#8, 0#9, 3#9⟩ := by
  obtain ⟨h1, h2, -, -, h3⟩ := v1_tree
  have e : buildTree v1.counted.freq v1.counted.node = buildTree (countBytes v1Src) State.reset.node := by
    show buildTree (countBytes v1.srcBytes) State.reset.node = _
    rw [v1_src]
  refine ⟨_, exec_of_done rfl (buildBody_done rfl (counted_nsym_ne_zero (s := v1) (by decide))), ?_, ?_, ?_⟩
  · rw [(built_fields _).1, e, h1]
  · rw [(built_fields _).2.1, e, h2]; rfl
  · rw [(built_fields _).2.2, e, h3]

theorem tabled_node (s : State) : s.tabled.node = (buildTree (countBytes s.srcBytes) s.node).node := rfl

/-- V1, `GENCODE`: "a" is 0, "b" is 11, "c" is 10. -/
theorem test_gencode_v1 :
    codeOf v1.tabled.code 0x61#8 = [false] ∧ codeOf v1.tabled.code 0x62#8 = [true, true] ∧
    codeOf v1.tabled.code 0x63#8 = [true, false] := by
  rw [tabled_code_eq (by decide), tabled_node, tabled_freq, v1_src, v1_present]
  unfold buildTree seed
  rw [v1_present]
  decide +kernel

/-- The table `COMPRESS` makes of V1 is V1's. -/
theorem v1_tabled_code : v1.tabled.code = v1Code := by
  have hi := contextInv_tabled (s := v1) (by decide)
  obtain ⟨h1, h2, h3⟩ := test_gencode_v1
  refine TableOfEntries.unique (es := v1Entries) ⟨hi.codeClean rfl, ?_, fun s hs => ?_⟩
    (tableOfEntries_loadEntries v1_entries.1 v1_entries.2)
  · intro e he
    simp only [v1Entries, List.mem_cons, List.not_mem_nil, or_false] at he
    rcases he with rfl | rfl | rfl
    · exact h1
    · exact h2
    · exact h3
  · have hn : s ∉ coded v1.tabled.code := fun h => by
      rw [coded_tabled (by decide), v1_src] at h
      exact hs (by revert h; simp [v1Src, v1Entries])
    have hl : (tableGet v1.tabled.code s).len = 0#8 := by
      by_contra h
      exact hn ((mem_coded _ _).2 h)
    refine CodeEntry.ext_of_path (hi.codeClean rfl s) CodeEntry.noCode_clean ?_
    simp [CodeEntry.path, hl, CodeEntry.noCode]

/-- V1, `COMPRESS`: the header, the packed stream and the lengths. -/
theorem test_compress_v1 :
    ∃ t, exec .compress v1 = .next t ∧ t.regs.err = false ∧ t.readBytes ⟨0x200, 20⟩ = v1Hdr ∧
      t.readBytes ⟨0x3000, 2⟩ = [0x1F#8, 0x00#8] ∧ t.regs.hdrLen = 20#32 ∧ t.regs.pkdLen = 2#32 ∧
      t.regs.bitcnt = 9#64 ∧ t.regs.hdrAddr = 0x200#32 ∧ t.regs.pkdAddr = 0x3000#32 := by
  obtain ⟨t, ht, he⟩ := compress_ok (v1_windows _) (by unfold InRange; decide) (by unfold InRange; decide)
    (by unfold InRange; decide) (by decide) (by decide) (by decide)
  obtain ⟨c, rfl, -, -, -, a1, a2, a3, a4, a5, a6, a7⟩ := compress_seen ht he
  rw [v1_tabled_code, v1_src, v1_payload] at a3 a4
  rw [v1_tabled_code, v1_headerSize] at a5
  have b3 : t.regs.bitcnt = 9#64 := BitVec.eq_of_toNat_eq a3
  have b4 : t.regs.pkdLen = 2#32 := BitVec.eq_of_toNat_eq a4
  have b5 : t.regs.hdrLen = 20#32 := BitVec.eq_of_toNat_eq a5
  rw [b5, v1_tabled_code, b3] at a7
  rw [b4, v1_tabled_code, v1_src, v1_payload] at a6
  refine ⟨t, ht, he, a7.trans ?_, a6.trans (by decide), b5, b4, b3, a1, a2⟩
  unfold headerBytes
  rw [v1_coded_list]
  decide +kernel

/-- V1, `DECOMPRESS`: the input comes back. -/
theorem test_decompress_v1 :
    ∃ t, exec .decompress v1 = .next t ∧ t.readBytes ⟨0x4000, 6⟩ = v1Src ∧ t.regs.dstLen = 6#32 ∧ t.regs.nsym = 3#9 ∧
      t.regs.statusWord = 0x02#32 := by
  refine ⟨_, exec_of_done (v1_windows _) (decompressBody_payload (bs := v1Src) (p := ⟨v1Code, 3, 9#64⟩)
    (by unfold InRange; decide) (by unfold InRange; decide) (by unfold InRange; decide) v1_parse
    (fun b hb => (v1_coded b).2 (by revert hb; simp [v1Src])) v1_stream (by rw [v1_payload]; rfl) (by decide) (by decide)),
    ?_, rfl, rfl, by decide +kernel⟩
  decide +kernel

/-! ### States that meet the hypotheses of the statements -/

theorem test_hyps_DecodeEncodeAgree : decode 0x00000011#32 = .ok .decompress := by decide

/-- The words at the ends of R67's ranges. -/
theorem test_hyps_IllegalWordIsReported :
    (decode? 0x00000009#32 = none ∧ decode? 0x0000000F#32 = none ∧ decode? 0x00000012#32 = none ∧
      decode? 0x000000FF#32 = none ∧ decode? 0x00000100#32 = none ∧ decode? 0xFFFFFF02#32 = none) ∧
    ∀ w : Word, ∃ s : State, s.regs.busy = false ∧ s.resetIn = false ∧
      s.script = .regWrite 0x04#8 4 w :: .blockTurn :: [] :=
  ⟨by decide, fun w => ⟨{ State.reset with script := [.regWrite 0x04#8 4 w, .blockTurn] }, rfl, rfl, rfl⟩⟩

theorem test_hyps_StepRunsDecoded :
    (v1.accept 0x02#32).regs.busy = true ∧ decode (v1.accept 0x02#32).pend = .ok .count ∧ (v1.accept 0x02#32).script = [] ∧
    ({ v1.accept 0x02#32 with script := [.blockTurn] } : State).script = .blockTurn :: [] ∧
    State.reset.regs.busy = false ∧ State.reset.script = [] ∧
    ({ State.reset with script := [.blockTurn] } : State).script = .blockTurn :: [] := by decide

theorem test_hyps_ReadsAfterReset :
    (∃ u rest, u.script = .resetPin true :: rest ∧ ∃ s, step u = .next s) ∧
    (0x00#8, RegName.id) ∈ regMap ∧ RegName.id ≠ .tdata ∧ (2#2 : BitVec 2) ≠ 3#2 :=
  ⟨⟨{ State.reset with script := [.resetPin true] }, [], rfl, _, rfl⟩, by decide, by decide, by decide⟩

theorem test_hyps_ResetAbandonsCommand :
    ∃ s : State, s.script = .resetPin true :: [] ∧ s.running = some .compress ∧ ∀ i, s.running = some i → WindowsOk i s :=
  ⟨{ v1.accept 0x10#32 with script := [.resetPin true] }, rfl, by decide, fun i _ => v1_windows i⟩

theorem test_hyps_CmdWriteIsAccepted :
    State.reset.regs.busy = false ∧ State.reset.resetIn = false ∧ (State.reset.accept 0#32).regs.busy = true := by decide

/-- A narrow access, a misaligned one, the first unmapped offset, a busy block, and an idle one. -/
theorem test_hyps_RegisterPortContract :
    ¬ (2 = 4 ∧ (0x08#8).toNat % 4 = 0) ∧ ¬ (4 = 4 ∧ (0x0A#8).toNat % 4 = 0) ∧ 0x64 ≤ (0x64#8).toNat ∧
    (State.reset.accept 0#32).regs.busy = true ∧ (0x60#8, RegName.tdata) ∈ regMap ∧ State.reset.regs.busy = false ∧
    (0x5C#8, RegName.tidx) ∈ regMap ∧ RegName.tidx ≠ .tdata := by decide

theorem test_hyps_RegisterWriteReadsBack :
    State.reset.regs.busy = false ∧ State.reset.resetIn = false ∧ (0x0C#8, RegName.ctrl) ∈ regMap ∧
    (0x5C#8, RegName.tidx) ∈ regMap ∧ RegName.tidx ≠ .cmd ∧ RegName.tidx ≠ .status := by decide

theorem test_hyps_StatusWriteClearsDone : v1.regs.busy = false ∧ v1.resetIn = false := by decide

theorem test_hyps_TdataShowsFreq :
    v1.counted.regs.busy = false ∧ v1.counted.regs.tsel = 0#2 ∧ v1.counted.regs.freqValid = true ∧
    State.reset.regs.freqValid = false := by decide +kernel

/-- The registers of a block with the three tables valid, `NNODE = 5`, that shows `word` of entry `idx` of table `sel`. -/
def showing (sel : BitVec 2) (idx : BitVec 9) (word : BitVec 4) : Regs :=
  { Regs.reset with
    freqValid := true, treeValid := true, codeValid := true, nnode := 5#10, tsel := sel, tidx := idx, tword := word }

/-- Each clause at the ends of its range, and no two at once: `NIL`; `WORD` past 1; the first entry past the arena's; the
last entry's two words. -/
theorem test_hyps_TdataShowsNode :
    ((showing 1#2 511#9 0#4).busy = false ∧ (showing 1#2 511#9 0#4).tsel = 1#2) ∧
    ((showing 1#2 511#9 0#4).tidx = 511#9 ∨ 1 < (showing 1#2 511#9 0#4).tword.toNat) ∧
    ((showing 1#2 4#9 2#4).tidx = 511#9 ∨ 1 < (showing 1#2 4#9 2#4).tword.toNat) ∧
    ((showing 1#2 5#9 1#4).nnode.toNat ≤ (showing 1#2 5#9 1#4).tidx.toNat ∧ (showing 1#2 5#9 1#4).tidx ≠ 511#9 ∧
      (showing 1#2 5#9 1#4).tword.toNat ≤ 1) ∧
    ((showing 1#2 4#9 0#4).tidx.toNat < (showing 1#2 4#9 0#4).nnode.toNat ∧ (showing 1#2 4#9 0#4).tidx ≠ 511#9 ∧
      (showing 1#2 4#9 0#4).tword = 0#4) ∧
    ((showing 1#2 4#9 1#4).tidx.toNat < (showing 1#2 4#9 1#4).nnode.toNat ∧ (showing 1#2 4#9 1#4).tidx ≠ 511#9 ∧
      (showing 1#2 4#9 1#4).tword = 1#4) := by decide

theorem test_hyps_TdataShowsCode :
    ((showing 2#2 0#9 0#4).busy = false ∧ (showing 2#2 0#9 0#4).tsel = 2#2 ∧ Regs.reset.codeValid = false) ∧
    (256 ≤ (showing 2#2 256#9 0#4).tidx.toNat ∨ 8 < (showing 2#2 256#9 0#4).tword.toNat) ∧
    (256 ≤ (showing 2#2 0#9 9#4).tidx.toNat ∨ 8 < (showing 2#2 0#9 9#4).tword.toNat) ∧
    ((showing 2#2 255#9 8#4).tidx.toNat < 256 ∧ (showing 2#2 255#9 8#4).tword = 8#4) ∧
    ((showing 2#2 255#9 7#4).tidx.toNat < 256 ∧ (showing 2#2 255#9 7#4).tword.toNat < 8) ∧
    (showing 3#2 0#9 0#4).tsel = 3#2 := by decide

theorem test_hyps_CountTalliesInput :
    WindowsOk .count v1 ∧ InRange v1.regs.srcAddr v1.regs.srcLen ∧ WindowsOk .count State.reset ∧
    InRange State.reset.regs.srcAddr State.reset.regs.srcLen := by
  simp only [WindowsOk, InRange]; decide +kernel

theorem test_hyps_BuildMakesTree :
    ContextInv v1.counted ∧ v1.counted.regs.freqValid = true ∧ v1.counted.regs.nsym ≠ 0#9 :=
  ⟨contextInv_counted _, rfl, counted_nsym_ne_zero (by decide)⟩

/-- A queue of one, and a queue of two with one arena slot left. -/
theorem test_hyps_QueueExtractsLeastFirst :
    [0] ≠ ([] : List Nat) ∧ 2 ≤ (⟨State.reset.node, [1, 0], 510⟩ : Builder).pq.length ∧
    (⟨State.reset.node, [1, 0], 510⟩ : Builder).n < 511 := by decide

/-- Two states with the same counts and different arenas. -/
theorem test_hyps_BuildDependsOnFreqAlone :
    ∃ s u t v : State, ContextInv s ∧ ContextInv u ∧ s.regs.freqValid = true ∧ u.regs.freqValid = true ∧
      s.regs.nsym ≠ 0#9 ∧ s.freq = u.freq ∧ s.node ≠ u.node ∧ exec .build s = .next t ∧ exec .build u = .next v :=
  ⟨v1.counted, { v1 with node := Vector.replicate 511 ⟨1#32, true, 0#8, 0#9, 0#9⟩ }.counted, _, _, contextInv_counted _,
    contextInv_counted _, rfl, rfl, counted_nsym_ne_zero (by decide), rfl,
    fun h => absurd (congrArg (fun n : NodeTable => (nodeAt n 0).f) h) (by decide +kernel),
    after_spec (runs_of_windowsOk rfl), after_spec (runs_of_windowsOk rfl)⟩

theorem test_hyps_GencodeAssignsPaths : ContextInv v1.counted.built ∧ v1.counted.built.regs.treeValid = true :=
  ⟨contextInv_built (contextInv_counted _) rfl (counted_nsym_ne_zero (by decide)), rfl⟩

/-- Two symbols are enough. -/
theorem test_hyps_GencodeIsComplete :
    ∃ s : State, ContextInv s ∧ s.regs.treeValid = true ∧ s.regs.nsym.toNat = 2 :=
  ⟨(holding [0xFF#8, 0x00#8] [] [] 0).counted.built,
    contextInv_built (contextInv_counted _) rfl (counted_nsym_ne_zero (by decide)), rfl, by
      show (BitVec.ofNat 9 _ : BitVec 9).toNat = 2
      rw [present_length_ofNat, present_countBytes_length (State.srcBytes_lt _)]
      decide +kernel⟩

theorem test_hyps_BuiltCodeIsOptimal :
    ∃ (s t u : State) (c : Byte → BitString), ContextInv s ∧ s.regs.freqValid = true ∧ s.regs.nsym ≠ 0#9 ∧
      exec .build s = .next t ∧ exec .gencode t = .next u ∧ (∀ a ∈ present s.freq, c a ≠ []) ∧
      ∀ a ∈ present s.freq, ∀ b ∈ present s.freq, a ≠ b → ¬ c a <+: c b :=
  ⟨v1.counted, _, _, fun a => (List.range 8).map a.getLsbD, contextInv_counted _, rfl, counted_nsym_ne_zero (by decide),
    after_spec (runs_of_windowsOk rfl), after_spec (runs_of_windowsOk rfl), fun a _ h => by simpa using congrArg List.length h,
    fun a _ b _ hab h => hab (by
      have := List.IsPrefix.eq_of_length h (by simp)
      apply BitVec.eq_of_getLsbD_eq
      intro j hj
      have := congrArg (fun l => l[j]?) this
      simpa [hj] using this)⟩

/-- A packed stream with exactly the two bytes it needs. -/
theorem test_hyps_EncodePacksPayload :
    ∃ s : State, WindowsOk .encode s ∧ s.regs.codeValid = true ∧ InRange s.regs.srcAddr s.regs.srcLen ∧
      InRange s.regs.pkdAddr s.regs.pkdCap ∧ (∀ b ∈ s.srcBytes, b ∈ coded s.code) ∧
      ceil8 (payload s.code s.srcBytes).length = s.regs.pkdCap.toNat := by
  refine ⟨loadedWith fun r => { r with pkdCap := 2#32 }, by unfold WindowsOk; decide +kernel, rfl,
    by unfold InRange; decide, by unfold InRange; decide, ?_, ?_⟩
  · rw [show (loadedWith _).srcBytes = v1Src by decide +kernel]
    exact fun b hb => (v1_coded b).2 (by revert hb; simp [v1Src])
  · rw [show (loadedWith _).srcBytes = v1Src by decide +kernel, show (loadedWith _).code = v1Code from rfl, v1_payload]
    decide

/-- "aaabbcd": the last byte has no code. -/
theorem test_hyps_EncodeReportsUncovered :
    ∃ (s : State) (before after : List Byte) (b : Byte), WindowsOk .encode s ∧ s.regs.codeValid = true ∧
      InRange s.regs.srcAddr s.regs.srcLen ∧ InRange s.regs.pkdAddr s.regs.pkdCap ∧ s.srcBytes = before ++ b :: after ∧
      (∀ c ∈ before, c ∈ coded s.code) ∧ b ∉ coded s.code := by
  refine ⟨{ loadedWith (fun r => { r with srcLen := 7#32 }) with mem := v1.mem.set 0x106 0x64#8 }, v1Src, [], 0x64#8,
    by unfold WindowsOk; decide +kernel, rfl, by unfold InRange; decide, by unfold InRange; decide, by decide +kernel,
    fun c hc => (v1_coded c).2 (by revert hc; simp [v1Src]), fun h => absurd ((v1_coded _).1 h) (by decide)⟩

theorem test_hyps_WrhdrWritesHeader :
    ∃ s : State, ContextInv s ∧ WindowsOk .wrhdr s ∧ s.regs.codeValid = true ∧ InRange s.regs.hdrAddr s.regs.hdrCap ∧
      headerSize s.code = s.regs.hdrCap.toNat :=
  ⟨loadedWith fun r => { r with hdrCap := 20#32 }, by apply loadedWith_inv <;> exact fun _ => rfl,
    by unfold WindowsOk; decide +kernel, rfl, by unfold InRange; decide, v1_headerSize⟩

theorem test_hyps_HeaderSizeIsBounded : coded v1Code ≠ [] :=
  List.ne_nil_of_mem ((v1_coded 0x61#8).2 (by decide))

theorem test_hyps_RdhdrLoadsValidHeader :
    WindowsOk .rdhdr v1 ∧ InRange v1.regs.hdrAddr v1.regs.hdrLen ∧
      HeaderHolds v1.headerByte v1.regs.hdrLen.toNat v1Entries 9#64 :=
  ⟨v1_windows _, by unfold InRange; decide, v1_header⟩

/-- A state whose header window holds these bytes. -/
def withHeader (hdr : List Byte) : State := holding [] hdr [] 0

/-- What `RdhdrReportsFirstFault` asks of a state whose header window holds these bytes. -/
def Faulty (hdr : List Byte) (sub : Byte) (info : Nat) : Prop :=
  WindowsOk .rdhdr (withHeader hdr) ∧ InRange (withHeader hdr).regs.hdrAddr (withHeader hdr).regs.hdrLen ∧
    HeaderFault (withHeader hdr).headerByte (withHeader hdr).regs.hdrLen.toNat sub info

theorem Faulty.intro {hdr : List Byte} {sub : Byte} {info : Nat}
    (h : HeaderFault (withHeader hdr).headerByte (withHeader hdr).regs.hdrLen.toNat sub info)
    (hw : WindowsOk .rdhdr (withHeader hdr)) (hr : InRange (withHeader hdr).regs.hdrAddr (withHeader hdr).regs.hdrLen) :
    Faulty hdr sub info := ⟨hw, hr, h⟩

/-- The faults before the entries: nothing, a wrong format, a cut count, a count of 0 and of 257. -/
theorem test_hyps_RdhdrReportsFirstFault_head :
    Faulty [] 2#8 0 ∧ Faulty [0x00#8] 1#8 0 ∧ Faulty [0x01#8, 0x00#8] 2#8 1 ∧ Faulty [0x01#8, 0x00#8, 0x00#8] 3#8 1 ∧
    Faulty [0x01#8, 0x01#8, 0x01#8] 3#8 1 := by
  refine ⟨.intro (.noFormat ?_) ?_ ?_, .intro (.badFormat ?_ ?_) ?_ ?_, .intro (.countCut ?_ ?_ ?_) ?_ ?_,
    .intro (.badCount 0 ?_ ?_ ?_ ?_) ?_ ?_, .intro (.badCount 257 ?_ ?_ ?_ ?_) ?_ ?_⟩ <;>
    (try simp only [WindowsOk, InRange]) <;> decide +kernel

/-- Nothing read of `n` entries yet. -/
theorem begins_nil {H : Nat → Byte} {L n : Nat} (h0 : H 0 = 0x01#8) (h1 : (H 1).toNat * 256 + (H 2).toNat = n)
    (hn : 1 ≤ n ∧ n ≤ 256) (hL : 3 ≤ L) : HeaderBegins H L n [] :=
  ⟨h0, h1, ⟨hn.1, hn.2, Nat.zero_le _⟩, trivial, List.nodup_nil, hL⟩

/-- One entry of `n` read. -/
theorem begins_one {H : Nat → Byte} {L n : Nat} {e : HeaderEntry} (h0 : H 0 = 0x01#8)
    (h1 : (H 1).toNat * 256 + (H 2).toNat = n) (hn : 1 ≤ n ∧ n ≤ 256) (he : H 3 = e.1) (h2 : 1 ≤ e.2.length)
    (h3 : (H 4).toNat = e.2.length) (h4 : ∀ j (h : j < e.2.length), packedBit (fun q => H (3 + 2 + q)) (0 + j) = e.2[j])
    (hL : 3 + entriesSize [e] ≤ L) : HeaderBegins H L n [e] :=
  ⟨h0, h1, ⟨hn.1, hn.2, hn.1⟩, ⟨⟨he, h2, h3, h4⟩, trivial⟩, by simp, hL⟩

/-- The faults at an entry: its first two bytes cut, a length of 0, a symbol a second time, and its bits cut. -/
theorem test_hyps_RdhdrReportsFirstFault_entry :
    Faulty [0x01#8, 0x00#8, 0x01#8, 0x61#8] 2#8 3 ∧ Faulty [0x01#8, 0x00#8, 0x01#8, 0x61#8, 0x00#8] 4#8 4 ∧
    Faulty [0x01#8, 0x00#8, 0x02#8, 0x61#8, 0x01#8, 0x00#8, 0x61#8, 0x01#8] 5#8 6 ∧
    Faulty [0x01#8, 0x00#8, 0x01#8, 0x61#8, 0xFF#8] 2#8 5 := by
  refine ⟨.intro (.entryCut 1 [] 3 (begins_nil ?_ ?_ ?_ ?_) ?_ ?_ ?_) ?_ ?_,
    .intro (.zeroLength 1 [] 3 (begins_nil ?_ ?_ ?_ ?_) ?_ ?_ ?_ ?_) ?_ ?_,
    .intro (.dupSymbol 2 [(0x61#8, [false])] 6 (begins_one ?_ ?_ ?_ ?_ ?_ ?_ ?_ ?_) ?_ ?_ ?_ ?_ ?_) ?_ ?_,
    .intro (.bitsCut 1 [] 3 (begins_nil ?_ ?_ ?_ ?_) ?_ ?_ ?_ ?_ ?_ ?_) ?_ ?_⟩ <;>
    (try simp only [WindowsOk, InRange]) <;> decide +kernel

/-- The faults after the entries: the bit count cut, bytes after it, and a code that is a prefix of another. -/
theorem test_hyps_RdhdrReportsFirstFault_tail :
    Faulty [0x01#8, 0x00#8, 0x01#8, 0x61#8, 0x01#8, 0x00#8] 2#8 6 ∧
    Faulty [0x01#8, 0x00#8, 0x01#8, 0x61#8, 0x01#8, 0x00#8, 0#8, 0#8, 0#8, 0#8, 0#8, 0#8, 0#8, 0#8, 0#8] 6#8 14 := by
  refine ⟨.intro (.bitcntCut 1 [(0x61#8, [false])] 6 (begins_one ?_ ?_ ?_ ?_ ?_ ?_ ?_ ?_) ?_ ?_ ?_) ?_ ?_,
    .intro (.trailing 1 [(0x61#8, [false])] 6 (begins_one ?_ ?_ ?_ ?_ ?_ ?_ ?_ ?_) ?_ ?_ ?_) ?_ ?_⟩ <;>
    (try simp only [WindowsOk, InRange]) <;> decide +kernel

theorem test_hyps_RdhdrReportsFirstFault_prefix :
    Faulty [0x01#8, 0x00#8, 0x02#8, 0x61#8, 0x01#8, 0x00#8, 0x62#8, 0x02#8, 0x40#8, 0#8, 0#8, 0#8, 0#8, 0#8, 0#8, 0#8, 0#8]
      7#8 (0x61 * 256 + 0x62) := by
  refine .intro (.notPrefixFree 2 [(0x61#8, [false]), (0x62#8, [false, true])] 9 (0x61#8, [false]) (0x62#8, [false, true])
    ⟨?_, ?_, ?_, ⟨⟨?_, ?_, ?_, ?_⟩, ⟨?_, ?_, ?_, ?_⟩, trivial⟩, ?_, ?_⟩ ?_ ?_ ?_ ?_ ?_ ?_ ?_ ?_) ?_ ?_ <;>
    (try simp only [WindowsOk, InRange, BitsFrom]) <;> decide +kernel

theorem test_hyps_RdhdrAcceptsExactlyValid :
    (∃ t, exec .rdhdr v1 = .next t) ∧ WindowsOk .rdhdr v1 ∧ InRange v1.regs.hdrAddr v1.regs.hdrLen :=
  ⟨⟨_, after_spec (runs_of_windowsOk (v1_windows _))⟩, v1_windows _, by unfold InRange; decide⟩

/-- V1's packed stream into exactly the six bytes it needs. -/
theorem test_hyps_DecodeReproducesInput :
    ∃ (s : State) (bs : List Byte), ContextInv s ∧ WindowsOk .decode s ∧ s.regs.codeValid = true ∧
      InRange s.regs.pkdAddr s.regs.pkdLen ∧ InRange s.regs.dstAddr s.regs.dstCap ∧ (∀ b ∈ bs, b ∈ coded s.code) ∧
      BitsFrom s.packedStreamBit 0 (payload s.code bs) ∧ s.regs.bitcnt.toNat = (payload s.code bs).length ∧
      s.regs.bitcnt.toNat ≤ 8 * s.regs.pkdLen.toNat ∧ bs.length = s.regs.dstCap.toNat :=
  ⟨loadedWith id, v1Src, by apply loadedWith_inv <;> exact fun _ => rfl, by unfold WindowsOk; decide +kernel, rfl,
    by unfold InRange; decide, by unfold InRange; decide, fun b hb => (v1_coded b).2 (by revert hb; simp [v1Src]), v1_stream,
    by rw [show (loadedWith id).code = v1Code from rfl, v1_payload]; decide +kernel, by decide +kernel, rfl⟩

/-- What `DecodeReportsFailure` asks of a state that is not the payload's. -/
def DecodeReady (s : State) : Prop :=
  ContextInv s ∧ WindowsOk .decode s ∧ s.regs.codeValid = true ∧ InRange s.regs.pkdAddr s.regs.pkdLen ∧
    InRange s.regs.dstAddr s.regs.dstCap

theorem decodeReady {f : Regs → Regs} (h : ContextInv (loadedWith f)) (hw : WindowsOk .decode (loadedWith f))
    (hc : (loadedWith f).regs.codeValid = true) (hp : InRange (loadedWith f).regs.pkdAddr (loadedWith f).regs.pkdLen)
    (hd : InRange (loadedWith f).regs.dstAddr (loadedWith f).regs.dstCap) : DecodeReady (loadedWith f) := ⟨h, hw, hc, hp, hd⟩

/-- `TOO_FEW_BITS`: nine bits and one byte. -/
theorem test_hyps_DecodeReportsFailure_short :
    ∃ s : State, DecodeReady s ∧ 8 * s.regs.pkdLen.toNat + 1 = s.regs.bitcnt.toNat :=
  ⟨loadedWith fun r => { r with pkdLen := 1#32 },
    decodeReady (by apply loadedWith_inv <;> exact fun _ => rfl) (by unfold WindowsOk; decide +kernel) rfl
      (by unfold InRange; decide) (by unfold InRange; decide), by decide +kernel⟩

/-- `MID_CODE`: "aaa" and one bit of the next code. -/
theorem test_hyps_DecodeReportsFailure_midCode :
    ∃ s : State, DecodeReady s ∧ s.regs.bitcnt.toNat ≤ 8 * s.regs.pkdLen.toNat ∧
      DecodeFault s.code s.packedStreamBit s.regs.bitcnt.toNat s.regs.dstCap ⟨.truncatedStream, 2#8, 1#32⟩ := by
  refine ⟨loadedWith fun r => { r with bitcntLo := 4#32 },
    decodeReady (by apply loadedWith_inv <;> exact fun _ => rfl) (by unfold WindowsOk; decide +kernel) rfl
      (by unfold InRange; decide) (by unfold InRange; decide), by decide +kernel,
    .midCode [0x61#8, 0x61#8, 0x61#8] [true] (fun b hb => (v1_coded b).2 (by revert hb; simp; tauto)) (by decide)
      ⟨0x62#8, (v1_coded _).2 (by decide), ?_⟩ ?_ ?_ (by decide)⟩
  · show [true] <+: codeOf v1Code 0x62#8 ∧ [true] ≠ codeOf v1Code 0x62#8
    rw [v1_code.2.1]
    decide
  · have h := v1_code.1
    simp only [codeOf] at h
    rw [show (loadedWith _).code = v1Code from rfl]
    simp only [payload, List.flatMap_cons, List.flatMap_nil, h]
    unfold BitsFrom
    decide +kernel
  · have h := v1_code.1
    simp only [codeOf] at h
    rw [show (loadedWith _).code = v1Code from rfl]
    simp only [payload, List.flatMap_cons, List.flatMap_nil, h]
    decide +kernel

/-- `OVERFLOW`: the sixth symbol into five bytes. -/
theorem test_hyps_DecodeReportsFailure_overflow :
    ∃ s : State, DecodeReady s ∧ s.regs.bitcnt.toNat ≤ 8 * s.regs.pkdLen.toNat ∧
      DecodeFault s.code s.packedStreamBit s.regs.bitcnt.toNat s.regs.dstCap ⟨.overflow, 3#8, 5#32⟩ := by
  refine ⟨loadedWith fun r => { r with dstCap := 5#32 },
    decodeReady (by apply loadedWith_inv <;> exact fun _ => rfl) (by unfold WindowsOk; decide +kernel) rfl
      (by unfold InRange; decide) (by unfold InRange; decide), by decide +kernel,
    .overflow [0x61#8, 0x61#8, 0x61#8, 0x62#8, 0x62#8] 0x63#8 (fun b hb => (v1_coded b).2 (by revert hb; simp; tauto))
      ((v1_coded _).2 (by decide)) v1_stream ?_ (by decide)⟩
  show (payload v1Code v1Src).length ≤ _
  rw [v1_payload]
  decide +kernel

/-- `NO_CHILD`: a table with the one code `"0"` and a first bit 1. -/
theorem test_hyps_DecodeReportsFailure_noChild :
    ∃ s : State, DecodeReady s ∧ s.regs.bitcnt.toNat ≤ 8 * s.regs.pkdLen.toNat ∧
      DecodeFault s.code s.packedStreamBit s.regs.bitcnt.toNat s.regs.dstCap ⟨.truncatedStream, 3#8, 0#32⟩ := by
  have hs : (∀ e ∈ [((0x00#8, [false]) : HeaderEntry)], 1 ≤ e.2.length ∧ e.2.length ≤ 255) := by decide
  have hn : ([((0x00#8, [false]) : HeaderEntry)].map (·.1)).Nodup := by decide
  have hm := mem_coded_loadEntries hs hn
  have hc := codeOf_loadEntries hs hn (e := (0x00#8, [false])) (by decide)
  have hinv : ContextInv { holding [] [] [0x80#8] 1 with
      code := loadEntries [(0x00#8, [false])] noCodes, regs := { (holding [] [] [0x80#8] 1).regs with
        nsym := 1#9, codeValid := true } } := by
    have hl : coded (loadEntries [(0x00#8, [false])] noCodes) = [0x00#8] :=
      ascending_ext (coded_ascending _) (by decide) hm
    exact
      { freqNsym := fun h => nomatch h
        freqTotal := fun h => nomatch h
        treeFreq := fun h => nomatch h
        treeShape := fun h => nomatch h
        treeRegs := fun h => nomatch h
        codeNsym := fun _ => ⟨by decide, congrArg List.length hl.symm⟩
        codeFree := fun _ => (prefixFree_loadEntries hs hn).2 (by simp)
        codeClean := fun _ => (tableOfEntries_loadEntries hs hn).1
        codeTree := fun _ h => nomatch h }
  refine ⟨_, ⟨hinv, by unfold WindowsOk; decide +kernel, rfl, by unfold InRange; decide, by unfold InRange; decide⟩,
    by decide +kernel, .noChild [] [] true (by simp) (by simp) ?_ ?_ (by decide +kernel) (by decide)⟩
  · intro a ha hp
    have h0 : a = 0x00#8 := by simpa using (hm a).1 ha
    subst h0
    change [true] <+: codeOf (loadEntries [(0x00#8, [false])] noCodes) 0x00#8 at hp
    rw [hc] at hp
    revert hp
    decide
  · unfold BitsFrom
    decide +kernel

/-- Two states that differ in a padding bit of the stream. -/
theorem test_hyps_DecodeLooksAtPayloadOnly :
    ∃ s u t : State, WindowsOk .decode s ∧ WindowsOk .decode u ∧
      (InRange s.regs.pkdAddr s.regs.pkdLen ∧ InRange s.regs.dstAddr s.regs.dstCap ∧
        InRange u.regs.pkdAddr u.regs.pkdLen ∧ InRange u.regs.dstAddr u.regs.dstCap) ∧
      s.regs.codeValid = u.regs.codeValid ∧ s.code = u.code ∧ s.regs.bitcnt = u.regs.bitcnt ∧
      s.regs.pkdLen = u.regs.pkdLen ∧ s.regs.dstCap = u.regs.dstCap ∧
      (∀ n, n < s.regs.bitcnt.toNat → s.packedStreamBit n = u.packedStreamBit n) ∧
      s.packedStreamBit 9 ≠ u.packedStreamBit 9 ∧ exec .decode s = .next t :=
  ⟨loadedWith id, { loadedWith id with mem := v1.mem.set 0x3001 0x7F#8 }, _, by unfold WindowsOk; decide +kernel,
    by unfold WindowsOk; decide +kernel, by simp only [InRange]; decide, rfl, rfl, rfl, rfl, rfl, by decide +kernel,
    by decide +kernel, after_spec (runs_of_windowsOk (by unfold WindowsOk; decide +kernel))⟩

/-- A header one byte too long for its window, and a packed stream one byte too long for its window. -/
theorem test_hyps_OverflowIsReported :
    (∃ s : State, WindowsOk .wrhdr s ∧ s.regs.codeValid = true ∧ InRange s.regs.hdrAddr s.regs.hdrCap ∧
      s.regs.hdrCap.toNat + 1 = headerSize s.code) ∧
    ∃ s : State, WindowsOk .encode s ∧ s.regs.codeValid = true ∧ InRange s.regs.srcAddr s.regs.srcLen ∧
      InRange s.regs.pkdAddr s.regs.pkdCap ∧ (∀ b ∈ s.srcBytes, b ∈ coded s.code) ∧
      s.regs.pkdCap.toNat + 1 = ceil8 (payload s.code s.srcBytes).length := by
  refine ⟨⟨loadedWith fun r => { r with hdrCap := 19#32 }, by unfold WindowsOk; decide +kernel, rfl,
    by unfold InRange; decide, v1_headerSize.symm⟩,
    loadedWith fun r => { r with pkdCap := 1#32 }, by unfold WindowsOk; decide +kernel, rfl,
    by unfold InRange; decide, by unfold InRange; decide, ?_, ?_⟩
  · rw [show (loadedWith _).srcBytes = v1Src by decide +kernel]
    exact fun b hb => (v1_coded b).2 (by revert hb; simp [v1Src])
  · rw [show (loadedWith _).srcBytes = v1Src by decide +kernel, show (loadedWith _).code = v1Code from rfl, v1_payload]
    decide

theorem test_hyps_CompressCompletes :
    WindowsOk .compress v1 ∧ InRange v1.regs.srcAddr v1.regs.srcLen ∧ InRange v1.regs.hdrAddr v1.regs.hdrCap ∧
      InRange v1.regs.pkdAddr v1.regs.pkdCap ∧ v1.regs.srcLen ≠ 0#32 ∧ v1.regs.hdrCap.toNat = 8715 ∧
      ceil8 (255 * v1.regs.srcLen.toNat) = v1.regs.pkdCap.toNat :=
  ⟨v1_windows _, by simp only [InRange]; decide +kernel⟩

/-- The tables are those of `COMPRESS` when the first three commands ran on their own. -/
theorem five_steps_code (s : State) : s.counted.succeed.built.succeed.generated.succeed.code = s.tabled.code := by
  simp only [State.tabled, State.generated, State.built, State.counted, State.succeed, State.freeHidden, State.clearValid,
    Regs.reportSuccess, Regs.clearValid]
  rfl

/-- `ENCODE` and `WRHDR` succeed on a state that holds such tables. -/
theorem two_steps {c : State} {bs : List Byte} {code : CodeTable} (hc : c.code = code) (hb : c.srcBytes = bs)
    (hv : c.regs.codeValid = true) (hw : WindowsOk .encode c) (hw' : WindowsOk .wrhdr c.packed.succeed)
    (hs : InRange c.regs.srcAddr c.regs.srcLen) (hp : InRange c.regs.pkdAddr c.regs.pkdCap)
    (hh : InRange c.regs.hdrAddr c.regs.hdrCap) (hm : ∀ b ∈ bs, b ∈ coded code)
    (hf : ceil8 (payload code bs).length ≤ c.regs.pkdCap.toNat) (hz : headerSize code ≤ c.regs.hdrCap.toNat) :
    ∃ s4 s5, exec .encode c = .next s4 ∧ exec .wrhdr s4 = .next s5 ∧ s4.regs.err = false ∧ s5.regs.err = false := by
  subst hc hb
  have e1 : c.packed.succeed.code = c.code := rfl
  have e2 : c.packed.succeed.regs.hdrCap = c.regs.hdrCap := rfl
  have e3 : c.packed.succeed.regs.hdrAddr = c.regs.hdrAddr := rfl
  have e4 : c.packed.succeed.regs.codeValid = c.regs.codeValid := rfl
  exact ⟨_, _, exec_of_done hw (encodeBody_done hv hs hp hm hf),
    exec_of_done hw' (wrhdrBody_done (by rw [e4]; exact hv) (by rw [e2, e3]; exact hh) (by rw [e1, e2]; exact hz)), rfl, rfl⟩

/-- The first three step commands run, and make the tables of `COMPRESS`. -/
theorem first_three {s : State} (hw : WindowsOk .count s) (hs : InRange s.regs.srcAddr s.regs.srcLen)
    (h0 : s.regs.srcLen ≠ 0#32) : ∃ s1 s2 s3, exec .count s = .next s1 ∧ exec .build s1 = .next s2 ∧
      exec .gencode s2 = .next s3 ∧ s3.code = s.tabled.code :=
  ⟨_, _, _, exec_of_done hw (countBody_done hs), exec_of_done rfl (buildBody_done rfl (counted_nsym_ne_zero h0)),
    exec_of_done rfl (gencodeBody_done rfl), five_steps_code s⟩

/-- The tables depend on the input and the arena alone. -/
theorem tabled_code_v1 {s : State} (h0 : s.regs.srcLen ≠ 0#32) (hb : s.srcBytes = v1Src) (hn : s.node = v1.node) :
    s.tabled.code = v1Code := by
  rw [← v1_tabled_code, tabled_code_eq h0, tabled_code_eq (s := v1) (by decide), tabled_node, tabled_node, tabled_freq,
    tabled_freq, v1_src, hb, hn]

/-- V1 into a packed stream window one byte too short, and into a header window one byte too short beside a packed stream
window that is just long enough. -/
theorem test_hyps_OverflowIsReported_compress :
    (∃ s s1 s2 s3 : State, (WindowsOk .compress s ∧ InRange s.regs.srcAddr s.regs.srcLen ∧
        InRange s.regs.hdrAddr s.regs.hdrCap ∧ InRange s.regs.pkdAddr s.regs.pkdCap ∧ s.regs.srcLen ≠ 0#32) ∧
      (exec .count s = .next s1 ∧ exec .build s1 = .next s2 ∧ exec .gencode s2 = .next s3) ∧
      s.regs.pkdCap.toNat + 1 = ceil8 (payload s3.code s.srcBytes).length) ∧
    ∃ s s1 s2 s3 : State, (WindowsOk .compress s ∧ InRange s.regs.srcAddr s.regs.srcLen ∧
        InRange s.regs.hdrAddr s.regs.hdrCap ∧ InRange s.regs.pkdAddr s.regs.pkdCap ∧ s.regs.srcLen ≠ 0#32) ∧
      (exec .count s = .next s1 ∧ exec .build s1 = .next s2 ∧ exec .gencode s2 = .next s3) ∧
      ceil8 (payload s3.code s.srcBytes).length = s.regs.pkdCap.toNat ∧ s.regs.hdrCap.toNat + 1 = headerSize s3.code := by
  constructor
  · obtain ⟨s1, s2, s3, e1, e2, e3, ec⟩ := first_three (s := { v1 with regs := { v1.regs with pkdCap := 1#32 } })
      (by unfold WindowsOk; decide +kernel) (by unfold InRange; decide) (by decide)
    have hb : ({ v1 with regs := { v1.regs with pkdCap := 1#32 } } : State).srcBytes = v1Src := by decide +kernel
    refine ⟨_, s1, s2, s3, by simp only [WindowsOk, InRange]; decide +kernel, ⟨e1, e2, e3⟩, ?_⟩
    rw [ec, tabled_code_v1 (by decide) hb rfl, hb, v1_payload]
    decide
  · obtain ⟨s1, s2, s3, e1, e2, e3, ec⟩ := first_three
      (s := { v1 with regs := { v1.regs with pkdCap := 2#32, hdrCap := 19#32 } })
      (by unfold WindowsOk; decide +kernel) (by unfold InRange; decide) (by decide)
    have hb : ({ v1 with regs := { v1.regs with pkdCap := 2#32, hdrCap := 19#32 } } : State).srcBytes = v1Src := by
      decide +kernel
    refine ⟨_, s1, s2, s3, by simp only [WindowsOk, InRange]; decide +kernel, ⟨e1, e2, e3⟩, ?_, ?_⟩
    · rw [ec, tabled_code_v1 (by decide) hb rfl, hb, v1_payload]
      decide
    · rw [ec, tabled_code_v1 (by decide) hb rfl, v1_headerSize]
      rfl

theorem test_hyps_CompressIsFiveSteps :
    ∃ s s1 s2 s3 s4 s5 : State, WindowsOk .compress s ∧ s.regs.srcLen ≠ 0#32 ∧ exec .count s = .next s1 ∧
      exec .build s1 = .next s2 ∧ exec .gencode s2 = .next s3 ∧ exec .encode s3 = .next s4 ∧ exec .wrhdr s4 = .next s5 ∧
      s1.regs.err = false ∧ s2.regs.err = false ∧ s3.regs.err = false ∧ s4.regs.err = false ∧ s5.regs.err = false := by
  have hl := payload_length_le v1.tabled.code v1.srcBytes
  have hb : v1.srcBytes.length = 6 := v1.srcBytes_length
  obtain ⟨s4, s5, h4, h5, e4, e5⟩ := two_steps (five_steps_code v1) (bs := v1.srcBytes) rfl rfl
    (by unfold WindowsOk; decide +kernel) (by unfold WindowsOk; decide +kernel) (by unfold InRange; decide +kernel)
    (by unfold InRange; decide +kernel) (by unfold InRange; decide +kernel) (fun b hb => (coded_tabled (by decide) b).2 hb)
    (by show _ ≤ 192; unfold ceil8; omega)
    (headerSize_bounds (List.ne_nil_of_mem ((coded_tabled (s := v1) (by decide) 0x61#8).2 (by decide +kernel)))).2
  exact ⟨v1, _, _, _, s4, s5, v1_windows _, by decide,
    exec_of_done (v1_windows _) (countBody_done (by unfold InRange; decide)),
    exec_of_done rfl (buildBody_done rfl (counted_nsym_ne_zero (s := v1) (by decide))),
    exec_of_done rfl (gencodeBody_done rfl), h4, h5, rfl, rfl, rfl, e4, e5⟩

/-- A packed stream window as long as the input. -/
theorem test_hyps_CompressFitsInput :
    ∃ s : State, WindowsOk .compress s ∧ InRange s.regs.srcAddr s.regs.srcLen ∧ InRange s.regs.hdrAddr s.regs.hdrCap ∧
      InRange s.regs.pkdAddr s.regs.pkdCap ∧ s.regs.srcLen ≠ 0#32 ∧ 8715 = s.regs.hdrCap.toNat ∧
      s.regs.srcLen.toNat = s.regs.pkdCap.toNat :=
  ⟨{ v1 with regs := { v1.regs with pkdCap := 6#32 } }, by simp only [WindowsOk, InRange]; decide +kernel⟩

/-- The same input at another address. -/
theorem test_hyps_CompressDependsOnInputAlone :
    ∃ s u t v : State, s.srcBytes = u.srcBytes ∧ s.regs.srcAddr ≠ u.regs.srcAddr ∧ exec .compress s = .next t ∧
      exec .compress u = .next v ∧ t.regs.err = false ∧ v.regs.err = false := by
  obtain ⟨t, ht, he⟩ := compress_ok (v1_windows _) (by unfold InRange; decide) (by unfold InRange; decide)
    (by unfold InRange; decide) (by decide) (by decide) (by decide)
  obtain ⟨v, hv, he'⟩ := compress_ok (s := { v1 with
      mem := Memory.setBytes [] 0x5000 v1Src, regs := { v1.regs with srcAddr := 0x5000#32 } })
    (by unfold WindowsOk; decide +kernel) (by unfold InRange; decide) (by unfold InRange; decide) (by unfold InRange; decide)
    (by decide) (by decide) (by decide)
  exact ⟨_, _, t, v, by decide +kernel, by decide, ht, hv, he, he'⟩

theorem v1_table : TableOfEntries v1Entries v1Code := tableOfEntries_loadEntries v1_entries.1 v1_entries.2

theorem test_hyps_DecompressReproducesInput :
    WindowsOk .decompress v1 ∧ InRange v1.regs.hdrAddr v1.regs.hdrLen ∧ InRange v1.regs.pkdAddr v1.regs.pkdLen ∧
      InRange v1.regs.dstAddr v1.regs.dstCap ∧ HeaderHolds v1.headerByte v1.regs.hdrLen.toNat v1Entries 9#64 ∧
      TableOfEntries v1Entries v1Code ∧ (∀ b ∈ v1Src, b ∈ coded v1Code) ∧
      BitsFrom v1.packedStreamBit 0 (payload v1Code v1Src) ∧ (9#64).toNat = (payload v1Code v1Src).length ∧
      (9#64).toNat ≤ 8 * v1.regs.pkdLen.toNat ∧ v1Src.length = v1.regs.dstCap.toNat :=
  ⟨v1_windows _, by unfold InRange; decide, by unfold InRange; decide, by unfold InRange; decide, v1_header, v1_table,
    fun b hb => (v1_coded b).2 (by revert hb; simp [v1Src]), v1_stream, by rw [v1_payload]; rfl, by decide, by decide⟩

/-- Both clauses: a header that is read, and an empty one. -/
theorem test_hyps_DecompressIsTwoSteps :
    (∃ s s1 s2 : State, WindowsOk .decompress s ∧ InRange s.regs.pkdAddr s.regs.pkdLen ∧
      InRange s.regs.dstAddr s.regs.dstCap ∧ exec .rdhdr s = .next s1 ∧ s1.regs.err = false ∧ exec .decode s1 = .next s2) ∧
    ∃ s s1 : State, WindowsOk .decompress s ∧ InRange s.regs.pkdAddr s.regs.pkdLen ∧
      InRange s.regs.dstAddr s.regs.dstCap ∧ exec .rdhdr s = .next s1 ∧ s1.regs.err = true :=
  ⟨⟨v1, _, _, v1_windows _, by unfold InRange; decide, by unfold InRange; decide,
      exec_of_done (v1_windows _) (rdhdrBody_done (by unfold InRange; decide) v1_parse), rfl,
      after_spec (runs_of_windowsOk (by unfold WindowsOk; decide +kernel))⟩,
    withHeader [], _, by unfold WindowsOk; decide +kernel, by unfold InRange; decide, by unfold InRange; decide,
    after_spec (runs_of_windowsOk (by unfold WindowsOk; decide +kernel)), by decide +kernel⟩

theorem test_hyps_HeaderRoundTrips :
    ∃ s t : State, ContextInv s ∧ s.regs.codeValid = true ∧ exec .wrhdr s = .next t ∧ t.regs.err = false ∧
      WindowsOk .rdhdr t :=
  ⟨loadedWith id, _, by apply loadedWith_inv <;> exact fun _ => rfl, rfl,
    exec_of_done (by unfold WindowsOk; decide +kernel)
      (wrhdrBody_done rfl (by unfold InRange; decide) (by rw [show (loadedWith id).code = v1Code from rfl, v1_headerSize]; decide)),
    rfl, rfl⟩

/-- The state `ENCODE` leaves is one that `DECODE` turns back. -/
theorem test_hyps_EncodeDecodeRoundTrips :
    ∃ s t : State, ContextInv s ∧ exec .encode s = .next t ∧ t.regs.err = false ∧ t.code = s.code ∧
      t.regs.codeValid = true ∧ s.regs.srcLen.toNat ≤ t.regs.dstCap.toNat ∧ InRange t.regs.pkdAddr t.regs.pkdLen ∧
      InRange t.regs.dstAddr t.regs.dstCap ∧ WindowsOk .decode t := by
  refine ⟨loadedWith id, _, by apply loadedWith_inv <;> exact fun _ => rfl,
    exec_of_done (by unfold WindowsOk; decide +kernel)
      (encodeBody_done rfl (by unfold InRange; decide) (by unfold InRange; decide) (fun b hb => ?_) ?_), rfl, rfl, rfl,
    by decide +kernel, by unfold InRange; decide +kernel, by unfold InRange; decide +kernel,
    by unfold WindowsOk; decide +kernel⟩
  · rw [show (loadedWith id).srcBytes = v1Src by decide +kernel] at hb
    exact (v1_coded b).2 (by revert hb; simp [v1Src])
  · rw [show (loadedWith id).srcBytes = v1Src by decide +kernel, show (loadedWith id).code = v1Code from rfl, v1_payload]
    decide

/-- V1's state before `COMPRESS` holds what `COMPRESS` makes of it. -/
theorem test_hyps_CompressDecompressRoundTrips :
    ∃ s t u : State, exec .compress s = .next t ∧ t.regs.err = false ∧ u.regs.hdrLen = t.regs.hdrLen ∧
      u.regs.pkdLen = t.regs.pkdLen ∧
      u.readBytes ⟨u.regs.hdrAddr.toNat, t.regs.hdrLen.toNat⟩ = t.readBytes ⟨t.regs.hdrAddr.toNat, t.regs.hdrLen.toNat⟩ ∧
      u.readBytes ⟨u.regs.pkdAddr.toNat, t.regs.pkdLen.toNat⟩ = t.readBytes ⟨t.regs.pkdAddr.toNat, t.regs.pkdLen.toNat⟩ ∧
      s.regs.srcLen.toNat = u.regs.dstCap.toNat ∧ InRange u.regs.hdrAddr u.regs.hdrLen ∧
      InRange u.regs.pkdAddr u.regs.pkdLen ∧ InRange u.regs.dstAddr u.regs.dstCap ∧ WindowsOk .decompress u := by
  obtain ⟨t, ht, he, h1, h2, h3, h4, -, h6, h7⟩ := test_compress_v1
  refine ⟨v1, t, v1, ht, he, h3.symm, h4.symm, ?_, ?_, rfl, by unfold InRange; decide, by unfold InRange; decide,
    by unfold InRange; decide, v1_windows _⟩
  · rw [h3, h6]
    exact Eq.trans (by decide +kernel) h1.symm
  · rw [h4, h7]
    exact Eq.trans (by decide +kernel) h2.symm

/-! ### Errors, frames and invariants -/

theorem test_hyps_EmptyInputIsReported :
    (∃ s : State, s.regs.freqValid = true ∧ s.regs.nsym = 0#9) ∧
    (WindowsOk .compress State.reset ∧ InRange State.reset.regs.hdrAddr State.reset.regs.hdrCap ∧
      InRange State.reset.regs.pkdAddr State.reset.regs.pkdCap ∧ State.reset.regs.srcLen = 0#32) ∧
    ∃ t, exec .count State.reset = .next t :=
  ⟨⟨{ State.reset with regs := { Regs.reset with freqValid := true } }, rfl, rfl⟩, by simp only [WindowsOk, InRange]; decide,
    _, rfl⟩

theorem test_hyps_SequenceIsReported :
    ∀ row ∈ [(Instr.build, 1#8), (Instr.gencode, 2#8), (Instr.encode, 3#8), (Instr.wrhdr, 3#8), (Instr.decode, 3#8)],
      WindowsOk row.1 State.reset ∧ neededFlag row.1 State.reset.regs = false := by
  simp only [WindowsOk]; decide

/-- `COUNT` one byte past the top (V14), and `DECOMPRESS` with only its third window past the top. -/
theorem test_hyps_RangeIsReported :
    (∃ s : State, WindowsOk .count s ∧ neededFlag .count s.regs = true ∧
      checkedWindows .count s.regs = [] ++ (.src, 0x11#32) :: [] ∧
      (s.regs.addr .src).toNat + (0x11#32).toNat = 2 ^ 32 + 1) ∧
    ∃ s : State, WindowsOk .decompress s ∧ neededFlag .decompress s.regs = true ∧
      checkedWindows .decompress s.regs = [(.hdr, 16#32), (.pkd, 0#32)] ++ (.dst, 2#32) :: [] ∧
      (∀ row ∈ [(Window.hdr, 16#32), (.pkd, 0#32)], InRange (s.regs.addr row.1) row.2) ∧
      2 ^ 32 < (s.regs.addr .dst).toNat + (2#32).toNat :=
  ⟨⟨{ State.reset with regs := { Regs.reset with srcAddr := 0xFFFFFFF0#32, srcLen := 0x11#32 } }, by
      simp only [WindowsOk]; decide⟩,
    { State.reset with regs := { Regs.reset with
        hdrAddr := 0xFFFFFFE0#32, hdrLen := 16#32, dstAddr := 0xFFFFFFFF#32, dstCap := 2#32 } }, by
      simp only [WindowsOk, InRange]; decide⟩

/-- An error that wrote nothing, and one that leaves any value in its window: an empty input, ten bytes of room. -/
theorem test_hyps_ErrorCompletionClaimsNothing :
    (∃ t, exec .build State.reset = .next t ∧ t.regs.err = true) ∧
    ∃ s t, exec .compress s = .next t ∧ t.regs.err = true ∧ t.regs.errCode ∉ [5#8, 6#8, 7#8] ∧
      anyHolds (writeRegions .compress s.regs) 9 = true ∧ t.anyValueAt 9 = true :=
  ⟨⟨_, rfl, rfl⟩, { State.reset with regs := { Regs.reset with hdrCap := 10#32 } }, _, rfl, rfl, by decide, by decide,
    by decide⟩

theorem test_hyps_CommandsKeepOperands : ∃ t, exec .clear v1 = .next t := ⟨_, rfl⟩

theorem test_hyps_MemoryWritesAreConfined :
    ∃ s t : State, exec .encode s = .next t ∧ t.regs.err = false ∧ Window.pkd ∈ writeWindows .encode ∧
      writeWindows .nop = [] := by
  obtain ⟨s, t, -, h, he, -⟩ := test_hyps_EncodeDecodeRoundTrips
  exact ⟨s, t, h, he, by decide, rfl⟩

theorem test_hyps_ResultsWrittenByRow : ∃ t, exec .nop v1 = .next t := ⟨_, rfl⟩

theorem test_hyps_FlagsAfterSuccess : ∃ s t : State, exec .gencode s = .next t ∧ t.regs.err = false :=
  ⟨v1.counted.built, _, exec_of_done rfl (gencodeBody_done rfl), rfl⟩

/-- While `COMPRESS` is pending: the last byte of `SRC` is in use, the next one is free; a byte of `HDR` is in doubt. A byte
of `SRC` is defined. -/
theorem test_hyps_HostMemoryAccess :
    anyHolds (v1.accept 0x10#32).platform 0x106 = false ∧ anyHolds (v1.accept 0x10#32).windowsInUse 0x106 = false ∧
    anyHolds (v1.accept 0x10#32).windowsInUse 0x105 = true ∧ anyHolds (v1.accept 0x10#32).windowsInDoubt 0x105 = false ∧
    anyHolds (v1.accept 0x10#32).windowsInDoubt 0x200 = true ∧ (v1.accept 0x10#32).anyValueAt 0x105 = false := by
  decide +kernel

theorem test_hyps_OnlyTheBlockEndsACommand :
    ∃ s t : State, step s = .next t ∧ s.regs.busy = false ∧ t.regs.busy = true ∧
      (∀ rest, s.script ≠ .resetPin true :: rest) ∧ (∀ w rest, s.script ≠ .regWrite 0x28#8 4 w :: rest) :=
  ⟨{ v1 with script := [.regWrite 0x04#8 4 0x02#32] }, _, rfl, rfl, rfl, by simp, by simp⟩

theorem reset_contextInv : ContextInv State.reset := .of_invalid rfl rfl rfl

theorem test_hyps_StepKeepsInvariants :
    MemoryInv State.reset ∧ StatusInv State.reset ∧ ContextInv State.reset ∧ ∃ t, step State.reset = .next t :=
  ⟨rfl, ⟨by decide, by decide, by decide, by decide, fun h => nomatch h⟩, reset_contextInv, _, rfl⟩

/-! ### Refusals and errors, one step each -/

/-- R63 (c): `ENCODE` onto its own input is refused. -/
theorem test_overlap_refused :
    exec .encode { v1 with regs := { v1.regs with pkdAddr := 0x105#32, pkdCap := 1#32 } } = .refused .windowOverlap := by
  rw [exec_refused_iff]; decide +kernel

/-- V4 of spec/93_implementation_defined.md: while `BUSY = 1` only the bit `BUSY` of `STATUS` is defined; idle, all of it. -/
theorem test_status_while_busy :
    portRead (v1.accept 0x02#32) 0x08#8 4 = none ∧ portRead v1 0x08#8 4 = some 0#32 ∧
    shownWord (v1.accept 0x02#32) 0x08#8 0xFFFFFFFE#32 = 0xFFFFFFFF#32 ∧ shownWord (v1.accept 0x02#32) 0x08#8 0#32 = 1#32 ∧
    shownWord (v1.accept 0x02#32) 0x28#8 0#32 = 0#32 := by decide +kernel

/-- A spoiled byte reads as any value to the host until it is written (V5 of spec/93_implementation_defined.md). -/
theorem test_spoiled_byte :
    (State.reset.scramble ⟨8, 4⟩).anyValueAt 11 = true ∧ (State.reset.scramble ⟨8, 4⟩).anyValueAt 12 = false ∧
    ((State.reset.scramble ⟨8, 4⟩).writeByte 11 0x55#8).anyValueAt 11 = false := by decide

/-- V14: one byte past the top of the address space. -/
theorem test_range_v14 :
    (after .count { State.reset with regs := { Regs.reset with
      srcAddr := 0xFFFFFFF0#32, srcLen := 0x11#32 } }).regs.readValue .errcode = 0x007#32 ∧
    (after .count { State.reset with regs := { Regs.reset with
      srcAddr := 0xFFFFFFF0#32, srcLen := 0x11#32 } }).regs.errInfo = 0xFFFFFFF0#32 := by decide +kernel

/-- V11, V16: the first commands after reset, through `withFetchWord`. -/
theorem test_first_commands :
    (∃ t, step (State.reset.withFetchWord 32 0x02) = .next t ∧ t.regs.statusWord = 0x12#32) ∧
    (∃ t, step (State.reset.withFetchWord 32 0x03) = .next t ∧ t.regs.readValue .errcode = 0x105#32) ∧
    ∃ t, step (State.reset.withFetchWord 32 0x09) = .next t ∧ t.regs.readValue .errcode = 0x006#32 ∧
      t.regs.errInfo = 0x09#32 :=
  ⟨⟨_, rfl, by decide +kernel⟩, ⟨_, rfl, by decide +kernel⟩, _, rfl, by decide +kernel⟩

/-- V27, V32, V33: what `TDATA` shows of V1's tables. -/
theorem test_tdata_v1 :
    (Node.linkWord ⟨3#32, false, 0#8, 2#9, 1#9⟩ = 0x00000202#32) ∧
    portRead (loadedWith fun r => { r with tsel := 2#2, tidx := 0x62#9, tword := 0#4 }) 0x60#8 4 = some 0xC0000000#32 ∧
    portRead (loadedWith fun r => { r with tsel := 2#2, tidx := 0x62#9, tword := 8#4 }) 0x60#8 4 = some 2#32 := by
  decide +kernel

end Sys2Proof.Tests
end

/-! PROOFS. The sequencer, step by step: what the block's turn, an action of the script and a word placed by
`withFetchWord` do, and the statement that the step runs the command `PEND` decodes to. -/

namespace Sys2Proof.Machine

/-- The encoder's word of a command decodes to it (spec/30_encoding.md R66). -/
@[simp] theorem decode_encode (i : Instr) : decode (encode i) = .ok i := by
  cases i <;> decide

/-! ### What a step does, by the head of the script -/

theorem step_of_script_nil {s : State} (h : s.script = []) : step s = blockTurn s := by
  simp only [step, h]

theorem step_of_script_cons {s : State} {a : HostAction} {rest : List HostAction} (h : s.script = a :: rest) :
    step s = act a { s with script := rest } := by
  simp only [step, h]

@[simp] theorem act_blockTurn (s : State) : act .blockTurn s = blockTurn s := rfl

/-! ### The block's turn (R139) -/

theorem blockTurn_of_idle {s : State} (h : s.regs.busy = false) : blockTurn s = .next s := by
  simp [blockTurn, h]

theorem blockTurn_of_busy {s : State} (h : s.regs.busy = true) : blockTurn s = complete s := by
  simp [blockTurn, h]

theorem complete_of_decode {s : State} {i : Instr} (h : decode s.pend = .ok i) : complete s = exec i s := by
  simp only [complete, h]

/-- The turn of a block whose pending word decodes to a command runs that command. -/
theorem blockTurn_of_decode {s : State} {i : Instr} (hb : s.regs.busy = true) (hi : decode s.pend = .ok i) :
    blockTurn s = exec i s :=
  (blockTurn_of_busy hb).trans (complete_of_decode hi)

/-! ### A word placed for the next step (log entry 15) -/

/-- A 32-bit word is placed whole: no bit of it is cut off. -/
theorem State.withFetchWord_toNat (s : State) (w : Word) : s.withFetchWord 32 w.toNat = s.withCommand w := by
  rw [State.withFetchWord, Nat.mod_eq_of_lt w.isLt, BitVec.ofNat_toNat, BitVec.setWidth_eq]

theorem step_withCommand (s : State) (w : Word) :
    step (s.withCommand w) = blockTurn { s.accept w with resetIn := false } := rfl

/-- Settles O5: each clause is the step by the head of the script, then the block's turn. -/
theorem stepRunsDecoded : Obligations.StepRunsDecoded := by
  refine ⟨?empty, ?turn, ?idleEmpty, ?idleTurn, ?placed⟩
  case empty =>
    intro s i hb hi hs
    rw [step_of_script_nil hs, blockTurn_of_decode hb hi]
  case turn =>
    intro s i rest hb hi hs
    rw [step_of_script_cons hs, act_blockTurn]
    exact blockTurn_of_decode hb hi
  case idleEmpty =>
    intro s hb hs
    rw [step_of_script_nil hs, blockTurn_of_idle hb]
  case idleTurn =>
    intro s rest hb hs
    rw [step_of_script_cons hs, act_blockTurn]
    exact blockTurn_of_idle hb
  case placed =>
    intro s i
    rw [State.withFetchWord_toNat, step_withCommand]
    exact blockTurn_of_decode rfl (decode_encode i)

end Sys2Proof.Machine

/-! PROOFS. What the accesses of the other agents to the shared memory do (spec/20_memory.md R46, R47, R63), one lemma
per outcome, and the statement about them. -/

namespace Sys2Proof.Machine

section
variable {s : State} {a : Word}

/-! ### Writes -/

/-- A write to ordinary memory outside the windows in use is the memory write itself. -/
theorem act_memWrite_of_free (v : Byte) (hp : anyHolds s.platform a.toNat = false)
    (hu : anyHolds s.windowsInUse a.toNat = false) : act (.memWrite a v) s = .next (s.writeByte a.toNat v) := by
  simp [act, hostMemWrite, hp, hu]

/-- A write into a window in use breaks R63 (a). -/
theorem act_memWrite_of_inUse (v : Byte) (hp : anyHolds s.platform a.toNat = false)
    (hu : anyHolds s.windowsInUse a.toNat = true) : act (.memWrite a v) s = .refused .foreignWrite := by
  simp [act, hostMemWrite, hp, hu]

/-! ### Reads -/

/-- A read of a byte in doubt, or of one that holds any value, draws a free byte (R63 (b), R57, R175). -/
theorem act_memRead_of_anyValue (hp : anyHolds s.platform a.toNat = false)
    (hd : anyHolds s.windowsInDoubt a.toNat = true ∨ s.anyValueAt a.toNat = true) :
    act (.memRead a) s = .next { s with
      observed := .mem a (Config.freeByte s.fresh a.toNat) :: s.observed, fresh := s.fresh + 1 } := by
  simp [act, hostMemRead, hp, hd]

/-- A read of a defined byte shows it (R47). -/
theorem act_memRead_of_defined (hp : anyHolds s.platform a.toNat = false)
    (hd : anyHolds s.windowsInDoubt a.toNat = false) (hv : s.anyValueAt a.toNat = false) :
    act (.memRead a) s = .next { s with observed := .mem a (s.byteAt a.toNat) :: s.observed } := by
  simp [act, hostMemRead, hp, hd, hv]

end

/-- Settles O55: the write's clauses by the laws of memory, the read's by whether the byte is defined. -/
theorem hostMemoryAccess : Obligations.HostMemoryAccess := by
  refine ⟨?free, ?inUse, ?read⟩
  case free =>
    intro s a v hp hu
    exact ⟨s.writeByte a.toNat v, act_memWrite_of_free v hp hu, State.byteAt_writeByte_same s _ v,
      State.anyValueAt_writeByte_same s _ v, fun _ hb => State.sameByte_writeByte_other s v hb, rfl⟩
  case inUse =>
    intro s a v hp hu
    exact act_memWrite_of_inUse v hp hu
  case read =>
    intro s a hp
    by_cases h : anyHolds s.windowsInDoubt a.toNat = true ∨ s.anyValueAt a.toNat = true
    · refine ⟨_, _, act_memRead_of_anyValue hp h, fun hd hv => ?_⟩
      simp [hd, hv] at h
    · obtain ⟨hd, hv⟩ : anyHolds s.windowsInDoubt a.toNat = false ∧ s.anyValueAt a.toNat = false := by simpa using h
      exact ⟨s.byteAt a.toNat, s.fresh, act_memRead_of_defined hp hd hv, fun _ _ => rfl⟩

end Sys2Proof.Machine

/-! PROOFS. What the register port answers (spec/10_state.md section 2, R17 to R34): one lemma per outcome of a write and of
a read, what a write leaves alone of the registers, and the statements about the port. -/

namespace Sys2Proof.Machine

/-! ### Offsets and alignment -/

theorem mem_regMap_of_regAt {off : BitVec 8} {n : RegName} (h : regAt off = some n) : (off, n) ∈ regMap := by
  obtain ⟨row, hrow, rfl⟩ := Option.map_eq_some_iff.1 h
  have hoff : row.1 = off := by simpa using List.find?_some hrow
  exact hoff ▸ List.mem_of_find?_eq_some hrow

/-- No register lies at or past offset `0x64` (R17, R34 (b)). -/
theorem regAt_of_ge {off : BitVec 8} (h : 0x64 ≤ off.toNat) : regAt off = none := by
  have hlow : ∀ row ∈ regMap, row.1.toNat < 0x64 := by decide
  refine Option.map_eq_none_iff.2 (List.find?_eq_none.2 fun row hrow hoff => ?_)
  have heq : row.1 = off := by simpa using hoff
  have := hlow row hrow
  rw [heq] at this
  omega

/-- The accesses the port defines (R34 (a)). -/
theorem aligned32_iff (off : BitVec 8) (size : Nat) : aligned32 off size = true ↔ size = 4 ∧ off.toNat % 4 = 0 := by
  simp [aligned32, ← BitVec.toNat_inj, BitVec.extractLsb'_toNat]

/-! ### Writes -/

section
variable {s : State} {off : BitVec 8} {n : RegName}

/-- "While `BUSY = 1` every register write is ignored" (R34 (c)). -/
theorem act_regWrite_of_busy (off : BitVec 8) (size : Nat) (v : Word) (hb : s.regs.busy = true) :
    act (.regWrite off size v) s = .next s := by
  simp [act, hostRegWrite, hb]

theorem act_regWrite_of_not_aligned {size : Nat} (v : Word) (ha : aligned32 off size = false) :
    act (.regWrite off size v) s = .next s := by
  simp [act, hostRegWrite, ha]

theorem act_regWrite_of_unmapped (size : Nat) (v : Word) (h : regAt off = none) :
    act (.regWrite off size v) s = .next s := by
  simp [act, hostRegWrite, h]

/-- An idle block out of reset accepts a write to `CMD` (R19). -/
theorem act_regWrite_cmd (v : Word) (hb : s.regs.busy = false) (hr : s.resetIn = false) :
    act (.regWrite 0x04#8 4 v) s = .next (s.accept v) := by
  have hoff : regAt 0x04#8 = some .cmd ∧ aligned32 0x04#8 4 = true := by decide
  simp [act, hostRegWrite, hb, hr, hoff]

/-- An idle block out of reset takes a write to any other register as its row of R17 says. -/
theorem act_regWrite_of_mem (v : Word) (hb : s.regs.busy = false) (hr : s.resetIn = false) (h : (off, n) ∈ regMap)
    (hn : n ≠ .cmd) : act (.regWrite off 4 v) s = .next { s with regs := s.regs.writeValue n v } := by
  obtain ⟨hat, hal⟩ := regAt_of_mem h
  simp [act, hostRegWrite, hb, hr, hat, hal]

/-! ### Reads -/

theorem portRead_of_not_aligned {size : Nat} (ha : aligned32 off size = false) : portRead s off size = some 0#32 := by
  simp [portRead, ha]

theorem portRead_of_unmapped (size : Nat) (h : regAt off = none) : portRead s off size = some 0#32 := by
  simp [portRead, h]

theorem portRead_of_mem (h : (off, n) ∈ regMap) : portRead s off 4 = readDefined s n := by
  obtain ⟨hat, hal⟩ := regAt_of_mem h
  simp [portRead, hat, hal]

/-- While `BUSY = 1` the registers that the block does not write read their values (R34 (d), R184). -/
theorem readDefined_of_busy (n : RegName) (hb : s.regs.busy = true) :
    readDefined s n = if n.blockWritten then none else some (s.regs.readValue n) := by
  cases n <;> simp [readDefined, RegName.blockWritten, hb]

/-- `TDATA` of an idle block shows the selected table (R32, R33). -/
theorem portRead_tdata_of_idle (hb : s.regs.busy = false) : portRead s 0x60#8 4 = tdata s := by
  rw [portRead_of_mem (n := .tdata) (by decide)]
  simp [readDefined, hb]

/-- A read of a defined value shows it and changes no state (R34 (e)). -/
theorem act_regRead_of_defined {size : Nat} {d : Word} (h : portRead s off size = some d) :
    act (.regRead off size) s = .next { s with observed := .reg off d :: s.observed } := by
  simp [act, hostRegRead, h]

/-- A read without a defined value draws a free word and changes no state (R34 (e), R11). -/
theorem act_regRead_of_free {size : Nat} (h : portRead s off size = none) :
    act (.regRead off size) s = .next { s with
      observed := .reg off (shownWord s off (Config.freeWord s.fresh)) :: s.observed, fresh := s.fresh + 1 } := by
  simp [act, hostRegRead, h]

end

/-! ### What a write leaves alone of the registers -/

/-- A host's `STATUS` write "looks only at bit 1" (R20). -/
theorem Regs.writeValue_status (r : Regs) (v : Word) :
    r.writeValue .status v = { r with done := r.done && !v.getLsbD 1 } := by
  simp only [Regs.writeValue]
  cases v.getLsbD 1 <;> simp

/-- The fields that no register write but an accepted command changes: all that the block alone writes (R17). -/
structure SameBlockFields (r q : Regs) : Prop where
  busy      : q.busy = r.busy
  err       : q.err = r.err
  errCode   : q.errCode = r.errCode
  errSub    : q.errSub = r.errSub
  errInfo   : q.errInfo = r.errInfo
  freqValid : q.freqValid = r.freqValid
  treeValid : q.treeValid = r.treeValid
  codeValid : q.codeValid = r.codeValid
  nsym      : q.nsym = r.nsym
  nnode     : q.nnode = r.nnode
  root      : q.root = r.root
  dstLen    : q.dstLen = r.dstLen

theorem Regs.writeValue_sameBlockFields (r : Regs) (n : RegName) (v : Word) : SameBlockFields r (r.writeValue n v) := by
  cases n
  case status => rw [Regs.writeValue_status]; constructor <;> rfl
  all_goals constructor <;> rfl

/-- A register write can clear `DONE` but not set it (R20). -/
theorem Regs.done_of_writeValue_done {r : Regs} {n : RegName} {v : Word} (h : (r.writeValue n v).done = true) :
    r.done = true := by
  cases n
  case status => rw [Regs.writeValue_status] at h; simp at h; exact h.1
  all_goals exact h

/-- A register that is not written reads as before: each register's write touches no other register's fields. -/
theorem Regs.readValue_writeValue_other (r : Regs) {n m : RegName} (v : Word) (h : m ≠ n) :
    (r.writeValue n v).readValue m = r.readValue m := by
  cases n
  case status => rw [Regs.writeValue_status]; cases m <;> trivial
  all_goals cases m <;> trivial

/-- A word that takes the bits of a mask from `v` and the others from `y`. -/
theorem eq_masked {x y v m : Word} (h : ∀ j, j < 32 → x.getLsbD j = if m.getLsbD j then v.getLsbD j else y.getLsbD j) :
    x = (y &&& ~~~ m) ||| (v &&& m) := by
  apply BitVec.eq_of_getLsbD_eq
  intro j hj
  rw [h j hj]
  simp only [BitVec.getLsbD_or, BitVec.getLsbD_and, BitVec.getLsbD_not, hj]
  cases m.getLsbD j <;> simp

section
variable (r : Regs) (v : Word)

theorem readValue_writeValue_ctrl : (r.writeValue .ctrl v).readValue .ctrl =
    (r.readValue .ctrl &&& ~~~ RegName.ctrl.writable) ||| (v &&& RegName.ctrl.writable) :=
  eq_masked fun j hj => by
    have hm : ∀ j, j < 32 → (0x00000001#32).getLsbD j = decide (j = 0) := by decide
    simp only [Regs.writeValue, Regs.readValue, RegName.writable, hm j hj, BitVec.getLsbD_append]
    by_cases h : j = 0
    · subst h; simp
    · simp [h]

theorem readValue_writeValue_tsel : (r.writeValue .tsel v).readValue .tsel =
    (r.readValue .tsel &&& ~~~ RegName.tsel.writable) ||| (v &&& RegName.tsel.writable) :=
  eq_masked fun j hj => by
    have hm : ∀ j, j < 32 → (0x00000003#32).getLsbD j = decide (j < 2) := by decide
    simp only [Regs.writeValue, Regs.readValue, RegName.writable, hm j hj, BitVec.getLsbD_append]
    by_cases h : j < 2 <;> simp [h]

theorem readValue_writeValue_tidx : (r.writeValue .tidx v).readValue .tidx =
    (r.readValue .tidx &&& ~~~ RegName.tidx.writable) ||| (v &&& RegName.tidx.writable) :=
  eq_masked fun j hj => by
    have hm : ∀ j, j < 32 → (0x000F01FF#32).getLsbD j = (decide (j < 9) || (decide (16 ≤ j) && decide (j < 20))) := by
      decide
    simp only [Regs.writeValue, Regs.readValue, RegName.writable, hm j hj, BitVec.getLsbD_append,
      BitVec.getLsbD_extractLsb', BitVec.getLsbD_zero]
    by_cases h9 : j < 9
    · simp [h9]
    by_cases h16 : j < 16
    · have hgap : j - 9 < 7 ∧ ¬ 16 ≤ j := by omega
      simp [h9, hgap]
    · have habove : ¬ j - 9 < 7 ∧ 16 ≤ j ∧ 16 + (j - 9 - 7) = j ∧ (j - 9 - 7 < 4 ↔ j < 20) := by omega
      by_cases h20 : j < 20 <;> simp [h9, habove, h20]

/-- The written register reads back the word in its writable bits and is as before in the others (R17, R34 (f)). -/
theorem Regs.readValue_writeValue_same (n : RegName) (hn : n ≠ .status) :
    (r.writeValue n v).readValue n = (r.readValue n &&& ~~~ n.writable) ||| (v &&& n.writable) := by
  cases n
  case status => contradiction
  case ctrl => exact readValue_writeValue_ctrl r v
  case tsel => exact readValue_writeValue_tsel r v
  case tidx => exact readValue_writeValue_tidx r v
  case id | cmd | errcode | errinfo | dstLen | nsym | nnode | root | tdata =>
    exact eq_masked fun _ _ => (if_neg (by simp [RegName.writable])).symm
  all_goals
    have hm : ∀ j, j < 32 → (0xFFFFFFFF#32).getLsbD j = true := by decide
    exact eq_masked fun j hj => (if_pos (hm j hj)).symm

end

/-- Settles O8: an idle block accepts the word, a busy one ignores it, and `CMD` is not written by the block. -/
theorem cmdWriteIsAccepted : Obligations.CmdWriteIsAccepted := by
  refine ⟨fun s w => act_regWrite_cmd w, fun s w => act_regWrite_of_busy 0x04#8 4 w, fun s => ?_⟩
  rw [portRead_of_mem (n := .cmd) (by decide)]
  simp [readDefined, RegName.blockWritten, Regs.readValue]

/-- Settles O11: the write is `DONE <- DONE and not v[1]`. -/
theorem statusWriteClearsDone : Obligations.StatusWriteClearsDone := by
  intro s v hb hr
  refine ⟨_, act_regWrite_of_mem (n := .status) v hb hr (by decide) (by decide), ?_, ?_, (statusWord_getLsbD _).2.1⟩
  · rw [Regs.writeValue_status]
  · simp only [State.irq, Regs.writeValue_status]
    exact Bool.and_right_comm _ _ _

/-- Settles O12, by the two registers' bits. -/
theorem irqIsDoneAndEnabled : Obligations.IrqIsDoneAndEnabled := by
  intro s
  obtain ⟨_, hdone, _⟩ := statusWord_getLsbD s.regs
  exact ⟨by rw [ctrl_getLsbD, Regs.readValue, hdone, State.irq], rfl⟩

/-- Settles O10: the written register and the others separately. -/
theorem registerWriteReadsBack : Obligations.RegisterWriteReadsBack := by
  intro s v hb hr row hrow hcmd hstatus
  refine ⟨_, act_regWrite_of_mem v hb hr hrow hcmd, rfl, fun n => ?_⟩
  split
  case isTrue h => rw [h]; exact Regs.readValue_writeValue_same s.regs v row.2 hstatus
  case isFalse h => exact Regs.readValue_writeValue_other s.regs v h

/-! ### The words of an idle block -/

section
variable (r : Regs)

theorem readValue_ctrl : r.readValue .ctrl = (BitVec.ofBool r.ien).setWidth 32 := zero_append_eq _

theorem readValue_errcode : r.readValue .errcode = (r.errSub ++ r.errCode).setWidth 32 := by
  rw [← zero_append_eq (n := 16)]
  exact BitVec.append_assoc

theorem readValue_tidx : r.readValue .tidx = r.tword.setWidth 16 ++ r.tidx.setWidth 16 := by
  rw [← zero_append_eq (n := 12) r.tword, ← zero_append_eq (n := 7) r.tidx]
  exact BitVec.append_assoc

end

/-- A register of an idle block reads the word its fields make. -/
theorem portRead_idle_eq {s : State} (hb : s.regs.busy = false) {off : BitVec 8} {v : Word} (n : RegName)
    (hv : s.regs.readValue n = v) (h : (off, n) ∈ regMap := by decide) (hn : n ≠ .tdata := by decide) :
    portRead s off 4 = some v := hv ▸ portRead_idle hb h hn

theorem blockWritten_iff (n : RegName) :
    n.blockWritten = true ↔ n ∈ [RegName.status, .errcode, .errinfo, .hdrLen, .pkdLen, .dstLen, .bitcntLo, .bitcntHi, .nsym,
      .nnode, .root, .tdata] := by
  cases n <;> decide

/-- Settles O9: the clauses of R34 by outcome of the access, the words of an idle block field by field. -/
theorem registerPortContract : Obligations.RegisterPortContract := by
  refine ⟨?notAligned, ?unmapped, ?busyWrite, ?busyRead, ?busyStatus, ?idle, ?read⟩
  case notAligned =>
    intro s off size v h
    have ha : aligned32 off size = false := by simpa [← aligned32_iff] using h
    exact ⟨act_regWrite_of_not_aligned v ha, portRead_of_not_aligned ha⟩
  case unmapped =>
    intro s off size v h
    exact ⟨act_regWrite_of_unmapped size v (regAt_of_ge h), portRead_of_unmapped size (regAt_of_ge h)⟩
  case busyWrite => exact fun s off size v => act_regWrite_of_busy off size v
  case busyRead =>
    intro s hb row hrow
    rw [portRead_of_mem hrow, readDefined_of_busy row.2 hb]
    simp only [blockWritten_iff]
  case busyStatus =>
    intro s hb
    have hfree : portRead s 0x08#8 4 = none := by
      rw [portRead_of_mem (n := .status) (by decide), readDefined_of_busy _ hb]; rfl
    exact ⟨_, _, act_regRead_of_free hfree, (shownWord_status s _).trans hb⟩
  case idle =>
    intro s hb
    refine ⟨fun row hrow => portRead_idle hb hrow, ?words, s.regs.statusWord, portRead_idle_eq hb .status rfl, ?status⟩
    case words =>
      simp only [List.forall_mem_cons]
      exact ⟨portRead_idle_eq hb .id rfl, portRead_idle_eq hb .cmd rfl, portRead_idle_eq hb .ctrl (readValue_ctrl _),
        portRead_idle_eq hb .errcode (readValue_errcode _), portRead_idle_eq hb .errinfo rfl,
        portRead_idle_eq hb .srcAddr rfl, portRead_idle_eq hb .srcLen rfl, portRead_idle_eq hb .hdrAddr rfl,
        portRead_idle_eq hb .hdrCap rfl, portRead_idle_eq hb .hdrLen rfl, portRead_idle_eq hb .pkdAddr rfl,
        portRead_idle_eq hb .pkdCap rfl, portRead_idle_eq hb .pkdLen rfl, portRead_idle_eq hb .dstAddr rfl,
        portRead_idle_eq hb .dstCap rfl, portRead_idle_eq hb .dstLen rfl, portRead_idle_eq hb .bitcntLo rfl,
        portRead_idle_eq hb .bitcntHi rfl, portRead_idle_eq hb .nsym (zero_append_eq _),
        portRead_idle_eq hb .nnode (zero_append_eq _), portRead_idle_eq hb .root (zero_append_eq _),
        portRead_idle_eq hb .tsel (zero_append_eq _), portRead_idle_eq hb .tidx (readValue_tidx _),
        fun _ h => nomatch h⟩
    case status =>
      obtain ⟨h0, h1, h2, h4, h5, h6⟩ := statusWord_getLsbD s.regs
      obtain ⟨h3, h7⟩ := statusWord_reserved s.regs
      exact ⟨h0.trans hb, h1, h2, h3, h4, h5, h6, h7⟩
  case read =>
    intro s off size
    cases h : portRead s off size with
    | some d => exact ⟨d, s.fresh, act_regRead_of_defined h, fun _ hd => Option.some.inj hd⟩
    | none => exact ⟨_, _, act_regRead_of_free h, fun _ hd => nomatch hd⟩

end Sys2Proof.Machine

/-! PROOFS. What a step can do, said once: one case per way an action of the agents, or the block's turn, can end
(spec/00_scope.md R8, spec/10_state.md R15); and from it the invariants of R43 at every step. -/

namespace Sys2Proof.Machine

/-! ### Reset -/

/-- What an asserted reset leaves of the block (R173): registers at their reset values, memory spoiled where the abandoned
command may write (R175), and the rest as it was. -/
theorem assertReset_next {s t : State} (h : assertReset s = .next t) :
    (∀ i, s.running = some i → WindowsOk i s) ∧
      t = { (s.scrambleAll s.windowsInDoubt).resetBlock with resetIn := true } := by
  unfold assertReset at h
  unfold State.windowsInDoubt
  split at h
  case h_1 hrun => cases h; simp [hrun, State.scrambleAll]
  case h_2 i hrun =>
    split at h
    case h_1 => cases h
    case h_2 hw => cases h; simpa [hrun, WindowsOk] using hw

/-! ### The complete step of a word that is no command -/

theorem complete_of_illegal {s : State} (h : ∀ i, decode s.pend ≠ .ok i) : complete s = .next (illegalCommand s) := by
  unfold complete
  split
  case h_1 i hi => exact absurd hi (h i)
  case h_2 => rfl

/-! ### Inversion -/

/-- The outcomes of an action that is not refused. -/
inductive ActEnds (s : State) : HostAction → State → Prop
  /-- a register write that R34 (a) to (c) or R173 has ignored -/
  | ignored {off : BitVec 8} {size : Nat} (v : Word) :
      s.regs.busy = true ∨ s.resetIn = true ∨ aligned32 off size = false ∨ regAt off = none →
      ActEnds s (.regWrite off size v) s
  /-- a `CMD` write (R19) -/
  | accepted (w : Word) : s.regs.busy = false → s.resetIn = false → ActEnds s (.regWrite 0x04#8 4 w) (s.accept w)
  /-- a write of another register -/
  | written {off : BitVec 8} {n : RegName} (v : Word) : s.regs.busy = false → s.resetIn = false → (off, n) ∈ regMap →
      n ≠ .cmd → ActEnds s (.regWrite off 4 v) { s with regs := s.regs.writeValue n v }
  /-- a read of a register, of a byte, or of the pin -/
  | observed {a : HostAction} (o : Observed) (k : Nat) : a ≠ .blockTurn → a ≠ .resetPin true →
      (∀ off size v, a ≠ .regWrite off size v) → ActEnds s a { s with observed := o :: s.observed, fresh := k }
  /-- another agent's write of a byte -/
  | stored {a : Word} (v : Byte) : anyHolds s.platform a.toNat = false → anyHolds s.windowsInUse a.toNat = false →
      ActEnds s (.memWrite a v) (s.writeByte a.toNat v)
  /-- the reset input asserted -/
  | reset : (∀ i, s.running = some i → WindowsOk i s) →
      ActEnds s (.resetPin true) { (s.scrambleAll s.windowsInDoubt).resetBlock with resetIn := true }
  /-- the reset input released -/
  | released : ActEnds s (.resetPin false) { s with resetIn := false }
  /-- the turn of an idle block -/
  | waited : s.regs.busy = false → ActEnds s .blockTurn s
  /-- the complete step of a command -/
  | completed {i : Instr} {t : State} : s.regs.busy = true → decode s.pend = .ok i → exec i s = .next t →
      ActEnds s .blockTurn t
  /-- the complete step of a word that is no command -/
  | illegal : s.regs.busy = true → (∀ i, decode s.pend ≠ .ok i) → ActEnds s .blockTurn (illegalCommand s)

theorem hostRegWrite_ends (s : State) (off : BitVec 8) (size : Nat) (v : Word) :
    ActEnds s (.regWrite off size v) (hostRegWrite s off size v) := by
  unfold hostRegWrite
  split
  case isTrue h => exact .ignored v (h.imp_right (.imp_right fun ha => .inl (by simpa using ha)))
  case isFalse h =>
    obtain ⟨hb, hr, ha⟩ : s.regs.busy = false ∧ s.resetIn = false ∧ aligned32 off size = true := by simpa using h
    obtain ⟨rfl, _⟩ := (aligned32_iff off size).1 ha
    split
    case h_1 hnone => exact .ignored v (.inr (.inr (.inr hnone)))
    case h_2 hcmd =>
      have hoff : ∀ row ∈ regMap, row.2 = .cmd → row.1 = 0x04#8 := by decide
      obtain rfl : off = 0x04#8 := hoff _ (mem_regMap_of_regAt hcmd) rfl
      exact .accepted v hb hr
    case h_3 n hn hcmd => exact .written v hb hr (mem_regMap_of_regAt hcmd) fun h => hn (h ▸ rfl)

theorem act_ends {s t : State} {a : HostAction} (h : act a s = .next t) : ActEnds s a t := by
  cases a with
  | regWrite off size v => cases h; exact hostRegWrite_ends s off size v
  | regRead off size =>
    cases hp : portRead s off size with
    | some d =>
      rw [act_regRead_of_defined hp] at h; cases h
      exact .observed (.reg off d) s.fresh nofun nofun nofun
    | none =>
      rw [act_regRead_of_free hp] at h; cases h
      exact .observed _ _ nofun nofun nofun
  | memWrite a v =>
    simp only [act, hostMemWrite] at h
    split at h
    case isTrue => cases h
    case isFalse hp =>
      split at h <;> cases h
      case isFalse hu => exact .stored v (by simpa using hp) (by simpa using hu)
  | memRead a =>
    simp only [act, hostMemRead] at h
    split at h
    · cases h
    · split at h <;> cases h
      · exact .observed _ _ nofun nofun nofun
      · exact .observed (.mem a (s.byteAt a.toNat)) s.fresh nofun nofun nofun
  | sampleIrq => cases h; exact .observed (.irq s.irq) s.fresh nofun nofun nofun
  | resetPin level =>
    cases level with
    | true => obtain ⟨hw, rfl⟩ := assertReset_next h; exact .reset hw
    | false => cases h; exact .released
  | blockTurn =>
    rw [act_blockTurn] at h
    cases hb : s.regs.busy with
    | false => rw [blockTurn_of_idle hb] at h; cases h; exact .waited hb
    | true =>
      cases hd : decode s.pend with
      | ok i => rw [blockTurn_of_decode hb hd] at h; exact .completed hb hd h
      | error e =>
        have hno : ∀ i, decode s.pend ≠ .ok i := fun i hi => nomatch hd.symm.trans hi
        rw [blockTurn_of_busy hb, complete_of_illegal hno] at h; cases h
        exact .illegal hb hno

/-- The action that a step takes, and what it leaves of the script: its head, or the block's turn when there is none
(spec/70_reset_and_hazards.md R186). -/
def State.Takes (s : State) (a : HostAction) (rest : List HostAction) : Prop :=
  s.script = a :: rest ∨ s.script = [] ∧ a = .blockTurn ∧ rest = []

theorem State.Takes.script_eq {s : State} {a : HostAction} {rest : List HostAction} (h : s.Takes a rest)
    (ha : a ≠ .blockTurn) : s.script = a :: rest := by
  obtain h | ⟨_, rfl, _⟩ := h
  · exact h
  · exact absurd rfl ha

/-- A step is the action it takes, in the state from which that has been taken off the script. -/
theorem step_ends {s t : State} (h : step s = .next t) :
    ∃ a rest, s.Takes a rest ∧ ActEnds { s with script := rest } a t := by
  cases hs : s.script with
  | nil =>
    rw [step_of_script_nil hs] at h
    have hsame : { s with script := [] } = s := by rw [← hs]
    refine ⟨.blockTurn, [], .inr ⟨hs, rfl, rfl⟩, ?_⟩
    rw [hsame]
    exact act_ends h
  | cons a rest =>
    rw [step_of_script_cons hs] at h
    exact ⟨a, rest, .inl hs, act_ends h⟩

/-- A predicate that does not look at the script and that every outcome of an action keeps is kept by every step. -/
theorem step_keeps {P : State → Prop} (hscript : ∀ s rest, P s → P { s with script := rest })
    (hact : ∀ s a t, P s → ActEnds s a t → P t) (s t : State) (hs : P s) (h : step s = .next t) : P t := by
  obtain ⟨a, rest, _, he⟩ := step_ends h
  exact hact _ a t (hscript s rest hs) he

/-! ### The invariants (R43) -/

/-- Registers at their reset values claim nothing (R44). -/
theorem contextInv_of_reset {s : State} (h : s.regs = Regs.reset) : ContextInv s :=
  .of_invalid (by rw [h]; rfl) (by rw [h]; rfl) (by rw [h]; rfl)

theorem statusInv_of_reset {s : State} (h : s.regs = Regs.reset) : StatusInv s := by
  refine ⟨?_, ?_, ?_, ?_, fun _ => h⟩ <;> rw [h] <;> decide

/-- Settles O60: with every register at its reset value the invariants claim nothing. -/
theorem resetMeetsInvariants : Obligations.ResetMeetsInvariants :=
  ⟨rfl, statusInv_of_reset rfl, contextInv_of_reset rfl⟩

theorem ContextInv.writeValue {s : State} (h : ContextInv s) (n : RegName) (v : Word) :
    ContextInv { s with regs := s.regs.writeValue n v } :=
  have hk := s.regs.writeValue_sameBlockFields n v
  h.congr rfl rfl rfl hk.freqValid hk.treeValid hk.codeValid hk.nsym hk.nnode hk.root

theorem ActEnds.contextInv {s t : State} {a : HostAction} (h : ActEnds s a t) (hs : ContextInv s) : ContextInv t := by
  cases h with
  | ignored | waited => exact hs
  | accepted | observed | stored | released => exact hs.congr rfl rfl rfl rfl rfl rfl rfl rfl rfl
  | written v => exact hs.writeValue _ v
  | reset => exact contextInv_of_reset rfl
  | completed _ _ he => exact exec_contextInv he hs
  | illegal => exact contextInv_fail hs _ _ _

/-- Settles O59: only completion and reset touch what R43 (a) to (d) speak of, and each keeps it. -/
theorem stepKeepsContext : Obligations.StepKeepsContext := fun s t =>
  step_keeps (fun _ _ h => h.congr rfl rfl rfl rfl rfl rfl rfl rfl rfl) (fun _ _ _ hs h => h.contextInv hs) s t

/-- A pending command means that reset is not asserted (R173). -/
theorem StatusInv.resetIn_of_busy {s : State} (h : StatusInv s) (hb : s.regs.busy = true) : s.resetIn = false := by
  cases hr : s.resetIn with
  | false => rfl
  | true => rw [h.inReset hr] at hb; cases hb

theorem ErrKind.code_range (k : ErrKind) : k.code ≠ 0#8 ∧ k.code.toNat ≤ 8 := by cases k <;> decide

/-- An error completion out of reset makes a consistent report, whatever stood before it (R160). -/
theorem statusInv_fail {s : State} (hr : s.resetIn = false) (outs : List Window) (c : Bool) (e : Report) :
    StatusInv (s.fail outs c e) := by
  obtain ⟨hne, hle⟩ := e.kind.code_range
  refine ⟨?_, ?_, ?_, ?_, by simp [hr]⟩ <;> simp [State.fail_regs, hne, hle]

/-- Acceptance out of reset clears the report (R19). -/
theorem statusInv_accept {s : State} (hr : s.resetIn = false) (w : Word) : StatusInv (s.accept w) := by
  refine ⟨?_, ?_, ?_, ?_, by simp [hr]⟩ <;> simp

theorem StatusInv.writeValue {s : State} (h : StatusInv s) (hr : s.resetIn = false) (n : RegName) (v : Word) :
    StatusInv { s with regs := s.regs.writeValue n v } := by
  obtain ⟨hbusy, herr, hcode, hsub, hinfo, _⟩ := s.regs.writeValue_sameBlockFields n v
  constructor
  case errCode => simpa only [herr, hcode] using h.errCode
  case busyDone => exact fun ⟨hb, hd⟩ => h.busyDone ⟨hbusy ▸ hb, Regs.done_of_writeValue_done hd⟩
  case pending => simpa only [hbusy, herr, hsub, hinfo] using h.pending
  case codes => simpa only [hcode] using h.codes
  case inReset => exact fun hc => nomatch hr.symm.trans hc

theorem ActEnds.statusInv {s t : State} {a : HostAction} (h : ActEnds s a t) (hs : StatusInv s) : StatusInv t := by
  cases h with
  | ignored | waited => exact hs
  | observed | stored => exact hs.of_regs rfl id
  | released => exact hs.of_regs rfl nofun
  | accepted w _ hr => exact statusInv_accept hr w
  | written v _ hr => exact hs.writeValue hr _ v
  | reset => exact statusInv_of_reset rfl
  | completed hb _ he => exact exec_statusInv he hb hs
  | illegal hb => exact statusInv_fail (hs.resetIn_of_busy hb) _ _ _

/-- Settles O58: every outcome of an action leaves a consistent report. -/
theorem stepKeepsStatus : Obligations.StepKeepsStatus := fun s t =>
  step_keeps (fun _ _ h => h.of_regs rfl id) (fun _ _ _ hs h => h.statusInv hs) s t

end Sys2Proof.Machine

/-! PROOFS. The block right after reset: what every register reads (spec/10_state.md R44) and what the first command gives
(spec/70_reset_and_hazards.md R174). -/

namespace Sys2Proof.Machine

/-! ### What reads right after reset -/

theorem step_resetPin_regs {s t : State} {rest : List HostAction} (hs : s.script = .resetPin true :: rest)
    (h : step s = .next t) : t.regs = Regs.reset := by
  rw [step_of_script_cons hs] at h
  obtain ⟨_, rfl⟩ := assertReset_next (s := { s with script := rest }) h
  rfl

theorem readValue_reset (n : RegName) : Regs.reset.readValue n = if n = .id then 0x48554631#32 else 0#32 := by
  cases n <;> rfl

/-- With no valid flag set, each of the three tables reads as any value (R33). -/
theorem tdata_of_invalid {s : State} (hf : s.regs.freqValid = false) (ht : s.regs.treeValid = false)
    (hc : s.regs.codeValid = false) (hsel : s.regs.tsel ≠ 3#2) : tdata s = none := by
  have hcases : ∀ sel : BitVec 2, sel ≠ 3#2 → sel = 0#2 ∨ sel = 1#2 ∨ sel = 2#2 := by decide
  rcases hcases _ hsel with h | h | h <;> simp [tdata, tdataFreq, tdataNode, tdataCode, h, hf, ht, hc]

/-- Settles O6: both kinds of state have their registers at the reset values, and the reads look at nothing else. -/
theorem readsAfterReset : Obligations.ReadsAfterReset := by
  intro s hs
  have hregs : s.regs = Regs.reset := by
    obtain rfl | ⟨u, rest, hu, h⟩ := hs
    · rfl
    · exact step_resetPin_regs hu h
  refine ⟨fun row hrow hn => ?reads, ?idle, fun sel hsel idx word => ?tables⟩
  case reads => rw [portRead_idle (by rw [hregs]; rfl) hrow hn, hregs, readValue_reset]
  case idle => rw [State.irq, hregs]; decide
  case tables =>
    rw [hregs, portRead_tdata_of_idle rfl]
    exact tdata_of_invalid rfl rfl rfl hsel

/-! ### The first command -/

theorem inRange_empty : InRange 0#32 0#32 := by unfold InRange; decide

/-- No symbol is present in an empty input (R86). -/
theorem present_countBytes_nil : present (countBytes []) = [] :=
  List.eq_nil_iff_forall_not_mem.2 fun u hu => nomatch (mem_present_countBytes (by decide) u).1 hu

/-- An empty header is cut short at its first byte (R120). -/
theorem parseHeader_empty (H : Nat → Byte) : parseHeader H 0 = .error ⟨.malformedHeader, 2#8, 0#32⟩ := rfl

/-- `COMPRESS` of an empty input, its windows in range (R145, R152). -/
theorem compressBody_empty {s : State} (hs : InRange s.regs.srcAddr s.regs.srcLen)
    (hh : InRange s.regs.hdrAddr s.regs.hdrCap) (hp : InRange s.regs.pkdAddr s.regs.pkdCap) (h0 : s.regs.srcLen = 0#32) :
    compressBody s = .raised ⟨.emptyInput, 0#8, 0#32⟩ s.clearValid := by
  have h := compressBody_ends s
  generalize compressBody s = r at h ⊢
  cases h with
  | empty => rfl
  | rangeSrc | rangeHdr | rangePkd | overflowPkd | overflowHdr | done => contradiction

/-- The state in which the first command after reset runs, no register programmed (R174). -/
def firstState (i : Instr) : State := State.reset.accept (encode i)

theorem firstState_windowsOk (i : Instr) : WindowsOk i (firstState i) := by cases i <;> rfl

theorem step_first (i : Instr) : step (State.reset.withFetchWord 32 (encode i).toNat) = exec i (firstState i) := by
  rw [State.withFetchWord_toNat, step_withCommand]
  exact blockTurn_of_decode rfl (decode_encode i)

theorem step_first_of_done {i : Instr} {u : State} (h : bodyOf i (firstState i) = .done u) :
    step (State.reset.withFetchWord 32 (encode i).toNat) = .next u.succeed :=
  (step_first i).trans (exec_of_done (firstState_windowsOk i) h)

/-- An error of the first command: the report over the reset values, as there is no result length and no flag to clear. -/
theorem step_first_of_raised {i : Instr} {e : Report} {u : State} (h : bodyOf i (firstState i) = .raised e u)
    (hu : u.regs = Regs.reset.accept) :
    ∃ t, step (State.reset.withFetchWord 32 (encode i).toNat) = .next t ∧ t.regs = Regs.reset.reportError e := by
  refine ⟨_, (step_first i).trans (exec_of_raised (firstState_windowsOk i) h), ?_⟩
  rw [State.fail_regs, hu]
  cases i <;> rfl

/-- Settles O49: each command by the way its pseudocode ends on empty windows and no valid flag. -/
theorem firstCommandAfterReset : Obligations.FirstCommandAfterReset := by
  intro i
  cases i with
  | nop => exact ⟨_, step_first_of_done (i := .nop) rfl, rfl⟩
  | clear => exact ⟨_, step_first_of_done (i := .clear) rfl, rfl⟩
  | count =>
    refine ⟨_, step_first_of_done (i := .count) (countBody_done inRange_empty), ?_⟩
    rw [State.succeed_regs, State.counted, show (firstState .count).srcBytes = [] from rfl, present_countBytes_nil]
    rfl
  | build => exact step_first_of_raised (i := .build) (buildBody_sequence rfl) rfl
  | gencode => exact step_first_of_raised (i := .gencode) (gencodeBody_sequence rfl) rfl
  | encode => exact step_first_of_raised (i := .encode) (encodeBody_sequence rfl) rfl
  | wrhdr => exact step_first_of_raised (i := .wrhdr) (wrhdrBody_sequence rfl) rfl
  | decode => exact step_first_of_raised (i := .decode) (decodeBody_sequence rfl) rfl
  | compress =>
    exact step_first_of_raised (i := .compress) (compressBody_empty inRange_empty inRange_empty inRange_empty rfl) rfl
  | rdhdr =>
    exact step_first_of_raised (i := .rdhdr) (rdhdrBody_malformed inRange_empty (parseHeader_empty _)) rfl
  | decompress =>
    refine step_first_of_raised (i := .decompress) ?_ rfl (u := (firstState .decompress).clearValid.freeCode)
    rw [bodyOf, decompressBody_eq inRange_empty inRange_empty inRange_empty, rdhdrBody_clearValid,
      rdhdrBody_malformed inRange_empty (parseHeader_empty _), Run.bind_raised]

end Sys2Proof.Machine

/-! PROOFS. What the sequencer alone changes (spec/10_state.md R15): `BUSY`, the valid flags, the tables, the results and
the report, by the outcomes of an action. -/

namespace Sys2Proof.Machine

/-- `BUSY` rises only where a `CMD` write is accepted (R15, R19). -/
theorem ActEnds.accepted_of_busy_rises {s t : State} {a : HostAction} (h : ActEnds s a t) (hs : s.regs.busy = false)
    (ht : t.regs.busy = true) : ∃ w, a = .regWrite 0x04#8 4 w ∧ t.pend = w := by
  cases h with
  | accepted w => exact ⟨w, rfl, rfl⟩
  | ignored | observed | stored | released | waited => exact nomatch hs.symm.trans ht
  | written v =>
    rw [(s.regs.writeValue_sameBlockFields _ v).busy] at ht
    exact nomatch hs.symm.trans ht
  | reset => exact nomatch ht
  | completed hb | illegal hb => exact nomatch hs.symm.trans hb

/-- What a step that is neither a complete step nor an asserted reset does to the registers: nothing, or the acceptance of a
command (R19), or the host's write of one register (R17). -/
inductive HostRegs (r : Regs) : HostAction → Regs → Prop
  | same (a : HostAction) : HostRegs r a r
  | accepted (w : Word) : r.busy = false → HostRegs r (.regWrite 0x04#8 4 w) r.accept
  | written {off : BitVec 8} {n : RegName} (v : Word) : r.busy = false → (off, n) ∈ regMap →
      HostRegs r (.regWrite off 4 v) (r.writeValue n v)

/-- Nothing but a complete step and an asserted reset changes a table, and of the registers only the host's writes. -/
theorem ActEnds.hostSide {s t : State} {a : HostAction} (h : ActEnds s a t)
    (hb : s.regs.busy = false ∨ a ≠ .blockTurn) (hr : a ≠ .resetPin true) :
    SameTables s t ∧ HostRegs s.regs a t.regs := by
  cases h with
  | ignored | observed | stored | released | waited => exact ⟨⟨rfl, rfl, rfl⟩, .same _⟩
  | accepted w hidle => exact ⟨⟨rfl, rfl, rfl⟩, .accepted w hidle⟩
  | written v hidle _ hmem => exact ⟨⟨rfl, rfl, rfl⟩, .written v hidle hmem⟩
  | reset => contradiction
  | completed hbusy | illegal hbusy => simp [hbusy] at hb

/-- The fields of the registers that the host's side of the machine leaves alone: the valid flags and the results
`NSYM`, `NNODE`, `ROOT`, `DST_LEN` always, the report but for an acceptance, the four writable results but for a write
of their own. -/
structure ResultsKept (r : Regs) (a : HostAction) (q : Regs) : Prop where
  busy      : r.busy = true → q.busy = true
  freqValid : q.freqValid = r.freqValid
  treeValid : q.treeValid = r.treeValid
  codeValid : q.codeValid = r.codeValid
  nsym      : q.nsym = r.nsym
  nnode     : q.nnode = r.nnode
  root      : q.root = r.root
  dstLen    : q.dstLen = r.dstLen
  report    : (r.busy = true ∨ ∀ w, a ≠ .regWrite 0x04#8 4 w) →
    q.err = r.err ∧ q.errCode = r.errCode ∧ q.errSub = r.errSub ∧ q.errInfo = r.errInfo
  hdrLen    : (r.busy = true ∨ ∀ w, a ≠ .regWrite 0x28#8 4 w) → q.hdrLen = r.hdrLen
  pkdLen    : (r.busy = true ∨ ∀ w, a ≠ .regWrite 0x34#8 4 w) → q.pkdLen = r.pkdLen
  bitcntLo  : (r.busy = true ∨ ∀ w, a ≠ .regWrite 0x44#8 4 w) → q.bitcntLo = r.bitcntLo
  bitcntHi  : (r.busy = true ∨ ∀ w, a ≠ .regWrite 0x48#8 4 w) → q.bitcntHi = r.bitcntHi

/-- Acceptance on an idle block changes `BUSY`, `DONE` and the report alone (R19). -/
theorem resultsKept_accept {r : Regs} (hb : r.busy = false) (w : Word) :
    ResultsKept r (.regWrite 0x04#8 4 w) r.accept where
  busy _ := rfl
  freqValid := rfl
  treeValid := rfl
  codeValid := rfl
  nsym := rfl
  nnode := rfl
  root := rfl
  dstLen := rfl
  report h := by simp [hb] at h
  hdrLen _ := rfl
  pkdLen _ := rfl
  bitcntLo _ := rfl
  bitcntHi _ := rfl

/-- A register reads as before a write on an idle block at another offset than its own. -/
theorem readValue_of_other_offset {r : Regs} {off k : BitVec 8} {n : RegName} (m : RegName) {v : Word}
    (hb : r.busy = false) (hn : (off, n) ∈ regMap) (hk : ∀ row ∈ regMap, row.2 = m → row.1 = k)
    (h : r.busy = true ∨ ∀ w, HostAction.regWrite off 4 v ≠ .regWrite k 4 w) :
    (r.writeValue n v).readValue m = r.readValue m := by
  refine r.readValue_writeValue_other v ?_
  rintro rfl
  obtain rfl : off = k := hk _ hn rfl
  simp [hb] at h

theorem resultsKept_writeValue {r : Regs} {off : BitVec 8} {n : RegName} (hb : r.busy = false)
    (hn : (off, n) ∈ regMap) (v : Word) : ResultsKept r (.regWrite off 4 v) (r.writeValue n v) :=
  have hk := r.writeValue_sameBlockFields n v
  { busy := fun h => hk.busy.trans h
    freqValid := hk.freqValid
    treeValid := hk.treeValid
    codeValid := hk.codeValid
    nsym := hk.nsym
    nnode := hk.nnode
    root := hk.root
    dstLen := hk.dstLen
    report := fun _ => ⟨hk.err, hk.errCode, hk.errSub, hk.errInfo⟩
    hdrLen := readValue_of_other_offset .hdrLen hb hn (by decide)
    pkdLen := readValue_of_other_offset .pkdLen hb hn (by decide)
    bitcntLo := readValue_of_other_offset .bitcntLo hb hn (by decide)
    bitcntHi := readValue_of_other_offset .bitcntHi hb hn (by decide) }

theorem HostRegs.resultsKept {r q : Regs} {a : HostAction} (h : HostRegs r a q) : ResultsKept r a q := by
  cases h with
  | same => constructor <;> simp
  | accepted w hb => exact resultsKept_accept hb w
  | written v hb hn => exact resultsKept_writeValue hb hn v

/-- A script that does not begin with a write at an offset has no step take one. -/
theorem State.Takes.ne_regWrite {s : State} {a : HostAction} {rest : List HostAction} (ht : s.Takes a rest) {k : BitVec 8}
    (h : s.regs.busy = true ∨ ∀ w rest, s.script ≠ .regWrite k 4 w :: rest) :
    s.regs.busy = true ∨ ∀ w, a ≠ .regWrite k 4 w :=
  h.imp_right fun h w ha => h w rest (ha ▸ ht.script_eq (ha ▸ nofun))

/-- Settles O56, by the action that the step takes. -/
theorem onlyTheBlockEndsACommand : Obligations.OnlyTheBlockEndsACommand := by
  intro s t h
  obtain ⟨a, rest, ht, he⟩ := step_ends h
  refine ⟨fun hidle hbusy => ?rises, fun hside hreset => ?kept⟩
  case rises =>
    obtain ⟨w, rfl, hw⟩ := he.accepted_of_busy_rises hidle hbusy
    exact ⟨w, rest, ht.script_eq nofun, hw⟩
  case kept =>
    have hb : s.regs.busy = false ∨ a ≠ .blockTurn := by
      refine hside.imp_right ?_
      rintro ⟨a', rest', hs', ha'⟩ rfl
      obtain hs | ⟨hs, _⟩ := ht
      · exact ha' (List.cons.inj (hs'.symm.trans hs)).1
      · exact nomatch hs'.symm.trans hs
    have hr : a ≠ .resetPin true := fun ha => hreset rest (ha ▸ ht.script_eq (ha ▸ nofun))
    obtain ⟨htables, hregs⟩ := he.hostSide hb hr
    have hk := hregs.resultsKept
    exact ⟨hk.busy, htables, hk.freqValid, hk.treeValid, hk.codeValid, hk.nsym, hk.nnode, hk.root, hk.dstLen,
      fun h => hk.report (ht.ne_regWrite h), fun h => hk.hdrLen (ht.ne_regWrite h),
      fun h => hk.pkdLen (ht.ne_regWrite h), fun h => hk.bitcntLo (ht.ne_regWrite h),
      fun h => hk.bitcntHi (ht.ne_regWrite h)⟩

end Sys2Proof.Machine

/-! PROOFS. The block and the memory it shares (spec/20_memory.md R46 to R63): when a complete step answers a state, where it
writes, what an error leaves, and the canonical form of memory at every step. -/

namespace Sys2Proof.Machine

/-! ### When a command completes (R63, R186) -/

/-- Two regions do not overlap when no address lies in both. -/
theorem Region.overlaps_false_iff_disjoint (g h : Region) :
    g.overlaps h = false ↔ ∀ a, ¬ (g.holds a = true ∧ h.holds a = true) := by
  rw [← Bool.not_eq_true, Region.overlaps_iff, not_exists]

/-- The conditions of R63 (c), (d) in terms of shared addresses. -/
theorem windowsOk_iff_disjoint (i : Instr) (s : State) :
    WindowsOk i s ↔
      (∀ g ∈ writeRegions i s.regs, ∀ h ∈ readRegions i s.regs, ∀ a, ¬ (g.holds a = true ∧ h.holds a = true)) ∧
      (writeRegions i s.regs).Pairwise (fun g h => ∀ a, ¬ (g.holds a = true ∧ h.holds a = true)) ∧
      (∀ g ∈ usedRegions i s.regs, ∀ h ∈ s.platform, ∀ a, ¬ (g.holds a = true ∧ h.holds a = true)) := by
  simp only [WindowsOk, windowBreach_none_iff, windowsOverlap_false_iff, windowsNonOrdinary_false_iff,
    Region.overlaps_false_iff_disjoint, and_assoc]

theorem State.fail_idle (outs : List Window) (c : Bool) (e : Report) (s : State) :
    (s.fail outs c e).regs.busy = false ∧ (s.fail outs c e).regs.done = true := by
  rw [State.fail_regs]
  exact ⟨rfl, rfl⟩

/-- A command completes exactly where its windows keep R63: both completions leave the block idle with `DONE` set. -/
theorem exec_completes_iff (i : Instr) (s : State) :
    (∃ t, exec i s = .next t ∧ t.regs.busy = false ∧ t.regs.done = true) ↔ WindowsOk i s := by
  constructor
  · rintro ⟨t, h, -⟩
    exact ((exec_next_iff i s t).1 h).1
  · intro hw
    cases hb : bodyOf i s with
    | done u => exact ⟨_, exec_of_done hw hb, rfl, rfl⟩
    | raised e u => exact ⟨_, exec_of_raised hw hb, State.fail_idle _ _ e u⟩

/-- Settles O54: a command completes exactly where its windows keep R63 (c), (d). -/
theorem completesUnlessWindowsBreach : Obligations.CompletesUnlessWindowsBreach := fun i s =>
  (exec_completes_iff i s).trans (windowsOk_iff_disjoint i s)

/-! ### Where a command writes (R55, R56) -/

theorem resultRegions_succeed (i : Instr) (u : State) : resultRegions i u.succeed.regs = resultRegions i u.regs :=
  List.map_congr_left fun w _ => by cases w <;> rfl

theorem Regs.readLen_reportSuccess (r : Regs) (w : Window) : r.reportSuccess.readLen w = r.readLen w := by
  cases w <;> rfl

/-- However a command ends, it leaves every byte outside the capacity ranges it may write (R55, R57). -/
theorem exec_sameMemoryOutside {i : Instr} {s t : State} (h : exec i s = .next t) :
    SameMemoryOutside (writeRegions i s.regs) s t := by
  obtain ⟨_, u, hk, ⟨_, rfl⟩ | ⟨e, _, rfl⟩⟩ := exec_cases h
  · exact fun a ha => (hk.memory a ha).trans (State.sameByte_succeed u a)
  · intro a ha
    have hu : anyHolds (writeRegions i u.regs) a = false := by rwa [hk.operands.writeRegions]
    exact (hk.memory a ha).trans (State.fail_sameByte_outside _ _ e u a hu)

/-- A success has written the bytes of its results and no others, and they are known (R56). -/
theorem exec_success_memory {i : Instr} {s t : State} (h : exec i s = .next t) (he : t.regs.err = false) :
    SameMemoryOutside (resultRegions i t.regs) s t ∧ DefinedIn (resultRegions i t.regs) t ∧
      ∀ w ∈ writeWindows i, (t.regs.readLen w).toNat ≤ (s.regs.cap w).toNat := by
  obtain ⟨_, u, hu, rfl⟩ := exec_success h he
  obtain ⟨hsame, hdef, hcap⟩ := bodyOf_done_memory hu
  rw [resultRegions_succeed]
  refine ⟨fun a ha => (hsame a ha).trans (State.sameByte_succeed u a),
    fun a ha => (State.sameByte_succeed u a).2.trans (hdef a ha), fun w hw => ?_⟩
  rw [State.succeed_regs, Regs.readLen_reportSuccess]
  exact hcap w hw

/-- Settles O51: the results of a success, and the empty frame of a command that writes no window. -/
theorem memoryWritesAreConfined : Obligations.MemoryWritesAreConfined := by
  intro i s t h
  refine ⟨fun he => ?results, fun hw a => ?frame, fun he => ?capacity⟩
  case results =>
    obtain ⟨hsame, hdef, _⟩ := exec_success_memory h he
    exact ⟨hsame, hdef⟩
  case frame => exact exec_sameMemoryOutside h a (by rw [writeRegions, hw]; rfl)
  case capacity => exact (exec_success_memory h he).2.2

/-! ### What an error leaves (R57, R160, R161) -/

/-- A complete step that reports an error is the error completion of what its pseudocode raised. -/
theorem exec_error {i : Instr} {s t : State} (h : exec i s = .next t) (he : t.regs.err = true) :
    ∃ e u, Kept i s u ∧ bodyOf i s = .raised e u ∧ t = u.fail (writeWindows i) (isComposite i) e := by
  obtain ⟨_, u, hk, ⟨_, rfl⟩ | ⟨e, hu, rfl⟩⟩ := exec_cases h
  · exact nomatch he
  · exact ⟨e, u, hk, hu, rfl⟩

/-- The errors that write nothing are `SEQUENCE`, `ILLEGAL_CMD` and `RANGE` (R57), by their codes (R22). -/
theorem ErrKind.writesNothing_iff (k : ErrKind) : k.writesNothing = true ↔ k.code ∈ [5#8, 6#8, 7#8] := by
  cases k <;> decide

theorem State.fail_errCode (outs : List Window) (c : Bool) (e : Report) (s : State) :
    (s.fail outs c e).regs.errCode = e.kind.code := by
  rw [State.fail_regs]; rfl

/-- `SRC` is never written (R49). -/
theorem src_not_mem_writeWindows (i : Instr) : Window.src ∉ writeWindows i := by cases i <;> decide

theorem Regs.readLen_setResultLen_same (r : Regs) {w : Window} (v : Word) (hw : w ≠ .src) :
    (r.setResultLen w v).readLen w = v := by
  cases w with
  | src => contradiction
  | hdr | pkd | dst => rfl

theorem Regs.readLen_setResultLen_other (r : Regs) {w x : Window} (v : Word) (hw : w ≠ x) :
    (r.setResultLen x v).readLen w = r.readLen w := by
  cases x <;> cases w <;> trivial

/-- The result length of every window of the list is 0, and stays so whatever else is zeroed (R161 (a)). -/
theorem Regs.readLen_zeroLens (r : Regs) {ws : List Window} {w : Window} (hsrc : w ≠ .src)
    (h : w ∈ ws ∨ r.readLen w = 0#32) : (r.zeroLens ws).readLen w = 0#32 := by
  induction ws generalizing r with
  | nil => exact h.resolve_left List.not_mem_nil
  | cons x ws ih =>
    refine ih (r.setResultLen x 0#32) ?_
    by_cases hx : w = x
    · subst hx
      exact .inr (r.readLen_setResultLen_same _ hsrc)
    · rw [r.readLen_setResultLen_other _ hx]
      simpa [hx] using h

theorem Regs.readLen_reportError (r : Regs) (e : Report) (w : Window) : (r.reportError e).readLen w = r.readLen w := by
  cases w <;> rfl

theorem State.fail_readLen {i : Instr} {w : Window} (hw : w ∈ writeWindows i) (c : Bool) (e : Report) (s : State) :
    (s.fail (writeWindows i) c e).regs.readLen w = 0#32 := by
  rw [State.fail_regs, Regs.readLen_reportError]
  exact Regs.readLen_zeroLens _ (fun h => src_not_mem_writeWindows i (h ▸ hw)) (.inl hw)

/-- A failed composite command ends with the context discarded (R149, R161 (c)). -/
theorem State.fail_flags_of_composite (outs : List Window) (e : Report) (s : State) :
    (s.fail outs true e).regs.freqValid = false ∧ (s.fail outs true e).regs.treeValid = false ∧
      (s.fail outs true e).regs.codeValid = false := by
  simp [State.fail_regs]

/-- `RDHDR` raises its errors with the valid flags cleared (R119, R161 (d)). -/
theorem rdhdrBody_raised_codeValid {s u : State} {e : Report} (h : rdhdrBody s = .raised e u) :
    u.regs.codeValid = false := by
  obtain ⟨_, _, _, hb⟩ | ⟨_, hb, _⟩ := rdhdrBody_cases s
  · exact nomatch hb.symm.trans h
  · cases hb.symm.trans h
    rfl

/-- Settles O48: the error completion field by field, of the state to which the pseudocode came. -/
theorem errorCompletionClaimsNothing : Obligations.ErrorCompletionClaimsNothing := by
  intro i s t h herr
  have hout := exec_sameMemoryOutside h
  obtain ⟨e, u, hk, hu, rfl⟩ := exec_error h herr
  obtain ⟨hbusy, hdone⟩ := State.fail_idle (writeWindows i) (isComposite i) e u
  obtain ⟨hne, hle⟩ := e.kind.code_range
  rw [State.fail_errCode, ← ErrKind.writesNothing_iff]
  refine ⟨hbusy, hdone, Nat.one_le_iff_ne_zero.2 fun h0 => hne (BitVec.eq_of_toNat_eq h0), hle,
    fun w hw => State.fail_readLen hw _ e u, ?composite, ?rdhdr, hout, fun hw => ?spoiled, fun hw a => ?untouched⟩
  case composite => rintro (rfl | rfl) <;> exact State.fail_flags_of_composite _ e u
  case rdhdr =>
    rintro rfl
    simp [State.fail_regs, isComposite, rdhdrBody_raised_codeValid hu]
  case spoiled =>
    rw [← hk.operands.writeRegions]
    exact State.fail_anyValueIn (by simpa using hw) _ _ u
  case untouched =>
    obtain ⟨hmem, hscr⟩ := bodyOf_raised_memory hu hw
    obtain ⟨hmem', hscr'⟩ := State.fail_memory_same (outs := writeWindows i) (c := isComposite i) (s := u) hw
    exact .congr (hmem'.trans hmem) (hscr'.trans hscr) a

/-! ### The canonical form of memory (R46) -/

theorem ActEnds.memoryInv {s t : State} {a : HostAction} (h : ActEnds s a t) (hs : MemoryInv s) : MemoryInv t := by
  cases h with
  | ignored | accepted | written | observed | released | waited => exact hs
  | stored v => exact Memory.wf_set hs (BitVec.isLt _) v
  | reset => exact State.wf_scrambleAll hs _
  | completed _ _ he => exact exec_memoryInv he hs
  | illegal => exact State.fail_mem_wf hs _ _ _

/-- Settles O57: an action's write lies in the address space, and spoiling only forgets bytes. -/
theorem stepKeepsMemoryCanonical : Obligations.StepKeepsMemoryCanonical := fun s t =>
  step_keeps (fun _ _ h => h) (fun _ _ _ hs h => h.memoryInv hs) s t

end Sys2Proof.Machine

/-! PROOFS. Command words (spec/30_encoding.md R65 to R67): the opcode map pairs each command with its own number, a word
decodes to a command exactly when it is the encoder's word of it, and what the block does with the words that are none. -/

namespace Sys2Proof.Machine

/-! ### The opcode map (R66) -/

theorem opcodeRow (i : Instr) : Laws.OpcodeRow.Statement i := by
  cases i with
  | nop => exact Laws.OpcodeRow.nop
  | clear => exact Laws.OpcodeRow.clear
  | count => exact Laws.OpcodeRow.count
  | build => exact Laws.OpcodeRow.build
  | gencode => exact Laws.OpcodeRow.gencode
  | encode => exact Laws.OpcodeRow.encode
  | wrhdr => exact Laws.OpcodeRow.wrhdr
  | rdhdr => exact Laws.OpcodeRow.rdhdr
  | decode => exact Laws.OpcodeRow.decode
  | compress => exact Laws.OpcodeRow.compress
  | decompress => exact Laws.OpcodeRow.decompress

/-- Each command has the one row of its number. -/
theorem mem_opcodeMap_iff (op : BitVec 8) (i : Instr) : (op, i) ∈ opcodeMap ↔ op = opOf i := by
  have hrow : (op, i) ∈ opcodeMap.filter (fun row => row.2 == i) ↔ (op, i) ∈ opcodeMap := by
    simp [List.mem_filter]
  rw [← hrow, (opcodeRow i).1]
  simp

theorem instrOfOp_opOf (i : Instr) : instrOfOp (opOf i) = some i := by
  cases i <;> rfl

theorem instrOfOp_eq_some_iff (op : BitVec 8) (i : Instr) : instrOfOp op = some i ↔ op = opOf i := by
  constructor
  · intro h
    obtain ⟨⟨op', i'⟩, hfind, rfl⟩ := Option.map_eq_some_iff.1 h
    have hop : op' = op := by simpa using List.find?_some hfind
    exact hop ▸ (mem_opcodeMap_iff op' i').1 (List.mem_of_find?_eq_some hfind)
  · rintro rfl
    exact instrOfOp_opOf i

/-- The assigned codes are those of the map's rows. -/
theorem mem_assignedOps_iff (op : BitVec 8) : op ∈ assignedOps ↔ ∃ i, op = opOf i := by
  have hkeys : assignedOps = opcodeMap.map (·.1) := rfl
  simp [hkeys, mem_opcodeMap_iff]

/-- The codes that R67 lists as unassigned, as ranges. -/
theorem not_mem_assignedOps_iff (op : BitVec 8) :
    op ∉ assignedOps ↔ (0x09 ≤ op.toNat ∧ op.toNat ≤ 0x0F) ∨ 0x12 ≤ op.toNat := by
  simp only [assignedOps, List.mem_cons, List.not_mem_nil, or_false, ← BitVec.toNat_inj, BitVec.toNat_ofNat]
  omega

/-! ### The decoder (R65 to R67) -/

/-- A word is its two fields (R65). -/
theorem word_eq_fields (w : Word) : w = w.extractLsb' 8 24 ++ w.extractLsb' 0 8 := by
  apply BitVec.eq_of_getLsbD_eq
  intro j hj
  rw [BitVec.getLsbD_append, BitVec.getLsbD_extractLsb', BitVec.getLsbD_extractLsb']
  by_cases h : j < 8
  · simp [h]
  · have hhigh : j - 8 < 24 ∧ 8 + (j - 8) = j := by omega
    simp [h, hhigh]

theorem decode_eq_ok_iff (w : Word) (i : Instr) :
    decode w = .ok i ↔ w.extractLsb' 8 24 = 0#24 ∧ w.extractLsb' 0 8 = opOf i := by
  rw [← instrOfOp_eq_some_iff]
  unfold decode
  split
  case isTrue hz => cases instrOfOp (w.extractLsb' 0 8) <;> simp [hz]
  case isFalse hz => simp [hz]

/-- A word is the encoder's word of the command it decodes to. -/
theorem eq_encode_of_decode {w : Word} {i : Instr} (h : decode w = .ok i) : w = encode i := by
  obtain ⟨hzero, hop⟩ := (decode_eq_ok_iff w i).1 h
  rw [word_eq_fields w, hzero, hop, encode]

theorem wf_ofWord_iff (w : Word) :
    (CmdWord.ofWord w).wf = true ↔ w.extractLsb' 8 24 = 0#24 ∧ w.extractLsb' 0 8 ∈ assignedOps := by
  simp [CmdWord.wf, CmdWord.zeroOk, CmdWord.opOk, CmdWord.ofWord]

/-- The well-formed words are those that decode. -/
theorem wf_ofWord_iff_decode (w : Word) : (CmdWord.ofWord w).wf = true ↔ ∃ i, decode w = .ok i := by
  simp only [wf_ofWord_iff, mem_assignedOps_iff, decode_eq_ok_iff, exists_and_left]

theorem decode?_eq_some_iff (w : Word) (i : Instr) : decode? w = some i ↔ decode w = .ok i := by
  unfold decode?
  cases decode w <;> simp

/-- The words that select no command are the ill-formed ones (R67). -/
theorem decode?_eq_none_iff (w : Word) : decode? w = none ↔ ¬ (CmdWord.ofWord w).wf = true := by
  simp only [wf_ofWord_iff_decode, ← decode?_eq_some_iff, Option.eq_none_iff_forall_ne_some, not_exists, ne_eq]

/-- A table row's 32-bit word is read whole. -/
theorem decodeTableWord_toNat (w : Word) : decodeTableWord 32 w.toNat = decode? w := by
  rw [decodeTableWord, if_pos ⟨le_rfl, w.isLt⟩, BitVec.ofNat_toNat, BitVec.setWidth_eq]

/-- Settles O3: `decode_encode` one way, and the fields of a word that decodes the other. -/
theorem decodeEncodeAgree : Obligations.DecodeEncodeAgree := by
  refine ⟨fun i => ⟨decode_encode i, ?table, (wf_ofWord_iff_decode _).2 ⟨i, decode_encode i⟩⟩,
    fun w i => eq_encode_of_decode, wf_ofWord_iff_decode⟩
  case table => rw [decodeTableWord_toNat, decode?_eq_some_iff, decode_encode]

/-- Settles O2: the list is the opcode map, in which each command has its own number. -/
theorem wordSelectsCommand : Obligations.WordSelectsCommand := fun w i =>
  (decode_eq_ok_iff w i).trans (and_congr_right' (mem_opcodeMap_iff _ i).symm)

/-- Settles O1: the decoder evaluates each word. -/
theorem knownWordsDecode : Obligations.KnownWordsDecode := by
  unfold Obligations.KnownWordsDecode
  decide

/-! ### Words that are no command (R67) -/

theorem runSteps_of_step {s t : State} (n : Nat) (h : step s = .next t) : runSteps (n + 1) s = runSteps n t := by
  simp only [runSteps, h]

/-- A pending word that is no command: the block's turn is the completion with `ILLEGAL_CMD`. -/
theorem blockTurn_of_illegal {s : State} (hb : s.regs.busy = true) (h : decode? s.pend = none) :
    blockTurn s = .next (illegalCommand s) := by
  refine (blockTurn_of_busy hb).trans (complete_of_illegal fun i hi => ?_)
  rw [(decode?_eq_some_iff _ i).2 hi] at h
  exact nomatch h

/-- The host's `CMD` write of an illegal word and the turn after it (R19, R67). -/
theorem runSteps_illegal {s : State} {w : Word} {rest : List HostAction} (hw : decode? w = none)
    (hb : s.regs.busy = false) (hr : s.resetIn = false) (hs : s.script = .regWrite 0x04#8 4 w :: .blockTurn :: rest) :
    runSteps 2 s = .next (illegalCommand (State.accept { s with script := rest } w)) := by
  have haccept : step s = .next (State.accept { s with script := .blockTurn :: rest } w) := by
    rw [step_of_script_cons hs]
    exact act_regWrite_cmd w hb hr
  have hturn : step (State.accept { s with script := .blockTurn :: rest } w) =
      .next (illegalCommand (State.accept { s with script := rest } w)) := by
    rw [step_of_script_cons (State.accept_script _ _), act_blockTurn]
    exact blockTurn_of_illegal rfl hw
  rw [runSteps_of_step 1 haccept, runSteps_of_step 0 hturn, runSteps]

/-- Settles O4: the words by their fields; the run ends in the error completion of the accepted word. -/
theorem illegalWordIsReported : Obligations.IllegalWordIsReported := by
  refine ⟨fun w => ?words, fun s w rest hw hb hr hs => ⟨_, runSteps_illegal hw hb hr hs, ?_⟩⟩
  case words =>
    rw [decode?_eq_none_iff, wf_ofWord_iff, not_and_or, not_mem_assignedOps_iff]
  obtain ⟨hmem, hscr⟩ := State.fail_memory_same (outs := []) (c := false)
    (e := ⟨.illegalCmd, 0#8, w⟩) (s := State.accept { s with script := rest } w) rfl
  exact ⟨State.fail_regs _ _ _ _, ⟨State.fail_freq .., State.fail_node .., State.fail_code ..⟩, hmem, hscr,
    State.fail_script .., State.fail_observed .., State.fail_resetIn .., State.fail_platform ..⟩

end Sys2Proof.Machine

/-! PROOFS. The table read-back `TDATA` of an idle block (spec/30_encoding.md R78 to R80), one table after the other: what
each selection shows, entry by entry. -/

namespace Sys2Proof.Machine

section
variable {s : State}

/-! ### The selected table (R32) -/

theorem portRead_tdata_freq (hb : s.regs.busy = false) (hsel : s.regs.tsel = 0#2) : portRead s 0x60#8 4 = tdataFreq s := by
  simp [portRead_tdata_of_idle hb, tdata, hsel]

theorem portRead_tdata_node (hb : s.regs.busy = false) (hsel : s.regs.tsel = 1#2) : portRead s 0x60#8 4 = tdataNode s := by
  simp [portRead_tdata_of_idle hb, tdata, hsel]

theorem portRead_tdata_code (hb : s.regs.busy = false) (hsel : s.regs.tsel = 2#2) : portRead s 0x60#8 4 = tdataCode s := by
  simp [portRead_tdata_of_idle hb, tdata, hsel]

theorem portRead_tdata_reserved (hb : s.regs.busy = false) (hsel : s.regs.tsel = 3#2) : portRead s 0x60#8 4 = some 0#32 := by
  simp [portRead_tdata_of_idle hb, tdata, hsel]

/-- `TIDX.IDX[8] = 0` says that the index is a symbol's. -/
theorem getLsbD_eight_eq_false_iff (x : BitVec 9) : x.getLsbD 8 = false ↔ x.toNat < 256 := by
  have h : x.getLsbD 8 = x.msb := rfl
  rw [h, BitVec.msb_eq_false_iff_two_mul_lt]
  omega

/-! ### The node arena (R79) -/

theorem tdataNode_of_invalid (hv : s.regs.treeValid = false) : tdataNode s = none := by
  simp [tdataNode, hv]

theorem tdataNode_of_outside (hv : s.regs.treeValid = true) (h : s.regs.tidx = 511#9 ∨ 1 < s.regs.tword.toNat) :
    tdataNode s = some 0#32 := by
  simp only [tdataNode, if_pos hv]
  exact if_pos h

theorem tdataNode_of_unused (hv : s.regs.treeValid = true) (hn : s.regs.nnode.toNat ≤ s.regs.tidx.toNat)
    (hi : s.regs.tidx ≠ 511#9) (hw : s.regs.tword.toNat ≤ 1) : tdataNode s = none := by
  have hin : ¬ (s.regs.tidx = Config.nil ∨ 1#4 < s.regs.tword) := not_or.2 ⟨hi, Nat.not_lt.2 hw⟩
  simp only [tdataNode, if_pos hv, if_neg hin, if_pos hn]

theorem tdataNode_of_entry (hv : s.regs.treeValid = true) (hn : s.regs.tidx.toNat < s.regs.nnode.toNat)
    (hi : s.regs.tidx ≠ 511#9) (hw : s.regs.tword.toNat ≤ 1) :
    tdataNode s = some (if s.regs.tword = 0#4 then (nodeAt s.node s.regs.tidx.toNat).f
      else (nodeAt s.node s.regs.tidx.toNat).linkWord) := by
  have hin : ¬ (s.regs.tidx = Config.nil ∨ 1#4 < s.regs.tword) := not_or.2 ⟨hi, Nat.not_lt.2 hw⟩
  simp only [tdataNode, if_pos hv, if_neg hin, if_neg (Nat.not_le.2 hn)]
  split <;> rfl

/-- The fields of a node's link word (R79). -/
theorem linkWord_fields (x : Node) :
    x.linkWord.extractLsb' 0 9 = x.left ∧ x.linkWord.extractLsb' 9 9 = x.right ∧ x.linkWord.extractLsb' 18 8 = x.sym ∧
      x.linkWord.getLsbD 26 = x.leaf ∧ x.linkWord.extractLsb' 27 5 = 0#5 := by
  refine ⟨?left, ?right, ?sym, by rw [linkWord_getLsbD]; simp, ?reserved⟩
  all_goals
    apply BitVec.eq_of_getLsbD_eq
    intro j hj
    rw [BitVec.getLsbD_extractLsb', linkWord_getLsbD]
  case left => simp [hj]
  case right =>
    have hplace : 9 + j < 18 := by omega
    simp [hj, hplace]
  case sym =>
    have hplace : ¬ 18 + j < 9 ∧ 18 + j < 26 := by omega
    simp [hj, hplace]
  case reserved =>
    have hplace : ¬ 27 + j < 9 ∧ ¬ 27 + j < 18 ∧ ¬ 27 + j < 26 ∧ ¬ 27 + j = 26 := by omega
    simp [hplace]

/-! ### The code table (R80) -/

theorem tdataCode_of_invalid (hv : s.regs.codeValid = false) : tdataCode s = none := by
  simp [tdataCode, hv]

theorem tdataCode_of_outside (hv : s.regs.codeValid = true) (h : 256 ≤ s.regs.tidx.toNat ∨ 8 < s.regs.tword.toNat) :
    tdataCode s = some 0#32 := by
  have hout : s.regs.tidx.getLsbD 8 = true ∨ 8#4 < s.regs.tword :=
    h.imp_left fun hi => by rwa [← Bool.not_eq_false, getLsbD_eight_eq_false_iff, Nat.not_lt]
  simp only [tdataCode, if_pos hv, if_pos hout]

theorem tdataCode_of_entry (hv : s.regs.codeValid = true) (hi : s.regs.tidx.toNat < 256) (hw : s.regs.tword.toNat ≤ 8) :
    tdataCode s = some
      (if s.regs.tword = 8#4 then 0#24 ++ (tableGet s.code (BitVec.ofNat 8 s.regs.tidx.toNat)).len
      else msbFirst 32 fun k =>
        (tableGet s.code (BitVec.ofNat 8 s.regs.tidx.toNat)).bits.getLsbD (32 * s.regs.tword.toNat + k)) := by
  have hin : ¬ (s.regs.tidx.getLsbD 8 = true ∨ 8#4 < s.regs.tword) :=
    not_or.2 ⟨by rwa [Bool.not_eq_true, getLsbD_eight_eq_false_iff], Nat.not_lt.2 hw⟩
  simp only [tdataCode, if_pos hv, if_neg hin, BitVec.ofNat_toNat]
  split <;> rfl

end

/-- Settles O14: each clause is one case of the arena's read-back, the last field by field. -/
theorem tdataShowsNode : Obligations.TdataShowsNode := by
  intro s hb hsel
  rw [portRead_tdata_node hb hsel]
  refine ⟨tdataNode_of_invalid, fun hv =>
    ⟨tdataNode_of_outside hv, tdataNode_of_unused hv, fun hn hi hw => ?freq, fun hn hi hw => ?links⟩⟩
  case freq => rw [tdataNode_of_entry hv hn hi (by rw [hw]; decide), if_pos hw]
  case links =>
    rw [tdataNode_of_entry hv hn hi (by rw [hw]; decide), if_neg (by rw [hw]; decide)]
    exact ⟨_, rfl, linkWord_fields _⟩

/-- Settles O15: each clause is one case of the code table's read-back; the words of bits are filled first bit first. -/
theorem tdataShowsCode : Obligations.TdataShowsCode := by
  refine ⟨fun s hb hsel => ?_, fun s => portRead_tdata_reserved⟩
  rw [portRead_tdata_code hb hsel]
  refine ⟨tdataCode_of_invalid, fun hv => ⟨tdataCode_of_outside hv, fun hi hw => ?length, fun hi hw => ?bits⟩⟩
  case length => rw [tdataCode_of_entry hv hi (by rw [hw]; decide), if_pos hw, zero_append_eq]
  case bits =>
    have hne : s.regs.tword ≠ 8#4 := fun h => by rw [h] at hw; exact absurd hw (by decide)
    rw [tdataCode_of_entry hv hi hw.le, if_neg hne]
    refine ⟨_, rfl, fun k hk => ?_⟩
    have hplace : 31 - k < 32 ∧ 32 - 1 - (31 - k) = k := by omega
    rw [getLsbD_msbFirst]
    simp [hplace]

/-- Settles O13: the read-back's two tests, the index one in terms of the index's value. -/
theorem tdataShowsFreq : Obligations.TdataShowsFreq := by
  intro s hb hsel
  simp only [portRead_tdata_freq hb hsel, tdataFreq, getLsbD_eight_eq_false_iff, BitVec.ofNat_toNat]
  cases s.regs.freqValid <;> rfl

end Sys2Proof.Machine

/-! PROOFS. What `ENCODE` and `WRHDR` leave in their windows (spec/30_encoding.md R69 to R77, spec/43_bit_encoder.md R112,
spec/44_header.md R116 to R118), and the bounds of a header's size. -/

namespace Sys2Proof.Machine

/-! ### `ENCODE` (R108, R112) -/

theorem exec_encode {s : State} (hw : WindowsOk .encode s) (hc : s.regs.codeValid = true)
    (hs : InRange s.regs.srcAddr s.regs.srcLen) (hp : InRange s.regs.pkdAddr s.regs.pkdCap)
    (hcov : ∀ b ∈ s.srcBytes, b ∈ coded s.code)
    (hfit : ceil8 (payload s.code s.srcBytes).length ≤ s.regs.pkdCap.toNat) : exec .encode s = .next s.packed.succeed :=
  exec_of_done (i := .encode) hw (encodeBody_done hc hs hp hcov hfit)

theorem packed_succeed_bitcnt (s : State) :
    s.packed.succeed.regs.bitcnt.toNat = (payload s.code s.srcBytes).length := packed_bitcnt s

/-- The completed stream window holds the packed payload (R75). -/
theorem readBytes_packed_succeed (s : State) :
    s.packed.succeed.readBytes
        ⟨s.packed.succeed.regs.pkdAddr.toNat, ceil8 (payload s.code s.srcBytes).length⟩ =
      packBytes (payload s.code s.srcBytes) := readBytes_packed s

/-- `BITCNT` and `PKD_LEN` are the only registers of a result that `ENCODE` writes (R140). -/
theorem packed_regs (s : State) :
    s.packed.regs = { s.regs.setBitcnt s.packed.regs.bitcnt with pkdLen := s.packed.regs.pkdLen } := by
  rw [packed_bitcnt_eq]
  rfl

/-- Settles O25: the completed state is `State.packed`, whose window holds the packed payload. -/
theorem encodePacksPayload : Obligations.EncodePacksPayload := by
  intro s hw hc hs hp hcov hfit
  have hread := readBytes_packed_succeed s
  have hbitcnt := packed_succeed_bitcnt s
  have hlen : s.packed.succeed.regs.pkdLen.toNat = ceil8 (payload s.code s.srcBytes).length := packed_pkdLen_toNat hfit
  refine ⟨s.packed.succeed, exec_encode hw hc hs hp hcov hfit, hbitcnt, by rw [hlen, hbitcnt], bitsFrom_of_packed hread,
    fun n h1 h2 => ?padding, fun a ha => ?frame, congrArg Regs.reportSuccess (packed_regs s), ⟨rfl, rfl, rfl⟩,
    ⟨rfl, rfl, rfl, rfl⟩⟩
  case padding => exact padding_of_packed hread (hbitcnt ▸ h1) (hlen ▸ h2)
  case frame =>
    rw [anyHolds_singleton] at ha
    exact (sameByte_packed_outside s rfl hlen.ge ha).trans (State.sameByte_succeed s.packed a)

/-! ### `WRHDR` (R116, R118) -/

theorem exec_wrhdr {s : State} (hw : WindowsOk .wrhdr s) (hc : s.regs.codeValid = true)
    (hh : InRange s.regs.hdrAddr s.regs.hdrCap) (hfit : headerSize s.code ≤ s.regs.hdrCap.toNat) :
    exec .wrhdr s = .next s.headed.succeed :=
  exec_of_done (i := .wrhdr) hw (wrhdrBody_done hc hh hfit)

/-- The completed header window holds the writer's bytes. -/
theorem readBytes_headed_succeed (s : State) :
    s.headed.succeed.readBytes ⟨s.regs.hdrAddr.toNat, headerSize s.code⟩ = headerBytes s.code s.regs.bitcnt :=
  readBytes_headed s

/-- A valid code table has a code (R43 (d)). -/
theorem ContextInv.coded_ne_nil {s : State} (hi : ContextInv s) (hc : s.regs.codeValid = true) : coded s.code ≠ [] := by
  obtain ⟨hpos, hcount⟩ := hi.codeNsym hc
  exact List.ne_nil_of_length_pos (by omega)

/-- Settles O27: the completed state is `State.headed`, whose window holds the writer's bytes, a valid header. -/
theorem wrhdrWritesHeader : Obligations.WrhdrWritesHeader := by
  intro s hi hw hc hh hfit
  have hlen : s.headed.succeed.regs.hdrLen.toNat = headerSize s.code := headed_hdrLen_toNat hfit
  have hread := readBytes_headed_succeed s
  refine ⟨s.headed.succeed, exec_wrhdr hw hc hh hfit, hlen, hread, ?valid, fun a ha => ?frame, rfl, ⟨rfl, rfl, rfl⟩,
    ⟨rfl, rfl, rfl, rfl⟩⟩
  case valid =>
    rw [hlen]
    exact headerHolds_headerBytes (hi.codeFree hc) (hi.coded_ne_nil hc) ((readBytes_eq_iff _ _ _).1 hread).2
  case frame =>
    rw [anyHolds_singleton] at ha
    exact (sameByte_headed_outside s rfl hlen.ge ha).trans (State.sameByte_succeed s.headed a)

/-! ### The size of a header (R74, R117) -/

/-- `HSIZE` in terms of the codes' lengths. -/
theorem headerSize_eq (code : CodeTable) :
    headerSize code = 11 + ((coded code).map fun a => 2 + ceil8 (codeOf code a).length).sum := by
  simp only [headerSize, codeOf_length]

/-- Settles O28: the number of bytes laid out is `HSIZE`, and so it meets the bounds of `HSIZE`. -/
theorem headerSizeIsBounded : Obligations.HeaderSizeIsBounded := by
  intro code nb hne
  rw [← headerSize_eq, headerBytes_length]
  exact ⟨rfl, headerSize_bounds hne⟩

end Sys2Proof.Machine

/-! PROOFS. What `COUNT` leaves (spec/40_frequency_counter.md R84 to R88). -/

namespace Sys2Proof.Machine

theorem exec_count {s : State} (hw : WindowsOk .count s) (hs : InRange s.regs.srcAddr s.regs.srcLen) :
    exec .count s = .next s.counted.succeed :=
  exec_of_done (i := .count) hw (countBody_done hs)

/-! ### The table `COUNT` ends with (R85, R86) -/

theorem counted_freq_toNat (s : State) (b : Byte) : (tableGet s.counted.freq b).toNat = s.srcBytes.count b :=
  countBytes_toNat s.srcBytes_lt b

theorem counted_totalCount (s : State) : totalCount s.counted.freq = s.regs.srcLen.toNat :=
  (totalCount_countBytes s.srcBytes_lt).trans s.srcBytes_length

theorem counted_freq_ne_zero_iff (s : State) (b : Byte) : tableGet s.counted.freq b ≠ 0#32 ↔ b ∈ s.srcBytes :=
  (mem_present _ b).symm.trans (mem_present_countBytes s.srcBytes_lt b)

/-! ### The registers and the memory `COUNT` ends with -/

theorem counted_nsym_toNat (s : State) : s.counted.regs.nsym.toNat = s.srcBytes.dedup.length :=
  (present_length_ofNat _).trans (present_countBytes_length s.srcBytes_lt)

/-- `NSYM` and the three valid flags are the only registers that `COUNT`'s pseudocode writes (R140). -/
theorem counted_regs (s : State) :
    s.counted.regs = { s.regs with
      nsym := s.counted.regs.nsym, freqValid := true, treeValid := false, codeValid := false } := rfl

theorem sameMemory_counted_succeed (s : State) : SameMemory s s.counted.succeed := fun a => .congr rfl rfl a

/-- Settles O18: the completed state is `State.counted`, whose table is the table of the numbers of occurrences. -/
theorem countTalliesInput : Obligations.CountTalliesInput := by
  intro s hw hs
  exact ⟨s.counted.succeed, exec_count hw hs, counted_freq_toNat s, counted_totalCount s, counted_freq_ne_zero_iff s,
    counted_nsym_toNat s, congrArg Regs.reportSuccess (counted_regs s), rfl, rfl, sameMemory_counted_succeed s,
    ⟨rfl, rfl, rfl, rfl⟩⟩

end Sys2Proof.Machine

/-! PROOFS. The tree builder (spec/41_tree_builder.md R89 to R98): the queue's order, the tree that `BUILD` leaves, and that
this tree depends on the counts alone and gives the shortest coding. -/

namespace Sys2Proof.Machine

/-! ### The queue (R92 to R94) -/

/-- `ExtractMin` takes the least pair of frequency and index (R93). -/
theorem extractMin_least {node : NodeTable} {pq q : List Nat} {m : Nat} (h : extractMin node pq = some (m, q)) :
    ∀ j ∈ pq, (nodeAt node m).f.toNat < (nodeAt node j).f.toNat ∨
      ((nodeAt node m).f.toNat = (nodeAt node j).f.toNat ∧ m ≤ j) := by
  obtain ⟨-, -, hleast⟩ := extractMin_spec h
  intro j hj
  rcases hleast j hj with rfl | hlt
  · exact .inr ⟨rfl, Nat.le_refl _⟩
  · exact ((keyLt_iff node m j).1 hlt).imp_right fun ⟨hf, hi⟩ => ⟨hf, hi.le⟩

/-- Settles O20: the least key of the queue, and `FUSE` as one push over the two extracted nodes. -/
theorem queueExtractsLeastFirst : Obligations.QueueExtractsLeastFirst := by
  refine ⟨fun node pq hne => ?extract, fun b h2 hn => ?fuse⟩
  case extract =>
    obtain ⟨m, q, h⟩ := extractMin_isSome (node := node) hne
    obtain ⟨hm, hq, -⟩ := extractMin_spec h
    exact ⟨m, q, h, hm, hq, extractMin_least h⟩
  case fuse =>
    obtain ⟨x, y, q, q', hx, hy, hfuse⟩ := fuse_eq h2
    have hnode : ∀ i, nodeAt (fuse b).node i = if i = b.n then fusedNode b.node x y else nodeAt b.node i := fun i => by
      rw [hfuse]
      exact Builder.push_node ⟨b.node, q', b.n⟩ _ i hn
    refine ⟨x, y, q, q', hx, hy, by rw [hfuse]; rfl, by rw [hfuse]; rfl, ?_, fun i hi => by rw [hnode, if_neg hi]⟩
    rw [hnode, if_pos rfl]
    rfl

/-! ### The state `BUILD` completes with (R90, R96) -/

theorem exec_build {s : State} (hf : s.regs.freqValid = true) (hn : s.regs.nsym ≠ 0#9) :
    exec .build s = .next s.built.succeed :=
  exec_of_done (i := .build) (windowsOk_of_unused ⟨rfl, rfl⟩ s) (buildBody_done hf hn)

/-- Settles O19: the completed state is `State.built`, whose arena is the builder's. -/
theorem buildMakesTree : Obligations.BuildMakesTree := by
  intro s hi hf hn
  obtain ⟨htree, hnnode, hroot⟩ := State.built_spec hi hf hn
  exact ⟨s.built.succeed, exec_build hf hn, htree, hnnode, hroot, rfl, rfl, rfl, fun a => .congr rfl rfl a,
    ⟨rfl, rfl, rfl, rfl⟩⟩

/-! ### The tree depends on the counts alone (R98) -/

/-- Of two valid frequency tables with the same counts, one is empty when the other is. -/
theorem ContextInv.nsym_eq_of_freq_eq {s u : State} (hs : ContextInv s) (hu : ContextInv u) (hsf : s.regs.freqValid = true)
    (huf : u.regs.freqValid = true) (h : s.freq = u.freq) : s.regs.nsym = u.regs.nsym :=
  BitVec.eq_of_toNat_eq (by rw [hs.freqNsym hsf, hu.freqNsym huf, h])

theorem built_congr {s u : State} (h : s.freq = u.freq) :
    s.built.regs.nnode = u.built.regs.nnode ∧ s.built.regs.root = u.built.regs.root ∧
      ∀ i, i < s.built.regs.nnode.toNat → nodeAt s.built.node i = nodeAt u.built.node i := by
  obtain ⟨hpq, hn, -, hnodes⟩ := sameBuild_buildTree s.freq s.node u.node
  simp only [State.built, ← h, hpq, hn, true_and]
  refine fun i hi => (hnodes i (hi.trans_le ?_)).symm
  rw [BitVec.toNat_ofNat]
  exact Nat.mod_le _ _

/-- Settles O21: both runs complete with the builder's result on the same counts. -/
theorem buildDependsOnFreqAlone : Obligations.BuildDependsOnFreqAlone := by
  intro s u t v hs hu hsf huf hn hfreq ht hv
  have hnu : u.regs.nsym ≠ 0#9 := hs.nsym_eq_of_freq_eq hu hsf huf hfreq ▸ hn
  obtain rfl := Host.Outcome.next.inj ((exec_build hsf hn).symm.trans ht)
  obtain rfl := Host.Outcome.next.inj ((exec_build huf hnu).symm.trans hv)
  exact built_congr hfreq

/-! ### The tree's coding is the shortest (R97) -/

theorem exec_gencode {s : State} (ht : s.regs.treeValid = true) : exec .gencode s = .next s.generated.succeed :=
  exec_of_done (i := .gencode) (windowsOk_of_unused ⟨rfl, rfl⟩ s) (gencodeBody_done ht)

/-- A coding whose every code is as short as the other's weighs no more. -/
theorem weightedLength_mono {freq : FreqTable} {c d : Byte → BitString}
    (h : ∀ a ∈ present freq, (c a).length ≤ (d a).length) : weightedLength freq c ≤ weightedLength freq d :=
  List.sum_le_sum fun a ha => Nat.mul_le_mul_left _ (h a ha)

/-- A single symbol's code is one bit, the least that a code can have (R102). -/
theorem IsTreeOf.singleCode_le {freq : FreqTable} {node : NodeTable} (t : IsTreeOf freq node)
    (h1 : (present freq).length = 1) (c : Byte → BitString) (h0 : ∀ a ∈ present freq, c a ≠ []) :
    weightedLength freq (codeOf (genCode node (2 * (present freq).length - 2))) ≤ weightedLength freq c := by
  refine weightedLength_mono fun a ha => ?_
  rw [codeOf, t.genCode_single h1 ha, CodeEntry.path_store (by decide)]
  exact List.length_pos_of_ne_nil (h0 a ha)

/-- `GENCODE` after `BUILD` derives its codes from the builder's tree, from its last node on. -/
theorem generated_built_code {s : State} (hi : ContextInv s) (hf : s.regs.freqValid = true) (hn : s.regs.nsym ≠ 0#9) :
    s.built.succeed.generated.code = genCode (buildTree s.freq s.node).node (2 * (present s.freq).length - 2) :=
  congrArg (genCode s.built.node) ((contextInv_built hi hf hn).root_eq rfl).1

/-- Settles O24: a single symbol has the shortest code there is; two or more have Huffman's. -/
theorem builtCodeIsOptimal : Obligations.BuiltCodeIsOptimal := by
  intro s t u hi hf hn ht hu c h0 hp
  obtain rfl := Host.Outcome.next.inj ((exec_build hf hn).symm.trans ht)
  obtain rfl := Host.Outcome.next.inj ((exec_gencode (s := s.built.succeed) rfl).symm.trans hu)
  change weightedLength s.freq (codeOf s.built.succeed.generated.code) ≤ _
  rw [generated_built_code hi hf hn]
  have htree : IsTreeOf s.freq (buildTree s.freq s.node).node := (State.built_spec hi hf hn).1
  rcases htree.nonempty.eq_or_lt' with h1 | h2
  · exact htree.singleCode_le h1 c h0
  · exact builtCode_le s.node h2 (hi.freqTotal hf) c h0 hp

end Sys2Proof.Machine

/-! PROOFS. The code table generator (spec/42_code_generator.md R101 to R105): the codes that `GENCODE` derives are
the tree's paths, and they are complete. -/

namespace Sys2Proof.Machine

/-! ### Paths to leaves (R103) -/

/-- Short of its end a path stands at internal nodes only. -/
theorem Reaches.leaf_of_strictPrefix {node : NodeTable} {i j : Nat} {p q : BitString} (h : Reaches node i p j)
    (hq : q <+: p) (hne : q ≠ p) : (nodeAt node (Machine.follow node i q)).leaf = false := by
  obtain ⟨r, rfl⟩ := hq
  obtain ⟨m, hm, hr⟩ := reaches_append.1 h
  rw [hm.follow]
  cases r with
  | nil => exact absurd (List.append_nil q).symm hne
  | cons b r => exact hr.1

/-- Following a path that leads to a symbol ends at that symbol's leaf, through internal nodes. -/
theorem LeadsTo.follow {node : NodeTable} {i : Nat} {p : BitString} {a : Byte} (h : LeadsTo node i p a) :
    (nodeAt node (Machine.follow node i p)).leaf = true ∧ (nodeAt node (Machine.follow node i p)).sym = a ∧
      ∀ q, q <+: p → q ≠ p → (nodeAt node (Machine.follow node i q)).leaf = false := by
  obtain ⟨j, hj, hleaf, hsym⟩ := h
  rw [hj.follow]
  exact ⟨hleaf, hsym, fun _ => hj.leaf_of_strictPrefix⟩

/-! ### The codes of a tree (R102, R103, R105) -/

section
variable {freq : FreqTable} {node : NodeTable} (t : IsTreeOf freq node)
include t

/-- A present symbol's code, read back from the table: within the length bound, and `"0"` or the path to the leaf. -/
theorem IsTreeOf.codeOf_genCode {a : Byte} (ha : a ∈ present freq) :
    (codeOf (genCode node (2 * (present freq).length - 2)) a).length ≤ max 1 ((present freq).length - 1) ∧
      ((present freq).length = 1 ∧ codeOf (genCode node (2 * (present freq).length - 2)) a = [false] ∨
        2 ≤ (present freq).length ∧
          LeadsTo node (2 * (present freq).length - 2) (codeOf (genCode node (2 * (present freq).length - 2)) a) a) := by
  obtain ⟨p, hp, -, hlen, hcase⟩ := t.genCode_present ha
  have hle := present_length_le freq
  rw [codeOf, hp, CodeEntry.path_store (by omega)]
  exact ⟨hlen, hcase⟩

/-- The sum of `2^(-len)` over the codes of two or more symbols is 1 (R105), scaled by `2^256`. -/
theorem IsTreeOf.kraftSum_genCode (h2 : 2 ≤ (present freq).length) :
    ((present freq).map fun a =>
      2 ^ (256 - (codeOf (genCode node (2 * (present freq).length - 2)) a).length)).sum = 2 ^ 256 :=
  (sum_map_eq_sum_range _ _ (fun j => 2 ^ (256 - depthOf freq node j)) fun _ hj => by
    rw [t.codeOf_length_leaf h2 hj]).trans (t.complete h2)

end

/-! ### The table `GENCODE` completes with -/

/-- By R43 `ROOT` is the tree's last node, where the laws about `genCode` begin. -/
theorem generated_succeed_code {s : State} (hi : ContextInv s) (ht : s.regs.treeValid = true) :
    s.generated.succeed.code = genCode s.node (2 * (present s.freq).length - 2) :=
  congrArg (genCode s.node) (hi.root_eq ht).1

/-- "`CODE[s].len != 0` exactly when `FREQ[s] != 0`" (R104 (a)). -/
theorem generated_succeed_len_ne_zero_iff {s : State} (hi : ContextInv s) (ht : s.regs.treeValid = true) (a : Byte) :
    (tableGet s.generated.succeed.code a).len ≠ 0#8 ↔ tableGet s.freq a ≠ 0#32 := by
  rw [← mem_coded, ← mem_present, generated_succeed_code hi ht, (hi.treeShape ht).coded_genCode]

/-- Settles O22: the completed state is `State.generated`, whose table is that of the tree in the arena. -/
theorem gencodeAssignsPaths : Obligations.GencodeAssignsPaths := by
  intro s hi ht
  have hinv := contextInv_generated hi ht
  refine ⟨s.generated.succeed, exec_gencode ht, generated_succeed_len_ne_zero_iff hi ht, hinv.codeFree rfl,
    hinv.codeClean rfl, fun a ha => ?_, rfl, rfl, rfl, fun b => .congr rfl rfl b, ⟨rfl, rfl, rfl, rfl⟩⟩
  obtain ⟨hroot, hnsym⟩ := hi.root_eq ht
  obtain ⟨hlen, hcode⟩ := (hi.treeShape ht).codeOf_genCode ha
  rw [generated_succeed_code hi ht, hroot, hnsym]
  refine ⟨hlen, fun h1 => ?single, fun h2 => ?path⟩
  case single =>
    obtain ⟨-, hzero⟩ | ⟨h2, -⟩ := hcode
    · exact hzero
    · simp [← hnsym, h1] at h2
  case path =>
    obtain ⟨h1, -⟩ | ⟨-, hpath⟩ := hcode
    · omega
    · exact hpath.follow

/-- Settles O23: the completed table is that of the tree in the arena, whose codes are complete. -/
theorem gencodeIsComplete : Obligations.GencodeIsComplete := by
  intro s hi ht h2
  refine ⟨s.generated.succeed, exec_gencode ht, ?_⟩
  rw [generated_succeed_code hi ht]
  exact (hi.treeShape ht).kraftSum_genCode ((hi.root_eq ht).2 ▸ h2)

end Sys2Proof.Machine

/-! PROOFS. The header commands (spec/44_header.md R118 to R126) and `DECOMPRESS` on what they leave
(spec/46_control_and_composite.md R147): `RDHDR` completes with the table of a valid header or reports its first fault, and
reads back what `WRHDR` wrote. -/

namespace Sys2Proof.Machine

/-! ### The two completions of `RDHDR` (R119) -/

section
variable {s : State} (hw : WindowsOk .rdhdr s) (hr : InRange s.regs.hdrAddr s.regs.hdrLen)
include hw hr

theorem exec_rdhdr_loaded {p : ParsedHeader} (hp : parseHeader s.headerByte s.regs.hdrLen.toNat = .ok p) :
    exec .rdhdr s = .next (s.loaded p).succeed :=
  exec_of_done (i := .rdhdr) hw (rdhdrBody_done hr hp)

theorem exec_rdhdr_malformed {e : Report} (hp : parseHeader s.headerByte s.regs.hdrLen.toNat = .error e) :
    exec .rdhdr s = .next (s.clearValid.freeCode.fail [] false e) :=
  exec_of_raised (i := .rdhdr) hw (rdhdrBody_malformed hr hp)

end

/-! ### A valid header and a faulty one (R118, R121, R153) -/

section
variable {H : Nat → Byte} {L : Nat} {es : List HeaderEntry} {nb : BitVec 64}

/-- The table that the parse of a valid header builds is the table of its entries (R121). -/
theorem HeaderHolds.tableOfEntries (h : HeaderHolds H L es nb) : TableOfEntries es (loadEntries es noCodes) :=
  tableOfEntries_loadEntries (fun _ he => h.entries.mem he) h.once

/-- "No header is half accepted" (R125, R126): the parse of a window has one answer. -/
theorem HeaderHolds.not_fault (h : HeaderHolds H L es nb) {sub : Byte} {info : Nat} : ¬ HeaderFault H L sub info :=
  fun hf => nomatch h.parse.symm.trans hf.parse

end

/-- Settles O29: the parse accepts a valid header, and the completed state is `State.loaded` with its table. -/
theorem rdhdrLoadsValidHeader : Obligations.RdhdrLoadsValidHeader := by
  intro s es nb hw hr hh
  exact ⟨_, exec_rdhdr_loaded hw hr hh.parse, hh.tableOfEntries, rfl, rfl, rfl, fun a => .congr rfl rfl a,
    ⟨rfl, rfl, rfl, rfl⟩⟩

/-- Settles O30: the parse refuses with the fault's report; `RDHDR` may write no window, so memory is as it was. -/
theorem rdhdrReportsFirstFault : Obligations.RdhdrReportsFirstFault := by
  intro s sub info hw hr hf
  have hexec := exec_rdhdr_malformed hw hr hf.parse
  exact ⟨_, hexec, State.fail_regs .., State.fail_freq .., State.fail_node ..,
    fun a => exec_sameMemoryOutside hexec a rfl,
    ⟨State.fail_resetIn .., State.fail_platform .., State.fail_script .., State.fail_observed ..⟩⟩

/-- Settles O31: every window holds a valid header or has a first fault, never both, and each has its own completion. -/
theorem rdhdrAcceptsExactlyValid : Obligations.RdhdrAcceptsExactlyValid := by
  intro s t hw hr ht
  rcases headerHolds_or_fault s.headerByte s.regs.hdrLen.toNat with ⟨es, nb, hh⟩ | ⟨sub, info, hf⟩
  case inl =>
    obtain rfl := Host.Outcome.next.inj ((exec_rdhdr_loaded hw hr hh.parse).symm.trans ht)
    exact ⟨iff_of_true rfl ⟨es, nb, hh⟩, iff_of_false nofun fun ⟨_, _, hf, _⟩ => hh.not_fault hf, iff_of_true rfl rfl⟩
  case inr =>
    obtain rfl := Host.Outcome.next.inj ((exec_rdhdr_malformed hw hr hf.parse).symm.trans ht)
    rw [State.fail_regs]
    exact ⟨iff_of_false nofun fun ⟨_, _, hh⟩ => hh.not_fault hf, iff_of_true rfl ⟨sub, info, hf, rfl, rfl⟩,
      iff_of_false nofun nofun⟩

/-! ### `DECOMPRESS` on a valid header (R147) -/

section
variable (s : State) (p : ParsedHeader) (d : Decoder) (bs : List Byte)

/-- The output window of a completed `DECOMPRESS` holds the bytes that its walk emitted (R131). -/
theorem readBytes_decompressed :
    ((s.loaded p).unpacked d bs).clearValid.succeed.readBytes ⟨s.regs.dstAddr.toNat, bs.length⟩ = bs :=
  readBytes_unpacked (s.loaded p) d bs

/-- Those bytes are all that a completed `DECOMPRESS` changes of memory (R56). -/
theorem sameMemoryOutside_decompressed :
    SameMemoryOutside [⟨s.regs.dstAddr.toNat, bs.length⟩] s ((s.loaded p).unpacked d bs).clearValid.succeed :=
  fun a ha => sameByte_unpacked_outside (s.loaded p) d bs rfl le_rfl (anyHolds_singleton _ a ▸ ha)

end

/-- Settles O40: the header's table is the given one, and the completed state is that of the payload's walk. -/
theorem decompressReproducesInput : Obligations.DecompressReproducesInput := by
  intro s es nb code bs hw hh hp hd hholds hcode hbs hbits hn hle hcap
  obtain rfl := hholds.tableOfEntries.unique hcode
  have hdone := decompressBody_payload hh hp hd hholds.parse hbs hbits hn hle hcap
  exact ⟨_, exec_of_done (i := .decompress) hw hdone, readBytes_decompressed s _ _ bs, rfl, rfl,
    sameMemoryOutside_decompressed s _ _ bs, rfl, rfl, ⟨rfl, rfl, rfl, rfl⟩⟩

/-! ### The header's round trip (R124) -/

/-- What a successful `WRHDR` found and the state it completed in (R116). -/
theorem wrhdr_success {s t : State} (h : exec .wrhdr s = .next t) (he : t.regs.err = false) :
    InRange s.regs.hdrAddr s.regs.hdrCap ∧ headerSize s.code ≤ s.regs.hdrCap.toNat ∧ t = s.headed.succeed := by
  obtain ⟨_, u, hu, rfl⟩ := exec_success h he
  obtain ⟨_, hh, hfit, hb⟩ | ⟨e, hb, _⟩ := wrhdrBody_cases s
  · obtain rfl := Run.done.inj (hb.symm.trans hu)
    exact ⟨hh, hfit, rfl⟩
  · exact nomatch hb.symm.trans hu

/-- The header that `WRHDR` wrote parses to the table, the number of its codes and the bit count (R124). -/
theorem parseHeader_headed_succeed {s : State} (hi : ContextInv s) (hc : s.regs.codeValid = true)
    (hfit : headerSize s.code ≤ s.regs.hdrCap.toNat) :
    parseHeader s.headed.succeed.headerByte s.headed.succeed.regs.hdrLen.toNat =
      .ok ⟨s.code, (coded s.code).length, s.regs.bitcnt⟩ := by
  have hlen : s.headed.succeed.regs.hdrLen.toNat = headerSize s.code := headed_hdrLen_toNat hfit
  have hbytes := ((readBytes_eq_iff _ _ _).1 (readBytes_headed_succeed s)).2
  rw [hlen]
  exact parseHeader_headerBytes (hi.codeClean hc) (hi.codeFree hc) (hi.coded_ne_nil hc) hbytes

/-- What `WRHDR` wrote lies in the address space, as its window did (R50). -/
theorem inRange_headed_succeed {s : State} (hh : InRange s.regs.hdrAddr s.regs.hdrCap)
    (hfit : headerSize s.code ≤ s.regs.hdrCap.toNat) :
    InRange s.headed.succeed.regs.hdrAddr s.headed.succeed.regs.hdrLen :=
  (Nat.add_le_add_left ((headed_hdrLen_toNat hfit).trans_le hfit) _).trans hh

/-- Settles O42: `RDHDR` parses the bytes of `State.headed` back to the table, and by R43 (d) `NSYM` is its size. -/
theorem headerRoundTrips : Obligations.HeaderRoundTrips := by
  intro s t hi hc ht he hw
  obtain ⟨hh, hfit, rfl⟩ := wrhdr_success ht he
  have hnsym : BitVec.ofNat 9 (coded s.code).length = s.regs.nsym := by
    rw [← (hi.codeNsym hc).2, BitVec.ofNat_toNat, BitVec.setWidth_eq]
  exact ⟨_, exec_rdhdr_loaded hw (inRange_headed_succeed hh hfit) (parseHeader_headed_succeed hi hc hfit), rfl, rfl,
    hnsym, Regs.bitcnt_setBitcnt s.headed.succeed.regs.clearValid _⟩

end Sys2Proof.Machine

/-! PROOFS. `DECODE` (spec/45_bit_decoder.md R127 to R136): the state it completes with on a payload, the report on a stream
that is none, what its answer depends on, and that it turns back what `ENCODE` packed. -/

namespace Sys2Proof.Machine

/-! ### A payload that fits (R129 to R131) -/

/-- `DECODE` completes on a payload that fits, whatever bits follow it (R134). -/
theorem exec_decode_payload {s : State} {bs : List Byte} (hw : WindowsOk .decode s) (hf : PrefixFree s.code)
    (hc : s.regs.codeValid = true) (hp : InRange s.regs.pkdAddr s.regs.pkdLen)
    (hd : InRange s.regs.dstAddr s.regs.dstCap) (hbs : ∀ b ∈ bs, b ∈ coded s.code)
    (hb : BitsFrom s.packedStreamBit 0 (payload s.code bs))
    (hn : s.regs.bitcnt.toNat = (payload s.code bs).length) (hle : s.regs.bitcnt.toNat ≤ 8 * s.regs.pkdLen.toNat)
    (hcap : bs.length ≤ s.regs.dstCap.toNat) :
    exec .decode s = .next (s.unpacked ⟨[], s.regs.bitcnt, BitVec.ofNat 32 bs.length⟩ bs).succeed :=
  exec_of_done (i := .decode) hw (decodeBody_payload hf hc hp hd hbs hb hn hle hcap)

/-- The output window of a completed `DECODE` holds the bytes that its walk emitted (R131). -/
theorem readBytes_unpacked_succeed (s : State) (d : Decoder) (bs : List Byte) :
    (s.unpacked d bs).succeed.readBytes ⟨s.regs.dstAddr.toNat, bs.length⟩ = bs := readBytes_unpacked s d bs

/-- Those bytes are all that a completed `DECODE` changes of memory (R56). -/
theorem sameMemoryOutside_unpacked_succeed (s : State) (d : Decoder) (bs : List Byte) :
    SameMemoryOutside [⟨s.regs.dstAddr.toNat, bs.length⟩] s (s.unpacked d bs).succeed :=
  fun a ha => (sameByte_unpacked_outside s d bs rfl le_rfl (anyHolds_singleton _ a ▸ ha)).trans
    (State.sameByte_succeed _ a)

/-- Settles O32: by R43 (c) no code begins another, and the completed state is that of the payload's walk. -/
theorem decodeReproducesInput : Obligations.DecodeReproducesInput := by
  intro s bs hi hw hc hp hd hbs hb hn hle hcap
  exact ⟨_, exec_decode_payload hw (hi.codeFree hc) hc hp hd hbs hb hn hle hcap, readBytes_unpacked_succeed s _ bs, rfl,
    sameMemoryOutside_unpacked_succeed s _ bs, ⟨rfl, rfl, rfl⟩, ⟨rfl, rfl, rfl, rfl⟩⟩

/-! ### A stream that is no payload (R132, R133, R135) -/

/-- A stream with more payload bits than the window holds is not walked (R129). -/
theorem decodeBody_tooFewBits {s : State} (hc : s.regs.codeValid = true) (hp : InRange s.regs.pkdAddr s.regs.pkdLen)
    (hd : InRange s.regs.dstAddr s.regs.dstCap) (h : 8 * s.regs.pkdLen.toNat < s.regs.bitcnt.toNat) :
    decodeBody s = .raised ⟨.truncatedStream, 1#8, s.regs.pkdLen⟩ s := by
  rw [decodeBody_eq hc hp hd, if_pos h]

/-- Where the pseudocode of `DECODE` raises, the completion zeroes `DST_LEN` and reports (R160, R161). -/
theorem decode_fail_regs (s : State) (e : Report) :
    (s.fail (writeWindows .decode) (isComposite .decode) e).regs = { s.regs with dstLen := 0#32 }.reportError e :=
  State.fail_regs ..

/-- Settles O33: the length check or the walk raises the report, and the error completion does the rest. -/
theorem decodeReportsFailure : Obligations.DecodeReportsFailure := by
  intro s hi hw hc hp hd e he
  have hraised : decodeBody s = .raised e s := by
    obtain ⟨hshort, rfl⟩ | ⟨hle, hfault⟩ := he
    · exact decodeBody_tooFewBits hc hp hd hshort
    · exact decodeBody_fault (hi.codeFree hc) hc hp hd hle hfault
  have hexec := exec_of_raised (i := .decode) hw hraised
  exact ⟨_, hexec, decode_fail_regs s e, ⟨State.fail_freq .., State.fail_node .., State.fail_code ..⟩,
    exec_sameMemoryOutside hexec,
    ⟨State.fail_resetIn .., State.fail_platform .., State.fail_script .., State.fail_observed ..⟩⟩

/-! ### What the answer depends on (R136) -/

/-- What `DECODE` makes of a state with its windows in range: the report it raises, or how its walk ended and the bytes
emitted (R129). -/
def State.decoded (s : State) : Except Report (Decoder × List Byte) :=
  if s.regs.codeValid then
    if 8 * s.regs.pkdLen.toNat < s.regs.bitcnt.toNat then .error ⟨.truncatedStream, 1#8, s.regs.pkdLen⟩
    else s.walked.bind fun r =>
      if r.1.path ≠ [] then .error ⟨.truncatedStream, 2#8, BitVec.ofNat 32 r.1.path.length⟩ else .ok r
  else .error ⟨.sequence, 3#8, 0#32⟩

/-- The end of `DECODE`'s pseudocode with this answer. -/
def State.answer (s : State) : Except Report (Decoder × List Byte) → Run
  | .error e => .raised e s
  | .ok (d, out) => .done (s.unpacked d out)

theorem decodeBody_eq_answer {s : State} (hp : InRange s.regs.pkdAddr s.regs.pkdLen)
    (hd : InRange s.regs.dstAddr s.regs.dstCap) : decodeBody s = s.answer s.decoded := by
  unfold State.decoded
  cases hc : s.regs.codeValid with
  | false => exact decodeBody_sequence hc
  | true =>
    rw [decodeBody_eq hc hp hd, if_pos rfl]
    by_cases hshort : 8 * s.regs.pkdLen.toNat < s.regs.bitcnt.toNat
    · rw [if_pos hshort, if_pos hshort]
      rfl
    · rw [if_neg hshort, if_neg hshort]
      rcases s.walked with e | ⟨d, out⟩
      · rfl
      · by_cases hpath : d.path = [] <;> simp [Except.bind, State.answer, hpath]

/-- Only a walk that ended leads to an answer other than a report. -/
theorem walked_of_decoded_ok {s : State} {r : Decoder × List Byte} (h : s.decoded = .ok r) : s.walked = .ok r := by
  unfold State.decoded at h
  split_ifs at h
  cases hw : s.walked with
  | error e => exact nomatch hw ▸ h
  | ok r' =>
    simp only [hw, Except.bind] at h
    split_ifs at h
    exact h

/-- `OUT` counts the bytes that the walk has emitted (R131). -/
theorem out_of_decoded_ok {s : State} {d : Decoder} {out : List Byte} (h : s.decoded = .ok (d, out)) :
    d.out.toNat = out.length := by
  have hbound := decodeLoop_bound (codeBook s.code) s.packedStreamBit s.regs.dstCap s.regs.bitcnt.toNat Decoder.start
    (Nat.zero_le _)
  obtain ⟨hout, _⟩ := hbound.1 d out (walked_of_decoded_ok h)
  exact hout.trans (Nat.zero_add _)

/-- Two states that agree on what R136 names: `CODE`, `BITCNT`, `PKD_LEN`, `DST_CAP` and the payload bits. -/
structure SamePayload (s u : State) : Prop where
  codeValid : s.regs.codeValid = u.regs.codeValid
  code      : s.code = u.code
  bitcnt    : s.regs.bitcnt = u.regs.bitcnt
  pkdLen    : s.regs.pkdLen = u.regs.pkdLen
  dstCap    : s.regs.dstCap = u.regs.dstCap
  bits      : ∀ n, n < s.regs.bitcnt.toNat → s.packedStreamBit n = u.packedStreamBit n

namespace SamePayload

variable {s u : State} (h : SamePayload s u)
include h

theorem walked : s.walked = u.walked := by
  have hlt := s.regs.bitcnt.isLt
  unfold State.walked
  rw [← h.code, ← h.dstCap, ← h.bitcnt]
  exact decodeLoop_congr _ _ _ _ (by simpa [Decoder.start] using hlt)
    fun t _ ht => h.bits t (by simpa [Decoder.start] using ht)

theorem decoded : s.decoded = u.decoded := by
  unfold State.decoded
  rw [h.walked, h.codeValid, h.bitcnt, h.pkdLen]

end SamePayload

/-- Settles O34: both states get the one answer, a report with no bytes or the bytes of the walk. -/
theorem decodeLooksAtPayloadOnly : Obligations.DecodeLooksAtPayloadOnly := by
  intro s u t hws hwu hps hds hpu hdu hvalid hcode hbitcnt hlen hcap hbits ht
  have hsame : s.decoded = u.decoded := SamePayload.decoded ⟨hvalid, hcode, hbitcnt, hlen, hcap, hbits⟩
  have hs := decodeBody_eq_answer hps hds
  have hu := decodeBody_eq_answer hpu hdu
  rw [← hsame] at hu
  cases hr : s.decoded with
  | error e =>
    rw [hr] at hs hu
    obtain rfl := Host.Outcome.next.inj ((exec_of_raised (i := .decode) hws hs).symm.trans ht)
    refine ⟨_, exec_of_raised (i := .decode) hwu hu, ?_⟩
    rw [decode_fail_regs, decode_fail_regs]
    exact ⟨rfl, rfl, rfl, rfl, rfl, rfl⟩
  | ok r =>
    obtain ⟨d, out⟩ := r
    rw [hr] at hs hu
    obtain rfl := Host.Outcome.next.inj ((exec_of_done (i := .decode) hws hs).symm.trans ht)
    refine ⟨_, exec_of_done (i := .decode) hwu hu, rfl, rfl, rfl, rfl, rfl, ?_⟩
    have hout : (s.unpacked d out).succeed.regs.dstLen.toNat = out.length := out_of_decoded_ok hr
    rw [hout, readBytes_unpacked_succeed, readBytes_unpacked_succeed]

/-! ### The round trip (R136) -/

/-- What a successful `ENCODE` found and the state it completed in (R108). -/
theorem encode_success {s t : State} (h : exec .encode s = .next t) (he : t.regs.err = false) :
    s.regs.codeValid = true ∧ (∀ b ∈ s.srcBytes, b ∈ coded s.code) ∧
      ceil8 (payload s.code s.srcBytes).length ≤ s.regs.pkdCap.toNat ∧ t = s.packed.succeed := by
  obtain ⟨_, u, hu, rfl⟩ := exec_success h he
  obtain ⟨hc, _, _, hcov, hfit, hb⟩ | ⟨e, hb, _⟩ := encodeBody_cases s
  · obtain rfl := Run.done.inj (hb.symm.trans hu)
    exact ⟨hc, hcov, hfit, rfl⟩
  · exact nomatch hb.symm.trans hu

/-- Settles O43: the stream that `State.packed` left is the payload of the input, on which `DECODE` completes with it. -/
theorem encodeDecodeRoundTrips : Obligations.EncodeDecodeRoundTrips := by
  intro s t u hi ht he hcode hvalid hbitcnt hlen hbytes hcap hp hd hw
  obtain ⟨hc, hcov, hfit, rfl⟩ := encode_success ht he
  have hsrc : s.srcBytes.length = s.regs.srcLen.toNat := s.srcBytes_length
  have hpkd : s.packed.succeed.regs.pkdLen.toNat = ceil8 (payload u.code s.srcBytes).length :=
    hcode ▸ packed_pkdLen_toNat hfit
  have hn : u.regs.bitcnt.toNat = (payload u.code s.srcBytes).length := by
    rw [hbitcnt, hcode, packed_succeed_bitcnt]
  have hbits : BitsFrom u.packedStreamBit 0 (payload u.code s.srcBytes) := by
    refine bitsFrom_of_packed ?_
    rw [hpkd, hcode] at hbytes
    rw [hcode, hbytes, readBytes_packed_succeed]
  have hle : u.regs.bitcnt.toNat ≤ 8 * u.regs.pkdLen.toNat := by
    rw [hn, hlen, hpkd]
    exact (ceil8_bounds _).1
  have hdst : BitVec.ofNat 32 s.srcBytes.length = s.regs.srcLen := by
    rw [hsrc, BitVec.ofNat_toNat, BitVec.setWidth_eq]
  refine ⟨_, exec_decode_payload hw (hcode ▸ hi.codeFree hc) hvalid hp hd (hcode ▸ hcov) hbits hn hle
    (hsrc.trans_le hcap), rfl, hdst, ?output⟩
  case output =>
    rw [← hsrc]
    exact readBytes_unpacked_succeed u _ s.srcBytes

end Sys2Proof.Machine

/-! PROOFS. The control commands, and the table of spec/46_control_and_composite.md R140 read over all commands: what a
command leaves alone, however it ends, and the flags after a success. -/

namespace Sys2Proof.Machine

/-! ### The control commands (R141, R142) -/

/-- Settles O16: the pseudocode is empty, so that the completion is all there is. -/
theorem nopOnlyCompletes : Obligations.NopOnlyCompletes := fun s =>
  ⟨_, exec_of_done (i := .nop) (windowsOk_of_unused ⟨rfl, rfl⟩ s) rfl, rfl, ⟨rfl, rfl, rfl⟩, fun a => .congr rfl rfl a,
    ⟨rfl, rfl, rfl, rfl⟩⟩

/-- Settles O17: the pseudocode is one assignment to registers. -/
theorem clearDiscardsContext : Obligations.ClearDiscardsContext := fun s =>
  ⟨_, exec_of_done (i := .clear) (windowsOk_of_unused ⟨rfl, rfl⟩ s) rfl, rfl, ⟨rfl, rfl, rfl⟩, fun a => .congr rfl rfl a,
    ⟨rfl, rfl, rfl, rfl⟩⟩

/-! ### What the error completion leaves alone (R161) -/

section
variable (outs : List Window) (c : Bool) (e : Report) (s : State)

theorem State.sameTables_fail : SameTables s (s.fail outs c e) :=
  ⟨State.fail_freq .., State.fail_node .., State.fail_code ..⟩

theorem State.sameSurroundings_fail : SameSurroundings s (s.fail outs c e) :=
  ⟨State.fail_resetIn .., State.fail_platform .., State.fail_script .., State.fail_observed ..⟩

theorem State.sameOperands_fail : SameOperands s.regs (s.fail outs c e).regs := by
  rw [State.fail_regs]
  cases c <;> simp [SameOperands]

/-- `NSYM`, `NNODE`, `ROOT` and `BITCNT` are unchanged by the error completion (R161). -/
theorem State.fail_results :
    (s.fail outs c e).regs.nsym = s.regs.nsym ∧ (s.fail outs c e).regs.nnode = s.regs.nnode ∧
      (s.fail outs c e).regs.root = s.regs.root ∧ (s.fail outs c e).regs.bitcnt = s.regs.bitcnt := by
  rw [State.fail_regs]
  cases c <;> simp [Regs.bitcnt]

end

theorem Regs.readLen_zeroLens_other (r : Regs) {ws : List Window} {w : Window} (h : w ∉ ws) :
    (r.zeroLens ws).readLen w = r.readLen w := by
  induction ws generalizing r with
  | nil => rfl
  | cons x ws ih =>
    obtain ⟨hx, hws⟩ := List.ne_and_not_mem_of_not_mem_cons h
    exact (ih _ hws).trans (r.readLen_setResultLen_other _ hx)

/-- The result length of a window that the command may not write is unchanged (R161 (a)). -/
theorem State.fail_readLen_other {outs : List Window} {w : Window} (h : w ∉ outs) (c : Bool) (e : Report) (s : State) :
    (s.fail outs c e).regs.readLen w = s.regs.readLen w := by
  rw [State.fail_regs, Regs.readLen_reportError, Regs.readLen_zeroLens_other _ h]
  cases c <;> cases w <;> rfl

/-! ### The frames over all commands (R140) -/

theorem exec_sameSurroundings {i : Instr} {s t : State} (h : exec i s = .next t) : SameSurroundings s t := by
  obtain ⟨_, u, hk, ⟨_, rfl⟩ | ⟨e, _, rfl⟩⟩ := exec_cases h
  · exact hk.around
  · obtain ⟨h1, h2, h3, h4⟩ := hk.around
    obtain ⟨g1, g2, g3, g4⟩ := State.sameSurroundings_fail (writeWindows i) (isComposite i) e u
    exact ⟨g1.trans h1, g2.trans h2, g3.trans h3, g4.trans h4⟩

theorem exec_sameOperands {i : Instr} {s t : State} (h : exec i s = .next t) : SameOperands s.regs t.regs := by
  obtain ⟨_, u, hk, ⟨_, rfl⟩ | ⟨e, _, rfl⟩⟩ := exec_cases h
  · exact hk.operands
  · exact hk.operands.trans (State.sameOperands_fail ..)

/-- Settles O50: neither the pseudocode nor a completion writes an operand or the surroundings. -/
theorem commandsKeepOperands : Obligations.CommandsKeepOperands := fun _ _ _ h =>
  ⟨exec_sameOperands h, exec_sameSurroundings h⟩

/-- The windows a command may write, read off the rows that name their result lengths (R55, R140). -/
theorem not_mem_writeWindows (i : Instr) :
    (i ∉ [Instr.wrhdr, .compress] → Window.hdr ∉ writeWindows i) ∧
    (i ∉ [Instr.encode, .compress] → Window.pkd ∉ writeWindows i) ∧
    (i ∉ [Instr.decode, .decompress] → Window.dst ∉ writeWindows i) := by
  cases i <;> decide

theorem Kept.bitcnt_eq {i : Instr} {s u : State} (h : Kept i s u)
    (hi : i ∉ [Instr.encode, .rdhdr, .compress, .decompress]) : u.regs.bitcnt = s.regs.bitcnt := by
  obtain ⟨hlo, hhi⟩ := h.bitcnt hi
  rw [Regs.bitcnt, hlo, hhi, Regs.bitcnt]

/-- Settles O52: the pseudocode keeps to its row, the successful completion writes no result, and the error completion
none but the result lengths of the windows that the command may write. -/
theorem resultsWrittenByRow : Obligations.ResultsWrittenByRow := by
  intro i s t h
  obtain ⟨_, u, hk, ⟨_, rfl⟩ | ⟨e, _, rfl⟩⟩ := exec_cases h
  case inl => exact ⟨hk.nsym, hk.tree, hk.bitcnt_eq, hk.hdrLen, hk.pkdLen, hk.dstLen, hk.freq, hk.node, hk.code⟩
  case inr =>
    obtain ⟨hnsym, hnnode, hroot, hbitcnt⟩ := State.fail_results (writeWindows i) (isComposite i) e u
    obtain ⟨hhdr, hpkd, hdst⟩ := not_mem_writeWindows i
    rw [hnsym, hnnode, hroot, hbitcnt, State.fail_freq, State.fail_node, State.fail_code]
    exact ⟨hk.nsym, hk.tree, hk.bitcnt_eq, fun hi => (State.fail_readLen_other (hhdr hi) _ e u).trans (hk.hdrLen hi),
      fun hi => (State.fail_readLen_other (hpkd hi) _ e u).trans (hk.pkdLen hi),
      fun hi => (State.fail_readLen_other (hdst hi) _ e u).trans (hk.dstLen hi), hk.freq, hk.node, hk.code⟩

/-! ### The flags after a success (R150, R140) -/

theorem rdhdr_success {s t : State} (h : exec .rdhdr s = .next t) (he : t.regs.err = false) :
    ∃ p, InRange s.regs.hdrAddr s.regs.hdrLen ∧ rdhdrBody s = .done (s.loaded p) ∧ t = (s.loaded p).succeed := by
  obtain ⟨_, u, hu, rfl⟩ := exec_success h he
  obtain ⟨p, hh, _, hb⟩ | ⟨e, hb, _⟩ := rdhdrBody_cases s
  · obtain rfl := Run.done.inj (hb.symm.trans hu)
    exact ⟨p, hh, hb, rfl⟩
  · exact nomatch hb.symm.trans hu

theorem decode_success {s t : State} (h : exec .decode s = .next t) (he : t.regs.err = false) :
    ∃ d out, t = (s.unpacked d out).succeed := by
  obtain ⟨_, u, hu, rfl⟩ := exec_success h he
  obtain ⟨d, out, _, _, _, _, _, _, _, _, hb⟩ | ⟨e, hb, _⟩ := decodeBody_cases s
  · obtain rfl := Run.done.inj (hb.symm.trans hu)
    exact ⟨d, out, rfl⟩
  · exact nomatch hb.symm.trans hu

/-- The successful completion's report, and `IRQ` as `IEN` says (R150). -/
theorem exec_success_report {i : Instr} {s t : State} (h : exec i s = .next t) (he : t.regs.err = false) :
    t.regs.busy = false ∧ t.regs.done = true ∧ t.regs.errCode = 0#8 ∧ t.regs.errSub = 0#8 ∧ t.regs.errInfo = 0#32 ∧
      t.irq = s.regs.ien := by
  have hien : t.regs.ien = s.regs.ien := by
    obtain ⟨-, -, -, -, -, -, -, -, hien, -⟩ := exec_sameOperands h
    exact hien
  obtain ⟨_, u, _, rfl⟩ := exec_success h he
  exact ⟨rfl, rfl, rfl, rfl, rfl, hien⟩

/-- Settles O53: the report is the completion's; the flags are read off the state that each command's success is. -/
theorem flagsAfterSuccess : Obligations.FlagsAfterSuccess := by
  intro i s t h he
  refine ⟨exec_success_report h he, ?_⟩
  obtain ⟨_, u, hu, ht⟩ := exec_success h he
  cases i with
  | nop | clear =>
    cases hu
    subst ht
    rfl
  | count =>
    obtain ⟨-, rfl⟩ := (countBody_done_iff s u).1 hu
    subst ht
    rfl
  | build =>
    obtain ⟨hf, -, rfl⟩ := (buildBody_done_iff s u).1 hu
    subst ht
    exact congrArg (·, true, false) hf
  | gencode =>
    obtain ⟨-, rfl⟩ := (gencodeBody_done_iff s u).1 hu
    subst ht
    rfl
  | encode =>
    obtain ⟨-, -, -, rfl⟩ := encode_success h he
    rfl
  | wrhdr =>
    obtain ⟨-, -, rfl⟩ := wrhdr_success h he
    rfl
  | rdhdr =>
    obtain ⟨p, -, -, rfl⟩ := rdhdr_success h he
    rfl
  | decode =>
    obtain ⟨d, out, rfl⟩ := decode_success h he
    rfl
  | compress =>
    obtain ⟨c, -, -, hct, -⟩ := compress_success h he
    rw [hct.regs]
    rfl
  | decompress =>
    obtain ⟨p, d, out, -, -, -, -, -, -, -, rfl⟩ := decompressBody_done hu
    subst ht
    rfl

end Sys2Proof.Machine

/-! PROOFS. `COMPRESS` (spec/46_control_and_composite.md R145, R146): the state it completes with, its five step commands, its
dependence on the input alone, and when its results overflow their windows. -/

namespace Sys2Proof.Machine

/-! ### Twins, and what they agree on -/

theorem Twin.symm {x y : State} (h : Twin x y) : Twin y x := by
  obtain ⟨_, _, _, _, _, _, _, _, _, rfl⟩ := h
  exact ⟨x.regs.busy, x.regs.done, x.regs.err, x.regs.errCode, x.regs.errSub, x.regs.errInfo, x.hidden, x.pend, x.fresh,
    rfl⟩

theorem Twin.sameOperands {x y : State} (h : Twin x y) : SameOperands x.regs y.regs := by
  obtain ⟨_, _, _, _, _, _, _, _, _, rfl⟩ := h
  exact SameOperands.refl x.regs

theorem Twin.srcBytes_eq {x y : State} (h : Twin x y) : y.srcBytes = x.srcBytes := by
  obtain ⟨_, _, _, _, _, _, _, _, _, rfl⟩ := h
  rfl

theorem Twin.code_eq {x y : State} (h : Twin x y) : y.code = x.code := by
  obtain ⟨_, _, _, _, _, _, _, _, _, rfl⟩ := h
  rfl

/-! ### The ways `COMPRESS` ends on a non-empty input in range (R145) -/

section
variable {s : State} (hs : InRange s.regs.srcAddr s.regs.srcLen) (hh : InRange s.regs.hdrAddr s.regs.hdrCap)
  (hp : InRange s.regs.pkdAddr s.regs.pkdCap) (h0 : s.regs.srcLen ≠ 0#32)
include hs hh hp h0

theorem exec_compress (hw : WindowsOk .compress s)
    (hpk : ceil8 (payload s.tabled.code s.srcBytes).length ≤ s.regs.pkdCap.toNat)
    (hfit : headerSize s.tabled.code ≤ s.regs.hdrCap.toNat) :
    exec .compress s = .next s.tabled.packed.headed.clearValid.succeed :=
  exec_of_done (i := .compress) hw (compressBody_done rfl hs hh hp h0 hpk hfit)

/-- Where both results fit, `COMPRESS` reports no error. -/
theorem compress_succeeds (hw : WindowsOk .compress s)
    (hpk : ceil8 (payload s.tabled.code s.srcBytes).length ≤ s.regs.pkdCap.toNat)
    (hfit : headerSize s.tabled.code ≤ s.regs.hdrCap.toNat) : ∃ t, exec .compress s = .next t ∧ t.regs.err = false :=
  ⟨_, exec_compress hs hh hp h0 hw hpk hfit, rfl⟩

theorem compressBody_overflowPkd
    (hpk : s.regs.pkdCap.toNat < ceil8 (payload s.tabled.code s.srcBytes).length) :
    compressBody s = .raised
      ⟨.overflow, 2#8, BitVec.ofNat 32 (min (ceil8 (payload s.tabled.code s.srcBytes).length) 0xFFFFFFFF)⟩ s.tabled := by
  obtain ⟨hfit, -⟩ | ⟨-, he⟩ := encodeBody_tabled hs hp h0
  · omega
  · rw [compressBody_eq hs hh hp h0, he]
    rfl

theorem compressBody_overflowHdr
    (hpk : ceil8 (payload s.tabled.code s.srcBytes).length ≤ s.regs.pkdCap.toNat)
    (hfit : s.regs.hdrCap.toNat < headerSize s.tabled.code) :
    compressBody s = .raised ⟨.overflow, 1#8, BitVec.ofNat 32 (headerSize s.tabled.code)⟩ s.tabled.packed := by
  obtain ⟨-, he⟩ | ⟨hover, -⟩ := encodeBody_tabled hs hp h0
  · have hwrhdr := wrhdrBody_overflow (s := s.tabled.packed) (by simp) (by simpa using hh) (by simpa using hfit)
    rw [compressBody_eq hs hh hp h0, he, Run.bind_done, hwrhdr, packed_code]
    rfl
  · omega

end

/-! ### `OVERFLOW` (R155) -/

theorem exec_wrhdr_overflow {s : State} (hw : WindowsOk .wrhdr s) (hc : s.regs.codeValid = true)
    (hh : InRange s.regs.hdrAddr s.regs.hdrCap) (hfit : s.regs.hdrCap.toNat < headerSize s.code) :
    exec .wrhdr s = .next (s.fail [.hdr] false ⟨.overflow, 1#8, BitVec.ofNat 32 (headerSize s.code)⟩) :=
  exec_of_raised (i := .wrhdr) hw (wrhdrBody_overflow hc hh hfit)

theorem exec_encode_overflow {s : State} (hw : WindowsOk .encode s) (hc : s.regs.codeValid = true)
    (hs : InRange s.regs.srcAddr s.regs.srcLen) (hp : InRange s.regs.pkdAddr s.regs.pkdCap)
    (hcov : ∀ b ∈ s.srcBytes, b ∈ coded s.code) (hfit : s.regs.pkdCap.toNat < ceil8 (payload s.code s.srcBytes).length) :
    exec .encode s = .next (s.fail [.pkd] false
      ⟨.overflow, 2#8, BitVec.ofNat 32 (min (ceil8 (payload s.code s.srcBytes).length) 0xFFFFFFFF)⟩) :=
  exec_of_raised (i := .encode) hw (encodeBody_overflow hc hs hp hcov hfit)

/-- The end of a failed `COMPRESS` does not depend on what the life-cycle registers were (R160, R161). -/
theorem Twin.compress_fail {x y : State} (h : Twin x y) (e : Report) :
    (x.fail [.hdr, .pkd] true e).regs = { y.regs.clearValid with hdrLen := 0#32, pkdLen := 0#32 }.reportError e ∧
      (x.fail [.hdr, .pkd] true e).regs.bitcnt = x.regs.bitcnt ∧ SameTables y (x.fail [.hdr, .pkd] true e) := by
  obtain ⟨-, -, -, hbitcnt⟩ := State.fail_results [.hdr, .pkd] true e x
  obtain ⟨_, _, _, _, _, _, _, _, _, rfl⟩ := h
  exact ⟨State.fail_regs .., hbitcnt, State.sameTables_fail ..⟩

theorem fail_packed_bitcnt (outs : List Window) (b : Bool) (e : Report) (x : State) :
    (x.packed.fail outs b e).regs.bitcnt = BitVec.ofNat 64 (payload x.code x.srcBytes).length := by
  obtain ⟨-, -, -, hbitcnt⟩ := State.fail_results outs b e x.packed
  rw [hbitcnt, packed_bitcnt_eq]

/-- Where the header overflows, `ENCODE` has set `BITCNT` before (R145). -/
theorem Twin.compress_fail_packed {x y : State} (h : Twin x y) (e : Report) :
    (x.packed.fail [.hdr, .pkd] true e).regs =
        { (y.regs.setBitcnt (x.packed.fail [.hdr, .pkd] true e).regs.bitcnt).clearValid with
          hdrLen := 0#32, pkdLen := 0#32 }.reportError e ∧
      SameTables y (x.packed.fail [.hdr, .pkd] true e) := by
  obtain ⟨_, _, _, _, _, _, _, _, _, rfl⟩ := h
  rw [fail_packed_bitcnt]
  exact ⟨State.fail_regs .., State.sameTables_fail ..⟩

/-- Settles O35: each command raises `OVERFLOW` with nothing written yet by the stage that raises it, and the tables of
`COMPRESS` are those of the three steps up to the life-cycle registers. -/
theorem overflowIsReported : Obligations.OverflowIsReported := by
  refine ⟨fun s hw hc hh hfit => ?wrhdr, fun s hw hc hs hp hcov hfit => ?encode,
    fun s s1 s2 s3 hw hs hh hp h0 e1 e2 e3 => ?compress⟩
  case wrhdr =>
    have hexec := exec_wrhdr_overflow hw hc hh hfit
    exact ⟨_, hexec, State.fail_regs .., State.sameTables_fail .., exec_sameMemoryOutside hexec,
      State.sameSurroundings_fail ..⟩
  case encode =>
    have hexec := exec_encode_overflow hw hc hs hp hcov hfit
    exact ⟨_, hexec, State.fail_regs .., State.sameTables_fail .., exec_sameMemoryOutside hexec,
      State.sameSurroundings_fail ..⟩
  case compress =>
    have htwin := three_steps hs h0 e1 e2 e3
    have htc := tabled_spec h0
    have hpkdBody := compressBody_overflowPkd hs hh hp h0
    have hhdrBody := compressBody_overflowHdr hs hh hp h0
    generalize s.tabled = c at htwin htc hpkdBody hhdrBody
    rw [htwin.code_eq]
    refine ⟨fun hpk => ?pkd, fun hpk hfit => ?hdr⟩
    case pkd =>
      have hexec := exec_of_raised (i := .compress) hw (hpkdBody hpk)
      have hbitcnt : c.regs.bitcnt = s.regs.bitcnt := by
        rw [htc.regs]
        rfl
      obtain ⟨hregs, hkept, htables⟩ := htwin.compress_fail
        ⟨.overflow, 2#8, BitVec.ofNat 32 (min (ceil8 (payload c.code s.srcBytes).length) 0xFFFFFFFF)⟩
      exact ⟨_, hexec, hregs, hkept.trans hbitcnt, htables, exec_sameMemoryOutside hexec, exec_sameSurroundings hexec⟩
    case hdr =>
      have hexec := exec_of_raised (i := .compress) hw (hhdrBody hpk hfit)
      obtain ⟨hregs, htables⟩ := htwin.compress_fail_packed ⟨.overflow, 1#8, BitVec.ofNat 32 (headerSize c.code)⟩
      refine ⟨_, hexec, hregs, ?_, htables, exec_sameMemoryOutside hexec, exec_sameSurroundings hexec⟩
      rw [← htc.src, ← packed_bitcnt c, packed_bitcnt_eq]
      exact congrArg BitVec.toNat (fail_packed_bitcnt ..)

/-! ### The state of a success (R145) -/

/-- The registers that `COMPRESS` ends with, from those it started with (R140). -/
theorem Compressed.regs_eq {s c t : State} (hc : Tabled s c) (ht : Compressed c t) :
    t.regs = { s.regs.setBitcnt t.regs.bitcnt with
      nsym := t.regs.nsym, nnode := t.regs.nnode, root := t.regs.root, pkdLen := t.regs.pkdLen,
      hdrLen := t.regs.hdrLen, freqValid := false, treeValid := false, codeValid := false }.reportSuccess := by
  have hbitcnt : t.regs.bitcnt = c.packed.regs.bitcnt := by
    rw [ht.regs]
    exact Regs.bitcnt_setBitcnt c.regs _
  have hregs := hc.regs
  generalize c.regs.nsym = nsym, c.regs.nnode = nnode, c.regs.root = root at hregs
  rw [hbitcnt, ht.regs, hregs]
  rfl

/-- `NSYM`, `NNODE` and `ROOT` are those of the tables made (R145). -/
theorem Compressed.tree_regs {c t : State} (h : Compressed c t) :
    t.regs.nsym = c.regs.nsym ∧ t.regs.nnode = c.regs.nnode ∧ t.regs.root = c.regs.root := by
  rw [h.regs]
  exact ⟨rfl, rfl, rfl⟩

/-- The bytes of the header and of the packed stream are all that a successful `COMPRESS` changes of memory (R56). -/
theorem compress_success_memory {s t : State} (h : exec .compress s = .next t) (he : t.regs.err = false) :
    SameMemoryOutside
      [⟨s.regs.hdrAddr.toNat, t.regs.hdrLen.toNat⟩, ⟨s.regs.pkdAddr.toNat, t.regs.pkdLen.toNat⟩] s t := by
  obtain ⟨-, -, haddr, -, paddr, -⟩ := exec_sameOperands h
  rw [← haddr, ← paddr]
  exact (exec_success_memory h he).1

theorem ceil8_mono {a b : Nat} (h : a ≤ b) : ceil8 a ≤ ceil8 b :=
  (ceil8_le_iff _ _).2 (h.trans (ceil8_bounds b).1)

theorem headerSize_tabled_le {s : State} (h0 : s.regs.srcLen ≠ 0#32) : headerSize s.tabled.code ≤ 8715 :=
  (headerSize_bounds ((contextInv_tabled h0).coded_ne_nil rfl)).2

/-- Settles O36: the weaker bound holds whatever the codes, since none is longer than 255 bits; the completed state is
then that of `Compressed`. -/
theorem compressCompletes : Obligations.CompressCompletes := by
  intro s hw hs hh hp h0 hhdrCap hpkdCap
  have hlen : (payload s.tabled.code s.srcBytes).length ≤ 255 * s.regs.srcLen.toNat :=
    s.srcBytes_length ▸ payload_length_le ..
  obtain ⟨t, ht, he⟩ := compress_succeeds hs hh hp h0 hw ((ceil8_mono hlen).trans hpkdCap)
    ((headerSize_tabled_le h0).trans hhdrCap)
  obtain ⟨c, hc, htc, hct, -⟩ := compress_success ht he
  obtain ⟨_, rfl, -, -, -, -, paddr, hbitcnt, hpkdLen, hhdrLen, hpkdRead, hhdrRead⟩ := compress_seen ht he
  rw [← hc] at hbitcnt hpkdLen hhdrLen hpkdRead hhdrRead
  have hvalid : c.regs.treeValid = true ∧ c.regs.codeValid = true := by
    rw [htc.regs]
    exact ⟨rfl, rfl⟩
  obtain ⟨-, hnnode, hroot⟩ := htc.inv.treeRegs hvalid.1
  obtain ⟨tnsym, tnnode, troot⟩ := hct.tree_regs
  have hregs := hct.regs_eq htc
  rw [tnsym, tnnode, troot] at hregs
  refine ⟨t, ht, ?_⟩
  rw [hct.freq, hct.node, hct.code, tnsym, tnnode, troot]
  refine ⟨htc.freq, htc.inv.treeShape hvalid.1, htc.inv.codeFree hvalid.2, htc.covered, htc.nsym, hnnode, hroot, hbitcnt,
    hbitcnt ▸ hpkdLen, hhdrLen, bitsFrom_of_packed ?stream, hhdrRead, hregs, compress_success_memory ht he,
    exec_sameSurroundings ht⟩
  case stream => rw [paddr, ← hpkdLen, hpkdRead]

/-! ### The five steps (R146 (b)) -/

/-- What a successful `COUNT` found: its window is in range (R85). -/
theorem count_success_inRange {s t : State} (h : exec .count s = .next t) (he : t.regs.err = false) :
    InRange s.regs.srcAddr s.regs.srcLen := by
  obtain ⟨_, u, hu, -⟩ := exec_success h he
  exact ((countBody_done_iff s u).1 hu).1

theorem encode_success_inRange {s t : State} (h : exec .encode s = .next t) (he : t.regs.err = false) :
    InRange s.regs.pkdAddr s.regs.pkdCap := by
  obtain ⟨_, u, hu, -⟩ := exec_success h he
  obtain ⟨_, _, hp, _⟩ | ⟨e, hb, _⟩ := encodeBody_cases s
  · exact hp
  · exact nomatch hb.symm.trans hu

/-- Settles O37: a completion in between leaves a twin, and twins agree after the last completion. -/
theorem compressIsFiveSteps : Obligations.CompressIsFiveSteps := by
  intro s s1 s2 s3 s4 s5 hw h0 e1 e2 e3 e4 e5 ok1 _ _ ok4 ok5
  have hs := count_success_inRange e1 ok1
  have htwin := three_steps hs h0 e1 e2 e3
  obtain ⟨-, -, hhAddr, hhCap, hpAddr, hpCap, -⟩ := (sameOperands_tabled s).trans htwin.sameOperands
  have hp := encode_success_inRange e4 ok4
  obtain ⟨-, -, hpk, rfl⟩ := encode_success e4 ok4
  obtain ⟨hh, hfit, rfl⟩ := wrhdr_success e5 ok5
  change InRange s3.regs.hdrAddr s3.regs.hdrCap at hh
  change headerSize s3.code ≤ s3.regs.hdrCap.toNat at hfit
  rw [htwin.code_eq, hhCap] at hfit
  rw [htwin.code_eq, htwin.srcBytes_eq, hpCap] at hpk
  have hexec := exec_compress hs (hhAddr ▸ hhCap ▸ hh) (hpAddr ▸ hpCap ▸ hp) h0 hw hpk hfit
  have hend : Twin s3.packed.succeed.headed s.tabled.packed.headed :=
    (htwin.packed.trans (Twin.succeed _)).headed.symm
  obtain ⟨hregs, htables, hmem, hsur⟩ := hend.clearValid.completed
  exact ⟨_, hexec, hregs, htables, hmem, hsur⟩

/-! ### The strong bound (R146 (d)) -/

/-- A byte as its own code of eight bits. -/
def plainCode (b : Byte) : BitString := (List.range 8).map b.getLsbD

theorem plainCode_length (b : Byte) : (plainCode b).length = 8 := by simp [plainCode]

/-- Of two different codes of one length neither begins the other. -/
theorem plainCode_prefixFree {a b : Byte} (h : a ≠ b) : ¬ plainCode a <+: plainCode b := by
  intro hpre
  have heq : plainCode a = plainCode b := hpre.eq_of_length ((plainCode_length a).trans (plainCode_length b).symm)
  refine h (BitVec.eq_of_getLsbD_eq fun i hi => ?_)
  exact List.map_inj_left.1 heq i (List.mem_range.2 hi)

theorem weightedLength_of_length_eq {freq : FreqTable} {c : Byte → BitString} {n : Nat} (h : ∀ b, (c b).length = n) :
    weightedLength freq c = n * totalCount freq := by
  simp only [weightedLength, h]
  rw [List.sum_map_mul_right, sum_present, Nat.mul_comm]

/-- Huffman's code is no worse than the plain one (R97). -/
theorem weightedLength_generated_built_le {x : State} (hi : ContextInv x) (hf : x.regs.freqValid = true)
    (hn : x.regs.nsym ≠ 0#9) : weightedLength x.freq (codeOf x.built.generated.code) ≤ 8 * totalCount x.freq :=
  (builtCodeIsOptimal x _ _ hi hf hn (exec_build hf hn) (exec_gencode rfl) plainCode
      (fun a _ => List.ne_nil_of_length_pos (plainCode_length a ▸ Nat.succ_pos 7))
      fun _ _ _ _ => plainCode_prefixFree).trans_eq
    (weightedLength_of_length_eq plainCode_length)

/-- The payload under the tables made of an input is no longer than the input. -/
theorem payload_tabled_le {s : State} (h0 : s.regs.srcLen ≠ 0#32) :
    (payload s.tabled.code s.srcBytes).length ≤ 8 * s.regs.srcLen.toNat := by
  have hn : s.clearValid.counted.regs.nsym ≠ 0#9 := counted_nsym_ne_zero (s := s.clearValid) h0
  have hle := weightedLength_generated_built_le (contextInv_counted s.clearValid) rfl hn
  rw [counted_totalCount] at hle
  rw [payload_length_weighted s.srcBytes_lt]
  exact hle

/-- Settles O38: the payload of the optimal code fits where the input would, and no header exceeds 8715 bytes. -/
theorem compressFitsInput : Obligations.CompressFitsInput := by
  intro s hw hs hh hp h0 hhdrCap hpkdCap
  have hlen := payload_tabled_le h0
  obtain ⟨t, ht, he⟩ := compress_succeeds hs hh hp h0 hw (((ceil8_le_iff _ _).2 hlen).trans hpkdCap)
    ((headerSize_tabled_le h0).trans hhdrCap)
  obtain ⟨_, rfl, -, -, -, -, -, hbitcnt, -⟩ := compress_seen ht he
  exact ⟨t, ht, he, hbitcnt.trans_le hlen⟩

/-! ### A function of the input (R146 (a)) -/

/-- Settles O39: the same input gives the same tables, and these determine both windows. -/
theorem compressDependsOnInputAlone : Obligations.CompressDependsOnInputAlone := by
  intro s u t v hsrc ht hv het hev
  obtain ⟨_, rfl, -, hct, hs0, -⟩ := compress_success ht het
  obtain ⟨_, rfl, -, hcv, hu0, -⟩ := compress_success hv hev
  obtain ⟨_, rfl, -, -, -, -, -, tbitcnt, tpkdLen, thdrLen, tpkd, thdr⟩ := compress_seen ht het
  obtain ⟨_, rfl, -, -, -, -, -, vbitcnt, vpkdLen, vhdrLen, vpkd, vhdr⟩ := compress_seen hv hev
  obtain ⟨hcode, hnsym, hnnode, hroot⟩ := tabled_congr hsrc hs0 hu0
  obtain ⟨tnsym, tnnode, troot⟩ := hct.tree_regs
  obtain ⟨vnsym, vnnode, vroot⟩ := hcv.tree_regs
  rw [← hcode, ← hsrc] at vbitcnt vpkdLen vpkd
  rw [← hcode] at vhdrLen vhdr
  have hhdrLen : t.regs.hdrLen = v.regs.hdrLen := BitVec.eq_of_toNat_eq (thdrLen.trans vhdrLen.symm)
  have hpkdLen : t.regs.pkdLen = v.regs.pkdLen := BitVec.eq_of_toNat_eq (tpkdLen.trans vpkdLen.symm)
  have hbitcnt : t.regs.bitcnt = v.regs.bitcnt := BitVec.eq_of_toNat_eq (tbitcnt.trans vbitcnt.symm)
  refine ⟨hhdrLen, hpkdLen, hbitcnt, by rw [tnsym, hnsym, vnsym], by rw [tnnode, hnnode, vnnode],
    by rw [troot, hroot, vroot], ?header, ?stream⟩
  case header => rw [thdr, hhdrLen, vhdr, hbitcnt]
  case stream => rw [tpkd, hpkdLen, vpkd]

end Sys2Proof.Machine

/-! PROOFS. `DECOMPRESS` against its two step commands, and on what `COMPRESS` leaves
(spec/46_control_and_composite.md R147 to R149). -/

namespace Sys2Proof.Machine

/-! ### The round trip (R148) -/

/-- The header that a successful `COMPRESS` left parses, wherever its bytes lie, to the table it made and the payload's bit
count (R124). -/
theorem Tabled.parseHeader_of_readBytes {s c u : State} {nb : BitVec 64} (h : Tabled s c)
    (hbytes : u.readBytes ⟨u.regs.hdrAddr.toNat, headerSize c.code⟩ = headerBytes c.code nb) :
    parseHeader u.headerByte (headerSize c.code) = .ok ⟨c.code, (coded c.code).length, nb⟩ := by
  have hvalid : c.regs.codeValid = true := by rw [h.regs]
  exact parseHeader_headerBytes (h.inv.codeClean hvalid) (h.inv.codeFree hvalid) (h.inv.coded_ne_nil hvalid)
    ((readBytes_eq_iff _ _ _).1 hbytes).2

/-- Settles O44: the header parses to the table that `COMPRESS` made, and the packed stream is the input's payload. -/
theorem compressDecompressRoundTrips : Obligations.CompressDecompressRoundTrips := by
  intro s t u ht he hhdr hpkd hhdrBytes hpkdBytes hcap hh hp hd hw
  obtain ⟨c, -, htc, -, -, haddr, paddr, hbitcnt, hpkdLen, hhdrLen, hpkdRead, hhdrRead⟩ := compress_seen ht he
  have hsrc : s.srcBytes.length = s.regs.srcLen.toNat := s.srcBytes_length
  have hparse : parseHeader u.headerByte u.regs.hdrLen.toNat = .ok ⟨c.code, (coded c.code).length, t.regs.bitcnt⟩ := by
    rw [haddr, hhdrRead, hhdrLen] at hhdrBytes
    rw [hhdr, hhdrLen]
    exact htc.parseHeader_of_readBytes hhdrBytes
  have hbits : BitsFrom u.packedStreamBit 0 (payload c.code s.srcBytes) := by
    rw [paddr, hpkdRead, hpkdLen] at hpkdBytes
    exact bitsFrom_of_packed hpkdBytes
  have hle : t.regs.bitcnt.toNat ≤ 8 * u.regs.pkdLen.toNat := by
    rw [hbitcnt, hpkd, hpkdLen]
    exact (ceil8_bounds _).1
  have hdone := decompressBody_payload hh hp hd hparse (fun b hb => (htc.covered b).2 hb) hbits hbitcnt hle
    (hsrc.trans_le hcap)
  refine ⟨_, exec_of_done (i := .decompress) hw hdone, rfl, ?length, ?output⟩
  case length =>
    change BitVec.ofNat 32 s.srcBytes.length = s.regs.srcLen
    rw [hsrc, BitVec.ofNat_toNat, BitVec.setWidth_eq]
  case output =>
    rw [← hsrc]
    exact readBytes_decompressed u _ _ s.srcBytes

/-! ### The two steps (R147, R149) -/

theorem decompressBody_range_hdr {s : State} (h : ¬ InRange s.regs.hdrAddr s.regs.hdrLen) :
    decompressBody s = .raised ⟨.range, 1#8, s.regs.hdrAddr⟩ s.clearValid := by
  unfold decompressBody
  rw [checkRange_of_not_inRange (s := s.clearValid) (w := .hdr) (len := s.regs.hdrLen) h]
  rfl

section
variable {s : State} (hp : InRange s.regs.pkdAddr s.regs.pkdLen) (hd : InRange s.regs.dstAddr s.regs.dstCap)
include hp hd

/-- With the two other windows in range, what `RDHDR` raises `DECOMPRESS` raises, with the same registers (R149). -/
theorem decompressBody_of_rdhdr_raised {e : Report} {u : State} (h : rdhdrBody s = .raised e u) :
    u.regs = s.regs.clearValid ∧ ∃ v, v.regs = s.regs.clearValid ∧ decompressBody s = .raised e v := by
  by_cases hh : InRange s.regs.hdrAddr s.regs.hdrLen
  · have hdec : decompressBody s = .raised e u := by
      rw [decompressBody_eq hh hp hd, rdhdrBody_clearValid, h]
      rfl
    obtain ⟨_, _, _, hb⟩ | ⟨e', hb, _⟩ := rdhdrBody_cases s
    · exact nomatch hb.symm.trans h
    · cases hb.symm.trans h
      exact ⟨rfl, _, rfl, hdec⟩
  · cases (rdhdrBody_range hh).symm.trans h
    exact ⟨rfl, _, rfl, decompressBody_range_hdr hh⟩

/-- Where `RDHDR` loads a header, `DECOMPRESS` goes on with `DECODE`'s answer (R147). -/
theorem decompressBody_of_loaded {p : ParsedHeader} (hh : InRange s.regs.hdrAddr s.regs.hdrLen)
    (h : rdhdrBody s = .done (s.loaded p)) :
    decompressBody s = ((s.loaded p).answer (s.loaded p).decoded).bind discardContext := by
  rw [decompressBody_eq hh hp hd, rdhdrBody_clearValid, h, Run.bind_done,
    decodeBody_eq_answer (s := s.loaded p) hp hd]

end

/-- A completion in between does not change `DECODE`'s answer (R136). -/
theorem State.decoded_succeed (x : State) : x.succeed.decoded = x.decoded :=
  SamePayload.decoded ⟨rfl, rfl, rfl, rfl, rfl, fun _ _ => rfl⟩

/-- Settles O41: what either stage raises or answers is what `DECOMPRESS` raises or answers, and only the completions
differ. -/
theorem decompressIsTwoSteps : Obligations.DecompressIsTwoSteps := by
  intro s s1 s2 hw hp hd h1
  refine ⟨fun herr => ?header, fun hok h2 => ?payload⟩
  case header =>
    obtain ⟨e, u, -, hu, rfl⟩ := exec_error h1 herr
    obtain ⟨hur, v, hvr, hv⟩ := decompressBody_of_rdhdr_raised hp hd hu
    refine ⟨_, exec_of_raised (i := .decompress) hw hv, ?_⟩
    rw [State.fail_regs, State.fail_regs, hur, hvr]
    rfl
  case payload =>
    obtain ⟨p, hh, hload, rfl⟩ := rdhdr_success h1 hok
    have hw2 := (exec_cases h2).1
    have hstep := decodeBody_eq_answer (s := (s.loaded p).succeed) hp hd
    have hdec := decompressBody_of_loaded hp hd hh hload
    rw [State.decoded_succeed] at hstep
    cases hr : (s.loaded p).decoded with
    | error e =>
      rw [hr] at hstep hdec
      obtain rfl := Host.Outcome.next.inj ((exec_of_raised (i := .decode) hw2 hstep).symm.trans h2)
      refine ⟨_, exec_of_raised (i := .decompress) hw hdec, ?_, ?_, fun herr => ?_⟩
      · rw [State.fail_regs, State.fail_regs]
        rfl
      · simp [SameTables]
      · exact nomatch (State.fail_err ..).symm.trans herr
    | ok r =>
      obtain ⟨d, out⟩ := r
      rw [hr] at hstep hdec
      obtain rfl := Host.Outcome.next.inj ((exec_of_done (i := .decode) hw2 hstep).symm.trans h2)
      exact ⟨_, exec_of_done (i := .decompress) hw hdec, rfl, ⟨rfl, rfl, rfl⟩, fun _ a => .congr rfl rfl a⟩

end Sys2Proof.Machine

/-! PROOFS. The errors that several commands share (spec/60_exceptions.md): a missing table, a window past the top of the
address space, an empty input, and an input byte without a code. -/

namespace Sys2Proof.Machine

/-! ### The report of an error completion (R160) -/

theorem State.fail_errSub (outs : List Window) (c : Bool) (e : Report) (s : State) :
    (s.fail outs c e).regs.errSub = e.sub := by
  rw [State.fail_regs]; rfl

theorem State.fail_errInfo (outs : List Window) (c : Bool) (e : Report) (s : State) :
    (s.fail outs c e).regs.errInfo = e.info := by
  rw [State.fail_regs]; rfl

/-- A command that reports one of the errors that write nothing leaves every byte of memory (R57). -/
theorem exec_sameMemory {i : Instr} {s t : State} (h : exec i s = .next t) (he : t.regs.err = true)
    (hcode : t.regs.errCode ∈ [5#8, 6#8, 7#8]) : SameMemory s t := by
  obtain ⟨-, -, -, -, -, -, -, -, -, hmem⟩ := errorCompletionClaimsNothing i s t h he
  exact hmem hcode

/-! ### `UNCOVERED_SYMBOL` (R159) -/

/-- Settles O26: pass 1 stops at the first byte without a code, before the capacity is looked at. -/
theorem encodeReportsUncovered : Obligations.EncodeReportsUncovered := by
  intro s before after b hw hc hs hp hsrc hbefore hb
  have hexec := exec_of_raised (i := .encode) hw (encodeBody_uncovered hc hs hp hsrc hbefore hb)
  exact ⟨_, hexec, State.fail_regs .., State.sameTables_fail .., exec_sameMemoryOutside hexec,
    State.sameSurroundings_fail ..⟩

/-! ### `SEQUENCE` (R156) -/

/-- The step commands that need a table, each with the number of the flag that says it is there (R156). -/
def tableUsers : List (Instr × Byte) :=
  [(.build, 1#8), (.gencode, 2#8), (.encode, 3#8), (.wrhdr, 3#8), (.decode, 3#8)]

theorem not_isComposite_of_tableUser {i : Instr} {sub : Byte} (hi : (i, sub) ∈ tableUsers) : isComposite i = false := by
  cases i with
  | compress | decompress => simp [tableUsers] at hi
  | nop | clear | count | build | gencode | encode | wrhdr | rdhdr | decode => rfl

/-- Without its table such a command raises `SEQUENCE` first of all, with nothing changed. -/
theorem bodyOf_sequence {i : Instr} {sub : Byte} {s : State} (hi : (i, sub) ∈ tableUsers)
    (hf : neededFlag i s.regs = false) : bodyOf i s = .raised ⟨.sequence, sub, 0#32⟩ s := by
  simp only [tableUsers, List.mem_cons, List.not_mem_nil, or_false, Prod.mk.injEq] at hi
  obtain ⟨rfl, rfl⟩ | ⟨rfl, rfl⟩ | ⟨rfl, rfl⟩ | ⟨rfl, rfl⟩ | ⟨rfl, rfl⟩ := hi
  · exact buildBody_sequence hf
  · exact gencodeBody_sequence hf
  · exact encodeBody_sequence hf
  · exact wrhdrBody_sequence hf
  · exact decodeBody_sequence hf

/-- Settles O46: the error completion of the state itself, which writes no byte. -/
theorem sequenceIsReported : Obligations.SequenceIsReported := by
  intro i sub s hi hw hf
  have hexec := exec_of_raised hw (bodyOf_sequence hi hf)
  rw [not_isComposite_of_tableUser hi] at hexec
  refine ⟨_, hexec, State.fail_regs .., State.sameTables_fail .., ?_, State.sameSurroundings_fail ..⟩
  exact exec_sameMemory hexec (State.fail_err ..) (by simp [State.fail_errCode, ErrKind.code])

/-! ### `RANGE` (R158) -/

/-- The range checks of the windows listed, one after another on the state `x`, and then `rest` (R50). -/
def checkRanges (x : State) (rest : Run) : List (Window × Word) → Run
  | [] => rest
  | (w, len) :: rows => (checkRange w len x).bind fun _ => checkRanges x rest rows

/-- What follows a range check runs on the state that was checked. -/
theorem checkRange_bind (w : Window) (len : Word) (s : State) (k : State → Run) :
    (checkRange w len s).bind k = (checkRange w len s).bind fun _ => k s := by
  obtain ⟨-, h⟩ | ⟨-, h⟩ := checkRange_cases w len s <;> rw [h] <;> rfl

/-- The first window that fails its check is reported (R50). -/
theorem checkRanges_raised {x : State} {rest : Run} {before after : List (Window × Word)} {w : Window} {len : Word}
    (hbefore : ∀ row ∈ before, InRange (x.regs.addr row.1) row.2) (hw : ¬ InRange (x.regs.addr w) len) :
    checkRanges x rest (before ++ (w, len) :: after) = .raised ⟨.range, w.number, x.regs.addr w⟩ x := by
  induction before with
  | nil => rw [List.nil_append, checkRanges, checkRange_of_not_inRange hw, Run.bind_raised]
  | cons row before ih =>
    rw [List.cons_append, checkRanges, checkRange_of_inRange (hbefore row List.mem_cons_self), Run.bind_done]
    exact ih fun r hr => hbefore r (List.mem_cons_of_mem _ hr)

/-- With its flag there, a command that uses windows first checks those of its row, in order. Before the checks it may
have cleared the valid flags, and `RDHDR` spoils `CODE` on every error. -/
theorem bodyOf_eq_checkRanges {i : Instr} {s : State} (hf : neededFlag i s.regs = true)
    (hrow : checkedWindows i s.regs ≠ []) :
    ∃ (fin : Run → Run) (x : State), (fin = id ∨ fin = spoilCode) ∧ (x = s ∨ x = s.clearValid) ∧
      ∃ rest, bodyOf i s = fin (checkRanges x rest (checkedWindows i s.regs)) := by
  cases i with
  | nop | clear | build | gencode => exact absurd rfl hrow
  | count =>
    refine ⟨id, s.clearValid, .inl rfl, .inr rfl, ?_⟩
    rw [bodyOf, countBody, checkRange_bind .src]
    exact ⟨_, rfl⟩
  | encode =>
    refine ⟨id, s, .inl rfl, .inl rfl, ?_⟩
    rw [bodyOf, encodeBody, if_pos (show s.regs.codeValid = true from hf), checkRange_bind .src, checkRange_bind .pkd]
    exact ⟨_, rfl⟩
  | wrhdr =>
    refine ⟨id, s, .inl rfl, .inl rfl, ?_⟩
    rw [bodyOf, wrhdrBody, if_pos (show s.regs.codeValid = true from hf), checkRange_bind .hdr]
    exact ⟨_, rfl⟩
  | rdhdr =>
    refine ⟨spoilCode, s.clearValid, .inr rfl, .inr rfl, ?_⟩
    rw [bodyOf, rdhdrBody, checkRange_bind .hdr]
    exact ⟨_, rfl⟩
  | decode =>
    refine ⟨id, s, .inl rfl, .inl rfl, ?_⟩
    rw [bodyOf, decodeBody, if_pos (show s.regs.codeValid = true from hf), checkRange_bind .pkd, checkRange_bind .dst]
    exact ⟨_, rfl⟩
  | compress =>
    refine ⟨id, s.clearValid, .inl rfl, .inr rfl, ?_⟩
    rw [bodyOf, compressBody, checkRange_bind .src, checkRange_bind .hdr, checkRange_bind .pkd]
    exact ⟨_, rfl⟩
  | decompress =>
    refine ⟨id, s.clearValid, .inl rfl, .inr rfl, ?_⟩
    rw [bodyOf, decompressBody, checkRange_bind .hdr, checkRange_bind .pkd, checkRange_bind .dst]
    exact ⟨_, rfl⟩

/-- The first window of a command's row that is not in range is reported, with nothing changed but valid flags and `CODE`
(R158). -/
theorem bodyOf_range {i : Instr} {s : State} {w : Window} {len : Word} {before after : List (Window × Word)}
    (hf : neededFlag i s.regs = true) (hrow : checkedWindows i s.regs = before ++ (w, len) :: after)
    (hbefore : ∀ row ∈ before, InRange (s.regs.addr row.1) row.2) (hw : ¬ InRange (s.regs.addr w) len) :
    ∃ u, bodyOf i s = .raised ⟨.range, w.number, s.regs.addr w⟩ u ∧ u.freq = s.freq ∧ u.node = s.node ∧
      u.regs.clearValid = s.regs.clearValid := by
  obtain ⟨fin, x, hfin, hx, rest, hbody⟩ := bodyOf_eq_checkRanges hf (by simp [hrow])
  have haddr (v : Window) : x.regs.addr v = s.regs.addr v := by
    obtain rfl | rfl := hx
    · rfl
    · exact SameOperands.addr (kept_clearValid i s).operands v
  rw [hrow, checkRanges_raised (by simpa only [haddr] using hbefore) (by rwa [haddr]), haddr] at hbody
  obtain rfl | rfl := hfin <;> obtain rfl | rfl := hx <;> exact ⟨_, hbody, rfl, rfl, rfl⟩

/-- Settles O47: the command stops at its checks, before it has written a register, a table but `CODE`, or a byte. -/
theorem rangeIsReported : Obligations.RangeIsReported := by
  intro i s w len before after hw hf hrow hbefore hlen
  obtain ⟨u, hu, hfreq, hnode, hregs⟩ := bodyOf_range hf hrow hbefore (Nat.not_le.2 hlen)
  have hexec := exec_of_raised hw hu
  obtain ⟨hnsym, hnnode, hroot, hbitcnt⟩ := State.fail_results (writeWindows i) (isComposite i) _ u
  refine ⟨_, hexec, State.fail_err .., State.fail_errCode .., State.fail_errSub .., State.fail_errInfo .., ?_,
    (State.fail_freq ..).trans hfreq, (State.fail_node ..).trans hnode, hnsym.trans ?_, hnnode.trans ?_,
    hroot.trans ?_, hbitcnt.trans ?_⟩
  · exact exec_sameMemory hexec (State.fail_err ..) (by simp [State.fail_errCode, ErrKind.code])
  · exact (congrArg Regs.nsym hregs :)
  · exact (congrArg Regs.nnode hregs :)
  · exact (congrArg Regs.root hregs :)
  · exact (congrArg Regs.bitcnt hregs :)

/-! ### `EMPTY_INPUT` (R152) -/

/-- The errors that a command on input or payload bytes can raise do not include `EMPTY_INPUT`. -/
theorem bodyOf_raised_kind_ne_emptyInput {i : Instr} (hi : i ∈ [Instr.count, .encode, .decode]) {s u : State} {e : Report}
    (h : bodyOf i s = .raised e u) : e.kind ≠ .emptyInput := by
  simp only [List.mem_cons, List.not_mem_nil, or_false] at hi
  obtain rfl | rfl | rfl := hi
  · by_cases hs : InRange s.regs.srcAddr s.regs.srcLen
    · exact nomatch (countBody_done hs).symm.trans h
    · cases (countBody_range hs).symm.trans h
      exact nofun
  · obtain ⟨-, -, -, -, -, hb⟩ | ⟨e', hb, hk⟩ := encodeBody_cases s
    · exact nomatch hb.symm.trans h
    · cases hb.symm.trans h
      exact ne_of_mem_of_not_mem hk (by decide)
  · obtain ⟨_, _, -, -, -, -, -, -, -, -, hb⟩ | ⟨e', hb, hk⟩ := decodeBody_cases s
    · exact nomatch hb.symm.trans h
    · cases hb.symm.trans h
      exact ne_of_mem_of_not_mem hk (by decide)

theorem ErrKind.code_eq_one_iff (k : ErrKind) : k.code = 1#8 ↔ k = .emptyInput := by cases k <;> decide

/-- Settles O45: `BUILD` and `COMPRESS` raise it before they have written a table or a byte, and no other command here
raises it. -/
theorem emptyInputIsReported : Obligations.EmptyInputIsReported := by
  refine ⟨fun s hf hn => ?build, fun s hw hh hp h0 => ?compress, fun i hi s t h => ?others⟩
  case build =>
    have hexec := exec_of_raised (i := .build) (windowsOk_of_unused ⟨rfl, rfl⟩ s) (buildBody_empty hf hn)
    exact ⟨_, hexec, State.fail_regs .., State.sameTables_fail .., fun a => exec_sameMemoryOutside hexec a rfl⟩
  case compress =>
    have hs : InRange s.regs.srcAddr s.regs.srcLen := by
      rw [h0]
      exact s.regs.srcAddr.isLt.le
    have hexec := exec_of_raised (i := .compress) hw (compressBody_empty hs hh hp h0)
    exact ⟨_, hexec, State.fail_regs .., State.sameTables_fail .., exec_sameMemoryOutside hexec⟩
  case others =>
    obtain ⟨_, ⟨u, _, rfl⟩ | ⟨e, u, hu, rfl⟩⟩ := (exec_next_iff i s t).1 h
    · simp
    · rw [State.fail_errCode, ne_eq, ErrKind.code_eq_one_iff]
      exact bodyOf_raised_kind_ne_emptyInput hi hu

end Sys2Proof.Machine

/-! PROOFS. Reset asserted (spec/70_reset_and_hazards.md R173, R175): the state it leaves, and what of the shared memory the
abandoned command has cost. -/

namespace Sys2Proof.Machine

theorem windowsInDoubt_of_not_running {s : State} (h : s.running = none) : s.windowsInDoubt = [] := by
  simp [State.windowsInDoubt, h]

/-- Where the command in flight, if there is one, keeps R63 (c), (d), an asserted reset answers a state. -/
theorem assertReset_of_windowsOk {s : State} (h : ∀ i, s.running = some i → WindowsOk i s) :
    assertReset s = .next { (s.scrambleAll s.windowsInDoubt).resetBlock with resetIn := true } := by
  cases hrun : s.running with
  | none => rw [windowsInDoubt_of_not_running hrun]; simp only [assertReset, hrun, State.scrambleAll]
  | some i =>
    have hw : windowBreach i s.regs s.platform = none := h i hrun
    simp only [assertReset, State.windowsInDoubt, hrun, hw]

/-- The step that asserts reset: it ends in no refusal, and the running command is not completed. -/
theorem step_resetPin_of_windowsOk {s : State} {rest : List HostAction} (hs : s.script = .resetPin true :: rest)
    (hw : ∀ i, s.running = some i → WindowsOk i s) :
    step s = .next { (State.scrambleAll { s with script := rest } s.windowsInDoubt).resetBlock with resetIn := true } := by
  rw [step_of_script_cons hs]
  exact assertReset_of_windowsOk (s := { s with script := rest }) hw

/-- Settles O7: the step is the reset itself, which spoils exactly the ranges of the running command; without one there is
no such range. -/
theorem resetAbandonsCommand : Obligations.ResetAbandonsCommand := by
  intro s rest hs hw
  have hinside := State.anyValueIn_scrambleAll { s with script := rest } s.windowsInDoubt
  have houtside := State.sameByte_scrambleAll_outside { s with script := rest } s.windowsInDoubt
  refine ⟨_, step_resetPin_of_windowsOk hs hw, rfl, rfl, rfl, rfl, rfl, State.scrambleAll_script ..,
    State.scrambleAll_observed .., hinside, houtside, fun hrun a => houtside a ?_⟩
  rw [windowsInDoubt_of_not_running hrun, anyHolds_nil]

end Sys2Proof.Machine
